-- ==== Sys2Proof/Word.lean ====
section
/-!
DEFINITION. The word types of the machine: registers are 64 bits wide (spec/02 R45, R46), memory is made of bytes
(spec/04 R68), an instruction is one 96-bit word (spec/07 R139).
-/

namespace Sys2Proof

abbrev Word := BitVec 64

abbrev Byte := BitVec 8

abbrev InstrWord := BitVec 96

/-- A shape record of a tile register (spec/02 R29). -/
abbrev Shape := BitVec 128

end Sys2Proof
end

