-- ==== Sys2Proof/Config.lean ====
section
/-!
DEFINITION. What one implementation fixes and the spec leaves open: opaque constants without a body, so that a statement
about them holds whatever they are. Each is named in notes/assumptions (log entries 5 to 10 and 13 to 16).
-/

namespace Sys2Proof.Config

/-- Core cycles beyond one that a free-phase step takes (spec/13 R259, spec/14 R282: loaded figures are not bounded);
the argument is the counter `State.free`. Log entry 5. -/
opaque stall : Nat → Nat

/-- The bound that spec/01 R23 promises on those cycles. Log entry 5. -/
opaque stallBound : Nat

/-- Freely chosen steps of a round, after which the focus goes to the next core: every core retires instructions and every card
is dealt in the end (spec/01 R23, R26). Log entry 9. -/
opaque patience : Nat

/-- The program counter after index 16,383 when nothing transfers control; the spec states none. Log entry 6. -/
opaque indexAfterLast : Nat → BitVec 14

/-- Which of the binary32 values within 2 ulp TEXP2 delivers (spec/03 R63): counter, then the operand's code. Log entry 7. -/
opaque exp2Choice : Nat → Nat → Nat

/-- The same for TLOG2 (spec/03 R63). Log entry 7. -/
opaque log2Choice : Nat → Nat → Nat

/-- Bytes of a saved context whose layout is not architectural (spec/21 R379): counter, then the byte's index. Log entry 8. -/
opaque freeByte : Nat → Nat → Byte

/-- A word the spec leaves open at the moment it is read (log entry 8): counter. -/
opaque freeWord : Nat → Word

/-- The minimum security version fused into the module (spec/22 R392). Log entry 8. -/
opaque minVersion : Nat

/-- Which of the agents that could move next does: counter. Log entry 9. -/
opaque turn : Nat → Nat

/-- The set of its slice in which a 2 KiB granule lies (spec/00: 4,096 sets; the spec states no index function), by
granule number. Log entry 10. -/
opaque setOf : Nat → Nat

/-- The set of an L2 TLB in which a context's page lies (spec/19 R333 states no index): context, number of its first 64 KiB
page. Log entry 66. -/
opaque tlbSet : Nat → Nat → Nat

/-- Which entry a full TLB or walk cache loses (spec/19 R333 states none): counter. Log entry 66. -/
opaque tlbVictim : Nat → Nat

/-- Which free entry of a lease table, and which serial number, a new lease takes (spec/19 R340): counter. Log entry 10. -/
opaque leaseChoice : Nat → Nat

/-- The GLOBAL physical address of the package description page (spec/18 R325 gives none). Log entry 13. -/
opaque packagePage : Nat

/-- The logical number of a memory core, by die * 8 + number (spec/18 R323 numbers compute cores only). Log entry 14. -/
opaque memoryLcn : Nat → Nat

/-- Whether a DFLUSH meets a CXL error (spec/15 R300): counter. Log entry 15. -/
opaque cxlError : Nat → Bool

/-- Healthy cores of a context in the other modules of its pod (spec/05 R104): context. Log entry 81. -/
opaque podPeers : Nat → Nat

/-- Lines that a DFLUSH with a CXL error has made durable: counter. Log entry 15. -/
opaque durable : Nat → Nat

/-- The bytes of an attestation report (spec/22 R393 states no layout): nonce, SHA-384 and security version of the running image,
the bytes of the package description page whose SHA-384 it holds, and the counter its signature is drawn with; the fused key hash,
the serial number and the certificate are the module's own. Log entry 8. -/
opaque report : List Byte → Nat → BitVec 32 → List Byte → Nat → List Byte

/-- Which of the 36 stacks holds a physical address (the spec states no map): its number, modulo 36. Log entry 16. -/
opaque stackOf : Nat → Nat

/-- The slice a HOME entry names after an evacuation (spec/23 R400; the rule states none): counter, index of the entry. Log
entry 16. -/
opaque redirect : Nat → Nat → Nat

/-- Where an evacuated page goes: 0 HBM, 1 the CXL pool, else nowhere (spec/23 R400, R401): counter. Log entry 16. -/
opaque placement : Nat → Nat

/-- The frame an evacuated page is copied to: counter. Log entry 16. -/
opaque frame : Nat → Nat

end Sys2Proof.Config
end

