-- ==== Sys2Proof/Syntax.lean ====
section
/-!
DEFINITION. The instructions and events of the machine: one constructor for each row of spec/opcode_table.json. An
instruction carries its guard and hints (`Head`), its operand fields (spec/07 R142) and the decoded fields of MOD
(spec/07 R148); an event carries what the agent or the outside world that makes it brings along.
-/

namespace Sys2Proof

/-- Guard and HINT of an instruction word (spec/07 R141, R146). -/
structure Head where
  gneg  : Bool
  gp    : BitVec 3
  delta : BitVec 8
  rp    : Bool
  ra    : Bool
  rb    : Bool
  deriving DecidableEq, Repr, Inhabited

/-- An operand field (spec/07 R142, R143). -/
inductive Operand where
  | s   (n : BitVec 5)
  | q   (age : BitVec 4)
  | t   (n : BitVec 5) (neg trn alt : Bool)
  | p   (n : BitVec 3) (inv : Bool)
  | imm (v : BitVec 15)
  | o   (n : BitVec 4)
  | x   (sub : BitVec 3) (index : BitVec 6)
  deriving DecidableEq, Repr, Inhabited

/-- Guard, hints and the three operand fields of an instruction; an unused field is s0 (spec/07 R142). -/
structure Args where
  head : Head
  d    : Operand
  a    : Operand
  b    : Operand
  deriving DecidableEq, Repr, Inhabited

/-- POS and LEN of BFX and BFI (spec/07 R147, R148). -/
structure PosLen where
  pos : BitVec 6
  len : BitVec 6
  deriving DecidableEq, Repr, Inhabited

/-- RM and U of FCVTI and FCVTF (spec/07 R147, R148). -/
structure RmU where
  rm : BitVec 2
  u : Bool
  deriving DecidableEq, Repr, Inhabited

/-- K - 1 and STRIDE of REP (spec/07 R147, R148). -/
structure RepM where
  k1 : BitVec 3
  stride : BitVec 5
  deriving DecidableEq, Repr, Inhabited

/-- MOD of LD and LDP (spec/07 R147, R148). -/
structure LdMod where
  space : BitVec 3
  w : BitVec 2
  ord : BitVec 2
  sx : Bool
  deriving DecidableEq, Repr, Inhabited

/-- MOD of ST (spec/07 R147, R148). -/
structure StMod where
  space : BitVec 3
  w : BitVec 2
  ord : BitVec 2
  sid : BitVec 4
  deriving DecidableEq, Repr, Inhabited

/-- MOD of the atomics (spec/07 R147, R148). -/
structure AtMod where
  space : BitVec 3
  w : BitVec 2
  ord : BitVec 2
  scope : BitVec 3
  u : Bool
  deriving DecidableEq, Repr, Inhabited

/-- MOD of TRED (spec/07 R147, R148). -/
structure TrMod where
  space : BitVec 3
  aop : BitVec 4
  scope : BitVec 3
  ord : BitVec 2
  deriving DecidableEq, Repr, Inhabited

/-- MOD of the tile vector instructions; `aux` is bits 9..6 (spec/07 R147, R148). -/
structure TMod where
  rm : BitVec 2
  aux : BitVec 4
  satm : BitVec 2
  fovr : BitVec 4
  deriving DecidableEq, Repr, Inhabited

/-- MOD of MMA (spec/07 R147, R148). -/
structure MmaMod where
  na : Bool
  nb : Bool
  ta : Bool
  tb : Bool
  ad : Bool
  deriving DecidableEq, Repr, Inhabited

/-- MOD of ACVT, AADDT and ASCL (spec/07 R147, R148). -/
structure AccMod where
  rm : BitVec 2
  satm : BitVec 2
  deriving DecidableEq, Repr, Inhabited

/-- MOD of XCOPY and XCAST (spec/07 R147, R148). -/
structure XMod where
  rm : BitVec 2
  queue : BitVec 2
  soff : BitVec 8
  deriving DecidableEq, Repr, Inhabited

/-- MOD of the Rood commands (spec/07 R147, R148). -/
structure GMod where
  queue : BitVec 2
  soff : BitVec 8
  deriving DecidableEq, Repr, Inhabited

/-- Where a host or Calush write of a register goes: a chiplet's configuration block (spec/18 R307) or the control page
of an endpoint (spec/22 R384). -/
inductive CfgTarget where
  | block (die : Nat)
  | page  (endpoint : Nat)
  deriving DecidableEq, Repr

/-- A firmware image as the machine judges it (spec/22 R392): the fields of its header, and a number that stands for
its content (its SHA-384). -/
structure Image where
  rootSet : BitVec 8
  portMap : BitVec 8
  version : BitVec 32
  hash    : Nat
  deriving DecidableEq, Repr, Inhabited

/-- The instructions (to `vinvAll`, `dflush`) and the events of spec/opcode_table.json. -/
inductive Instr where
  | add_ (x : Args)
  | sub_ (x : Args)
  | mul_ (x : Args)
  | mulh (x : Args)
  | mulhn (x : Args)
  | div_ (x : Args)
  | divn (x : Args)
  | mod_ (x : Args)
  | modn (x : Args)
  | and_ (x : Args)
  | or_ (x : Args)
  | xor_ (x : Args)
  | andn (x : Args)
  | orn (x : Args)
  | shl (x : Args)
  | shr (x : Args)
  | sha (x : Args)
  | rol (x : Args)
  | min_ (x : Args)
  | max_ (x : Args)
  | minn (x : Args)
  | maxn (x : Args)
  | clz (x : Args)
  | ctz (x : Args)
  | popc (x : Args)
  | sext (x : Args) (m : BitVec 6)
  | zext (x : Args) (m : BitVec 6)
  | bfx (x : Args) (m : PosLen)
  | bfi (x : Args) (m : PosLen)
  | mov (x : Args)
  | liw (head : Head) (d : Operand) (value : BitVec 48)
  | lea (x : Args) (m : BitVec 3)
  | cmp (x : Args) (m : BitVec 4)
  | sel (x : Args)
  | fadd (x : Args) (m : BitVec 2)
  | fsub (x : Args) (m : BitVec 2)
  | fmul (x : Args) (m : BitVec 2)
  | ffma (x : Args) (m : BitVec 2)
  | fmin (x : Args)
  | fmax (x : Args)
  | fcmp (x : Args) (m : BitVec 4)
  | fcvti (x : Args) (m : RmU)
  | fcvtf (x : Args) (m : RmU)
  | frsqs (x : Args)
  | frcps (x : Args)
  | nop (x : Args)
  | pand (x : Args)
  | por (x : Args)
  | pxor (x : Args)
  | pnot (x : Args)
  | bra (x : Args)
  | brx (x : Args)
  | call (x : Args)
  | ret (x : Args)
  | loop (x : Args)
  | rep (x : Args) (m : RepM)
  | waitc (x : Args) (m : Bool)
  | yield (x : Args)
  | end_ (x : Args)
  | ld (x : Args) (m : LdMod)
  | st (x : Args) (m : StMod)
  | ldp (x : Args) (m : LdMod)
  | aadd (x : Args) (m : AtMod)
  | amin (x : Args) (m : AtMod)
  | amax (x : Args) (m : AtMod)
  | aand (x : Args) (m : AtMod)
  | aor (x : Args) (m : AtMod)
  | axor (x : Args) (m : AtMod)
  | aswp (x : Args) (m : AtMod)
  | acas (x : Args) (m : AtMod)
  | afadd (x : Args) (m : AtMod)
  | afmin (x : Args) (m : AtMod)
  | afmax (x : Args) (m : AtMod)
  | tred (x : Args) (m : TrMod)
  | fence (x : Args) (m : BitVec 3)
  | fencesc (x : Args)
  | lflush (x : Args) (m : BitVec 3)
  | linv (x : Args) (m : BitVec 3)
  | sbind (x : Args)
  | sfree (x : Args)
  | sskip (x : Args)
  | sstat (x : Args)
  | tdef (x : Args)
  | tview (x : Args) (m : BitVec 4)
  | tviewOrigin (x : Args)
  | tedge (x : Args) (m : BitVec 4)
  | tinfo (x : Args) (m : BitVec 4)
  | bfset (x : Args) (m : BitVec 4)
  | bfget (x : Args) (m : BitVec 4)
  | tmov (x : Args) (m : TMod)
  | tcvt (x : Args) (m : TMod)
  | tfill (x : Args) (m : TMod)
  | tiota (x : Args) (m : TMod)
  | tadd (x : Args) (m : TMod)
  | tsub (x : Args) (m : TMod)
  | tmul (x : Args) (m : TMod)
  | tfma (x : Args) (m : TMod)
  | tdiv (x : Args) (m : TMod)
  | tmin (x : Args) (m : TMod)
  | tmax (x : Args) (m : TMod)
  | tabs (x : Args) (m : TMod)
  | tclamp (x : Args) (m : TMod)
  | tand (x : Args) (m : TMod)
  | tor (x : Args) (m : TMod)
  | txor (x : Args) (m : TMod)
  | tnot (x : Args) (m : TMod)
  | tshl (x : Args) (m : TMod)
  | tshr (x : Args) (m : TMod)
  | tcmp (x : Args) (m : TMod)
  | tsel (x : Args) (m : TMod)
  | tany (x : Args) (m : TMod)
  | tall (x : Args) (m : TMod)
  | tcnt (x : Args) (m : TMod)
  | trsqs (x : Args) (m : TMod)
  | trcps (x : Args) (m : TMod)
  | texp2 (x : Args) (m : TMod)
  | tlog2 (x : Args) (m : TMod)
  | trsum (x : Args) (m : TMod)
  | tcsum (x : Args) (m : TMod)
  | trmax (x : Args) (m : TMod)
  | tcmax (x : Args) (m : TMod)
  | ttrn (x : Args) (m : TMod)
  | tshf (x : Args) (m : TMod)
  | tbcr (x : Args) (m : TMod)
  | tbcc (x : Args) (m : TMod)
  | tgath (x : Args) (m : TMod)
  | tscat (x : Args) (m : TMod)
  | text (x : Args) (m : TMod)
  | tins (x : Args) (m : TMod)
  | tsten (x : Args) (m : TMod)
  | tquant (x : Args) (m : TMod)
  | tnrm2 (x : Args) (m : TMod)
  | trowp (x : Args) (m : TMod)
  | oclaim (x : Args)
  | orel (x : Args)
  | oload (x : Args)
  | oloadUnload (x : Args)
  | oinfo (x : Args)
  | mma (x : Args) (m : MmaMod)
  | azero (x : Args)
  | acvt (x : Args) (m : AccMod)
  | aaddt (x : Args) (m : AccMod)
  | ascl (x : Args) (m : AccMod)
  | xcopy (x : Args) (m : XMod)
  | xcopyViewToTile (x : Args) (m : XMod)
  | xcast (x : Args) (m : XMod)
  | xlease (x : Args) (m : BitVec 2)
  | xfree (x : Args) (m : BitVec 2)
  | xfence (x : Args) (m : BitVec 4)
  | xwait (x : Args)
  | xstat (x : Args)
  | gtab (x : Args) (m : GMod)
  | grest (x : Args) (m : GMod)
  | gprol (x : Args) (m : GMod)
  | gconv (x : Args) (m : GMod)
  | gstat (x : Args)
  | ewait (x : Args) (m : Bool)
  | esig (x : Args)
  | eclr (x : Args)
  | earm (x : Args) (m : BitVec 6)
  | epost (x : Args)
  | barv (x : Args)
  | barvNb (x : Args)
  | barvDrop (x : Args)
  | barvJoin (x : Args)
  | barvTimed (x : Args)
  | bwait (x : Args)
  | mlock (x : Args) (m : BitVec 3)
  | mtry (x : Args)
  | munl (x : Args)
  | copen (x : Args)
  | cinj (x : Args)
  | cext (x : Args)
  | cclose (x : Args)
  | phaseFree (x : Args)
  | phaseTimed (x : Args)
  | phaseComm (x : Args)
  | send (x : Args) (m : BitVec 8)
  | recv (x : Args) (m : BitVec 8)
  | cyc (x : Args) (m : Bool)
  | jpost (x : Args)
  | jtake (x : Args)
  | jdone (x : Args)
  | jcancel (x : Args)
  | jstat (x : Args)
  | rput (x : Args) (m : BitVec 4)
  | rget (x : Args)
  | reos (x : Args) (m : BitVec 4)
  | rstat (x : Args)
  | trap (x : Args)
  | eret (x : Args)
  | sysrd (x : Args) (m : BitVec 12)
  | aechoRead (x : Args)
  | syswr (x : Args) (m : BitVec 12)
  | aechoWrite (x : Args)
  | ackpre (x : Args)
  | start (x : Args) (m : BitVec 4)
  | isfence (x : Args)
  | bkpt (x : Args)
  | haltc (x : Args)
  | vinvPage (x : Args)
  | vinvAll (x : Args)
  | dflush (x : Args)
  | wordNotInstruction (word : InstrWord)
  | atomicEchoReply
  | pendingCauseService
  | timingRollback (cond : BitVec 4)
  | timedRerelease
  | timedRegionBase
  | preemptAtRestartPoint
  | transferCommandStart (queue : BitVec 2) (rows : Nat)
  | transferCommandCompletion (queue : BitVec 2)
  | roodCommandStart (rows : Nat)
  | roodCommandCompletion (queue : BitVec 2)
  | streamFill (tile : BitVec 5)
  | matrixQueuePerform
  | leaseExpiry (index : Nat)
  | peerWriteArrival (k : Nat)
  | accessAtHome (k : Nat)
  | accessResponseArrival (k : Nat)
  | atomicResponseLost
  | scTickCompletion
  | pageWalk (va : Word)
  | collapseSequence (va : Word)
  | raceRecordSweep
  | chainNodeCombine (node id chunk : Nat)
  | staticFlitArrival (discarded : Bool)
  | linkRetry (die port : Nat)
  | bondDeath (die port : Nat)
  | startDelivery (k : Nat)
  | dispatchRequest (field : Nat)
  | cardPromotion (field serial : Nat)
  | dependenceRead (field serial : Nat)
  | tumblerScan (ctx : Nat)
  | fdefCreate (index : Nat) (word0 : Word) (creator : Nat)
  | fdefCreateRestore (index : Nat) (word0 : Word) (creator : Nat)
  | fdefDelete (index : Nat)
  | fcmdPreempt (field : Nat) (word : Word)
  | preemptCopy (field : Nat)
  | preemptTimeout (field : Nat)
  | fcmdRestore (field : Nat) (word : Word)
  | fcmdKill (field : Nat) (word : Word)
  | powerFail
  | powerReturn
  | powerOn
  | moduleReset
  | rootVerify (die : Nat) (accepted : Bool)
  | wavefrontArrival (die port root : Nat)
  | clockRootAdopt (die : Nat)
  | clockLock (die : Nat)
  | bondTrainingDone (die port : Nat) (trained : Bool)
  | partnerLockTimeout (die port : Nat)
  | identRecord (die : Nat) (selfTest : BitVec 8)
  | masterCollectionEnd
  | masterTableWrite (fence : List Nat)
  | go
  | fenceCommand (die : Nat)
  | routerFault (die : Nat)
  | evacuation (die : Nat) (readable : Bool)
  | hpctxPost (endpoint : Nat) (hpaddr hpctx : Word)
  | semAcquire (endpoint sem : Nat) (tie : Bool)
  | semRelease (endpoint sem : Nat) (value : Word)
  | dqtailWrite (endpoint : Nat) (value : Word)
  | dqctlWrite (endpoint : Nat) (value : Word)
  | hostDmaDescriptorStart (endpoint : Nat)
  | hostDmaDescriptorDone (endpoint : Nat) (busError : Bool)
  | hostBar4Access (endpoint address : Nat) (write : Bool) (bytes : List (BitVec 8))
  | endpointLinkDown (endpoint : Nat)
  | attestStart (endpoint : Nat) (address : Word)
  | attestReportDone (endpoint : Nat) (busError : Bool)
  | nselWrite (die dest : Nat) (value : BitVec 16)
  | rteWrite (die route : Nat) (value : BitVec 32)
  | trootWrite (die : Nat) (value : Word)
  | windowWrite (die : Nat) (cxl : Bool) (index word : Nat) (value : Word)
  | mcattWrite (die : Nat) (value : Word)
  | dsetWrite (field : Nat) (value : Word)
  | rpctlWrite (field : Nat) (value : Word)
  | replayDivergence (field : Nat)
  | configRegisterWrite (target : CfgTarget) (offset width : Nat) (value : Word)
  | firmwareUpdate (image : Image) (verified : Bool)
  | recoveryImageWrite (image : Image) (verified : Bool)
  | powerThrottle
  | holdupEnergyExhausted (field : Nat)
  deriving DecidableEq, Repr

end Sys2Proof
end

