-- ==== Sys2Proof/Machine/State.lean ====
section
/-!
DEFINITION. The state of the machine as plain data: everything spec/00 to spec/23 give one module, the core that has the
focus (`core`), the other cores, the homes, Latches, fields, chiplets, hosts, and the agenda that says which agent moves
next. INVENTORY.md lists each field with its rule and reset value.
-/

namespace Sys2Proof.Machine

/-- Bytes of a memory by address, strictly rising, no entry equal to the reset contents 0x00 (log entry 4). -/
abbrev Mem := List Host.Cell

/-! ## A core -/

/-- What a core is doing (spec/15 R296, R297; spec/21 R371, R373). -/
inductive RunState where
  /-- the chiplet is not ONLINE, or no field holds the core -/
  | dark
  /-- no chunk is held; an idle request is pending (spec/20 R351) -/
  | idle
  /-- executes instructions -/
  | running
  /-- halted by HALTC -/
  | halted
  /-- halted after ACKPRE, or made by a create for restore -/
  | acked
  /-- stopped by a kill, its state frozen -/
  | killed
  deriving DecidableEq, Repr

/-- The wait a core is in (spec/01 R23, R28). The waiting instruction stands at the pc and re-executes. -/
inductive Wait where
  | none
  /-- an interlock: the core is not clock-gated -/
  | interlock
  | line (line : Nat) (threshold : BitVec 32)
  | barrier
  | mutex (mutex : Nat)
  | engine
  /-- CCLOSE of a collective id -/
  | chain (id : Nat)
  | ringPut (ring : Nat) (prod : Nat)
  | ringGet (ring : Nat)
  /-- a Tick edge (spec/04 R81); the pc moves at that edge -/
  | scTick (edge : Nat)
  /-- a store to a replicated page, until its collapse (spec/04 R73) -/
  | collapse (va : Word)
  /-- WAITC: until FCYC reaches a cycle -/
  | cycle (target : Nat)
  /-- YIELD: the same, and a trap ends the pause (spec/10 R191) -/
  | pause (target : Nat)
  /-- the release of a timed region (spec/01 R20, spec/08 R162, R167) -/
  | release
  /-- a request that replay holds, by kind and object (spec/23 R397) -/
  | replay (key : Nat)
  deriving DecidableEq, Repr

/-- A result that an XLEASE still owes to a queue position (counted by pushes) or an s register (spec/14 R263). -/
structure Owed where
  push  : Option Nat
  reg   : BitVec 5
  queue : Nat
  id    : Nat
  deriving DecidableEq, Repr

/-- Slot states of spec/02 R42. -/
inductive SlotState where
  | free | claimed | loading | ready
  deriving DecidableEq, Repr

/-- The record of a slot (spec/12 R226). -/
structure SlotRecord where
  fmt   : BitVec 4
  scale : BitVec 8
  rows  : Nat
  cols  : Nat
  vrows : Nat
  vcols : Nat
  bytes : Nat
  deriving DecidableEq, Repr

/-- An operand-memory slot: issue state and record, performed state and record, packed bytes (spec/12 R223). -/
structure Slot where
  issue    : SlotState
  record   : Option SlotRecord
  perf     : SlotState
  precord  : Option SlotRecord
  data     : List Byte
  deriving DecidableEq, Repr

/-- An operation of the matrix queue (spec/12 R223). A load keeps its source until it has read it: `data` is what it read. -/
inductive MatrixOp where
  | load   (slot : Nat) (record : SlotRecord) (src : Shape) (alt : Bool) (data : Option (List Byte))
  | unload (slot base : Nat)
  | release (slot : Nat)
  | mma    (c : Shape) (a b : Nat) (m : MmaMod)
  deriving DecidableEq, Repr

/-- A command an XFENCE join waits for: queue (0-3 x, 4-7 g, 8 matrix) and command id (spec/14 R266). -/
abbrev Need := List (Nat × Nat)

structure MatrixEntry where
  op   : MatrixOp
  need : Need
  /-- issued in handler mode -/
  hm   : Bool
  /-- core cycle at which a timed operation is performed (spec/08 R155); 0 in a free phase -/
  due  : Nat
  /-- core cycle from which no array cycle of a timed MMA reads its slots any more (spec/08 R156) -/
  free : Nat
  /-- core cycle of the first line or beat of a timed operation, how many it has, and how many have passed (R156) -/
  first : Nat
  beats : Nat
  beat  : Nat
  /-- bytes of the source lines that a timed load has read -/
  got   : List (Nat × List Byte)
  /-- the slots that a timed MMA or unload reads, as they are when it issues -/
  held  : List Slot
  deriving DecidableEq, Repr

/-- A stream binding (spec/06 R117, R118). Tiles below `next` are consumed, tiles below `filled` are filled. -/
structure Stream where
  tile    : BitVec 5
  saved   : Shape
  base    : Word
  space   : BitVec 3
  pitch   : Nat
  cnt     : List Nat
  stride  : List Word
  depth   : Nat
  entsz   : Nat
  rbase   : Nat
  edger   : Nat
  edgec   : Nat
  next    : Nat
  filled  : Nat
  poison  : Option (BitVec 8 × Word × BitVec 12)
  /-- the cause of the poisoned entry has been taken -/
  raised  : Bool
  deriving DecidableEq, Repr

/-- A transfer command (spec/14 R264, R265): tile records and registers are those of issue. -/
inductive TransferKind where
  | copyOut (tile : Shape) (alt : Bool) (view ctl : Word) (rm : BitVec 2)
  | copyIn  (tile : Shape) (alt : Bool) (view ctl : Word) (rm : BitVec 2)
  | cast    (tile : Shape) (alt : Bool) (mask ctl : Word) (rm : BitVec 2)
  | lease   (address length ticks : Nat)
  | free    (handle : Word)
  deriving DecidableEq, Repr

structure Transfer where
  id    : Nat
  kind  : TransferKind
  rows  : Nat
  begun : Bool
  done  : Bool
  /-- the first address at which hasp windows refused a write that was skipped (spec/06 R123, spec/14 R270) -/
  skipped : Option Word
  timed : Bool
  /-- core cycle at which a timed command begins (spec/06 R126), at which it issued and at which it completes (spec/14 R270) -/
  start : Nat
  issued : Nat
  finish : Nat
  need  : Need
  hm    : Bool
  deriving DecidableEq, Repr

/-- An entry of a stencil table (spec/06 R130). -/
structure StencilEntry where
  num : Int
  par : Nat
  dz  : Int
  dy  : Int
  dx  : Int
  deriving DecidableEq, Repr

structure Stencil where
  shift   : Nat
  dim3    : Bool
  entries : List StencilEntry
  deriving DecidableEq, Repr

/-- A Rood command (spec/14 R268, R269). -/
inductive RoodKind where
  | table   (slot : Nat) (table : Stencil)
  | restrict (d a mask : Shape) (ctl : Word)
  | prolong  (d a mask : Shape) (ctl : Word)
  | convert  (d a mask : Shape) (ctl : Word)
  deriving DecidableEq, Repr

structure Rood where
  id    : Nat
  kind  : RoodKind
  rows  : Nat
  begun : Bool
  done  : Bool
  timed : Bool
  /-- core cycles at which a timed command begins and ends (spec/06 R136) -/
  start : Nat
  finish : Nat
  need  : Need
  hm    : Bool
  /-- 64-byte pieces of the source and mask that have been read, each once (spec/04 R85) -/
  seen  : List (Nat × List Byte)
  deriving DecidableEq, Repr

/-- What a store under way does at its destination: write bytes, start a core (spec/15 R297), add to an event line
(spec/14 R272), arrive at another Latch's barrier is made at issue. -/
inductive StoreKind where
  | bytes (bytes : List Byte)
  | start (arg : Word)
  | add   (inc : BitVec 32)
  deriving DecidableEq, Repr

/-- A store that has retired and is not yet performed (spec/13 R242). `phys` is the translated GLOBAL address, or the I/O chiplet
of a HOST or CXL store. -/
structure Store where
  space : BitVec 3
  addr  : Word
  phys  : Nat
  check : Bool
  locked : Bool
  sid   : Nat
  kind  : StoreKind
  hm    : Bool
  deriving DecidableEq, Repr

/-- A response under way; code 0 is no cause. -/
structure Ack where
  code  : BitVec 8
  addr  : Word
  other : BitVec 12
  hm    : Bool
  deriving DecidableEq, Repr

/-- A pending deferred cause (spec/21 R366); `hm`: of an access made in handler mode (R367). -/
structure Cause where
  code  : BitVec 8
  eva   : Word
  other : BitVec 12
  hm    : Bool
  deriving DecidableEq, Repr

/-- A held chunk (spec/15 R287): field index and card serial, next record, records left. -/
structure Chunk where
  field  : Nat
  serial : Nat
  next   : Nat
  left   : Nat
  size   : Nat
  canc   : Bool
  deriving DecidableEq, Repr

/-- An open collective at a core (spec/05 R113): chunks injected and extracted, words of the next result already popped by
loads, bytes of the next chunk already stored to CQIN, result chunks that have reached CQOUT. -/
structure OpenColl where
  id        : Nat
  desc      : Word
  injected  : Nat
  extracted : Nat
  popped    : Nat
  forming   : List Byte
  delivered : Nat
  deriving DecidableEq, Repr

/-- A chunk in CQIN (spec/05 R113): collective id, chunk number, the values its elements travel as. -/
structure Inject where
  id    : Nat
  chunk : Nat
  vals  : List Word
  deriving DecidableEq, Repr

/-- The timed region of a core (spec/01 R17 to R20, spec/08 R154); `leaving`: PHASE.free has issued, and flits of the core
have still to leave their first link (spec/14 R279). -/
structure Timed where
  active : Bool
  leaving : Bool
  comm   : Bool
  base   : Word
  offset : Nat
  last   : Word
  first  : Bool
  deriving DecidableEq, Repr

/-- The extent of a tile under a format code (spec/02 R32). -/
structure Extent where
  code  : Nat
  shape : Shape
  alt   : Bool
  deriving DecidableEq, Repr

/-- What an instruction of a timed phase produces: a register, a predicate, a queue position (counted by pushes), the bytes
of a tile, a slot. -/
inductive Product where
  | reg (n : BitVec 5)
  | pred (n : BitVec 3)
  | push (k : Nat)
  | tile (x : Extent)
  | slot (n : Nat)
  deriving DecidableEq, Repr

/-- A beat of a timed instruction at a tile (spec/08 R156): core cycle, the tile as an operand with its format code, and the
elements in operand order: the first, how many, how far apart. `code` is the format they are located under. -/
structure Touch where
  cycle : Nat
  shape : Shape
  code  : Nat
  trn   : Bool
  alt   : Bool
  first : Nat
  count : Nat
  step  : Nat
  deriving DecidableEq, Repr

/-- A tile instruction of a timed phase whose beats are still to come (spec/08 R156, spec/11 R198, R199): the instruction, the
registers it has issued with, beats to come, the bytes that past beats have read, and its scalar result. -/
structure Work where
  instr  : Instr
  regs   : Vector Word 32
  preds  : BitVec 8
  q      : Vector Word 16
  tiles  : Vector Shape 32
  bfmt   : Vector (BitVec 32) 16
  repst  : Word
  tprog  : Word
  free   : Nat
  reads  : List Touch
  writes : List Touch
  got    : List (Nat × List Byte)
  result : Option (Product × Nat)
  deriving DecidableEq, Repr

/-- What the leader of a gang made of an instruction of a timed region that a follower has still to copy at its own cycle
(spec/01 R12, R13): the leader's guard, the target of a transfer, REPST after it. -/
structure Lag where
  lead   : Bool
  target : Option Nat
  rep    : Word
  deriving DecidableEq, Repr

/-- A result with the core cycle from which it may be read (spec/08 R155). -/
structure Result where
  what  : Product
  ready : Nat
  deriving DecidableEq, Repr

/-- Accesses to one port of a bank: `count` of them, `step` cycles apart (spec/08 R156). -/
structure PortUse where
  bank  : Nat
  write : Bool
  start : Nat
  count : Nat
  step  : Nat
  deriving DecidableEq, Repr

/-- The timetable of a core's units in a timed region (spec/08 R155 to R157): results under way, port cycles taken, the core
cycles at which the vector unit, the divider, the matrix array, the sender and the receiver become free, and the first
condition of R161 that an access on a later cycle meets: cycle and code. -/
structure Board where
  made     : List Result
  ports    : List PortUse
  vector   : Nat
  divider  : Nat
  array    : Nat
  sender   : Nat
  receiver : Nat
  doom     : Option (Nat × Nat)
  deriving DecidableEq, Repr

/-- A recorded restart point with its snapshot (spec/08 R159, R162). -/
structure Mark where
  pc    : BitVec 14
  pos   : Int
  /-- the kind of its phase: communication -/
  comm  : Bool
  q     : Vector Word 16
  slots : Vector Slot 16
  bfmt  : Vector (BitVec 32) 16
  xnext : Vector Nat 4
  gnext : Vector Nat 4
  deriving DecidableEq, Repr

/-- A line of a timed transfer command on its way (spec/14 R270): the queue and id, the source tile with the format of its bank,
the line's number, the place of element (0,0) in the target and the rounding mode. -/
structure FlitCopy where
  queue : Nat
  id    : Nat
  tile  : Shape
  code  : Nat
  scale : Int
  line  : Nat
  off   : Nat
  rm    : BitVec 2
  deriving DecidableEq, Repr

/-- A static flit of 256 bytes on its way to a core (spec/08 R165): route, the sending core as die * 8 + number, the core at
which the route ends, the cycle on which it is due there. -/
structure Flit where
  route : Nat
  src   : Nat
  die   : Nat
  core  : Nat
  due   : Nat
  /-- core cycle of its injection, and of the issue of its command: the order of R166 -/
  sent  : Nat
  order : Nat
  /-- die and direction of each link it takes; that of hop j on cycle sent + 3j - 1 -/
  links : List (Nat × Nat)
  data  : List Byte
  /-- none: for a RECV -/
  copy  : Option FlitCopy
  /-- the cycle on which it is discarded on its way (R165, R312, R326) -/
  broken : Option Nat
  /-- the cycle on which it is discarded, or does not get its link (R166) -/
  lost  : Option Nat
  deriving DecidableEq, Repr

/-- What a line of a SEND or RECV does on its cycle: SEND reads and injects it; RECV takes a flit, and writes it a cycle
later (spec/14 R280). -/
inductive LaneAct where
  | send
  | take
  | write (data : List Byte)
  deriving DecidableEq, Repr

/-- A line of a SEND or RECV that has issued at core cycle `order`, and its core cycle. -/
structure Lane where
  act   : LaneAct
  route : Nat
  tile  : Shape
  line  : Nat
  cycle : Nat
  order : Nat
  deriving DecidableEq, Repr

/-- The system registers of spec/15 R295 but COREID, which is computed, and the AECHO read rule. -/
structure SysRegs where
  cause   : Word
  epc     : Word
  eva     : Word
  tvec    : Word
  mode    : Word
  scr     : Vector Word 4
  tprog   : Word
  repst   : Word
  erepst  : Word
  barst   : Word
  racest  : Word
  collctl : Word
  xfault  : Word
  alost   : Word
  aecho   : Word
  tflt    : Word
  xprog   : Word
  markpc  : Word
  markcyc : Word
  pmarkpc : Word
  pmarkcyc : Word
  xdone   : Vector Word 4
  gdone   : Vector Word 4
  ctxid   : Word
  prio    : Word
  contain : Word
  hasp    : Vector Word 4
  deriving DecidableEq, Repr

/-- One core: a compute core, or a memory core when `memc` is set (spec/06 R137). -/
structure Core where
  die    : Nat
  num    : Nat
  lcn    : Nat
  fcn    : Nat
  rank   : Nat
  memc   : Bool
  field  : Option Nat
  run    : RunState
  pc     : BitVec 14
  /-- the core cycle at which FCYC was 0 (spec/01 R11): FCYC is `State.cyc` minus this -/
  fbase  : Word
  regs   : Vector Word 32
  preds  : BitVec 8
  q      : Vector Word 16
  pushes : Nat
  owed   : List Owed
  tiles  : Vector Shape 32
  bfmt   : Vector (BitVec 32) 16
  ls     : Mem
  lsBad  : List Nat
  /-- words of the local store that hold a single-bit error, which a read corrects (spec/03 R61, spec/12 R232) -/
  lsWeak : List Nat
  istore : Mem
  fetched : List (Nat × InstrWord)
  slots  : Vector Slot 16
  mq     : List MatrixEntry
  mqIssued : Nat
  mqDone   : Nat
  streams : List Stream
  xq     : Vector (List Transfer) 4
  xnext  : Vector Nat 4
  gq     : Vector (List Rood) 4
  gnext  : Vector Nat 4
  xstop  : Option Nat
  joins  : Vector Need 9
  gt     : Vector Stencil 4
  stores : List Store
  acks   : List Ack
  deferred : List Cause
  /-- COLLECTIVE_ABORT of another core's RETRY: trapped without consulting CONTAIN again (spec/21 R370) -/
  abortPend : Bool
  /-- COLLECTIVE_ABORT of an aborted barrier phase or collective (spec/05 R104, R112, spec/21 R371) -/
  abortRaise : Bool
  preemptPend : Bool
  /-- core cycle of the pending PREEMPT's request (spec/08 R167) -/
  preemptAt : Nat
  hold   : Bool
  wait   : Wait
  /-- the status word with which the wait has ended (spec/05 R100) -/
  wake   : Option Word
  /-- its arrival in the gang's BARV is made, and completes with those of the other members (spec/01 R12) -/
  arrived : Bool
  atomSeq : BitVec 8
  /-- the die that performed the atomic ALOST records, none for another core's local store (spec/13 R250) -/
  lostPlace : Option Nat
  /-- the first cause that a destination returned for an element of the TRED under way (spec/13 R252) -/
  tredCause : Option Cause
  /-- the most recently opened first -/
  colls  : List OpenColl
  /-- CQIN, oldest first (spec/05 R113) -/
  cqin   : List Inject
  chunk  : Option Chunk
  card   : Option (Nat × Nat)
  /-- the gang card that a held idle request waits for (spec/20 R351) -/
  heldCard : Option Nat
  seen   : List (Nat × Nat)
  /-- PREEMPT found the core idle; its ERET makes it idle again -/
  idled  : Bool
  timed  : Timed
  nextComm : Bool
  mark   : Option Mark
  pmark  : Option Mark
  rbTarget : Option Int
  rxbuf  : List Flit
  /-- lines of SEND and RECV still to come -/
  lanes  : List Lane
  /-- the core cycle before which no instruction issues, after PHASE.free (spec/14 R279) -/
  holdUntil : Nat
  reuseA : Option (BitVec 5)
  reuseB : Option (BitVec 5)
  board  : Board
  /-- tile instructions of a timed phase whose beats are still to come -/
  works  : List Work
  /-- instructions of the leader that this follower has still to copy, oldest first (spec/01 R12) -/
  lag    : List Lag
  /-- the model's own: the next instruction is this member's copy alone (spec/01 R12) -/
  solo   : Bool
  skip   : Bool
  /-- the model's own: where a row-resumable instruction stops for a PREEMPT that arrives within it (log entry 22) -/
  rowLimit : Option Nat
  hwImage : Option (Vector Shape 32 × List Stream)
  savedTimed : Bool
  sys    : SysRegs
  deriving DecidableEq, Repr

/-! ## Latches, barriers, collectives -/

structure Line where
  count  : BitVec 32
  target : BitVec 32
  deriving DecidableEq, Repr

/-- A barrier object (spec/05 R101); `timed` counts the arrivals of the timed form (R104), `came` are the cores (die * 8 +
number) that have arrived in this phase, the latest first. -/
structure Bar where
  span  : BitVec 3
  came  : List Nat
  phase : Bool
  joins : Nat
  drops : Nat
  e     : Nat
  a     : Nat
  timed : Nat
  deriving DecidableEq, Repr

/-- A mutex (spec/05 R106): holder, and the waiters oldest first, as core numbers within the quad. -/
structure Mutex where
  holder  : Option Nat
  waiters : List Nat
  deriving DecidableEq, Repr

structure ByteCount where
  expect  : BitVec 32
  arrived : BitVec 32
  armed   : Bool
  line    : BitVec 6
  deriving DecidableEq, Repr

structure Latch where
  lines  : Vector Line 64
  bars   : Vector Bar 16
  mutexes : Vector Mutex 16
  counts : Vector ByteCount 16
  deriving DecidableEq, Repr

/-- A scope barrier (spec/05 R104): level 2 to 5, the die id, field index or context of its instance, its number. -/
structure ScopeBar where
  level : Nat
  key   : Nat
  num   : Nat
  bar   : Bar
  deriving DecidableEq, Repr

/-- Generation counters (spec/04 R88): of a quad (die * 2 + quad), of a die. -/
structure Gens where
  qgen : List (Nat × BitVec 8)
  dgen : List (Nat × BitVec 8)
  fgen : List (Nat × BitVec 16)
  deriving DecidableEq, Repr

/-- A race record (spec/04 R87). -/
structure Race where
  writer : BitVec 12
  fgen   : BitVec 16
  dgen   : BitVec 8
  qgen   : BitVec 8
  reader : BitVec 12
  many   : Bool
  locked : Bool
  deriving DecidableEq, Repr

/-- The place of a race record: a GLOBAL piece, or a piece of a core's local store (by logical number). -/
inductive Place where
  | global (piece : Nat)
  | localStore (lcn piece : Nat)
  deriving DecidableEq, Repr

/-- A partial result of chunk `chunk` standing at a port of a Chain node (spec/05 R114), in one of its slots or at an index of
the context's spill area (R115). -/
structure Partial where
  node  : Nat
  port  : Nat
  chunk : Nat
  vals  : List Word
  spill : Option Nat
  /-- its place in the order of arrivals in the Chain -/
  stamp : Nat
  deriving DecidableEq, Repr

/-- A result chunk: its number, its place in the order in which the roots produced chunks, its bytes (spec/05 R114). -/
structure ChainResult where
  chunk : Nat
  stamp : Nat
  bytes : List Byte
  deriving DecidableEq, Repr

/-- A collective (spec/05 R112 to R116): members, those that have opened and closed it (logical core numbers), partials at
nodes in order of arrival, result chunks. -/
structure Coll where
  ctx     : Nat
  id      : Nat
  desc    : Word
  members : List Nat
  opened  : List Nat
  closed  : List Nat
  parts   : List Partial
  results : List ChainResult
  sat     : Bool
  aborted : Bool
  deriving DecidableEq, Repr

/-- A node of CHAIN_MAP (spec/18 R324). -/
structure ChainNode where
  level  : Nat
  parent : Nat
  port   : Nat
  pres   : List Nat
  host   : Nat
  first  : Nat
  deriving DecidableEq, Repr

/-! ## Fields and cards -/

inductive CardState where
  | queued | dealing | finished | cancelled
  deriving DecidableEq, Repr

/-- A posted card (spec/20 R345 to R356). -/
structure Card where
  serial  : Nat
  words   : Vector Word 8
  level   : Nat
  since   : Nat
  due     : Option Nat
  inSlot  : Bool
  depDone : Bool
  depTick : Nat
  ready   : Bool
  undealt : List (Nat × Nat)
  parts   : Nat
  die     : Nat
  quad    : Nat
  state   : CardState
  deriving DecidableEq, Repr

inductive FieldState where
  | running | preempting | copying | saved | restoring | killed
  deriving DecidableEq, Repr

/-- The shape section of an SKO image (spec/09 R176): the bank formats and shape records a card's first record finds. -/
structure ShapeSection where
  bfmt  : Vector (BitVec 32) 16
  tiles : Vector Shape 32
  /-- the declared tiles and banks -/
  tileMask : BitVec 32
  bankMask : BitVec 16
  deriving DecidableEq, Repr

/-- A field (spec/21 R373) and the registers of its anchor die (spec/20 R404; spec/21 R372, R375; spec/23 R396,
R398, R399). -/
structure Field where
  valid   : Bool
  res     : BitVec 3
  word0   : Word
  w1      : Word
  w2      : Word
  /-- word 0 of the create command: the rectangle the field has, whatever is written to word 0 afterwards -/
  rect    : Word
  ctx     : Nat
  anchor  : Nat
  creator : Nat
  /-- the context's first field (spec/19 R340, spec/22 R389) -/
  lead    : Bool
  stat    : FieldState
  statTimed : Bool
  acks    : Nat
  fcmd    : Word
  fsave   : Word
  killrec : Word
  carderr : Word
  rpctl   : Word
  dset    : Word
  hurec   : Word
  cards   : List Card
  serial  : Nat
  rr      : Vector Nat 8
  since   : Nat
  hold    : Bool
  logPos  : Nat
  /-- logged grants consumed in replay, by kind and object (spec/23 R397) -/
  replay  : List (Nat × Nat)
  /-- the cycle of the latest logged grant of an object in replay, by kind and object; under 0 the one on which replay began -/
  replayAt : List (Nat × Nat)
  /-- a static route of the field was lost with a bond: no timed region until new routes are loaded (spec/18 R326) -/
  noTimed : Bool
  /-- the sum of LEN over the durable set (spec/23 R398) -/
  dsetLen : Nat
  /-- DST + LEN of the last descriptor made durable (spec/23 R399) -/
  huEnd   : Option Nat
  /-- shape sections the loader has handed over, by entry index (spec/01 R14) -/
  shapes  : List (Nat × ShapeSection)
  /-- where each route of the field ends: route id, die, core, hops (spec/08 R165) -/
  routeEnds : List (Nat × Nat × Nat × Nat)
  deriving DecidableEq, Repr

/-- What the blocks of a saved context stand for (spec/21 R379): the counter their bytes were drawn with, the cores in
the order of their blocks, Latches, scope barriers, the field, its FCYC, Ticks and cycle of saving. -/
structure Saved where
  seed    : Nat
  cores   : List Core
  latches : List (Nat × Latch)
  bars    : List ScopeBar
  field   : Field
  fcyc    : Word
  cyc     : Nat
  deriving DecidableEq, Repr

/-! ## The module -/

inductive BusState where
  | dark | clockLocked | linksTrained | identified | configured | online | fenced | isolated
  deriving DecidableEq, Repr

/-- A bond's end (spec/18 R308): state 0 absent to 3 dead, retries. -/
structure Link where
  state : BitVec 2
  retry : BitVec 8
  deriving DecidableEq, Repr

/-- Registers of an anchor die that outlive its field (spec/20 R404, spec/21 R372, R375, spec/23 R396, R398, R399). -/
structure AnchorRegs where
  fcmd    : Word
  fsave   : Word
  killrec : Word
  carderr : Word
  rpctl   : Word
  dset    : Word
  hurec   : Word
  deriving DecidableEq, Repr

/-- The configuration block and bring-up state of a chiplet (spec/18 R307 to R322, spec/19 R331, R339, spec/22 R388,
R391, spec/23 R395, R402). Tables are lists of index and value; an index not listed holds its reset value. -/
structure Chip where
  bus     : BusState
  croot   : Nat
  root    : Nat
  master  : Nat
  dist    : Nat
  pport   : Nat
  cport   : Nat
  links   : Vector Link 4
  harvest : BitVec 8
  nsel    : List (Nat × BitVec 16)
  rte     : List (Nat × BitVec 32)
  troot   : Word
  home    : List (Nat × BitVec 16)
  hwin    : List (Nat × Word × Word)
  cwin    : List (Nat × Word × Word)
  mcatt   : Word
  sercnt  : List (Nat × Word)
  dstats  : List (Nat × Word)
  tumrec  : Word
  /-- MODID of an I/O chiplet (spec/22 R390) -/
  modid   : Word
  /-- the anchor registers while no field has its anchor here -/
  anchor  : AnchorRegs
  /-- wavefronts recorded: port, root, reference cycle (spec/18 R315) -/
  arrivals : List (Nat × Nat × Nat)
  lockAt  : Option Nat
  verdict : Option Bool
  roodLast : Nat
  deriving DecidableEq, Repr

/-- A cached entry of a page table (spec/19 R333): die, unit (0 to 7 the L1 TLB of that core, 8 the L2 TLB, 9 the walk cache),
context, first virtual address, size (for a pointer, of the region it stands for), entry. -/
structure Cached where
  die  : Nat
  unit : Nat
  ctx  : Nat
  va   : Nat
  size : Nat
  pte  : Word
  deriving DecidableEq, Repr

/-- A lease (spec/19 R340). -/
structure Lease where
  ctx    : Nat
  index  : Nat
  base   : Nat
  length : Nat
  lines  : List Nat
  endTick : Nat
  handle : Word
  deriving DecidableEq, Repr

/-- One entry of an echo buffer (spec/13 R250): place (home die), requester, sequence number, old value. -/
structure Echo where
  place : Nat
  lcn   : Nat
  seq   : BitVec 8
  old   : Word
  deriving DecidableEq, Repr

/-- One endpoint's control page (spec/22 R384 to R387, R393). -/
structure Endpoint where
  up      : Bool
  irqst   : Word
  hpaddr  : Word
  hpres   : Word
  dqbase  : Word
  dqtail  : BitVec 32
  dqhead  : BitVec 32
  dqdone  : BitVec 32
  dqctl   : Word
  /-- host DMA descriptors started and not completed: index and bytes (spec/22 R387) -/
  running : List (Nat × List Byte)
  finished : List Nat
  nonce   : List Byte
  attAddr : Word
  attBusy : Bool
  atst    : Word
  deriving DecidableEq, Repr

/-- How the latest configuration access of a host completed (spec/18 R307): none yet, a write accepted, the word that was read, a
negative acknowledgement. -/
inductive CfgAnswer where
  | idle
  | done
  | data (value : Word)
  | nak
  deriving DecidableEq, Repr

/-- State of the module as a whole (spec/18, spec/22 R392, spec/23 R399 to R403). -/
structure Module where
  powered  : Bool
  /-- input power is present -/
  mains    : Bool
  holdup   : Bool
  recovery : Bool
  shortfall : Bool
  master   : Option Nat
  go       : Option Nat
  collectFrom : Option Nat
  collected : Bool
  images   : List (Nat × Image)
  running  : Image
  bringups : Nat
  lpt      : List (Nat × Nat × Bool)
  chain    : List ChainNode
  evlist   : Word
  evrec    : Word
  clock    : Nat
  /-- a bond has died and the master has yet to recompute NSEL (spec/18 R326) -/
  nselDue  : Bool
  cfg      : CfgAnswer
  /-- an image that is being written, and the slots it has still to reach (spec/22 R392) -/
  update   : Option (Image × List Nat)
  deriving DecidableEq, Repr

/-- A blocked core as a Tumbler scan found it: logical number, BLKST, unblockers, none for unknown (spec/20 R361). -/
structure Blocked where
  lcn   : Nat
  blkst : Word
  by_   : Option (List Nat)
  deriving DecidableEq, Repr

/-- A scan: the context, the number of its edge, the blocked cores. -/
structure Scan where
  ctx     : Nat
  edge    : Nat
  blocked : List Blocked
  deriving DecidableEq, Repr

/-- One entry of the agenda: which agent moves next, or what the outside world brings. -/
inductive Turn where
  /-- the focus moves to a core -/
  | focus (die num : Nat)
  /-- the focused core issues its next instruction -/
  | issue
  /-- an event happens -/
  | event (i : Instr)
  /-- core cycles and reference cycles pass -/
  | pass (cycles refs : Nat)
  /-- the fabric loses both responses to the next load (spec/13 R243) -/
  | loadLost
  /-- a core of another module arrives at a pod barrier of a context (spec/05 R104) -/
  | podArrival (ctx num : Nat)
  /-- a soft error spoils a 64-byte piece of GLOBAL memory (spec/23 R394) -/
  | upset (piece : Nat)
  /-- a soft error spoils a word of a core's local store (spec/03 R61) -/
  | upsetLocal (die num word : Nat)
  /-- a soft error flips one bit of such a word, which a read corrects (spec/03 R61, spec/12 R232) -/
  | flipLocal (die num word : Nat)
  /-- the loader hands over the shape section of an image for a field's cards with an entry index -/
  | shape (field entry : Nat) (section_ : ShapeSection)
  /-- the loader places bytes of a data or stencil section in a core's local store (spec/09 R176) -/
  | place (die num offset : Nat) (bytes : List Byte)
  /-- the loader writes the route section of an image at the creation of a field (spec/18 R313): route id, DX, DY, entry -/
  | routes (field : Nat) (records : List (Nat × Nat × Nat × BitVec 32))
  /-- the master writes the NSEL entries that a dead bond changes (spec/18 R311, R326) -/
  | nsel
  /-- a host reads a configuration register, or a register of its control page (spec/18 R307, spec/22 R384) -/
  | configRead (target : CfgTarget) (offset width : Nat)
  deriving DecidableEq, Repr

structure State where
  core    : Core
  others  : List Core
  mem     : Mem
  poison  : List Nat
  podMem  : Mem
  hostMem : Mem
  cxlMem  : Mem
  race    : List (Place × Race)
  gens    : Gens
  /-- NOREP bits set and cleared, newest first: first granule, number of granules, value (spec/19 R336 to R338) -/
  norep   : List (Nat × Nat × Bool)
  /-- copies of 256-byte sectors, by slice * 2^44 + sector number (spec/19 R336) -/
  replicas : List (Nat × List Byte)
  tlb     : List Cached
  leases  : List Lease
  leaseSerial : List (Nat × Nat)
  echo    : List Echo
  /-- the fabric loses the response to the next atomic -/
  lossNext : Bool
  /-- the fabric loses the response to the next load, and that to its repetition (spec/13 R243) -/
  lossLoad : Bool
  latches : List (Nat × Latch)
  scopeBars : List ScopeBar
  colls   : List Coll
  /-- partials and result chunks that the Chain has taken and produced -/
  chainSeq : Nat
  /-- cores blocked on a ring, oldest first: descriptor's physical address, in RPUT, die * 8 + number (spec/20 R359) -/
  rings   : List (Nat × Bool × Nat)
  /-- producers of a ring's elements, oldest first, by the descriptor's physical address (spec/15 R292) -/
  ringTags : List (Nat × List Nat)
  flits   : List Flit
  fields  : Vector Field 16
  /-- what the blocks of saved contexts stand for, wherever their bytes lie -/
  areas   : List Saved
  chips   : List (Nat × Chip)
  modState : Module
  hosts   : Vector Endpoint 2
  sems    : Vector (BitVec 2) 8
  semTie  : Nat
  /-- the latest scan of each context's Tumbler -/
  tumbler : List Scan
  cyc     : Nat
  ref     : Nat
  /-- the model's own: how many free values have been drawn (log entry 5) -/
  free    : Nat
  /-- the model's own: steps without an agenda, which bring the focus round (spec/01 R23, R26; log entry 9) -/
  stint   : Nat
  /-- the model's own: which agent moves next, inputs from outside (log entry 2) -/
  agenda  : List Turn
  deriving DecidableEq, Repr

/-- The machine's faults. -/
inductive Fault where
  /-- Raised by `step` when the module has lost its power and nothing brings it back: no clock runs and every device
  state is lost (spec/00 R6). Safe: the model stops where the hardware does. -/
  | unpowered
  deriving DecidableEq, Repr

/-- The machine's refusals. -/
inductive Refusal where
  /-- Raised by `exec` for an instruction without a meaning yet. Safe: the model stops. -/
  | notModelled (mnemonic : String)
  deriving DecidableEq, Repr

abbrev Out := Host.Outcome State Fault Refusal

/-! ## Reset -/

def Slot.reset : Slot :=
  { issue := .free, record := none, perf := .free, precord := none, data := [] }

def Board.reset : Board :=
  { made := [], ports := [], vector := 0, divider := 0, array := 0, sender := 0, receiver := 0, doom := none }

def Bar.reset : Bar := { span := 1#3, came := [], phase := false, joins := 0, drops := 0, e := 0, a := 0, timed := 0 }

def Latch.reset : Latch :=
  { lines := Vector.replicate 64 ⟨0#32, 0#32⟩
    bars := Vector.replicate 16 Bar.reset
    mutexes := Vector.replicate 16 ⟨none, []⟩
    counts := Vector.replicate 16 ⟨0#32, 0#32, false, 0#6⟩ }

/-- The reset values of the register maps; CTXID and PRIO by log entry 3. -/
def SysRegs.reset : SysRegs :=
  { cause := 0x00000FFF00000000#64, epc := 0#64, eva := 0#64, tvec := 0#64, mode := 0x8#64
    scr := Vector.replicate 4 0#64, tprog := 0#64, repst := 0#64, erepst := 0#64, barst := 0#64, racest := 0#64
    collctl := 0#64, xfault := 0#64, alost := 0#64, aecho := 0#64, tflt := 0#64, xprog := 0#64,
    markpc := 0#64, markcyc := 0#64, pmarkpc := 0#64, pmarkcyc := 0#64
    xdone := Vector.replicate 4 1#64, gdone := Vector.replicate 4 1#64
    ctxid := 0#64, prio := 0#64, contain := 0x00000000AA000055#64, hasp := Vector.replicate 4 0#64 }

/-- A core right after reset. -/
def Core.reset (die num : Nat) : Core :=
  { die := die, num := num, lcn := 0, fcn := 0, rank := 0, memc := false, field := none, run := .dark, pc := 0#14, fbase := 0#64
    regs := Vector.replicate 32 0#64, preds := 1#8, q := Vector.replicate 16 0#64, pushes := 0, owed := []
    tiles := Vector.replicate 32 0#128, bfmt := Vector.replicate 16 0x00001000#32, ls := [], lsBad := [], lsWeak := []
    istore := [], fetched := [], slots := Vector.replicate 16 Slot.reset, mq := [], mqIssued := 0, mqDone := 0
    streams := [], xq := Vector.replicate 4 [], xnext := Vector.replicate 4 1, gq := Vector.replicate 4 []
    gnext := Vector.replicate 4 1, xstop := none, joins := Vector.replicate 9 [], gt := Vector.replicate 4 ⟨0, false, []⟩
    stores := [], acks := [], deferred := [], abortPend := false, abortRaise := false, preemptPend := false, preemptAt := 0, hold := false
    wait := .none, wake := none, arrived := false, atomSeq := 0#8, lostPlace := none, tredCause := none, colls := [], cqin := [], chunk := none, card := none
    heldCard := none, seen := [], idled := false
    timed := { active := false, leaving := false, comm := false, base := 0#64, offset := 0, last := 0#64, first := false }
    nextComm := false, mark := none, pmark := none, rbTarget := none, rxbuf := [], lanes := [], holdUntil := 0, reuseA := none, reuseB := none
    board := Board.reset, works := [], lag := [], solo := false, skip := false, rowLimit := none, hwImage := none, savedTimed := false, sys := SysRegs.reset }

def Field.reset : Field :=
  { valid := false, res := 0#3, word0 := 0#64, w1 := 0#64, w2 := 0#64, rect := 0#64, ctx := 0, anchor := 0, creator := 0, lead := false
    stat := .running, statTimed := false, acks := 0, fcmd := 0#64, fsave := 0#64, killrec := 0xFFF#64
    carderr := 0#64, rpctl := 0#64, dset := 0#64, hurec := 0#64, cards := [], serial := 1
    rr := Vector.replicate 8 0, since := 0, hold := false, logPos := 0, replay := [], replayAt := [], noTimed := false, dsetLen := 0, huEnd := none, shapes := []
    routeEnds := [] }

/-- A chiplet right after power-on or module reset: DARK (spec/18 R314, R317). -/
def Chip.reset : Chip :=
  { bus := .dark, croot := 0x3FF, root := 0x3FF, master := 0x3FF, dist := 0, pport := 7, cport := 7
    links := Vector.replicate 4 ⟨0#2, 0#8⟩, harvest := 0#8, nsel := [], rte := [], troot := 0#64, home := [], hwin := []
    cwin := [], mcatt := 0#64, sercnt := [], dstats := [], tumrec := 0#64, modid := 0#64
    anchor := { fcmd := 0#64, fsave := 0#64, killrec := 0xFFF#64, carderr := 0#64, rpctl := 0#64, dset := 0#64, hurec := 0#64 }
    arrivals := []
    lockAt := none, verdict := none, roodLast := 31 }

def Endpoint.reset : Endpoint :=
  { up := true, irqst := 0#64, hpaddr := 0#64, hpres := 0#64, dqbase := 0#64, dqtail := 0#32, dqhead := 0#32
    dqdone := 0#32, dqctl := 0#64, running := [], finished := [], nonce := [], attAddr := 0#64, attBusy := false
    atst := 0#64 }

def Module.reset : Module :=
  { powered := true, mains := true, holdup := false, recovery := false, shortfall := false, master := none, go := none
    collectFrom := none, collected := false, images := [], running := ⟨1#8, 0#8, 0#32, 0⟩, bringups := 0
    lpt := [], chain := [], evlist := 0#64, evrec := 0#64, clock := 3000, nselDue := false, cfg := .idle, update := none }

/-- The module right after power-on: every chiplet DARK, nothing running (spec/18 R314). The focus is on core 0 of the
first compute chiplet, die 21. -/
def State.reset : State :=
  { core := Core.reset 21 0, others := [], mem := [], poison := [], podMem := [], hostMem := [], cxlMem := []
    race := [], gens := ⟨[], [], []⟩, norep := [], replicas := [], tlb := [], leases := [], leaseSerial := []
    echo := [], lossNext := false, lossLoad := false, latches := [], scopeBars := [], colls := [], chainSeq := 0, rings := [], ringTags := [], flits := []
    fields := Vector.replicate 16 Field.reset, areas := [], chips := [], modState := Module.reset
    hosts := Vector.replicate 2 Endpoint.reset, sems := Vector.replicate 8 0#2, semTie := 1, tumbler := [], cyc := 0
    ref := 0, free := 0, stint := 0, agenda := [] }

end Sys2Proof.Machine
end

