-- ==== Sys2Proof/Machine/Mem.lean ====
section
/-!
DEFINITION. Bytes of a memory: reading, writing, little-endian words (spec/04 R68, spec/13 R240), and bit-field helpers
of the register maps. An address that is not listed reads 0x00 (log entry 4); a write keeps the canonical form.
-/

namespace Sys2Proof.Machine

/-- The byte at an address. -/
def Mem.get (m : Mem) (x : Nat) : Byte :=
  match m with
  | [] => 0#8
  | (a, b) :: rest => if a = x then b else if x < a then 0#8 else Mem.get rest x

/-- Writing one byte; writing 0x00 removes the entry. -/
def Mem.put (m : Mem) (x : Nat) (v : Byte) : Mem :=
  match m with
  | [] => if v = 0#8 then [] else [(x, v)]
  | (a, b) :: rest =>
    if x < a then (if v = 0#8 then (a, b) :: rest else (x, v) :: (a, b) :: rest)
    else if x = a then (if v = 0#8 then rest else (a, v) :: rest)
    else (a, b) :: Mem.put rest x v

/-- The canonical form: addresses strictly rising from a bound, no entry 0x00. -/
def Mem.wfFrom (lo : Nat) (m : Mem) : Bool :=
  match m with
  | [] => true
  | (a, b) :: rest => decide (lo ≤ a) && b != 0#8 && Mem.wfFrom (a + 1) rest

def Mem.wf (m : Mem) : Bool := Mem.wfFrom 0 m

def Mem.getBytes (m : Mem) (a n : Nat) : List Byte := (List.range n).map fun k => Mem.get m (a + k)

def Mem.putBytes (m : Mem) (a : Nat) (bs : List Byte) : Mem :=
  match bs with
  | [] => m
  | b :: rest => Mem.putBytes (Mem.put m a b) (a + 1) rest

/-- Little-endian value of bytes. -/
def ofBytes (bs : List Byte) : Nat :=
  match bs with
  | [] => 0
  | b :: rest => b.toNat + 256 * ofBytes rest

/-- The low n bytes of a value, little-endian. -/
def toBytes (n v : Nat) : List Byte :=
  match n with
  | 0 => []
  | k + 1 => BitVec.ofNat 8 v :: toBytes k (v / 256)

def Mem.load (m : Mem) (a n : Nat) : Nat := ofBytes (Mem.getBytes m a n)

def Mem.store (m : Mem) (a n v : Nat) : Mem := Mem.putBytes m a (toBytes n v)

/-! ### Bit fields -/

/-- Bits hi..lo of a register. -/
def bits {n : Nat} (w : BitVec n) (hi lo : Nat) : Nat := (w.toNat / 2 ^ lo) % 2 ^ (hi + 1 - lo)

/-- A register with bits hi..lo replaced. -/
def setBits {n : Nat} (w : BitVec n) (hi lo v : Nat) : BitVec n :=
  BitVec.ofNat n (w.toNat - bits w hi lo * 2 ^ lo + (v % 2 ^ (hi + 1 - lo)) * 2 ^ lo)

/-- The fields of a mask taken from a written value, the rest kept (RW fields of a register map). -/
def blend (mask old new : Word) : Word := (old &&& ~~~mask) ||| (new &&& mask)

/-- The low `len` bits of a value as a two's-complement integer. -/
def signed (v len : Nat) : Int :=
  let x := v % 2 ^ len
  if 2 * x < 2 ^ len then (x : Int) else (x : Int) - (2 ^ len : Nat)

/-- An integer as a word of n bits, two's complement. -/
def wrapInt (n : Nat) (x : Int) : BitVec n := BitVec.ofInt n x

/-- ceil(a / b). -/
def ceilDiv (a b : Nat) : Nat := (a + b - 1) / b

/-- Looking up an index of a sparse table. -/
def lookupD {α : Type} (t : List (Nat × α)) (k : Nat) (d : α) : α :=
  match t with
  | [] => d
  | (j, v) :: rest => if j = k then v else lookupD rest k d

/-- Writing an index of a sparse table. -/
def assign {α : Type} (t : List (Nat × α)) (k : Nat) (v : α) : List (Nat × α) :=
  match t with
  | [] => [(k, v)]
  | (j, w) :: rest => if j = k then (k, v) :: rest else (j, w) :: assign rest k v

end Sys2Proof.Machine
end

