-- ==== Sys2Proof/Machine/Num.lean ====
section
/-!
DEFINITION. Number formats and arithmetic (spec/03 R51 to R67, spec/02 R39): exact values, decoding and encoding of every
bank format, roundings, the orders of minimum and maximum, seeds and transcendental functions.
-/

namespace Sys2Proof.Machine

/-- An exact value: a rational times a power of two with a sign (zero keeps its sign), an infinity, or NaN (R51). -/
inductive Val where
  | fin (neg : Bool) (num den : Nat) (exp : Int)
  | inf (neg : Bool)
  | nan
  deriving DecidableEq, Repr

/-- Rounding modes (R53). -/
inductive Rounding where
  | rne | rz | rup | rdn
  deriving DecidableEq, Repr

def roundingOf (rm : BitVec 2) : Rounding :=
  match rm.toNat with
  | 0 => .rne
  | 1 => .rz
  | 2 => .rup
  | _ => .rdn

/-- Bank formats (spec/02 R36). -/
inductive Fmt where
  | raw | fp32 | fp16 | t8 | t6 | i8 | i32 | af56 | ai56 | m1
  deriving DecidableEq, Repr

/-- The format of a code 0 to 9. -/
def fmtOf (code : Nat) : Fmt :=
  match code with
  | 1 => .fp32
  | 2 => .fp16
  | 3 => .t8
  | 4 => .t6
  | 5 => .i8
  | 6 => .i32
  | 7 => .af56
  | 8 => .ai56
  | 9 => .m1
  | _ => .raw

/-- Bits of a stored code; AF56 and AI56 hold 56 bits in 8 bytes (R60). -/
def Fmt.width (f : Fmt) : Nat :=
  match f with
  | .fp32 | .i32 => 32
  | .fp16 => 16
  | .t6 => 6
  | .af56 | .ai56 => 56
  | .m1 => 1
  | _ => 8

/-- FP32, FP16, T8, T6 and AF56 (spec/11 R196). -/
def Fmt.isFloat (f : Fmt) : Bool :=
  match f with
  | .fp32 | .fp16 | .t8 | .t6 | .af56 => true
  | _ => false

def Val.zero : Val := .fin false 0 1 0

def Val.ofInt (x : Int) : Val := .fin (decide (x < 0)) x.natAbs 1 0

def Val.isZero (v : Val) : Bool :=
  match v with
  | .fin _ n _ _ => n == 0
  | _ => false

def Val.isFinite (v : Val) : Bool :=
  match v with
  | .fin _ _ _ _ => true
  | _ => false

/-- A value times 2^k; zeros, infinities and NaN are not scaled (R51). -/
def Val.scale (v : Val) (k : Int) : Val :=
  match v with
  | .fin s n d e => .fin s n d (e + k)
  | v => v

def Val.neg (v : Val) : Val :=
  match v with
  | .fin s n d e => .fin (!s) n d e
  | .inf s => .inf (!s)
  | .nan => .nan

def Val.abs (v : Val) : Val :=
  match v with
  | .fin _ n d e => .fin false n d e
  | .inf _ => .inf false
  | .nan => .nan

def Val.sign (v : Val) : Bool :=
  match v with
  | .fin s _ _ _ => s
  | .inf s => s
  | .nan => false

/-- n * 2^k for k ≥ 0, n otherwise. -/
def shiftUp (n : Nat) (k : Int) : Nat := n * 2 ^ k.toNat

/-- Exact sum; the sign of an exact zero sum of unlike signs depends on the rounding mode (spec/10 R184). -/
def Val.add (mode : Rounding) (x y : Val) : Val :=
  match x, y with
  | .nan, _ => .nan
  | _, .nan => .nan
  | .inf s, .inf t => if s = t then .inf s else .nan
  | .inf s, _ => .inf s
  | _, .inf t => .inf t
  | .fin s n d e, .fin t m c f =>
    let g := min e f
    let a := shiftUp n (e - g) * c
    let b := shiftUp m (f - g) * d
    if s = t then .fin s (a + b) (d * c) g
    else if a = b then .fin (decide (mode = .rdn)) 0 1 0
    else if b < a then .fin s (a - b) (d * c) g
    else .fin t (b - a) (d * c) g

def Val.mul (x y : Val) : Val :=
  match x, y with
  | .nan, _ => .nan
  | _, .nan => .nan
  | .inf s, y => if y.isZero then .nan else .inf (s != y.sign)
  | x, .inf t => if x.isZero then .nan else .inf (x.sign != t)
  | .fin s n d e, .fin t m c f => .fin (s != t) (n * m) (d * c) (e + f)

def Val.div (x y : Val) : Val :=
  match x, y with
  | .nan, _ => .nan
  | _, .nan => .nan
  | .inf _, .inf _ => .nan
  | .inf s, .fin t _ _ _ => .inf (s != t)
  | .fin s _ _ _, .inf t => .fin (s != t) 0 1 0
  | .fin s n d e, .fin t m c f =>
    if m = 0 then (if n = 0 then .nan else .inf (s != t))
    else .fin (s != t) (n * c) (d * m) (e - f)

/-- Comparing magnitudes: n/d * 2^e against m/c * 2^f. -/
def cmpMag (n d : Nat) (e : Int) (m c : Nat) (f : Int) : Ordering :=
  let g := min e f
  compare (shiftUp n (e - g) * c) (shiftUp m (f - g) * d)

/-- IEEE comparison; none when an operand is NaN (spec/07 R149). -/
def Val.cmp (x y : Val) : Option Ordering :=
  match x, y with
  | .nan, _ => none
  | _, .nan => none
  | .inf s, .inf t => some (if s = t then .eq else if s then .lt else .gt)
  | .inf s, _ => some (if s then .lt else .gt)
  | _, .inf t => some (if t then .gt else .lt)
  | .fin s n d e, .fin t m c f =>
    if n = 0 ∧ m = 0 then some .eq
    else if n = 0 then some (if t then .gt else .lt)
    else if m = 0 then some (if s then .lt else .gt)
    else if s = t then some (if s then cmpMag m c f n d e else cmpMag n d e m c f)
    else some (if s then .lt else .gt)

/-- x below y, with −0 below +0 (R55). -/
def Val.below (x y : Val) : Bool :=
  match x.cmp y with
  | some .lt => true
  | some .eq => x.isZero && x.sign && !y.sign
  | _ => false

/-- R55. -/
def Val.minimum (x y : Val) : Val :=
  match x, y with
  | .nan, y => y
  | x, .nan => x
  | x, y => if y.below x then y else x

def Val.maximum (x y : Val) : Val :=
  match x, y with
  | .nan, y => y
  | x, .nan => x
  | x, y => if x.below y then y else x

/-- The second of two values is the one that minimum (`low`) or maximum selects. -/
def Val.second (low : Bool) (x y : Val) : Bool :=
  match x, y with
  | .nan, _ => true
  | _, .nan => false
  | x, y => if low then y.below x else x.below y

/-- A nonnegative quotient rounded to an integer under a mode, `neg` the sign of the value it belongs to. -/
def roundQuot (mode : Rounding) (neg : Bool) (num den : Nat) : Nat :=
  let q := num / den
  let r := num % den
  if r = 0 then q
  else match mode with
    | .rz => q
    | .rup => if neg then q else q + 1
    | .rdn => if neg then q + 1 else q
    | .rne => if 2 * r < den then q else if den < 2 * r then q + 1 else if q % 2 = 0 then q else q + 1

/-- n/d * 2^e rounded to a multiple of 2^g, in units of 2^g. -/
def roundGrid (mode : Rounding) (neg : Bool) (n d : Nat) (e g : Int) : Nat :=
  roundQuot mode neg (shiftUp n (e - g)) (shiftUp d (g - e))

/-- floor(log2 (n/d * 2^e)) of a positive value. -/
def floorLog (n d : Nat) (e : Int) : Int :=
  let k : Int := (Nat.log2 n : Int) - (Nat.log2 d : Int)
  (if shiftUp d k ≤ shiftUp n (-k) then k else k - 1) + e

/-- A value rounded to an integer (spec/03 R59, spec/10 R186); infinities and NaN are the caller's. -/
def Val.toInt (mode : Rounding) (v : Val) : Int :=
  match v with
  | .fin s n d e =>
    let k := roundGrid mode s n d e 0
    if s then -(k : Int) else (k : Int)
  | _ => 0

/-! ### IEEE formats and AF56 -/

/-- Parameters of a binary format: precision, smallest and largest normal exponent, fraction bits, exponent bits. -/
structure Binary where
  prec : Nat
  emin : Int
  emax : Int
  ebits : Nat
  deriving DecidableEq, Repr

def binary32 : Binary := ⟨24, -126, 127, 8⟩
def binary16 : Binary := ⟨11, -14, 15, 5⟩
def binaryAF56 : Binary := ⟨45, -1022, 1023, 11⟩

/-- The code of a sign, biased exponent and fraction. -/
def Binary.code (b : Binary) (neg : Bool) (biased frac : Nat) : Nat :=
  (if neg then 2 ^ (b.ebits + b.prec - 1) else 0) + biased * 2 ^ (b.prec - 1) + frac

def Binary.nan (b : Binary) : Nat := b.code false (2 ^ b.ebits - 1) (2 ^ (b.prec - 2))
def Binary.infinity (b : Binary) (neg : Bool) : Nat := b.code neg (2 ^ b.ebits - 1) 0
def Binary.largest (b : Binary) (neg : Bool) : Nat := b.code neg (2 ^ b.ebits - 2) (2 ^ (b.prec - 1) - 1)

/-- Encoding (R39, R54, R60): the code, and whether a clamp was made. -/
def Binary.encode (b : Binary) (mode : Rounding) (sat : Bool) (v : Val) : Nat × Bool :=
  match v with
  | .nan => (b.nan, false)
  | .inf s => (b.infinity s, false)
  | .fin s n d e =>
    if n = 0 then (b.code s 0 0, false)
    else
      let l := max (floorLog n d e) b.emin
      let g := l - ((b.prec - 1 : Nat) : Int)
      let k := roundGrid mode s n d e g
      let top := if k = 2 ^ b.prec then l + 1 else l
      let m := if k = 2 ^ b.prec then 2 ^ (b.prec - 1) else k
      if b.emax < top then
        if sat then (b.largest s, true)
        else match mode with
          | .rne => (b.infinity s, false)
          | .rz => (b.largest s, false)
          | .rup => (if s then b.largest s else b.infinity s, false)
          | .rdn => (if s then b.infinity s else b.largest s, false)
      else if m < 2 ^ (b.prec - 1) then (b.code s 0 m, false)
      else (b.code s (top - b.emin + 1).toNat (m - 2 ^ (b.prec - 1)), false)

def Binary.decode (b : Binary) (c : Nat) : Val :=
  let frac := c % 2 ^ (b.prec - 1)
  let biased := c / 2 ^ (b.prec - 1) % 2 ^ b.ebits
  let s := decide (c / 2 ^ (b.ebits + b.prec - 1) % 2 = 1)
  let f : Int := ((b.prec - 1 : Nat) : Int)
  if biased = 2 ^ b.ebits - 1 then (if frac = 0 then .inf s else .nan)
  else if biased = 0 then .fin s frac 1 (b.emin - f)
  else .fin s (frac + 2 ^ (b.prec - 1)) 1 (b.emin + (biased : Int) - 1 - f)

/-! ### Tapered formats -/

/-- Bits of the regime run from the top of a w-bit magnitude (R56). -/
def regimeRun (m : Nat) (b : Nat) (w : Nat) : Nat :=
  match w with
  | 0 => 0
  | k + 1 => if m / 2 ^ k % 2 = b then regimeRun m b k + 1 else 0

/-- The magnitude of a nonzero magnitude code as mantissa and exponent of two (R56). -/
def taperMag (w ebits m : Nat) : Nat × Int :=
  let b := m / 2 ^ (w - 1) % 2
  let l := regimeRun m b w
  let k : Int := if b = 1 then (l : Int) - 1 else -(l : Int)
  let rem := w - l - 1
  let e : Nat := if ebits = 1 ∧ 0 < rem then m / 2 ^ (rem - 1) % 2 else 0
  let rem := if ebits = 1 ∧ 0 < rem then rem - 1 else rem
  (2 ^ rem + m % 2 ^ rem, ((ebits : Int) + 1) * k + (e : Int) - (rem : Int))

def taperDecode (w ebits : Nat) (c : Nat) : Val :=
  let m := c % 2 ^ w
  let s := decide (c / 2 ^ w % 2 = 1)
  if m = 0 then (if s then .nan else .zero)
  else
    let (f, e) := taperMag w ebits m
    .fin s f 1 e

/-- Comparing a positive value with a magnitude code; code 0 is zero. -/
def taperCmp (w ebits m n d : Nat) (e : Int) : Ordering :=
  if m = 0 then .lt
  else
    let (f, g) := taperMag w ebits m
    cmpMag f 1 g n d e

/-- The largest magnitude code not above a positive value (R58). -/
def taperFloor (w ebits n d : Nat) (e : Int) : Nat :=
  (List.range (2 ^ w)).foldl (fun best m => if taperCmp w ebits m n d e = .gt then best else m) 0

/-- Encoding into T8 or T6 (R58). -/
def taperEncode (w ebits : Nat) (mode : Rounding) (sat : Bool) (v : Val) : Nat × Bool :=
  match v with
  | .nan => (2 ^ w, false)
  | .inf _ => (2 ^ w, false)
  | .fin s n d e =>
    if n = 0 then (0, false)
    else
      let top := 2 ^ w - 1
      let code := fun m => if m = 0 then 0 else (if s then 2 ^ w + m else m)
      if taperCmp w ebits top n d e = .lt then
        (if sat then (code top, true) else (2 ^ w, false))
      else
        let lo := taperFloor w ebits n d e
        let hi := lo + 1
        if lo ≠ 0 ∧ taperCmp w ebits lo n d e = .eq then (code lo, false)
        else
          let (fh, eh) := taperMag w ebits hi
          let mid : Nat × Int :=
            if lo = 0 then (fh, eh - 1)
            else
              let (fl, el) := taperMag w ebits lo
              let g := min el eh
              (shiftUp fl (el - g) + shiftUp fh (eh - g), g - 1)
          let m := match mode with
            | .rne => match cmpMag n d e mid.1 1 mid.2 with
              | .lt => lo
              | .gt => hi
              | .eq => if lo % 2 = 0 then lo else hi
            | .rz => lo
            | .rup => if s then lo else hi
            | .rdn => if s then hi else lo
          (code m, false)

/-! ### Integer formats -/

/-- I8 and I32 (R39, R59): range, saturation, wrap. -/
def intEncode (w : Nat) (mode : Rounding) (sat : Bool) (v : Val) : Nat × Bool :=
  let top : Int := 2 ^ (w - 1) - 1
  let bot : Int := -(2 ^ (w - 1))
  let code := fun (x : Int) => (wrapInt w x).toNat
  match v with
  | .nan => (0, false)
  | .inf s => if sat then (code (if s then bot else top), true) else (0, false)
  | v =>
    let x := v.toInt mode
    if sat ∧ top < x then (code top, true)
    else if sat ∧ x < bot then (code bot, true)
    else (code x, false)

/-- The AI56 clamp ±(2^55 − 1) (R59). -/
def clamp56 (x : Int) : Int × Bool :=
  let top : Int := 2 ^ 55 - 1
  if top < x then (top, true) else if x < -top then (-top, true) else (x, false)

def ai56Encode (mode : Rounding) (v : Val) : Nat × Bool :=
  match v with
  | .nan => (0, false)
  | .inf s => ((wrapInt 56 (if s then -(2 ^ 55 - 1) else 2 ^ 55 - 1)).toNat, true)
  | v =>
    let (x, c) := clamp56 (v.toInt mode)
    ((wrapInt 56 x).toNat, c)

/-! ### Bank formats -/

/-- The stored integer of an integer format's code. -/
def codeInt (f : Fmt) (c : Nat) : Int :=
  match f with
  | .i8 => signed c 8
  | .i32 => signed c 32
  | .ai56 => signed c 56
  | _ => (c : Int)

/-- decode(fmt, bits, S) (R51). A RAW code has no value; callers raise BANK_FMT before. -/
def decodeVal (f : Fmt) (c : Nat) (scale : Int) : Val :=
  let v := match f with
    | .fp32 => binary32.decode c
    | .fp16 => binary16.decode c
    | .af56 => binaryAF56.decode c
    | .t8 => taperDecode 7 1 c
    | .t6 => taperDecode 5 0 c
    | .m1 => if c % 2 = 1 then .fin false 1 1 0 else .zero
    | f => Val.ofInt (codeInt f c)
  v.scale scale

/-- encode(fmt, x, S, mode) under a saturation choice (R39): the code and whether SATS is set. -/
def encodeVal (f : Fmt) (v : Val) (scale : Int) (mode : Rounding) (sat : Bool) : Nat × Bool :=
  let y := v.scale (-scale)
  match f with
  | .fp32 => binary32.encode mode sat y
  | .fp16 => binary16.encode mode sat y
  | .af56 => binaryAF56.encode mode sat y
  | .t8 => taperEncode 7 1 mode sat y
  | .t6 => taperEncode 5 0 mode sat y
  | .i8 => intEncode 8 mode sat y
  | .i32 => intEncode 32 mode sat y
  | .ai56 => ai56Encode mode y
  | .m1 => (if y.isZero then 0 else 1, false)
  | .raw => (0, false)

/-- rne56 (R60) as a value. -/
def rne56 (v : Val) : Val := binaryAF56.decode (binaryAF56.encode .rne false v).1

/-- A result rounded once to binary32 (R52), as the 64-bit value a scalar destination receives. -/
def toF32 (mode : Rounding) (v : Val) : Word := BitVec.ofNat 64 (binary32.encode mode false v).1

/-- NEG on an operand element (spec/02 R30), on its code: the sign bit of floats, saturated negation of integers. -/
def negCode (f : Fmt) (c : Nat) : Nat :=
  match f with
  | .fp32 => c ^^^ 2 ^ 31
  | .fp16 => c ^^^ 2 ^ 15
  | .af56 => c ^^^ 2 ^ 55
  | .i8 => (wrapInt 8 (min (-(signed c 8)) 127)).toNat
  | .i32 => (wrapInt 32 (min (-(signed c 32)) (2 ^ 31 - 1))).toNat
  | .ai56 => (wrapInt 56 (min (-(signed c 56)) (2 ^ 55 - 1))).toNat
  | .m1 => 0
  | _ => c

/-- NEG on a decoded value (spec/02 R30): negated after decoding, integers saturated to the format's range, which for M1 is 0 to 1.
A zero of AI56, an integer format and an accumulator's, stays 0 (log entry 90). -/
def negVal (f : Fmt) (scale : Int) (c : Nat) : Val :=
  match f with
  | .i8 | .i32 | .ai56 => decodeVal f (negCode f c) scale
  | .m1 => Val.zero
  | f => (decodeVal f c scale).neg

/-! ### Seeds (R62) -/

/-- Integer square root by bits. -/
def isqrtBits (n : Nat) (k : Nat) (r : Nat) : Nat :=
  match k with
  | 0 => r
  | j + 1 => isqrtBits n j (if (r + 2 ^ j) * (r + 2 ^ j) ≤ n then r + 2 ^ j else r)

def isqrt (n : Nat) : Nat := isqrtBits n (Nat.log2 n / 2 + 1) 0

/-- Rounded RNE to 12 significant bits, exponent unbounded. -/
def round12 (v : Val) : Val :=
  match v with
  | .fin s n d e =>
    if n = 0 then v
    else
      let g := floorLog n d e - 11
      .fin s (roundGrid .rne s n d e g) 1 g
  | v => v

/-- The reciprocal seed. -/
def rcpSeed (v : Val) : Val :=
  match v with
  | .nan => .nan
  | .inf s => .fin s 0 1 0
  | .fin s n d e => if n = 0 then .inf s else round12 (.fin s d n (-e))

/-- 1/√(n/d * 2^e) with 15 exact leading bits and a sticky bit, enough for one rounding to 12 bits. -/
def rsqrtExact (n d : Nat) (e : Int) : Val :=
  let l := floorLog d n (-e)
  let k : Int := 15 - l / 2
  let num := shiftUp d (2 * k - e)
  let den := shiftUp n (e - 2 * k)
  let q := num / den
  let r := isqrt q
  let sticky := if r * r = q ∧ num % den = 0 then 0 else 1
  .fin false (2 * r + sticky) 1 (-k - 1)

def rsqrtSeed (v : Val) : Val :=
  match v with
  | .nan => .nan
  | .inf s => if s then .nan else .zero
  | .fin s n d e => if n = 0 then .inf s else if s then .nan else round12 (rsqrtExact n d e)

/-! ### TEXP2 and TLOG2 (R63): within 2 ulp, the choice free (log entry 7) -/

/-- The lowest binary32 magnitude code within 2 ulp of every value whose truncated code is `c`: below a power of two the codes lie
half as far apart. -/
def lowest2 (c : Nat) : Nat := c - if c % 2 ^ 23 = 0 ∧ 2 ^ 24 ≤ c then 2 else 1

/-- The highest: above a power of two the codes lie twice as far apart, and no infinity is near a finite value. -/
def highest2 (c : Nat) : Nat :=
  min (c + if (c + 1) % 2 ^ 23 = 0 ∧ 2 ^ 23 ≤ c then 1 else 2) (binary32.infinity false - 1)

/-- One of the codes within 2 ulp of a value that lies between bounds with truncated codes `lo` and `hi`. -/
def within2 (lo hi pick : Nat) : Nat := lowest2 hi + pick % (highest2 lo + 1 - lowest2 hi)

/-- 2^(2^−k) scaled by 2^96, for k = 1, 2, … -/
def rootsOfTwo (k : Nat) (r : Nat) : List Nat :=
  match k with
  | 0 => []
  | j + 1 =>
    let s := isqrt (r * 2 ^ 96)
    s :: rootsOfTwo j s

/-- 2^f scaled by 2^96 for f = frac / 2^64. -/
def exp2Fraction (frac : Nat) : Nat :=
  ((rootsOfTwo 64 (2 ^ 97)).zip (List.range 64)).foldl
    (fun acc (r, k) => if frac / 2 ^ (63 - k) % 2 = 1 then acc * r / 2 ^ 96 else acc) (2 ^ 96)

/-- floor(v * 2^64) of a finite value. -/
def floor64 (v : Val) : Int := (v.scale 64).toInt .rdn

/-- 2^x as a binary32 code; `key` is the operand's code, `ctr` the counter of free values. -/
def exp2Code (ctr key : Nat) (v : Val) : Nat :=
  match v with
  | .nan => binary32.nan
  | .inf s => if s then 0 else binary32.infinity false
  | .fin s n d e =>
    let x := floor64 (.fin s n d e)
    let k := x / 2 ^ 64
    let frac := (x % 2 ^ 64).toNat
    if n = 0 then (binary32.encode .rne false (.fin false 1 1 0)).1
    else if 128 ≤ k then binary32.infinity false
    else if Val.cmp (.fin s n d e) (Val.ofInt k) = some .eq ∧ -149 ≤ k then
      (binary32.encode .rne false (.fin false 1 1 k)).1
    else
      let y := exp2Fraction frac
      let code := fun (y : Nat) => (binary32.encode .rz false (.fin false y 1 (max k (-400) - 96))).1
      within2 (code y) (code (y + y / 2 ^ 62)) (Config.exp2Choice ctr key)

/-- Bits of log2 of y / 2^256 in [1, 2): repeated squaring. -/
def log2Bits (k : Nat) (y acc : Nat) : Nat :=
  match k with
  | 0 => acc
  | j + 1 =>
    let z := y * y / 2 ^ 256
    if 2 ^ 257 ≤ z then log2Bits j (z / 2) (2 * acc + 1) else log2Bits j z (2 * acc)

def log2Code (ctr key : Nat) (v : Val) : Nat :=
  match v with
  | .nan => binary32.nan
  | .inf s => if s then binary32.nan else binary32.infinity false
  | .fin s n d e =>
    if n = 0 then binary32.infinity true
    else if s then binary32.nan
    else
      let l := floorLog n d e
      if Val.cmp (.fin false n d e) (.fin false 1 1 l) = some .eq then (binary32.encode .rne false (Val.ofInt l)).1
      else
        let y := shiftUp n (e - l + 256) / shiftUp d (l - e - 256)
        let x : Int := l * 2 ^ 120 + (log2Bits 120 y 0 : Int)
        let code := fun (x : Nat) => (binary32.encode .rz false (.fin false x 1 (-120))).1
        let a := x.natAbs
        let b := (x + 2).natAbs
        within2 (code (min a b)) (code (max a b)) (Config.log2Choice ctr key) + (if x < 0 then 2 ^ 31 else 0)

end Sys2Proof.Machine
end

