-- ==== Sys2Proof/Machine/Flags.lean ====
section
/-!
DEFINITION. Condition codes (spec/07 R149) and the saturation choice of an encode (spec/07 R147, spec/02 R39).
-/

namespace Sys2Proof.Machine

/-- CMP: codes 0 to 9 on 64-bit values (spec/10 R182). -/
def intCond (cond : Nat) (a b : Word) : Bool :=
  match cond with
  | 0 => a == b
  | 1 => a != b
  | 2 => a.slt b
  | 3 => a.sle b
  | 4 => b.slt a
  | 5 => b.sle a
  | 6 => a.ult b
  | 7 => a.ule b
  | 8 => b.ult a
  | 9 => b.ule a
  | _ => false

/-- A condition from an ordering; none is unordered, for which only NE and UN hold. -/
def ordCond (cond : Nat) (o : Option Ordering) : Bool :=
  match cond, o with
  | 0, some .eq => true
  | 1, some .eq => false
  | 1, _ => true
  | 2, some .lt => true
  | 3, some .lt => true
  | 3, some .eq => true
  | 4, some .gt => true
  | 5, some .gt => true
  | 5, some .eq => true
  | 6, some .lt => true
  | 7, some .lt => true
  | 7, some .eq => true
  | 8, some .gt => true
  | 9, some .gt => true
  | 9, some .eq => true
  | 10, none => true
  | 11, some _ => true
  | _, _ => false

/-- FCMP and TCMP in float mode: codes 0 to 5, 10 and 11. -/
def floatCondOk (cond : Nat) : Bool := decide (cond ≤ 5) || cond == 10 || cond == 11

/-- SATM: 0 follows the bank's SAT bit, 1 saturates, 2 does not. -/
def satChoice (satm : BitVec 2) (bankSat : Bool) : Bool :=
  match satm.toNat with
  | 0 => bankSat
  | 1 => true
  | _ => false

end Sys2Proof.Machine
end

