-- ==== Sys2Proof/WellFormed.lean ====
section
/-!
DEFINITION. The encoding checks: which operand kinds each field of an instruction accepts and which MOD values its
class allows (check 2 of spec/07 R152; the tables of R142, R143, R148 and of the instruction reference).
-/

namespace Sys2Proof

namespace Operand

/-- An unused field: the s0 encoding (spec/07 R142). -/
def isNone (o : Operand) : Bool := o == .s 0#5

/-- `s, q` as a destination; a push has a zero payload. -/
def isDst (o : Operand) : Bool := match o with
  | .s _ => true | .q n => n == 0#4 | _ => false

/-- The queue as a destination. -/
def isPush (o : Operand) : Bool := o == .q 0#4

/-- s1 to s31, the counter of LOOP (spec/10 R188). -/
def isSdst (o : Operand) : Bool := match o with
  | .s n => n != 0#5 | _ => false

/-- A predicate destination carries no NOT. -/
def isPdst (o : Operand) : Bool := match o with
  | .p _ inv => !inv | _ => false

/-- `s, q` as a source. -/
def isReg (o : Operand) : Bool := match o with
  | .s _ => true | .q _ => true | _ => false

/-- `s` as a source. -/
def isSreg (o : Operand) : Bool := match o with
  | .s _ => true | _ => false

/-- `s, #` as a source. -/
def isSval (o : Operand) : Bool := match o with
  | .s _ => true | .imm _ => true | _ => false

/-- `s, q, #` as a source. -/
def isVal (o : Operand) : Bool := match o with
  | .s _ => true | .q _ => true | .imm _ => true | _ => false

/-- `s, q, #, p` as a source. -/
def isValp (o : Operand) : Bool := match o with
  | .s _ => true | .q _ => true | .imm _ => true | .p _ _ => true | _ => false

def isPred (o : Operand) : Bool := match o with
  | .p _ _ => true | _ => false

def isImm (o : Operand) : Bool := match o with
  | .imm _ => true | _ => false

/-- A tile source with any of NEG, TRN, ALT. -/
def isTsrc (o : Operand) : Bool := match o with
  | .t _ _ _ _ => true | _ => false

/-- A tile source, or a scalar broadcast (spec/11 R196). -/
def isTval (o : Operand) : Bool := o.isTsrc || o.isVal

def isTnoneg (o : Operand) : Bool := match o with
  | .t _ neg _ _ => !neg | _ => false

def isTvalnoneg (o : Operand) : Bool := o.isTnoneg || o.isVal

def isTnotrn (o : Operand) : Bool := match o with
  | .t _ _ trn _ => !trn | _ => false

/-- A tile with ALT allowed, NEG and TRN not. -/
def isTalt (o : Operand) : Bool := match o with
  | .t _ neg trn _ => !neg && !trn | _ => false

def isTdst (o : Operand) : Bool := o.isTalt

/-- A tile without modifiers. -/
def isTbare (o : Operand) : Bool := match o with
  | .t _ neg trn alt => !neg && !trn && !alt | _ => false

def isSlot (o : Operand) : Bool := match o with
  | .o _ => true | _ => false

/-- A view register pair sN, sN+1 with N from 1 to 30 (spec/14 R262). -/
def isPair (o : Operand) : Bool := match o with
  | .s n => n != 0#5 && n != 31#5 | _ => false

def isXqueue (o : Operand) : Bool := match o with
  | .x sub n => sub == 0#3 && decide (n.toNat ≤ 3) | _ => false

def isGqueue (o : Operand) : Bool := match o with
  | .x sub n => sub == 1#3 && decide (n.toNat ≤ 3) | _ => false

def isXgqueue (o : Operand) : Bool := o.isXqueue || o.isGqueue

def isLine (o : Operand) : Bool := match o with
  | .x sub _ => sub == 2#3 | _ => false

def isMutex (o : Operand) : Bool := match o with
  | .x sub n => sub == 4#3 && decide (n.toNat ≤ 15) | _ => false

def isCount (o : Operand) : Bool := match o with
  | .x sub n => sub == 5#3 && decide (n.toNat ≤ 15) | _ => false

def isLineOrCount (o : Operand) : Bool := o.isLine || o.isCount

/-- A barrier object b0 to b15, a scope barrier of scope code 2 to 5, or an EVENT address in a register (R275). -/
def isBarrier (o : Operand) : Bool := match o with
  | .x sub n => (sub == 3#3 && decide (n.toNat ≤ 15)) ||
      (sub == 6#3 && decide (2 ≤ n.toNat / 8 ∧ n.toNat / 8 ≤ 5))
  | .s _ => true | .q _ => true | _ => false

/-- A kind that may carry a reuse hint (spec/07 R146). -/
def reusable (o : Operand) : Bool := o.isTsrc || o.isSlot

end Operand

/-- RA and RB stand only on tile and slot operands (spec/07 R146). -/
def Args.reuseOk (x : Args) : Bool :=
  (!x.head.ra || x.a.reusable) && (!x.head.rb || x.b.reusable)

/-- The fields of ADD in the all-zero word, which is no instruction (spec/07 R151). -/
def Args.isBlank (x : Args) : Bool :=
  x == ⟨⟨false, 0#3, 0#8, false, false, false⟩, .s 0#5, .s 0#5, .s 0#5⟩

/-- A short immediate within signed bounds. -/
def immIn (o : Operand) (lo hi : Int) : Bool := match o with
  | .imm v => decide (lo ≤ v.toInt ∧ v.toInt ≤ hi) | _ => false

/-- The count of REP: a register, or an immediate of 1 to 16,383 (spec/10 R189). -/
def repCount (o : Operand) : Bool := match o with
  | .imm v => decide (1 ≤ v.toInt) | _ => true

/-- The queue set of XFENCE: some queue is named and no bit above 4 is set (spec/14 R266). -/
def fenceSet (a : Operand) (m : BitVec 4) : Bool := match a with
  | .imm v => decide (v.toNat ≤ 31) && (m != 0#4 || v != 0#15)
  | .s n => n == 0#5 && m != 0#4
  | _ => false

/-- Spaces that hold no such access, width and ORD limits of loads (spec/04 R68, spec/13 R240). -/
def LdMod.ok (m : LdMod) : Bool :=
  m.space != 4#3 && m.space != 5#3 && decide (m.ord.toNat ≤ 1) && (!m.sx || m.w != 3#2)

def StMod.ok (m : StMod) : Bool :=
  m.space != 4#3 && (m.space != 5#3 || m.w == 2#2) && (m.ord == 0#2 || m.ord == 2#2) &&
    (m.sid == 0#4 || m.space == 0#3 || m.space == 2#3 || m.space == 5#3)

/-- Spaces with atomics (spec/04 R68). -/
def atomicSpace (space : BitVec 3) : Bool :=
  space == 0#3 || space == 1#3 || space == 2#3 || space == 7#3

def AtMod.ok (m : AtMod) : Bool := atomicSpace m.space && decide (m.scope.toNat ≤ 5)

def AtMod.floatWidth (m : AtMod) : Bool := m.w == 1#2 || m.w == 2#2

def TrMod.ok (m : TrMod) : Bool :=
  atomicSpace m.space && decide (m.aop.toNat ≤ 8) && decide (m.scope.toNat ≤ 5)

/-- SATM 0b11 is reserved (spec/07 R147). -/
def TMod.satOk (m : TMod) : Bool := m.satm != 3#2

def TMod.plain (m : TMod) : Bool := m.satOk && m.aux == 0#4

def TMod.flag (m : TMod) : Bool := m.satOk && decide (m.aux.toNat ≤ 1)

/-- RM and SATM are unused (spec/11 R197). -/
def TMod.noRound (m : TMod) : Bool := m.rm == 0#2 && m.satm == 0#2

def TMod.bits (m : TMod) : Bool := m.noRound && m.aux == 0#4

def TMod.empty (m : TMod) : Bool := m.bits && m.fovr == 0#4

def TMod.compare (m : TMod) : Bool :=
  m.noRound && (m.fovr == 0#4 || m.fovr == 9#4) && decide (m.aux.toNat ≤ 11)

def TMod.extract (m : TMod) : Bool :=
  m.satm == 0#2 && m.fovr == 0#4 && decide (m.aux.toNat ≤ 1)

def TMod.quant (m : TMod) : Bool := m.plain && m.fovr == 0#4

def AccMod.ok (m : AccMod) : Bool := m.satm != 3#2

/-- The numbers of the system register table (spec/15 R295). -/
def sysListed (n : BitVec 12) : Bool :=
  let k := n.toNat
  decide (k ≤ 0x004) || decide (0x008 ≤ k ∧ k ≤ 0x00B) || decide (0x010 ≤ k ∧ k ≤ 0x01A) ||
    decide (0x020 ≤ k ∧ k ≤ 0x024) || decide (0x030 ≤ k ∧ k ≤ 0x037) || decide (0x040 ≤ k ∧ k ≤ 0x043) ||
    decide (0x050 ≤ k ∧ k ≤ 0x053)

/-- A register with some field that is not RO; a SYSWR of any other raises RESERVED_FIELD (spec/15 R295). -/
def sysWritable (n : BitVec 12) : Bool :=
  let k := n.toNat
  decide (k ≤ 0x004) || decide (0x008 ≤ k ∧ k ≤ 0x00B) || decide (0x010 ≤ k ∧ k ≤ 0x016) || k == 0x018 ||
    k == 0x01A || k == 0x043 || decide (0x050 ≤ k ∧ k ≤ 0x053)

/-- The OP values of spec/07 R150. -/
def opAssigned (op : Nat) : Bool :=
  decide (op ≤ 0x021) || decide (0x080 ≤ op ∧ op ≤ 0x08A) || decide (0x0C0 ≤ op ∧ op ≤ 0x0CD) ||
    decide (0x100 ≤ op ∧ op ≤ 0x112) || decide (0x180 ≤ op ∧ op ≤ 0x183) || decide (0x1C0 ≤ op ∧ op ≤ 0x1C5) ||
    decide (0x200 ≤ op ∧ op ≤ 0x22B) || decide (0x300 ≤ op ∧ op ≤ 0x308) || decide (0x340 ≤ op ∧ op ≤ 0x34B) ||
    decide (0x380 ≤ op ∧ op ≤ 0x391) || decide (0x3C0 ≤ op ∧ op ≤ 0x3C8) || decide (0x3E0 ≤ op ∧ op ≤ 0x3EA)

/-- The all-zero word, the all-ones word and every unassigned OP value (spec/07 R151). -/
def notAnInstruction (w : InstrWord) : Bool :=
  w == 0#96 || w == BitVec.allOnes 96 || !opAssigned (w.extractLsb' 86 10).toNat


/-- The encoding checks of an instruction (check 2 of spec/07 R152): operand kinds and MOD values, from its entry. An
event has no encoding; a word that is no instruction is itself. LIW has no operand A or B, and its RA and RB bits are not checked (log
entry 107). -/
def WellFormed (i : Instr) : Bool :=
  match i with
  | .add_ x => x.reuseOk && x.d.isDst && x.a.isVal && x.b.isVal && !x.isBlank
  | .sub_ x => x.reuseOk && x.d.isDst && x.a.isVal && x.b.isVal
  | .mul_ x => x.reuseOk && x.d.isDst && x.a.isVal && x.b.isVal
  | .mulh x => x.reuseOk && x.d.isDst && x.a.isVal && x.b.isVal
  | .mulhn x => x.reuseOk && x.d.isDst && x.a.isVal && x.b.isVal
  | .div_ x => x.reuseOk && x.d.isDst && x.a.isVal && x.b.isVal
  | .divn x => x.reuseOk && x.d.isDst && x.a.isVal && x.b.isVal
  | .mod_ x => x.reuseOk && x.d.isDst && x.a.isVal && x.b.isVal
  | .modn x => x.reuseOk && x.d.isDst && x.a.isVal && x.b.isVal
  | .and_ x => x.reuseOk && x.d.isDst && x.a.isVal && x.b.isVal
  | .or_ x => x.reuseOk && x.d.isDst && x.a.isVal && x.b.isVal
  | .xor_ x => x.reuseOk && x.d.isDst && x.a.isVal && x.b.isVal
  | .andn x => x.reuseOk && x.d.isDst && x.a.isVal && x.b.isVal
  | .orn x => x.reuseOk && x.d.isDst && x.a.isVal && x.b.isVal
  | .shl x => x.reuseOk && x.d.isDst && x.a.isVal && x.b.isVal
  | .shr x => x.reuseOk && x.d.isDst && x.a.isVal && x.b.isVal
  | .sha x => x.reuseOk && x.d.isDst && x.a.isVal && x.b.isVal
  | .rol x => x.reuseOk && x.d.isDst && x.a.isVal && x.b.isVal
  | .min_ x => x.reuseOk && x.d.isDst && x.a.isVal && x.b.isVal
  | .max_ x => x.reuseOk && x.d.isDst && x.a.isVal && x.b.isVal
  | .minn x => x.reuseOk && x.d.isDst && x.a.isVal && x.b.isVal
  | .maxn x => x.reuseOk && x.d.isDst && x.a.isVal && x.b.isVal
  | .clz x => x.reuseOk && x.d.isDst && x.a.isReg && x.b.isNone
  | .ctz x => x.reuseOk && x.d.isDst && x.a.isReg && x.b.isNone
  | .popc x => x.reuseOk && x.d.isDst && x.a.isReg && x.b.isNone
  | .sext x _ => x.reuseOk && x.d.isDst && x.a.isReg && x.b.isNone
  | .zext x _ => x.reuseOk && x.d.isDst && x.a.isReg && x.b.isNone
  | .bfx x _ => x.reuseOk && x.d.isDst && x.a.isReg && x.b.isNone
  | .bfi x _ => x.reuseOk && x.d.isDst && x.a.isVal && x.b.isVal
  | .mov x => x.reuseOk && x.d.isDst && x.a.isValp && x.b.isNone
  | .liw _ d _ => d.isDst
  | .lea x _ => x.reuseOk && x.d.isDst && x.a.isVal && x.b.isVal
  | .cmp x m => x.reuseOk && x.d.isPdst && x.a.isVal && x.b.isVal && decide (m.toNat ≤ 9)
  | .sel x => x.reuseOk && x.d.isDst && x.a.isPred && x.b.isVal
  | .fadd x _ => x.reuseOk && x.d.isDst && x.a.isVal && x.b.isVal
  | .fsub x _ => x.reuseOk && x.d.isDst && x.a.isVal && x.b.isVal
  | .fmul x _ => x.reuseOk && x.d.isDst && x.a.isVal && x.b.isVal
  | .ffma x _ => x.reuseOk && x.d.isDst && x.a.isVal && x.b.isVal
  | .fmin x => x.reuseOk && x.d.isDst && x.a.isVal && x.b.isVal
  | .fmax x => x.reuseOk && x.d.isDst && x.a.isVal && x.b.isVal
  | .fcmp x m => x.reuseOk && x.d.isPdst && x.a.isVal && x.b.isVal && (m.toNat ≤ 5 || m == 10#4 || m == 11#4)
  | .fcvti x _ => x.reuseOk && x.d.isDst && x.a.isVal && x.b.isNone
  | .fcvtf x _ => x.reuseOk && x.d.isDst && x.a.isVal && x.b.isNone
  | .frsqs x => x.reuseOk && x.d.isDst && x.a.isVal && x.b.isNone
  | .frcps x => x.reuseOk && x.d.isDst && x.a.isVal && x.b.isNone
  | .nop x => x.reuseOk && x.d.isNone && x.a.isNone && x.b.isNone
  | .pand x => x.reuseOk && x.d.isPdst && x.a.isPred && x.b.isPred
  | .por x => x.reuseOk && x.d.isPdst && x.a.isPred && x.b.isPred
  | .pxor x => x.reuseOk && x.d.isPdst && x.a.isPred && x.b.isPred
  | .pnot x => x.reuseOk && x.d.isPdst && x.a.isPred && x.b.isNone
  | .bra x => x.reuseOk && x.d.isNone && x.a.isImm && x.b.isNone
  | .brx x => x.reuseOk && x.d.isNone && x.a.isReg && x.b.isVal
  | .call x => x.reuseOk && x.d.isDst && x.a.isVal && x.b.isNone
  | .ret x => x.reuseOk && x.d.isNone && x.a.isReg && x.b.isNone
  | .loop x => x.reuseOk && x.d.isSdst && x.a.isImm && x.b.isNone
  | .rep x _ => x.reuseOk && x.d.isNone && x.a.isVal && x.b.isNone && repCount x.a
  | .waitc x _ => x.reuseOk && x.d.isNone && x.a.isVal && x.b.isNone
  | .yield x => x.reuseOk && x.d.isNone && x.a.isImm && x.b.isNone && immIn x.a 1 1024
  | .end_ x => x.reuseOk && x.d.isNone && x.a.isNone && x.b.isNone
  | .ld x m => x.reuseOk && x.d.isDst && x.a.isSreg && x.b.isSval && m.ok
  | .st x m => x.reuseOk && x.d.isReg && x.a.isSreg && x.b.isSval && m.ok
  | .ldp x m => x.reuseOk && x.d.isPdst && x.a.isSreg && x.b.isSval && (m.ok && !m.sx)
  | .aadd x m => x.reuseOk && x.d.isDst && x.a.isSreg && x.b.isVal && (m.ok && !m.u)
  | .amin x m => x.reuseOk && x.d.isDst && x.a.isSreg && x.b.isVal && m.ok
  | .amax x m => x.reuseOk && x.d.isDst && x.a.isSreg && x.b.isVal && m.ok
  | .aand x m => x.reuseOk && x.d.isDst && x.a.isSreg && x.b.isVal && (m.ok && !m.u)
  | .aor x m => x.reuseOk && x.d.isDst && x.a.isSreg && x.b.isVal && (m.ok && !m.u)
  | .axor x m => x.reuseOk && x.d.isDst && x.a.isSreg && x.b.isVal && (m.ok && !m.u)
  | .aswp x m => x.reuseOk && x.d.isDst && x.a.isSreg && x.b.isVal && (m.ok && !m.u)
  | .acas x m => x.reuseOk && x.d.isDst && x.a.isSreg && x.b.isVal && (m.ok && !m.u)
  | .afadd x m => x.reuseOk && x.d.isDst && x.a.isSreg && x.b.isVal && (m.ok && !m.u && m.floatWidth)
  | .afmin x m => x.reuseOk && x.d.isDst && x.a.isSreg && x.b.isVal && (m.ok && !m.u && m.floatWidth)
  | .afmax x m => x.reuseOk && x.d.isDst && x.a.isSreg && x.b.isVal && (m.ok && !m.u && m.floatWidth)
  | .tred x m => x.reuseOk && x.d.isTsrc && x.a.isSreg && x.b.isVal && m.ok
  | .fence x m => x.reuseOk && x.d.isNone && x.a.isNone && x.b.isNone && decide (m.toNat ≤ 5)
  | .fencesc x => x.reuseOk && x.d.isNone && x.a.isNone && x.b.isNone
  | .lflush x m => x.reuseOk && x.d.isNone && x.a.isSreg && x.b.isSval && (m == 0#3 || m == 7#3)
  | .linv x m => x.reuseOk && x.d.isNone && x.a.isSreg && x.b.isSval && m == 0#3
  | .sbind x => x.reuseOk && x.d.isTbare && x.a.isVal && x.b.isNone
  | .sfree x => x.reuseOk && x.d.isTbare && x.a.isNone && x.b.isNone
  | .sskip x => x.reuseOk && x.d.isTbare && x.a.isVal && x.b.isNone
  | .sstat x => x.reuseOk && x.d.isDst && x.a.isTbare && x.b.isNone
  | .tdef x => x.reuseOk && x.d.isTbare && x.a.isReg && x.b.isVal
  | .tview x m => x.reuseOk && x.d.isTbare && x.a.isTalt && x.b.isVal && decide (m.toNat ≤ 8)
  | .tviewOrigin x => x.reuseOk && x.d.isTbare && x.a.isTalt && x.b.isVal
  | .tedge x m => x.reuseOk && x.d.isTbare && x.a.isTalt && ((m.toNat ≤ 1 && x.b.isVal) || (m == 2#4 && x.b.isNone))
  | .tinfo x m => x.reuseOk && x.d.isDst && x.a.isTalt && x.b.isNone && (m.toNat ≤ 14 && m != 9#4)
  | .bfset x _ => x.reuseOk && x.d.isNone && x.a.isVal && x.b.isNone
  | .bfget x _ => x.reuseOk && x.d.isDst && x.a.isNone && x.b.isNone
  | .tmov x m => x.reuseOk && x.d.isTdst && x.a.isTsrc && x.b.isNone && m.plain
  | .tcvt x m => x.reuseOk && x.d.isTdst && x.a.isTsrc && x.b.isNone && m.satOk
  | .tfill x m => x.reuseOk && x.d.isTdst && x.a.isVal && x.b.isNone && m.plain
  | .tiota x m => x.reuseOk && x.d.isTdst && x.a.isVal && x.b.isVal && (m.satOk && m.aux.toNat ≤ 2)
  | .tadd x m => x.reuseOk && x.d.isTdst && x.a.isTsrc && x.b.isTval && m.plain
  | .tsub x m => x.reuseOk && x.d.isTdst && x.a.isTsrc && x.b.isTval && m.plain
  | .tmul x m => x.reuseOk && x.d.isTdst && x.a.isTsrc && x.b.isTval && m.plain
  | .tfma x m => x.reuseOk && x.d.isTdst && x.a.isTsrc && x.b.isTval && m.plain
  | .tdiv x m => x.reuseOk && x.d.isTdst && x.a.isTsrc && x.b.isTval && m.plain
  | .tmin x m => x.reuseOk && x.d.isTdst && x.a.isTsrc && x.b.isTval && m.plain
  | .tmax x m => x.reuseOk && x.d.isTdst && x.a.isTsrc && x.b.isTval && m.plain
  | .tabs x m => x.reuseOk && x.d.isTdst && x.a.isTsrc && x.b.isNone && m.plain
  | .tclamp x m => x.reuseOk && x.d.isTdst && x.a.isTsrc && x.b.isReg && m.plain
  | .tand x m => x.reuseOk && x.d.isTdst && x.a.isTnoneg && x.b.isTvalnoneg && m.bits
  | .tor x m => x.reuseOk && x.d.isTdst && x.a.isTnoneg && x.b.isTvalnoneg && m.bits
  | .txor x m => x.reuseOk && x.d.isTdst && x.a.isTnoneg && x.b.isTvalnoneg && m.bits
  | .tnot x m => x.reuseOk && x.d.isTdst && x.a.isTnoneg && x.b.isNone && m.bits
  | .tshl x m => x.reuseOk && x.d.isTdst && x.a.isTnoneg && x.b.isTvalnoneg && m.bits
  | .tshr x m => x.reuseOk && x.d.isTdst && x.a.isTnoneg && x.b.isTvalnoneg && (m.noRound && m.aux.toNat ≤ 1)
  | .tcmp x m => x.reuseOk && x.d.isTdst && x.a.isTsrc && x.b.isTval && m.compare
  | .tsel x m => x.reuseOk && x.d.isTdst && x.a.isTsrc && x.b.isTval && m.plain
  | .tany x m => x.reuseOk && x.d.isPdst && x.a.isTsrc && x.b.isNone && m.empty
  | .tall x m => x.reuseOk && x.d.isPdst && x.a.isTsrc && x.b.isNone && m.empty
  | .tcnt x m => x.reuseOk && x.d.isDst && x.a.isTsrc && x.b.isNone && m.empty
  | .trsqs x m => x.reuseOk && x.d.isTdst && x.a.isTsrc && x.b.isNone && m.plain
  | .trcps x m => x.reuseOk && x.d.isTdst && x.a.isTsrc && x.b.isNone && m.plain
  | .texp2 x m => x.reuseOk && x.d.isTdst && x.a.isTsrc && x.b.isNone && m.plain
  | .tlog2 x m => x.reuseOk && x.d.isTdst && x.a.isTsrc && x.b.isNone && m.plain
  | .trsum x m => x.reuseOk && x.d.isTdst && x.a.isTsrc && x.b.isNone && m.plain
  | .tcsum x m => x.reuseOk && x.d.isTdst && x.a.isTsrc && x.b.isNone && m.plain
  | .trmax x m => x.reuseOk && x.d.isTdst && x.a.isTsrc && x.b.isNone && m.plain
  | .tcmax x m => x.reuseOk && x.d.isTdst && x.a.isTsrc && x.b.isNone && m.plain
  | .ttrn x m => x.reuseOk && x.d.isTdst && x.a.isTsrc && x.b.isNone && m.plain
  | .tshf x m => x.reuseOk && x.d.isTdst && x.a.isTsrc && x.b.isVal && m.flag
  | .tbcr x m => x.reuseOk && x.d.isTdst && x.a.isTsrc && x.b.isVal && m.plain
  | .tbcc x m => x.reuseOk && x.d.isTdst && x.a.isTsrc && x.b.isVal && m.plain
  | .tgath x m => x.reuseOk && x.d.isTdst && x.a.isTsrc && x.b.isTsrc && m.plain
  | .tscat x m => x.reuseOk && x.d.isTdst && x.a.isTsrc && x.b.isTsrc && m.plain
  | .text x m => x.reuseOk && x.d.isDst && x.a.isTsrc && x.b.isVal && m.extract
  | .tins x m => x.reuseOk && x.d.isTdst && x.a.isVal && x.b.isVal && m.flag
  | .tsten x m => x.reuseOk && x.d.isTdst && x.a.isTnotrn && x.b.isVal && (m.satOk && m.aux.toNat ≤ 2)
  | .tquant x m => x.reuseOk && x.d.isTdst && x.a.isTsrc && x.b.isNone && m.quant
  | .tnrm2 x m => x.reuseOk && x.d.isTdst && x.a.isTsrc && x.b.isNone && m.plain
  | .trowp x m => x.reuseOk && x.d.isTdst && x.a.isTsrc && x.b.isTsrc && m.plain
  | .oclaim x => x.reuseOk && x.d.isSlot && x.a.isNone && x.b.isNone
  | .orel x => x.reuseOk && x.d.isSlot && x.a.isNone && x.b.isNone
  | .oload x => x.reuseOk && x.d.isSlot && x.a.isTalt && x.b.isNone
  | .oloadUnload x => x.reuseOk && x.d.isTalt && x.a.isSlot && x.b.isNone
  | .oinfo x => x.reuseOk && x.d.isDst && x.a.isSlot && x.b.isNone
  | .mma x _ => x.reuseOk && x.d.isTalt && x.a.isSlot && x.b.isSlot
  | .azero x => x.reuseOk && x.d.isTdst && x.a.isNone && x.b.isNone
  | .acvt x m => x.reuseOk && x.d.isTdst && x.a.isTsrc && x.b.isVal && m.ok
  | .aaddt x m => x.reuseOk && x.d.isTdst && x.a.isTsrc && x.b.isNone && m.ok
  | .ascl x m => x.reuseOk && x.d.isTdst && x.a.isVal && x.b.isNone && m.ok
  | .xcopy x _ => x.reuseOk && x.d.isDst && x.a.isTalt && x.b.isPair
  | .xcopyViewToTile x _ => x.reuseOk && x.d.isDst && x.a.isPair && x.b.isTalt
  | .xcast x _ => x.reuseOk && x.d.isDst && x.a.isTalt && x.b.isPair
  | .xlease x _ => x.reuseOk && x.d.isDst && x.a.isReg && x.b.isReg
  | .xfree x _ => x.reuseOk && x.d.isDst && x.a.isReg && x.b.isNone
  | .xfence x m => x.reuseOk && x.d.isNone && x.b.isNone && fenceSet x.a m
  | .xwait x => x.reuseOk && x.d.isNone && x.a.isXgqueue && x.b.isVal
  | .xstat x => x.reuseOk && x.d.isDst && x.a.isXqueue && x.b.isNone
  | .gtab x _ => x.reuseOk && x.d.isNone && x.a.isVal && x.b.isImm && immIn x.b 0 3
  | .grest x _ => x.reuseOk && x.d.isTbare && x.a.isTbare && x.b.isReg
  | .gprol x _ => x.reuseOk && x.d.isTbare && x.a.isTbare && x.b.isReg
  | .gconv x _ => x.reuseOk && x.d.isTbare && x.a.isTbare && x.b.isReg
  | .gstat x => x.reuseOk && x.d.isDst && x.a.isGqueue && x.b.isNone
  | .ewait x m => x.reuseOk && x.d.isPush && x.a.isLine && (if m then x.b.isVal else x.b.isNone)
  | .esig x => x.reuseOk && x.d.isNone && x.a.isLine && x.b.isVal
  | .eclr x => x.reuseOk && x.d.isNone && x.a.isLineOrCount && x.b.isNone
  | .earm x _ => x.reuseOk && x.d.isNone && x.a.isCount && x.b.isVal
  | .epost x => x.reuseOk && x.d.isNone && x.a.isReg && x.b.isVal
  | .barv x => x.reuseOk && x.d.isNone && x.a.isBarrier && x.b.isNone
  | .barvNb x => x.reuseOk && x.d.isNone && x.a.isBarrier && x.b.isNone
  | .barvDrop x => x.reuseOk && x.d.isNone && x.a.isBarrier && x.b.isNone
  | .barvJoin x => x.reuseOk && x.d.isNone && x.a.isBarrier && x.b.isNone
  | .barvTimed x => x.reuseOk && x.d.isNone && x.a.isBarrier && x.b.isNone
  | .bwait x => x.reuseOk && x.d.isPush && x.a.isNone && x.b.isNone
  | .mlock x _ => x.reuseOk && x.d.isPush && x.a.isMutex && x.b.isNone
  | .mtry x => x.reuseOk && x.d.isPdst && x.a.isMutex && x.b.isNone
  | .munl x => x.reuseOk && x.d.isNone && x.a.isMutex && x.b.isNone
  | .copen x => x.reuseOk && x.d.isNone && x.a.isReg && x.b.isNone
  | .cinj x => x.reuseOk && x.d.isNone && x.a.isVal && x.b.isVal
  | .cext x => x.reuseOk && x.d.isNone && x.a.isVal && x.b.isVal
  | .cclose x => x.reuseOk && x.d.isPush && x.a.isVal && x.b.isNone
  | .phaseFree x => x.reuseOk && x.d.isNone && x.a.isNone && x.b.isNone
  | .phaseTimed x => x.reuseOk && x.d.isNone && x.a.isNone && x.b.isNone
  | .phaseComm x => x.reuseOk && x.d.isNone && x.a.isNone && x.b.isNone
  | .send x _ => x.reuseOk && x.d.isNone && x.a.isTalt && x.b.isNone
  | .recv x _ => x.reuseOk && x.d.isTbare && x.a.isNone && x.b.isNone
  | .cyc x _ => x.reuseOk && x.d.isDst && x.a.isNone && x.b.isNone
  | .jpost x => x.reuseOk && x.d.isDst && x.a.isReg && x.b.isVal
  | .jtake x => x.reuseOk && x.d.isDst && x.a.isNone && x.b.isNone
  | .jdone x => x.reuseOk && x.d.isNone && x.a.isNone && x.b.isNone
  | .jcancel x => x.reuseOk && x.d.isDst && x.a.isReg && x.b.isNone
  | .jstat x => x.reuseOk && x.d.isDst && x.a.isReg && x.b.isNone
  | .rput x _ => x.reuseOk && x.d.isNone && x.a.isReg && x.b.isVal
  | .rget x => x.reuseOk && x.d.isDst && x.a.isReg && x.b.isVal
  | .reos x _ => x.reuseOk && x.d.isNone && x.a.isReg && x.b.isNone
  | .rstat x => x.reuseOk && x.d.isDst && x.a.isReg && x.b.isNone
  | .trap x => x.reuseOk && x.d.isNone && x.a.isImm && x.b.isNone && immIn x.a 0 16383
  | .eret x => x.reuseOk && x.d.isNone && x.a.isNone && x.b.isNone
  | .sysrd x m => x.reuseOk && x.d.isDst && x.a.isNone && x.b.isNone && (sysListed m && m != 0x018#12)
  | .aechoRead x => x.reuseOk && x.d.isDst && x.a.isNone && x.b.isNone
  | .syswr x m => x.reuseOk && x.d.isNone && x.a.isVal && x.b.isNone && (sysWritable m && m != 0x018#12)
  | .aechoWrite x => x.reuseOk && x.d.isNone && x.a.isVal && x.b.isNone
  | .ackpre x => x.reuseOk && x.d.isNone && x.a.isNone && x.b.isNone
  | .start x _ => x.reuseOk && x.d.isNone && x.a.isReg && x.b.isVal
  | .isfence x => x.reuseOk && x.d.isNone && x.a.isNone && x.b.isNone
  | .bkpt x => x.reuseOk && x.d.isNone && x.a.isImm && x.b.isNone && immIn x.a 0 16383
  | .haltc x => x.reuseOk && x.d.isNone && x.a.isNone && x.b.isNone
  | .vinvPage x => x.reuseOk && x.d.isNone && x.a.isReg && x.b.isNone
  | .vinvAll x => x.reuseOk && x.d.isNone && x.a.isNone && x.b.isNone
  | .dflush x => x.reuseOk && x.d.isDst && x.a.isVal && x.b.isNone
  | .atomicEchoReply => true
  | .pendingCauseService => true
  | .timingRollback _ => true
  | .timedRerelease => true
  | .timedRegionBase => true
  | .preemptAtRestartPoint => true
  | .transferCommandStart _ _ => true
  | .transferCommandCompletion _ => true
  | .roodCommandStart _ => true
  | .roodCommandCompletion _ => true
  | .streamFill _ => true
  | .matrixQueuePerform => true
  | .leaseExpiry _ => true
  | .peerWriteArrival _ => true
  | .accessAtHome _ => true
  | .accessResponseArrival _ => true
  | .atomicResponseLost => true
  | .scTickCompletion => true
  | .pageWalk _ => true
  | .collapseSequence _ => true
  | .raceRecordSweep => true
  | .chainNodeCombine _ _ _ => true
  | .staticFlitArrival _ => true
  | .linkRetry _ _ => true
  | .bondDeath _ _ => true
  | .startDelivery _ => true
  | .dispatchRequest _ => true
  | .cardPromotion _ _ => true
  | .dependenceRead _ _ => true
  | .tumblerScan _ => true
  | .fdefCreate _ _ _ => true
  | .fdefCreateRestore _ _ _ => true
  | .fdefDelete _ => true
  | .fcmdPreempt _ _ => true
  | .preemptCopy _ => true
  | .preemptTimeout _ => true
  | .fcmdRestore _ _ => true
  | .fcmdKill _ _ => true
  | .powerFail => true
  | .powerReturn => true
  | .powerOn => true
  | .moduleReset => true
  | .rootVerify _ _ => true
  | .wavefrontArrival _ _ _ => true
  | .clockRootAdopt _ => true
  | .clockLock _ => true
  | .bondTrainingDone _ _ _ => true
  | .partnerLockTimeout _ _ => true
  | .identRecord _ _ => true
  | .masterCollectionEnd => true
  | .masterTableWrite _ => true
  | .go => true
  | .fenceCommand _ => true
  | .routerFault _ => true
  | .evacuation _ _ => true
  | .hpctxPost _ _ _ => true
  | .semAcquire _ _ _ => true
  | .semRelease _ _ _ => true
  | .dqtailWrite _ _ => true
  | .dqctlWrite _ _ => true
  | .hostDmaDescriptorStart _ => true
  | .hostDmaDescriptorDone _ _ => true
  | .hostBar4Access _ _ _ _ => true
  | .endpointLinkDown _ => true
  | .attestStart _ _ => true
  | .attestReportDone _ _ => true
  | .nselWrite _ _ _ => true
  | .rteWrite _ _ _ => true
  | .trootWrite _ _ => true
  | .windowWrite _ _ _ _ _ => true
  | .mcattWrite _ _ => true
  | .dsetWrite _ _ => true
  | .rpctlWrite _ _ => true
  | .replayDivergence _ => true
  | .configRegisterWrite _ _ _ _ => true
  | .firmwareUpdate _ _ => true
  | .recoveryImageWrite _ _ => true
  | .powerThrottle => true
  | .holdupEnergyExhausted _ => true
  | .wordNotInstruction w => notAnInstruction w

end Sys2Proof
end

