-- ==== Sys2Proof/Decode.lean ====
section
/-!
DEFINITION. Decoding of a 96-bit word (spec/07 R139 to R152): total, and a word that the encoding checks refuse is
rejected by name. After it the encoder, written from the same tables, and the layout of a word in the instruction
store (R140).
-/

namespace Sys2Proof

/-- Why check 2 of spec/07 R152 refuses a word; each raises RESERVED_FIELD. -/
inductive Reject where
  /-- An operand field of kind 0b111. -/
  | operandKind
  /-- A nonzero bit that the layout requires to be zero, in an operand payload, in MOD or in HINT. -/
  | reservedBits
  /-- A kind a field does not accept, or a MOD value the class does not allow. -/
  | form
  deriving DecidableEq, Repr

/-- The 18-bit code of an operand field (spec/07 R142). -/
def encodeOperand (o : Operand) : BitVec 18 :=
  match o with
  | .s n => 0b000#3 ++ n ++ 0#10
  | .q n => 0b001#3 ++ 0#1 ++ n ++ 0#10
  | .t n neg trn alt => 0b010#3 ++ n ++ BitVec.ofBool neg ++ BitVec.ofBool trn ++ BitVec.ofBool alt ++ 0#7
  | .p n inv => 0b011#3 ++ BitVec.ofBool inv ++ 0#1 ++ n ++ 0#10
  | .imm v => 0b100#3 ++ v
  | .o n => 0b101#3 ++ 0#1 ++ n ++ 0#10
  | .x sub n => 0b110#3 ++ sub ++ n ++ 0#6

/-- An operand field read by its kind bits; kind 0b111 is no operand. Bits the kind requires to be zero are judged by
`decode`, which compares the word with its own encoding. -/
def decodeOperand (f : BitVec 18) : Option Operand :=
  match (f.extractLsb' 15 3).toNat with
  | 0 => some (.s (f.extractLsb' 10 5))
  | 1 => some (.q (f.extractLsb' 10 4))
  | 2 => some (.t (f.extractLsb' 10 5) (f.getLsbD 9) (f.getLsbD 8) (f.getLsbD 7))
  | 3 => some (.p (f.extractLsb' 10 3) (f.getLsbD 14))
  | 4 => some (.imm (f.extractLsb' 0 15))
  | 5 => some (.o (f.extractLsb' 10 4))
  | 6 => some (.x (f.extractLsb' 12 3) (f.extractLsb' 6 6))
  | _ => none

/-- HINT (spec/07 R146). -/
def encodeHint (h : Head) : BitVec 16 :=
  h.delta ++ BitVec.ofBool h.rp ++ BitVec.ofBool h.ra ++ BitVec.ofBool h.rb ++ 0#5

/-- A word from its parts (spec/07 R139). -/
def pack (op : BitVec 10) (x : Args) (m : BitVec 12) : InstrWord :=
  op ++ BitVec.ofBool x.head.gneg ++ x.head.gp ++ encodeOperand x.d ++ encodeOperand x.a ++ encodeOperand x.b ++ m ++
    encodeHint x.head

/-- The word of LIW, whose immediate is bits 63..16 (spec/07 R145). -/
def packWide (op : BitVec 10) (h : Head) (d : Operand) (v : BitVec 48) : InstrWord :=
  op ++ BitVec.ofBool h.gneg ++ h.gp ++ encodeOperand d ++ v ++ encodeHint h

/-- Guard and hints of a word. -/
def headOf (w : InstrWord) : Head :=
  { gneg := w.getLsbD 85, gp := w.extractLsb' 82 3, delta := w.extractLsb' 8 8, rp := w.getLsbD 7, ra := w.getLsbD 6,
    rb := w.getLsbD 5 }


def encLen (m : BitVec 6) : BitVec 12 := m.zeroExtend 12

def decLen (w : BitVec 12) : BitVec 6 := w.extractLsb' 0 6

def encRm (m : BitVec 2) : BitVec 12 := m ++ 0#10

def decRm (w : BitVec 12) : BitVec 2 := w.extractLsb' 10 2

def encSh (m : BitVec 3) : BitVec 12 := m.zeroExtend 12

def decSh (w : BitVec 12) : BitVec 3 := w.extractLsb' 0 3

def encCond (m : BitVec 4) : BitVec 12 := 0#2 ++ m ++ 0#6

def decCond (w : BitVec 12) : BitVec 4 := w.extractLsb' 6 4

def encAbs (m : Bool) : BitVec 12 := 0#11 ++ BitVec.ofBool m

def decAbs (w : BitVec 12) : Bool := w.getLsbD 0

def encScope (m : BitVec 3) : BitVec 12 := 0#7 ++ m ++ 0#2

def decScope (w : BitVec 12) : BitVec 3 := w.extractLsb' 2 3

def encSpace (m : BitVec 3) : BitVec 12 := m ++ 0#9

def decSpace (w : BitVec 12) : BitVec 3 := w.extractLsb' 9 3

def encFsel (m : BitVec 4) : BitVec 12 := m ++ 0#8

def decFsel (w : BitVec 12) : BitVec 4 := w.extractLsb' 8 4

def encBank (m : BitVec 4) : BitVec 12 := m.zeroExtend 12

def decBank (w : BitVec 12) : BitVec 4 := w.extractLsb' 0 4

def encQsel (m : BitVec 2) : BitVec 12 := 0#2 ++ m ++ 0#8

def decQsel (w : BitVec 12) : BitVec 2 := w.extractLsb' 8 2

def encXSet (m : BitVec 4) : BitVec 12 := m.zeroExtend 12

def decXSet (w : BitVec 12) : BitVec 4 := w.extractLsb' 0 4

def encLine (m : BitVec 6) : BitVec 12 := m.zeroExtend 12

def decLine (w : BitVec 12) : BitVec 6 := w.extractLsb' 0 6

def encPd (m : BitVec 3) : BitVec 12 := m.zeroExtend 12

def decPd (w : BitVec 12) : BitVec 3 := w.extractLsb' 0 3

def encRoute (m : BitVec 8) : BitVec 12 := m.zeroExtend 12

def decRoute (w : BitVec 12) : BitVec 8 := w.extractLsb' 0 8

def encProd (m : BitVec 4) : BitVec 12 := m.zeroExtend 12

def decProd (w : BitVec 12) : BitVec 4 := w.extractLsb' 0 4

def encSysN (m : BitVec 12) : BitVec 12 := m

def decSysN (w : BitVec 12) : BitVec 12 := w

def encSid (m : BitVec 4) : BitVec 12 := 0#7 ++ m ++ 0#1

def decSid (w : BitVec 12) : BitVec 4 := w.extractLsb' 1 4

def encForm (m : BitVec 3) : BitVec 12 := m ++ 0#9

def decForm (w : BitVec 12) : BitVec 3 := w.extractLsb' 9 3

def encKind (m : BitVec 2) : BitVec 12 := m ++ 0#10

def decKind (w : BitVec 12) : BitVec 2 := w.extractLsb' 10 2

def encVform (m : BitVec 2) : BitVec 12 := m.zeroExtend 12

def decVform (w : BitVec 12) : BitVec 2 := w.extractLsb' 0 2

def encPosLen (m : PosLen) : BitVec 12 := m.pos ++ m.len

def decPosLen (w : BitVec 12) : PosLen :=
  { pos := w.extractLsb' 6 6, len := w.extractLsb' 0 6 }

def encRmU (m : RmU) : BitVec 12 := m.rm ++ 0#4 ++ BitVec.ofBool m.u ++ 0#5

def decRmU (w : BitVec 12) : RmU :=
  { rm := w.extractLsb' 10 2, u := w.getLsbD 5 }

def encRepM (m : RepM) : BitVec 12 := m.k1 ++ m.stride ++ 0#4

def decRepM (w : BitVec 12) : RepM :=
  { k1 := w.extractLsb' 9 3, stride := w.extractLsb' 4 5 }

def encLdMod (m : LdMod) : BitVec 12 := m.space ++ m.w ++ m.ord ++ BitVec.ofBool m.sx ++ 0#4

def decLdMod (w : BitVec 12) : LdMod :=
  { space := w.extractLsb' 9 3, w := w.extractLsb' 7 2, ord := w.extractLsb' 5 2, sx := w.getLsbD 4 }

def encStMod (m : StMod) : BitVec 12 := m.space ++ m.w ++ m.ord ++ m.sid ++ 0#1

def decStMod (w : BitVec 12) : StMod :=
  { space := w.extractLsb' 9 3, w := w.extractLsb' 7 2, ord := w.extractLsb' 5 2, sid := w.extractLsb' 1 4 }

def encAtMod (m : AtMod) : BitVec 12 := m.space ++ m.w ++ m.ord ++ m.scope ++ BitVec.ofBool m.u ++ 0#1

def decAtMod (w : BitVec 12) : AtMod :=
  { space := w.extractLsb' 9 3, w := w.extractLsb' 7 2, ord := w.extractLsb' 5 2, scope := w.extractLsb' 2 3, u := w.getLsbD 1 }

def encTrMod (m : TrMod) : BitVec 12 := m.space ++ m.aop ++ m.scope ++ m.ord

def decTrMod (w : BitVec 12) : TrMod :=
  { space := w.extractLsb' 9 3, aop := w.extractLsb' 5 4, scope := w.extractLsb' 2 3, ord := w.extractLsb' 0 2 }

def encTMod (m : TMod) : BitVec 12 := m.rm ++ m.aux ++ m.satm ++ m.fovr

def decTMod (w : BitVec 12) : TMod :=
  { rm := w.extractLsb' 10 2, aux := w.extractLsb' 6 4, satm := w.extractLsb' 4 2, fovr := w.extractLsb' 0 4 }

def encMmaMod (m : MmaMod) : BitVec 12 := 0#2 ++ BitVec.ofBool m.na ++ BitVec.ofBool m.nb ++ BitVec.ofBool m.ta ++ BitVec.ofBool m.tb ++ BitVec.ofBool m.ad ++ 0#5

def decMmaMod (w : BitVec 12) : MmaMod :=
  { na := w.getLsbD 9, nb := w.getLsbD 8, ta := w.getLsbD 7, tb := w.getLsbD 6, ad := w.getLsbD 5 }

def encAccMod (m : AccMod) : BitVec 12 := m.rm ++ 0#4 ++ m.satm ++ 0#4

def decAccMod (w : BitVec 12) : AccMod :=
  { rm := w.extractLsb' 10 2, satm := w.extractLsb' 4 2 }

def encXMod (m : XMod) : BitVec 12 := m.rm ++ m.queue ++ m.soff

def decXMod (w : BitVec 12) : XMod :=
  { rm := w.extractLsb' 10 2, queue := w.extractLsb' 8 2, soff := w.extractLsb' 0 8 }

def encGMod (m : GMod) : BitVec 12 := 0#2 ++ m.queue ++ m.soff

def decGMod (w : BitVec 12) : GMod :=
  { queue := w.extractLsb' 8 2, soff := w.extractLsb' 0 8 }

/-- The instruction an OP value from 0x000 to 0x07f stands for (spec/07 R150); none when unassigned. -/
def buildScalar (op : Nat) (x : Args) (m : BitVec 12) : Option Instr :=
  match op with
  | 0x000 => some (.add_ x)
  | 0x001 => some (.sub_ x)
  | 0x002 => some (.mul_ x)
  | 0x003 => some (.mulh x)
  | 0x004 => some (.mulhn x)
  | 0x005 => some (.div_ x)
  | 0x006 => some (.divn x)
  | 0x007 => some (.mod_ x)
  | 0x008 => some (.modn x)
  | 0x009 => some (.and_ x)
  | 0x00a => some (.or_ x)
  | 0x00b => some (.xor_ x)
  | 0x00c => some (.andn x)
  | 0x00d => some (.orn x)
  | 0x00e => some (.shl x)
  | 0x00f => some (.shr x)
  | 0x010 => some (.sha x)
  | 0x011 => some (.rol x)
  | 0x012 => some (.min_ x)
  | 0x013 => some (.max_ x)
  | 0x014 => some (.minn x)
  | 0x015 => some (.maxn x)
  | 0x016 => some (.clz x)
  | 0x017 => some (.ctz x)
  | 0x018 => some (.popc x)
  | 0x019 => some (.sext x (decLen m))
  | 0x01a => some (.zext x (decLen m))
  | 0x01b => some (.bfx x (decPosLen m))
  | 0x01c => some (.bfi x (decPosLen m))
  | 0x01d => some (.mov x)
  | 0x01f => some (.lea x (decSh m))
  | 0x020 => some (.cmp x (decCond m))
  | 0x021 => some (.sel x)
  | _ => none

/-- The instruction an OP value from 0x080 to 0x0bf stands for (spec/07 R150); none when unassigned. -/
def buildFloat (op : Nat) (x : Args) (m : BitVec 12) : Option Instr :=
  match op with
  | 0x080 => some (.fadd x (decRm m))
  | 0x081 => some (.fsub x (decRm m))
  | 0x082 => some (.fmul x (decRm m))
  | 0x083 => some (.ffma x (decRm m))
  | 0x084 => some (.fmin x)
  | 0x085 => some (.fmax x)
  | 0x086 => some (.fcmp x (decCond m))
  | 0x087 => some (.fcvti x (decRmU m))
  | 0x088 => some (.fcvtf x (decRmU m))
  | 0x089 => some (.frsqs x)
  | 0x08a => some (.frcps x)
  | _ => none

/-- The instruction an OP value from 0x0c0 to 0x0ff stands for (spec/07 R150); none when unassigned. -/
def buildControl (op : Nat) (x : Args) (m : BitVec 12) : Option Instr :=
  match op with
  | 0x0c0 => some (.nop x)
  | 0x0c1 => some (.pand x)
  | 0x0c2 => some (.por x)
  | 0x0c3 => some (.pxor x)
  | 0x0c4 => some (.pnot x)
  | 0x0c5 => some (.bra x)
  | 0x0c6 => some (.brx x)
  | 0x0c7 => some (.call x)
  | 0x0c8 => some (.ret x)
  | 0x0c9 => some (.loop x)
  | 0x0ca => some (.rep x (decRepM m))
  | 0x0cb => some (.waitc x (decAbs m))
  | 0x0cc => some (.yield x)
  | 0x0cd => some (.end_ x)
  | _ => none

/-- The instruction an OP value from 0x100 to 0x1bf stands for (spec/07 R150); none when unassigned. -/
def buildMemory (op : Nat) (x : Args) (m : BitVec 12) : Option Instr :=
  match op with
  | 0x100 => some (.ld x (decLdMod m))
  | 0x101 => some (.st x (decStMod m))
  | 0x102 => some (.ldp x (decLdMod m))
  | 0x103 => some (.aadd x (decAtMod m))
  | 0x104 => some (.amin x (decAtMod m))
  | 0x105 => some (.amax x (decAtMod m))
  | 0x106 => some (.aand x (decAtMod m))
  | 0x107 => some (.aor x (decAtMod m))
  | 0x108 => some (.axor x (decAtMod m))
  | 0x109 => some (.aswp x (decAtMod m))
  | 0x10a => some (.acas x (decAtMod m))
  | 0x10b => some (.afadd x (decAtMod m))
  | 0x10c => some (.afmin x (decAtMod m))
  | 0x10d => some (.afmax x (decAtMod m))
  | 0x10e => some (.tred x (decTrMod m))
  | 0x10f => some (.fence x (decScope m))
  | 0x110 => some (.fencesc x)
  | 0x111 => some (.lflush x (decSpace m))
  | 0x112 => some (.linv x (decSpace m))
  | 0x180 => some (.sbind x)
  | 0x181 => some (.sfree x)
  | 0x182 => some (.sskip x)
  | 0x183 => some (.sstat x)
  | _ => none

/-- The instruction an OP value from 0x1c0 to 0x1ff stands for (spec/07 R150); none when unassigned. -/
def buildShape (op : Nat) (x : Args) (m : BitVec 12) : Option Instr :=
  match op with
  | 0x1c0 => some (.tdef x)
  | 0x1c1 =>
    if decFsel m = 9#4 then some (.tviewOrigin x) else some (.tview x (decFsel m))
  | 0x1c2 => some (.tedge x (decFsel m))
  | 0x1c3 => some (.tinfo x (decFsel m))
  | 0x1c4 => some (.bfset x (decBank m))
  | 0x1c5 => some (.bfget x (decBank m))
  | _ => none

/-- The instruction an OP value from 0x200 to 0x2ff stands for (spec/07 R150); none when unassigned. -/
def buildTile (op : Nat) (x : Args) (m : BitVec 12) : Option Instr :=
  match op with
  | 0x200 => some (.tmov x (decTMod m))
  | 0x201 => some (.tcvt x (decTMod m))
  | 0x202 => some (.tfill x (decTMod m))
  | 0x203 => some (.tiota x (decTMod m))
  | 0x204 => some (.tadd x (decTMod m))
  | 0x205 => some (.tsub x (decTMod m))
  | 0x206 => some (.tmul x (decTMod m))
  | 0x207 => some (.tfma x (decTMod m))
  | 0x208 => some (.tdiv x (decTMod m))
  | 0x209 => some (.tmin x (decTMod m))
  | 0x20a => some (.tmax x (decTMod m))
  | 0x20b => some (.tabs x (decTMod m))
  | 0x20c => some (.tclamp x (decTMod m))
  | 0x20d => some (.tand x (decTMod m))
  | 0x20e => some (.tor x (decTMod m))
  | 0x20f => some (.txor x (decTMod m))
  | 0x210 => some (.tnot x (decTMod m))
  | 0x211 => some (.tshl x (decTMod m))
  | 0x212 => some (.tshr x (decTMod m))
  | 0x213 => some (.tcmp x (decTMod m))
  | 0x214 => some (.tsel x (decTMod m))
  | 0x215 => some (.tany x (decTMod m))
  | 0x216 => some (.tall x (decTMod m))
  | 0x217 => some (.tcnt x (decTMod m))
  | 0x218 => some (.trsqs x (decTMod m))
  | 0x219 => some (.trcps x (decTMod m))
  | 0x21a => some (.texp2 x (decTMod m))
  | 0x21b => some (.tlog2 x (decTMod m))
  | 0x21c => some (.trsum x (decTMod m))
  | 0x21d => some (.tcsum x (decTMod m))
  | 0x21e => some (.trmax x (decTMod m))
  | 0x21f => some (.tcmax x (decTMod m))
  | 0x220 => some (.ttrn x (decTMod m))
  | 0x221 => some (.tshf x (decTMod m))
  | 0x222 => some (.tbcr x (decTMod m))
  | 0x223 => some (.tbcc x (decTMod m))
  | 0x224 => some (.tgath x (decTMod m))
  | 0x225 => some (.tscat x (decTMod m))
  | 0x226 => some (.text x (decTMod m))
  | 0x227 => some (.tins x (decTMod m))
  | 0x228 => some (.tsten x (decTMod m))
  | 0x229 => some (.tquant x (decTMod m))
  | 0x22a => some (.tnrm2 x (decTMod m))
  | 0x22b => some (.trowp x (decTMod m))
  | _ => none

/-- The instruction an OP value from 0x300 to 0x33f stands for (spec/07 R150); none when unassigned. -/
def buildMatrix (op : Nat) (x : Args) (m : BitVec 12) : Option Instr :=
  match op with
  | 0x300 => some (.oclaim x)
  | 0x301 => some (.orel x)
  | 0x302 =>
    match x.d with
    | .t _ _ _ _ => some (.oloadUnload x)
    | _ => some (.oload x)
  | 0x303 => some (.oinfo x)
  | 0x304 => some (.mma x (decMmaMod m))
  | 0x305 => some (.azero x)
  | 0x306 => some (.acvt x (decAccMod m))
  | 0x307 => some (.aaddt x (decAccMod m))
  | 0x308 => some (.ascl x (decAccMod m))
  | _ => none

/-- The instruction an OP value from 0x340 to 0x37f stands for (spec/07 R150); none when unassigned. -/
def buildEngine (op : Nat) (x : Args) (m : BitVec 12) : Option Instr :=
  match op with
  | 0x340 =>
    match x.b with
    | .t _ _ _ _ => some (.xcopyViewToTile x (decXMod m))
    | _ => some (.xcopy x (decXMod m))
  | 0x341 => some (.xcast x (decXMod m))
  | 0x342 => some (.xlease x (decQsel m))
  | 0x343 => some (.xfree x (decQsel m))
  | 0x344 => some (.xfence x (decXSet m))
  | 0x345 => some (.xwait x)
  | 0x346 => some (.xstat x)
  | 0x347 => some (.gtab x (decGMod m))
  | 0x348 => some (.grest x (decGMod m))
  | 0x349 => some (.gprol x (decGMod m))
  | 0x34a => some (.gconv x (decGMod m))
  | 0x34b => some (.gstat x)
  | _ => none

/-- The instruction an OP value from 0x380 to 0x3bf stands for (spec/07 R150); none when unassigned. -/
def buildLatch (op : Nat) (x : Args) (m : BitVec 12) : Option Instr :=
  match op with
  | 0x380 => some (.ewait x (decAbs m))
  | 0x381 => some (.esig x)
  | 0x382 => some (.eclr x)
  | 0x383 => some (.earm x (decLine m))
  | 0x384 => some (.epost x)
  | 0x385 =>
    match decForm m with
    | 0#3 => some (.barv x)
    | 1#3 => some (.barvNb x)
    | 2#3 => some (.barvDrop x)
    | 3#3 => some (.barvJoin x)
    | _ => some (.barvTimed x)
  | 0x386 => some (.bwait x)
  | 0x387 => some (.mlock x (decPd m))
  | 0x388 => some (.mtry x)
  | 0x389 => some (.munl x)
  | 0x38a => some (.copen x)
  | 0x38b => some (.cinj x)
  | 0x38c => some (.cext x)
  | 0x38d => some (.cclose x)
  | 0x38e =>
    match decKind m with
    | 0#2 => some (.phaseFree x)
    | 1#2 => some (.phaseTimed x)
    | _ => some (.phaseComm x)
  | 0x38f => some (.send x (decRoute m))
  | 0x390 => some (.recv x (decRoute m))
  | 0x391 => some (.cyc x (decAbs m))
  | _ => none

/-- The instruction an OP value from 0x3c0 to 0x3ff stands for (spec/07 R150); none when unassigned. -/
def buildSystem (op : Nat) (x : Args) (m : BitVec 12) : Option Instr :=
  match op with
  | 0x3c0 => some (.jpost x)
  | 0x3c1 => some (.jtake x)
  | 0x3c2 => some (.jdone x)
  | 0x3c3 => some (.jcancel x)
  | 0x3c4 => some (.jstat x)
  | 0x3c5 => some (.rput x (decProd m))
  | 0x3c6 => some (.rget x)
  | 0x3c7 => some (.reos x (decProd m))
  | 0x3c8 => some (.rstat x)
  | 0x3e0 => some (.trap x)
  | 0x3e1 => some (.eret x)
  | 0x3e2 =>
    if m = 0x018#12 then some (.aechoRead x) else some (.sysrd x m)
  | 0x3e3 =>
    if m = 0x018#12 then some (.aechoWrite x) else some (.syswr x m)
  | 0x3e4 => some (.ackpre x)
  | 0x3e5 => some (.start x (decSid m))
  | 0x3e6 => some (.isfence x)
  | 0x3e7 => some (.bkpt x)
  | 0x3e8 => some (.haltc x)
  | 0x3e9 =>
    match decVform m with
    | 0#2 => some (.vinvPage x)
    | _ => some (.vinvAll x)
  | 0x3ea => some (.dflush x)
  | _ => none

/-- The instruction of an OP value (spec/07 R150), LIW apart. -/
def build (op : BitVec 10) (x : Args) (m : BitVec 12) : Option Instr :=
  match op.toNat / 64 with
  | 0 | 1 => buildScalar op.toNat x m
  | 2 => buildFloat op.toNat x m
  | 3 => buildControl op.toNat x m
  | 4 | 5 | 6 => buildMemory op.toNat x m
  | 7 => buildShape op.toNat x m
  | 8 | 9 | 10 | 11 => buildTile op.toNat x m
  | 12 => buildMatrix op.toNat x m
  | 13 => buildEngine op.toNat x m
  | 14 => buildLatch op.toNat x m
  | _ => buildSystem op.toNat x m

/-- The word of an instruction (spec/07 R139 to R150); an event has none. -/
def encode (i : Instr) : Option InstrWord :=
  match i with
  | .add_ x => some (pack 0x000#10 x 0#12)
  | .sub_ x => some (pack 0x001#10 x 0#12)
  | .mul_ x => some (pack 0x002#10 x 0#12)
  | .mulh x => some (pack 0x003#10 x 0#12)
  | .mulhn x => some (pack 0x004#10 x 0#12)
  | .div_ x => some (pack 0x005#10 x 0#12)
  | .divn x => some (pack 0x006#10 x 0#12)
  | .mod_ x => some (pack 0x007#10 x 0#12)
  | .modn x => some (pack 0x008#10 x 0#12)
  | .and_ x => some (pack 0x009#10 x 0#12)
  | .or_ x => some (pack 0x00a#10 x 0#12)
  | .xor_ x => some (pack 0x00b#10 x 0#12)
  | .andn x => some (pack 0x00c#10 x 0#12)
  | .orn x => some (pack 0x00d#10 x 0#12)
  | .shl x => some (pack 0x00e#10 x 0#12)
  | .shr x => some (pack 0x00f#10 x 0#12)
  | .sha x => some (pack 0x010#10 x 0#12)
  | .rol x => some (pack 0x011#10 x 0#12)
  | .min_ x => some (pack 0x012#10 x 0#12)
  | .max_ x => some (pack 0x013#10 x 0#12)
  | .minn x => some (pack 0x014#10 x 0#12)
  | .maxn x => some (pack 0x015#10 x 0#12)
  | .clz x => some (pack 0x016#10 x 0#12)
  | .ctz x => some (pack 0x017#10 x 0#12)
  | .popc x => some (pack 0x018#10 x 0#12)
  | .sext x m => some (pack 0x019#10 x (encLen m))
  | .zext x m => some (pack 0x01a#10 x (encLen m))
  | .bfx x m => some (pack 0x01b#10 x (encPosLen m))
  | .bfi x m => some (pack 0x01c#10 x (encPosLen m))
  | .mov x => some (pack 0x01d#10 x 0#12)
  | .liw h d v => some (packWide 0x01e#10 h d v)
  | .lea x m => some (pack 0x01f#10 x (encSh m))
  | .cmp x m => some (pack 0x020#10 x (encCond m))
  | .sel x => some (pack 0x021#10 x 0#12)
  | .fadd x m => some (pack 0x080#10 x (encRm m))
  | .fsub x m => some (pack 0x081#10 x (encRm m))
  | .fmul x m => some (pack 0x082#10 x (encRm m))
  | .ffma x m => some (pack 0x083#10 x (encRm m))
  | .fmin x => some (pack 0x084#10 x 0#12)
  | .fmax x => some (pack 0x085#10 x 0#12)
  | .fcmp x m => some (pack 0x086#10 x (encCond m))
  | .fcvti x m => some (pack 0x087#10 x (encRmU m))
  | .fcvtf x m => some (pack 0x088#10 x (encRmU m))
  | .frsqs x => some (pack 0x089#10 x 0#12)
  | .frcps x => some (pack 0x08a#10 x 0#12)
  | .nop x => some (pack 0x0c0#10 x 0#12)
  | .pand x => some (pack 0x0c1#10 x 0#12)
  | .por x => some (pack 0x0c2#10 x 0#12)
  | .pxor x => some (pack 0x0c3#10 x 0#12)
  | .pnot x => some (pack 0x0c4#10 x 0#12)
  | .bra x => some (pack 0x0c5#10 x 0#12)
  | .brx x => some (pack 0x0c6#10 x 0#12)
  | .call x => some (pack 0x0c7#10 x 0#12)
  | .ret x => some (pack 0x0c8#10 x 0#12)
  | .loop x => some (pack 0x0c9#10 x 0#12)
  | .rep x m => some (pack 0x0ca#10 x (encRepM m))
  | .waitc x m => some (pack 0x0cb#10 x (encAbs m))
  | .yield x => some (pack 0x0cc#10 x 0#12)
  | .end_ x => some (pack 0x0cd#10 x 0#12)
  | .ld x m => some (pack 0x100#10 x (encLdMod m))
  | .st x m => some (pack 0x101#10 x (encStMod m))
  | .ldp x m => some (pack 0x102#10 x (encLdMod m))
  | .aadd x m => some (pack 0x103#10 x (encAtMod m))
  | .amin x m => some (pack 0x104#10 x (encAtMod m))
  | .amax x m => some (pack 0x105#10 x (encAtMod m))
  | .aand x m => some (pack 0x106#10 x (encAtMod m))
  | .aor x m => some (pack 0x107#10 x (encAtMod m))
  | .axor x m => some (pack 0x108#10 x (encAtMod m))
  | .aswp x m => some (pack 0x109#10 x (encAtMod m))
  | .acas x m => some (pack 0x10a#10 x (encAtMod m))
  | .afadd x m => some (pack 0x10b#10 x (encAtMod m))
  | .afmin x m => some (pack 0x10c#10 x (encAtMod m))
  | .afmax x m => some (pack 0x10d#10 x (encAtMod m))
  | .tred x m => some (pack 0x10e#10 x (encTrMod m))
  | .fence x m => some (pack 0x10f#10 x (encScope m))
  | .fencesc x => some (pack 0x110#10 x 0#12)
  | .lflush x m => some (pack 0x111#10 x (encSpace m))
  | .linv x m => some (pack 0x112#10 x (encSpace m))
  | .sbind x => some (pack 0x180#10 x 0#12)
  | .sfree x => some (pack 0x181#10 x 0#12)
  | .sskip x => some (pack 0x182#10 x 0#12)
  | .sstat x => some (pack 0x183#10 x 0#12)
  | .tdef x => some (pack 0x1c0#10 x 0#12)
  | .tview x m => some (pack 0x1c1#10 x (encFsel m))
  | .tviewOrigin x => some (pack 0x1c1#10 x (encFsel 9#4))
  | .tedge x m => some (pack 0x1c2#10 x (encFsel m))
  | .tinfo x m => some (pack 0x1c3#10 x (encFsel m))
  | .bfset x m => some (pack 0x1c4#10 x (encBank m))
  | .bfget x m => some (pack 0x1c5#10 x (encBank m))
  | .tmov x m => some (pack 0x200#10 x (encTMod m))
  | .tcvt x m => some (pack 0x201#10 x (encTMod m))
  | .tfill x m => some (pack 0x202#10 x (encTMod m))
  | .tiota x m => some (pack 0x203#10 x (encTMod m))
  | .tadd x m => some (pack 0x204#10 x (encTMod m))
  | .tsub x m => some (pack 0x205#10 x (encTMod m))
  | .tmul x m => some (pack 0x206#10 x (encTMod m))
  | .tfma x m => some (pack 0x207#10 x (encTMod m))
  | .tdiv x m => some (pack 0x208#10 x (encTMod m))
  | .tmin x m => some (pack 0x209#10 x (encTMod m))
  | .tmax x m => some (pack 0x20a#10 x (encTMod m))
  | .tabs x m => some (pack 0x20b#10 x (encTMod m))
  | .tclamp x m => some (pack 0x20c#10 x (encTMod m))
  | .tand x m => some (pack 0x20d#10 x (encTMod m))
  | .tor x m => some (pack 0x20e#10 x (encTMod m))
  | .txor x m => some (pack 0x20f#10 x (encTMod m))
  | .tnot x m => some (pack 0x210#10 x (encTMod m))
  | .tshl x m => some (pack 0x211#10 x (encTMod m))
  | .tshr x m => some (pack 0x212#10 x (encTMod m))
  | .tcmp x m => some (pack 0x213#10 x (encTMod m))
  | .tsel x m => some (pack 0x214#10 x (encTMod m))
  | .tany x m => some (pack 0x215#10 x (encTMod m))
  | .tall x m => some (pack 0x216#10 x (encTMod m))
  | .tcnt x m => some (pack 0x217#10 x (encTMod m))
  | .trsqs x m => some (pack 0x218#10 x (encTMod m))
  | .trcps x m => some (pack 0x219#10 x (encTMod m))
  | .texp2 x m => some (pack 0x21a#10 x (encTMod m))
  | .tlog2 x m => some (pack 0x21b#10 x (encTMod m))
  | .trsum x m => some (pack 0x21c#10 x (encTMod m))
  | .tcsum x m => some (pack 0x21d#10 x (encTMod m))
  | .trmax x m => some (pack 0x21e#10 x (encTMod m))
  | .tcmax x m => some (pack 0x21f#10 x (encTMod m))
  | .ttrn x m => some (pack 0x220#10 x (encTMod m))
  | .tshf x m => some (pack 0x221#10 x (encTMod m))
  | .tbcr x m => some (pack 0x222#10 x (encTMod m))
  | .tbcc x m => some (pack 0x223#10 x (encTMod m))
  | .tgath x m => some (pack 0x224#10 x (encTMod m))
  | .tscat x m => some (pack 0x225#10 x (encTMod m))
  | .text x m => some (pack 0x226#10 x (encTMod m))
  | .tins x m => some (pack 0x227#10 x (encTMod m))
  | .tsten x m => some (pack 0x228#10 x (encTMod m))
  | .tquant x m => some (pack 0x229#10 x (encTMod m))
  | .tnrm2 x m => some (pack 0x22a#10 x (encTMod m))
  | .trowp x m => some (pack 0x22b#10 x (encTMod m))
  | .oclaim x => some (pack 0x300#10 x 0#12)
  | .orel x => some (pack 0x301#10 x 0#12)
  | .oload x => some (pack 0x302#10 x 0#12)
  | .oloadUnload x => some (pack 0x302#10 x 0#12)
  | .oinfo x => some (pack 0x303#10 x 0#12)
  | .mma x m => some (pack 0x304#10 x (encMmaMod m))
  | .azero x => some (pack 0x305#10 x 0#12)
  | .acvt x m => some (pack 0x306#10 x (encAccMod m))
  | .aaddt x m => some (pack 0x307#10 x (encAccMod m))
  | .ascl x m => some (pack 0x308#10 x (encAccMod m))
  | .xcopy x m => some (pack 0x340#10 x (encXMod m))
  | .xcopyViewToTile x m => some (pack 0x340#10 x (encXMod m))
  | .xcast x m => some (pack 0x341#10 x (encXMod m))
  | .xlease x m => some (pack 0x342#10 x (encQsel m))
  | .xfree x m => some (pack 0x343#10 x (encQsel m))
  | .xfence x m => some (pack 0x344#10 x (encXSet m))
  | .xwait x => some (pack 0x345#10 x 0#12)
  | .xstat x => some (pack 0x346#10 x 0#12)
  | .gtab x m => some (pack 0x347#10 x (encGMod m))
  | .grest x m => some (pack 0x348#10 x (encGMod m))
  | .gprol x m => some (pack 0x349#10 x (encGMod m))
  | .gconv x m => some (pack 0x34a#10 x (encGMod m))
  | .gstat x => some (pack 0x34b#10 x 0#12)
  | .ewait x m => some (pack 0x380#10 x (encAbs m))
  | .esig x => some (pack 0x381#10 x 0#12)
  | .eclr x => some (pack 0x382#10 x 0#12)
  | .earm x m => some (pack 0x383#10 x (encLine m))
  | .epost x => some (pack 0x384#10 x 0#12)
  | .barv x => some (pack 0x385#10 x (encForm 0#3))
  | .barvNb x => some (pack 0x385#10 x (encForm 1#3))
  | .barvDrop x => some (pack 0x385#10 x (encForm 2#3))
  | .barvJoin x => some (pack 0x385#10 x (encForm 3#3))
  | .barvTimed x => some (pack 0x385#10 x (encForm 4#3))
  | .bwait x => some (pack 0x386#10 x 0#12)
  | .mlock x m => some (pack 0x387#10 x (encPd m))
  | .mtry x => some (pack 0x388#10 x 0#12)
  | .munl x => some (pack 0x389#10 x 0#12)
  | .copen x => some (pack 0x38a#10 x 0#12)
  | .cinj x => some (pack 0x38b#10 x 0#12)
  | .cext x => some (pack 0x38c#10 x 0#12)
  | .cclose x => some (pack 0x38d#10 x 0#12)
  | .phaseFree x => some (pack 0x38e#10 x (encKind 0#2))
  | .phaseTimed x => some (pack 0x38e#10 x (encKind 1#2))
  | .phaseComm x => some (pack 0x38e#10 x (encKind 2#2))
  | .send x m => some (pack 0x38f#10 x (encRoute m))
  | .recv x m => some (pack 0x390#10 x (encRoute m))
  | .cyc x m => some (pack 0x391#10 x (encAbs m))
  | .jpost x => some (pack 0x3c0#10 x 0#12)
  | .jtake x => some (pack 0x3c1#10 x 0#12)
  | .jdone x => some (pack 0x3c2#10 x 0#12)
  | .jcancel x => some (pack 0x3c3#10 x 0#12)
  | .jstat x => some (pack 0x3c4#10 x 0#12)
  | .rput x m => some (pack 0x3c5#10 x (encProd m))
  | .rget x => some (pack 0x3c6#10 x 0#12)
  | .reos x m => some (pack 0x3c7#10 x (encProd m))
  | .rstat x => some (pack 0x3c8#10 x 0#12)
  | .trap x => some (pack 0x3e0#10 x 0#12)
  | .eret x => some (pack 0x3e1#10 x 0#12)
  | .sysrd x m => some (pack 0x3e2#10 x (encSysN m))
  | .aechoRead x => some (pack 0x3e2#10 x (encSysN 24#12))
  | .syswr x m => some (pack 0x3e3#10 x (encSysN m))
  | .aechoWrite x => some (pack 0x3e3#10 x (encSysN 24#12))
  | .ackpre x => some (pack 0x3e4#10 x 0#12)
  | .start x m => some (pack 0x3e5#10 x (encSid m))
  | .isfence x => some (pack 0x3e6#10 x 0#12)
  | .bkpt x => some (pack 0x3e7#10 x 0#12)
  | .haltc x => some (pack 0x3e8#10 x 0#12)
  | .vinvPage x => some (pack 0x3e9#10 x (encVform 0#2))
  | .vinvAll x => some (pack 0x3e9#10 x (encVform 1#2))
  | .dflush x => some (pack 0x3ea#10 x 0#12)
  | .atomicEchoReply => none
  | .pendingCauseService => none
  | .timingRollback _ => none
  | .timedRerelease => none
  | .timedRegionBase => none
  | .preemptAtRestartPoint => none
  | .transferCommandStart _ _ => none
  | .transferCommandCompletion _ => none
  | .roodCommandStart _ => none
  | .roodCommandCompletion _ => none
  | .streamFill _ => none
  | .matrixQueuePerform => none
  | .leaseExpiry _ => none
  | .peerWriteArrival _ => none
  | .accessAtHome _ => none
  | .accessResponseArrival _ => none
  | .atomicResponseLost => none
  | .scTickCompletion => none
  | .pageWalk _ => none
  | .collapseSequence _ => none
  | .raceRecordSweep => none
  | .chainNodeCombine _ _ _ => none
  | .staticFlitArrival _ => none
  | .linkRetry _ _ => none
  | .bondDeath _ _ => none
  | .startDelivery _ => none
  | .dispatchRequest _ => none
  | .cardPromotion _ _ => none
  | .dependenceRead _ _ => none
  | .tumblerScan _ => none
  | .fdefCreate _ _ _ => none
  | .fdefCreateRestore _ _ _ => none
  | .fdefDelete _ => none
  | .fcmdPreempt _ _ => none
  | .preemptCopy _ => none
  | .preemptTimeout _ => none
  | .fcmdRestore _ _ => none
  | .fcmdKill _ _ => none
  | .powerFail => none
  | .powerReturn => none
  | .powerOn => none
  | .moduleReset => none
  | .rootVerify _ _ => none
  | .wavefrontArrival _ _ _ => none
  | .clockRootAdopt _ => none
  | .clockLock _ => none
  | .bondTrainingDone _ _ _ => none
  | .partnerLockTimeout _ _ => none
  | .identRecord _ _ => none
  | .masterCollectionEnd => none
  | .masterTableWrite _ => none
  | .go => none
  | .fenceCommand _ => none
  | .routerFault _ => none
  | .evacuation _ _ => none
  | .hpctxPost _ _ _ => none
  | .semAcquire _ _ _ => none
  | .semRelease _ _ _ => none
  | .dqtailWrite _ _ => none
  | .dqctlWrite _ _ => none
  | .hostDmaDescriptorStart _ => none
  | .hostDmaDescriptorDone _ _ => none
  | .hostBar4Access _ _ _ _ => none
  | .endpointLinkDown _ => none
  | .attestStart _ _ => none
  | .attestReportDone _ _ => none
  | .nselWrite _ _ _ => none
  | .rteWrite _ _ _ => none
  | .trootWrite _ _ => none
  | .windowWrite _ _ _ _ _ => none
  | .mcattWrite _ _ => none
  | .dsetWrite _ _ => none
  | .rpctlWrite _ _ => none
  | .replayDivergence _ => none
  | .configRegisterWrite _ _ _ _ => none
  | .firmwareUpdate _ _ => none
  | .recoveryImageWrite _ _ => none
  | .powerThrottle => none
  | .holdupEnergyExhausted _ => none
  | .wordNotInstruction w => some w

/-- The instruction of a word whose OP is assigned, before the encoding checks. -/
def candidate (w : InstrWord) : Option Instr :=
  let op := w.extractLsb' 86 10
  if op = 0x01E#10 then
    (decodeOperand (w.extractLsb' 64 18)).map fun d => .liw (headOf w) d (w.extractLsb' 16 48)
  else
    match decodeOperand (w.extractLsb' 64 18), decodeOperand (w.extractLsb' 46 18), decodeOperand (w.extractLsb' 28 18) with
    | some d, some a, some b => build op ⟨headOf w, d, a, b⟩ (w.extractLsb' 16 12)
    | _, _, _ => none

/-- Decoding with checks 1 and 2 of spec/07 R152: a word that is no instruction (R151), a refused word with its reason,
or the instruction. A word is accepted only when it is exactly the encoding of a well-formed instruction. -/
def decode (w : InstrWord) : Except Reject Instr :=
  if notAnInstruction w then .ok (.wordNotInstruction w)
  else
    match candidate w with
    | none => .error .operandKind
    | some i =>
      if encode i = some w then
        if WellFormed i then .ok i else .error .form
      else .error .reservedBits

/-- The twelve bytes of a word in the instruction store: three little-endian 32-bit words (spec/07 R140), that is the
96 bits from the least significant byte up. -/
def wordBytes (w : InstrWord) : List Byte :=
  (List.range 12).map fun k => w.extractLsb' (8 * k) 8

/-- The word that twelve bytes hold. -/
def wordOfBytes (bs : List Byte) : InstrWord :=
  bs.foldr (fun b acc => (acc <<< 8) ||| b.zeroExtend 96) 0#96

/-- The instruction this decoder reads from an instruction whose bits are `w`, bit 0 the least significant bit of the
word's lowest byte; bits above `nbits` are zero. -/
def decodeTableWord (nbits w : Nat) : Option Instr :=
  match decode (wordOfBytes (wordBytes (BitVec.ofNat 96 (w % 2 ^ nbits)))) with
  | .ok i => some i
  | .error _ => none

end Sys2Proof
end

