-- ==== Sys2Proof/Machine/Ops.lean ====
section
/-!
DEFINITION. Shared operations of a core: registers, the result queue and predicates (spec/02 R45, R46), the program
counter under repetition (R47, R48), issue time (spec/08 R154), restart points (R159), trap entry (spec/21 R364),
containment and kills (R369 to R372), rollback (spec/08 R162, R163).
-/

namespace Sys2Proof.Machine

/-! ## Cores of the module -/

def Core.is (c : Core) (die num : Nat) : Bool := c.die == die && c.num == num

def State.cores (s : State) : List Core := s.core :: s.others

def State.find (s : State) (die num : Nat) : Option Core := s.cores.find? fun c => c.is die num

def State.mapCores (s : State) (f : Core → Core) : State := { s with core := f s.core, others := s.others.map f }

def State.onCore (s : State) (die num : Nat) (f : Core → Core) : State :=
  s.mapCores fun c => if c.is die num then f c else c

/-- A change of the core that has the focus. -/
def State.modC (s : State) (f : Core → Core) : State := { s with core := f s.core }

def State.modSys (s : State) (f : SysRegs → SysRegs) : State := s.modC fun c => { c with sys := f c.sys }

/-- The focus moves to a core, if the module has it. -/
def State.focus (s : State) (die num : Nat) : State :=
  if s.core.is die num then s
  else match s.others.find? fun c => c.is die num with
    | none => s
    | some c => { s with core := c, others := s.core :: s.others.filter fun k => !k.is die num }

/-- Runs an operation of the focused core on another core. -/
def State.within (s : State) (die num : Nat) (f : State → State) : State :=
  ((f (s.focus die num))).focus s.core.die s.core.num

def Core.quad (c : Core) : Nat := c.num / 4
def Core.latch (c : Core) : Nat := c.die * 2 + c.quad
def Core.ctx (c : Core) : Nat := bits c.sys.ctxid 15 0
def Core.handler (c : Core) : Bool := c.sys.mode.getLsbD 0
def Core.ganged (c : Core) : Bool := c.sys.mode.getLsbD 2
def Core.brken (c : Core) : Bool := c.sys.mode.getLsbD 3

/-- FCYC of a core (spec/01 R11). -/
def State.fcyc (s : State) (c : Core) : Word := BitVec.ofNat 64 s.cyc - c.fbase

/-- The Tick edges passed since G (spec/00, Tick). -/
def State.tick (s : State) : Nat := s.cyc / 4096

/-- Members of a core's gang, leader first (spec/01 R12); a killed one has no part in it any more (spec/21 R371). -/
def State.gang (s : State) (c : Core) : List Core :=
  (List.range 4).filterMap fun r =>
    s.cores.find? fun k => k.die == c.die && k.quad == c.quad && k.ganged && k.rank == r && k.run != .killed

/-- The leader of the focused core's gang, or the core itself. -/
def State.leader (s : State) : Core := if s.core.ganged then (s.gang s.core).headD s.core else s.core

/-- A follower of a gang takes the leader's outcome in a control transfer (spec/01 R13). -/
def State.follower (s : State) : Bool := s.core.ganged && s.core.rank != 0

def State.latch (s : State) (k : Nat) : Latch := lookupD s.latches k Latch.reset
def State.setLatch (s : State) (k : Nat) (l : Latch) : State := { s with latches := assign s.latches k l }
def State.fieldAt (s : State) (i : Nat) : Field := s.fields[i]?.getD Field.reset
def State.setField (s : State) (i : Nat) (f : Field) : State :=
  if h : i < 16 then { s with fields := s.fields.set i f h } else s
def State.chip (s : State) (die : Nat) : Chip := lookupD s.chips die Chip.reset
def State.setChip (s : State) (die : Nat) (c : Chip) : State := { s with chips := assign s.chips die c }
def State.modMod (s : State) (f : Module → Module) : State := { s with modState := f s.modState }
def State.hostAt (s : State) (e : Nat) : Endpoint := s.hosts[e]?.getD Endpoint.reset
def State.setHost (s : State) (e : Nat) (h : Endpoint) : State :=
  if p : e < 2 then { s with hosts := s.hosts.set e h p } else s

/-- Sets an interrupt bit of an endpoint (spec/22 R384). -/
def State.irq (s : State) (e bit : Nat) : State :=
  let h := s.hostAt e
  s.setHost e { h with irqst := h.irqst ||| (1#64 <<< bit) }

/-- The structures of a chiplet that R395 counts errors of: local stores, operand memory, instruction stores, TLBs, LLC, link flits,
HBM, Latches and Chain nodes. -/
def hasStructure (kind : Option Nat) (n : Nat) : Bool :=
  match kind with
  | some 0 => n != 4 && n != 6
  | some 1 => n == 4 || n == 5
  | some 2 => n != 1 && n != 4
  | some _ => n == 5
  | none => false

/-- A soft error is counted at a structure of a chiplet; both halves of SERCNT saturate (spec/23 R395, log entry 89). -/
def State.countError (s : State) (die n : Nat) (corrected : Bool) : State :=
  let c := s.chip die
  let w := lookupD c.sercnt n 0#64
  let v := if corrected then setBits w 63 32 (min (bits w 63 32 + 1) (2 ^ 32 - 1)) else setBits w 31 0 (min (bits w 31 0 + 1) (2 ^ 32 - 1))
  s.setChip die { c with sercnt := assign c.sercnt n v }

/-- Interrupts the creator of a field; creator 2 is a Calush core, which has no endpoint (spec/21 R372). -/
def State.irqCreator (s : State) (f : Field) (bit : Nat) : State := if f.creator < 2 then s.irq f.creator bit else s

/-! ## Chiplets (spec/00 R1) -/

def dieX (die : Nat) : Nat := die % 20
def dieY (die : Nat) : Nat := die / 20
def memColumn (x : Nat) : Bool := x == 3 || x == 6 || x == 9 || x == 12 || x == 15 || x == 18

/-- The I/O chiplets, by number (spec/18 R314). -/
def ioDies : List Nat := [80, 99, 200, 219, 320, 339, 440, 459]

/-- 0 compute, 1 memory, 2 channel, 3 I/O (spec/18 R317). -/
def kindOf (die : Nat) : Option Nat :=
  let x := dieX die
  let y := dieY die
  if 1 ≤ x ∧ x ≤ 18 ∧ 1 ≤ y ∧ y ≤ 24 then (if memColumn x then some 1 else some 0)
  else if 1 ≤ x ∧ x ≤ 18 ∧ (y = 0 ∨ y = 25) then some 2
  else if ioDies.contains die then some 3
  else none

def allDies : List Nat := (List.range 520).filter fun d => (kindOf d).isSome

/-- The channel chiplet whose stack, one of 36, holds a physical address (spec/00 R3; log entry 16). -/
def stackDie (phys : Nat) : Nat := ((allDies.filter fun d => kindOf d == some 2)[Config.stackOf phys % 36]?).getD 0

def State.online (s : State) (die : Nat) : Bool := (s.chip die).bus == .online

/-- Healthy cores of a chiplet, by its HARVEST byte (spec/18 R322). -/
def State.healthy (s : State) (die num : Nat) : Bool := (s.chip die).harvest.getLsbD num

/-! ## Registers -/

def Core.readS (c : Core) (n : BitVec 5) : Word := if n = 0#5 then 0#64 else c.regs.get n.toFin
def Core.readP (c : Core) (n : BitVec 3) : Bool := n == 0#3 || c.preds.getLsbD n.toNat
def Core.readQ (c : Core) (age : BitVec 4) : Word := c.q.get age.toFin

/-- s0 discards (spec/02 R45); a register written again owes nothing any more. -/
def Core.writeS (c : Core) (n : BitVec 5) (v : Word) : Core :=
  if n = 0#5 then c
  else { c with regs := c.regs.set n.toNat v n.isLt, owed := c.owed.filter fun o => !(o.push == none && o.reg == n) }

/-- p0 discards. -/
def Core.writeP (c : Core) (n : BitVec 3) (v : Bool) : Core :=
  if n = 0#3 then c
  else { c with preds := (c.preds &&& ~~~(1#8 <<< n.toNat)) ||| (if v then 1#8 <<< n.toNat else 0#8) }

/-- A push: q0 is the newest value (spec/02 R46). -/
def Core.push (c : Core) (v : Word) : Core :=
  { c with q := Vector.ofFn fun (i : Fin 16) => if i.val = 0 then v else c.q.get (i - 1), pushes := c.pushes + 1 }

/-- Writes a scalar destination. -/
def Core.writeD (c : Core) (d : Operand) (v : Word) : Core :=
  match d with
  | .s n => c.writeS n v
  | .q _ => c.push v
  | .p n _ => c.writeP n (v != 0#64)
  | _ => c

def Core.tile (c : Core) (n : BitVec 5) : Shape := c.tiles.get n.toFin
def Core.setTile (c : Core) (n : BitVec 5) (r : Shape) : Core := { c with tiles := c.tiles.set n.toNat r n.isLt }

def Core.tileOf (c : Core) (o : Operand) : Shape :=
  match o with
  | .t n _ _ _ => c.tile n
  | _ => 0#128

def regOf (o : Operand) : BitVec 5 :=
  match o with
  | .t n _ _ _ => n
  | .s n => n
  | _ => 0#5

def slotOf (o : Operand) : BitVec 4 :=
  match o with
  | .o n => n
  | _ => 0#4

def Core.slotAt (c : Core) (n : BitVec 4) : Slot := c.slots.get n.toFin
def Core.setSlot (c : Core) (n : BitVec 4) (v : Slot) : Core := { c with slots := c.slots.set n.toNat v n.isLt }
def Core.bank (c : Core) (b : Nat) : BitVec 32 := c.bfmt[b]?.getD 0#32
def Core.setBank (c : Core) (b : Nat) (v : BitVec 32) : Core :=
  if h : b < 16 then { c with bfmt := c.bfmt.set b v h } else c

/-- The value of a scalar source (spec/10 R178). -/
def Core.value (c : Core) (o : Operand) : Word :=
  match o with
  | .s n => c.readS n
  | .q n => c.readQ n
  | .imm v => v.signExtend 64
  | .p n inv => if c.readP n != inv then 1#64 else 0#64
  | _ => 0#64

/-- The value of a destination read as a source: S[D], or Q(0) (spec/10 R183). -/
def Core.alternative (c : Core) (d : Operand) : Word :=
  match d with
  | .s n => c.readS n
  | .q _ => c.readQ 0#4
  | _ => 0#64

/-- Some source still waits for a handle that an XLEASE owes (spec/14 R263). -/
def Core.owes (c : Core) (os : List Operand) : Bool :=
  os.any fun o => c.owed.any fun w => match o with
    | .s n => w.push == none && w.reg == n && n != 0#5
    | .q n => n.toNat < c.pushes && w.push == some (c.pushes - 1 - n.toNat)
    | _ => false

/-! ## Repetition and the program counter -/

def repAct (r : Word) : Bool := r.getLsbD 0

/-- The index after pc (spec/07 R140); after 16,383 it is free (log entry 6). -/
def State.nextPc (s : State) : BitVec 14 :=
  if s.core.pc = 16383#14 then Config.indexAfterLast s.free else s.core.pc + 1#14

/-- Completion of an instruction in sequence: the repetition state counts (spec/02 R47, R48). -/
def State.advance (s : State) : State :=
  let r := s.core.sys.repst
  if repAct r then
    let pos := bits r 6 4
    let k := bits r 10 7
    if pos + 1 < k then { s with core := { s.core with pc := s.nextPc, sys := { s.core.sys with
      repst := setBits r 6 4 (pos + 1) } } }
    else if bits r 47 32 + 1 < bits r 31 16 then
      { s with core := { s.core with pc := s.core.pc - BitVec.ofNat 14 (k - 1), sys := { s.core.sys with
        repst := setBits (setBits r 6 4 0) 47 32 (bits r 47 32 + 1) } } }
    else { s with core := { s.core with pc := s.nextPc, sys := { s.core.sys with repst := setBits r 0 0 0 } } }
  else { s with core := { s.core with pc := s.nextPc } }

/-- Tile and slot numbers of the current pass (spec/02 R47). -/
def renumber (r : Word) (o : Operand) : Operand :=
  let k := bits r 47 32 * bits r 15 11
  match o with
  | .t n neg trn alt => .t (n + BitVec.ofNat 5 k) neg trn alt
  | .o n => .o (n + BitVec.ofNat 4 k)
  | o => o

def passArgs (x : Args) (r : Word) : Args :=
  if repAct r then { x with d := renumber r x.d, a := renumber r x.a, b := renumber r x.b } else x

/-! ## Issue time and restart points -/

/-- The timed issue cycle of the next instruction (spec/08 R154): the base for the first, else DELTA after the last. -/
def Core.issueCycle (c : Core) (h : Head) : Word :=
  if c.timed.first then c.timed.base + BitVec.ofNat 64 c.rank else c.timed.last + h.delta.zeroExtend 64

/-- Schedule position of an issue cycle (spec/08 R162). -/
def Core.position (c : Core) (t : Word) : Int := (t - c.timed.base).toInt - c.rank + c.timed.offset

/-- The core cycle at which a core's latest timed instruction issued. -/
def Core.now (c : Core) : Nat := (c.timed.last + c.fbase).toNat

/-- A timed operation of the matrix queue is over by a cycle (spec/08 R155). -/
def MatrixEntry.over (e : MatrixEntry) (cycle : Nat) : Bool := e.due != 0 && decide (e.due ≤ cycle)

/-- No engine command, matrix operation or static flit of the core is outstanding on its present cycle (spec/08 R159). -/
def State.quiet (s : State) (c : Core) : Bool :=
  c.xq.all (·.isEmpty) && c.gq.all (·.isEmpty) && c.mq.isEmpty
    && (s.flits.all fun f => f.src != c.die * 8 + c.num) && c.lanes.all fun l => l.act != .send

/-- Records a restart point (spec/08 R159). -/
def State.recordMark (s : State) : State :=
  if s.quiet s.core then s.modC fun c =>
    { c with
      pmark := c.mark
      mark := some { pc := c.pc, pos := c.position c.timed.last, comm := c.timed.comm, q := c.q, slots := c.slots, bfmt := c.bfmt,
                     xnext := c.xnext, gnext := c.gnext }
      sys := { c.sys with pmarkpc := c.sys.markpc, pmarkcyc := c.sys.markcyc, markpc := c.pc.zeroExtend 64
                          markcyc := c.timed.last } }
  else s

/-- Time is at least a cycle. -/
def State.reachCycle (s : State) (cycle : Nat) : State := { s with cyc := max s.cyc cycle }

/-- Core cycles pass. -/
def State.elapse (s : State) (n : Nat) : State := { s with cyc := s.cyc + n }

/-- The cycle of the next issue in a free phase: one more and whatever the architecture does not bound (log entry 5), and not
before a PHASE.free lets it (spec/14 R279). -/
def State.freeCycle (s : State) : State :=
  let n := s.cyc + 1 + Config.stall s.free % (Config.stallBound + 1)
  { s with cyc := max n s.core.holdUntil, free := s.free + 1 }

/-- The issue of an instruction takes its time: in a free phase one cycle and whatever the architecture does not bound
(log entry 5); in a timed region its timetable cycle, with the restart point it may be (spec/08 R154, R159). -/
def State.clock (s : State) (h : Head) : State :=
  let c := s.core
  if c.timed.active then
    let t := c.issueCycle h
    let s1 := { s with cyc := max s.cyc (t + c.fbase).toNat
                       core := { c with timed := { c.timed with last := t, first := false } } }
    if c.timed.first || h.rp then s1.recordMark else s1
  else s.freeCycle

/-- The same for a member of a gang whose leader issues at `base`: in a free phase a follower issues its rank in cycles
later (spec/01 R12). -/
def State.clockMember (s : State) (h : Head) (base : Nat) : State :=
  if s.core.timed.active then s.clock h else { s with cyc := base + s.core.rank }

/-- The cycle of a gang's issue, judged at its leader (spec/01 R12). -/
def State.gangClock (s : State) : State :=
  if s.core.timed.active then s
  else
    let t := s.freeCycle
    { t with cyc := (s.gang s.core).foldl (fun (n : Nat) (c : Core) => max n c.holdUntil) t.cyc }

/-- An instruction refused by a check changes no state: its restart point is not recorded (spec/07 R152). -/
def State.unmark (s : State) (c : Core) : State :=
  s.modC fun k =>
    { k with
      mark := c.mark, pmark := c.pmark
      sys := { k.sys with markpc := c.sys.markpc, markcyc := c.sys.markcyc, pmarkpc := c.sys.pmarkpc
                          pmarkcyc := c.sys.pmarkcyc } }

/-! ## Outcomes of an instruction in one core -/

/-- A cause (spec/21 R365, R368). `late`: returned by a destination after other gang members performed their copies;
`next`: EPC is the next instruction (spec/13 R252). -/
structure Exc where
  code     : BitVec 8
  eva      : Word
  other    : BitVec 12
  deferred : Bool
  late     : Bool
  next     : Bool
  deriving DecidableEq, Repr

/-- A precise cause without an address. -/
def cause (code : BitVec 8) : Exc := ⟨code, 0#64, 0xFFF#12, false, false, false⟩

/-- A precise cause with its address. -/
def causeAt (code : BitVec 8) (eva : Word) : Exc := { cause code with eva := eva }

/-- A cause that a destination returns. -/
def causeFrom (code : BitVec 8) (eva : Word) : Exc := { cause code with eva := eva, late := true }

abbrev illegalOp : BitVec 8 := 0x01#8
abbrev reservedField : BitVec 8 := 0x02#8
abbrev privCause : BitVec 8 := 0x03#8
abbrev alignCause : BitVec 8 := 0x04#8
abbrev xlateCause : BitVec 8 := 0x05#8
abbrev protCause : BitVec 8 := 0x06#8
abbrev collapseCause : BitVec 8 := 0x07#8
abbrev raceCause : BitVec 8 := 0x08#8
abbrev timingCause : BitVec 8 := 0x09#8
abbrev nackCause : BitVec 8 := 0x0A#8
abbrev shapeCause : BitVec 8 := 0x0B#8
abbrev bankFmtCause : BitVec 8 := 0x0C#8
abbrev slotCause : BitVec 8 := 0x0D#8
abbrev lockSelfCause : BitVec 8 := 0x0E#8
abbrev deadlockCause : BitVec 8 := 0x0F#8
abbrev atomicLostCause : BitVec 8 := 0x10#8
abbrev memLostCause : BitVec 8 := 0x11#8
abbrev abortCause : BitVec 8 := 0x12#8
abbrev streamCause : BitVec 8 := 0x13#8
abbrev eccCause : BitVec 8 := 0x14#8
abbrev linkCause : BitVec 8 := 0x15#8
abbrev preemptCause : BitVec 8 := 0x16#8
abbrev holdupCause : BitVec 8 := 0x17#8
abbrev trapCause : BitVec 8 := 0x18#8
abbrev breakCause : BitVec 8 := 0x19#8

/-- What one core makes of an instruction. -/
inductive Res where
  /-- complete; the next instruction follows -/
  | done (s : State)
  /-- complete, with a transfer (spec/10 R188) -/
  | goto (target : Nat) (s : State)
  /-- complete; the state is final, pc included -/
  | exit (s : State)
  /-- a cause; the state keeps what the rules let stand -/
  | trap (e : Exc) (s : State)
  /-- a condition of spec/08 R161 -/
  | timing (cond : Nat) (s : State)
  /-- the instruction waits and will issue again -/
  | wait (w : Wait) (s : State)
  deriving DecidableEq, Repr

/-- Containment class of a cause, none for class "—" (spec/21 R368). -/
def causeClass (code : BitVec 8) : Option Nat :=
  let n := code.toNat
  if n = 0x09 then some 1
  else if n = 0x0E ∨ n = 0x0F ∨ n = 0x12 then some 2
  else if n = 0x14 ∨ n = 0x15 then some 3
  else if 0x16 ≤ n then none
  else some 0

/-! ## Trap entry -/

/-- CAUSE at a trap entry (spec/21 R364). -/
def causeWord (e : Exc) (timed sibling done hold : Bool) : Word :=
  BitVec.ofNat 64 (e.code.toNat + (if e.deferred then 2 ^ 8 else 0) + (if sibling then 2 ^ 9 else 0)
    + (if done then 2 ^ 10 else 0) + (if timed then 2 ^ 11 else 0) + (causeClass e.code).getD 0 * 2 ^ 12
    + (if hold then 2 ^ 14 else 0) + e.other.toNat * 2 ^ 32)

/-- The cycle after the last beat of the instructions of a timed phase that have issued, and of its RECVs. -/
def Core.unitsEnd (c : Core) : Nat :=
  let beats := c.works.flatMap fun w => (w.reads ++ w.writes).map (·.cycle + 1) ++ w.result.toList.map (·.2 + 1)
  let lines := c.lanes.map fun l => match l.act with
    | .send => 0
    | .take => l.cycle + 2
    | .write _ => l.cycle + 1
  (beats ++ lines).foldl max 0

/-- Causes whose EVA holds an address, or the n of TRAP and BKPT (spec/21 R365): ALIGN to RACE, NACK, ATOMIC_LOST, MEM_LOST,
ECC_UNCORR, LINK, TRAP, BREAK; a deferred cause of a store keeps its address whatever it is (spec/13 R242). -/
def Exc.address (e : Exc) : Word :=
  if e.deferred || [0x04, 0x05, 0x06, 0x07, 0x08, 0x0A, 0x10, 0x11, 0x14, 0x15, 0x18, 0x19].contains e.code.toNat then e.eva else 0#64

/-- Trap entry at one core (spec/21 R364, R365): EPC, CAUSE and EVA, REPST to EREPST, the reuse buffers invalid,
handler mode, fetch at TVEC; DONE stands for an arrival that the gang's BARV has made (log entry 92). PREEMPT entry also moves the shape records and stream bindings out (R377). The trap ends the
core's timed region (spec/01 R22); what has issued there completes before the handler's first instruction. -/
def Core.trapEntry (c : Core) (e : Exc) (sibling done : Bool) : Core :=
  let pre := e.code == preemptCause
  { c with
    sys := { c.sys with
      epc := c.pc.zeroExtend 64, eva := e.address
      cause := causeWord e c.timed.active sibling (done || c.skip || c.arrived) (pre && c.hold)
      erepst := c.sys.repst, repst := 0#64, mode := setBits c.sys.mode 0 0 1 }
    pc := c.sys.tvec.truncate 14
    reuseA := none, reuseB := none, wait := .none, wake := none, arrived := false, skip := false, board := { Board.reset with made := c.board.made }
    rowLimit := none, lag := [], solo := false, holdUntil := max c.holdUntil c.unitsEnd
    savedTimed := if pre then c.timed.active else c.savedTimed
    timed := { c.timed with active := false, leaving := false }
    hwImage := if pre then some (c.tiles, c.streams) else c.hwImage
    tiles := if pre then Vector.replicate 32 0#128 else c.tiles
    streams := if pre then [] else c.streams
    preemptPend := if pre then false else c.preemptPend }

/-- A core leaves the wait it is in: the FIFO of a mutex (spec/14 R276) or the order of a ring (spec/20 R359). -/
def State.leaveWait (s : State) : State :=
  match s.core.wait with
  | .mutex m =>
    let l := s.latch s.core.latch
    match l.mutexes[m]? with
    | some x => if h : m < 16 then s.setLatch s.core.latch
        { l with mutexes := l.mutexes.set m { x with waiters := x.waiters.filter (· != s.core.num % 4) } h } else s
    | none => s
  | .ringPut _ _ => { s with rings := s.rings.filter fun r => r.2.2 != s.core.die * 8 + s.core.num }
  | .ringGet _ => { s with rings := s.rings.filter fun r => r.2.2 != s.core.die * 8 + s.core.num }
  | _ => s

/-- The focused core takes a trap. -/
def State.enter (s : State) (e : Exc) (sibling done : Bool) : State :=
  let t := (if e.next then s.advance else s).leaveWait
  t.modC fun c => c.trapEntry e sibling done

/-! ## Kills -/

/-- Cores of a scope instance of x at a level, within x's context (spec/01 R7, spec/21 R370). -/
def inScope (level : Nat) (x c : Core) : Bool :=
  c.field.isSome && c.ctx == x.ctx && (match level with
    | 0 => c.is x.die x.num
    | 1 => c.die == x.die && c.quad == x.quad
    | 2 => c.die == x.die
    | 3 => c.field == x.field
    | _ => true)

/-- Frees the mutexes of killed cores of one Latch, whose waiters outside the instance are named (spec/21 R371). -/
def freeMutexes (victims : List Nat) (l : Latch) : Latch × List Nat :=
  let out := l.mutexes.toList.flatMap fun x =>
    match x.holder with
    | some h => if victims.contains h then x.waiters.filter fun w => !victims.contains w else []
    | none => []
  ({ l with mutexes := l.mutexes.map fun x =>
      match x.holder with
      | some h => if victims.contains h then ⟨none, []⟩ else { x with waiters := x.waiters.filter fun w => !victims.contains w }
      | none => x }, out)

/-- The state a killed core is left in (spec/21 R371). -/
def Core.killed (c : Core) : Core :=
  { c with run := .killed, xq := Vector.replicate 4 [], gq := Vector.replicate 4 [], mq := [], lanes := [], works := []
           chunk := none, wait := .none, wake := none, arrived := false, lag := [], solo := false, deferred := [], abortPend := false, abortRaise := false, preemptPend := false
           timed := { c.timed with active := false, leaving := false } }

/-- A core's chunks of an aborted collective, in CQIN or half stored to it, are discarded (spec/05 R116). -/
def Core.dropColl (c : Core) (id : Nat) : Core :=
  { c with
    cqin := c.cqin.filter fun x => x.id != id
    colls := c.colls.map fun o => if o.id == id then { o with forming := [] } else o }

/-- Marks every collective with a killed member aborted (spec/05 R116). -/
def State.abortColls (s : State) (p : Core → Bool) : State :=
  let dead := s.cores.filter p
  let lost := fun (k : Coll) => dead.any fun c => c.ctx == k.ctx && k.members.contains c.lcn
  { s with colls := s.colls.map fun k => if lost k then { k with aborted := true, parts := [] } else k }.mapCores fun c =>
    (s.colls.filter fun k => lost k && k.ctx == c.ctx && k.members.contains c.lcn).foldl (fun (c : Core) (k : Coll) => c.dropColl k.id) c

/-- The instance key of a scope barrier at a core (spec/05 R104). -/
def scopeKey (level : Nat) (c : Core) : Nat :=
  match level with
  | 2 => c.die
  | 3 => c.field.getD 0
  | _ => c.ctx

/-- BARST names a scope barrier (spec/05 R103). -/
def awaitsScope (c : Core) (level num : Nat) : Bool :=
  let b := c.sys.barst
  b.getLsbD 0 && b.getLsbD 9 && bits b 18 16 == level && bits b 15 13 == num

/-- Scope barriers of an instance with killed cores: the phase is aborted, every waiter takes COLLECTIVE_ABORT, E
excludes the killed (spec/21 R371). -/
def State.abortScopeBars (s : State) (p : Core → Bool) : State :=
  s.scopeBars.foldl (fun (s : State) (sb : ScopeBar) =>
    let lost := (s.cores.filter fun c => p c && scopeKey sb.level c == sb.key).length
    if lost = 0 then s
    else
      let s1 := { s with scopeBars := s.scopeBars.map fun (b : ScopeBar) =>
        if b.level == sb.level && b.key == sb.key && b.num == sb.num then
          { b with bar := { b.bar with a := 0, joins := 0, drops := 0, timed := 0, came := [], e := b.bar.e - lost } } else b }
      s1.mapCores fun c =>
        if !p c && scopeKey sb.level c == sb.key && awaitsScope c sb.level sb.num then { c with abortRaise := true } else c) s

/-- A killed core counts as acknowledged in a field that waits for its acknowledgements (spec/21 R376). -/
def State.ackKilled (s : State) (victims : List Core) : State :=
  victims.foldl (fun (s : State) (c : Core) => match c.field with
    | some i =>
      let f := s.fieldAt i
      if f.stat == .preempting && c.run != .acked then s.setField i { f with acks := f.acks + 1 } else s
    | none => s) s

/-- The leases of a context whose cores are all killed end (spec/19 R340). -/
def State.endLeases (s : State) : State :=
  { s with leases := s.leases.filter fun l =>
      s.cores.any fun c => c.field.isSome && c.ctx == l.ctx && c.run != .killed }

/-- Kills the cores of `p` (spec/21 R371, R372): level, class and code go to KILLREC, with the faulting core. -/
def State.kill (s : State) (p : Core → Bool) (level cls : Nat) (code : BitVec 8) (lcn : Nat) : State :=
  let victims := s.cores.filter fun c => p c && c.run != .killed
  match victims with
  | [] => s
  | first :: _ =>
    let recs := (victims.map fun c => if c.rank = 0 then (c.chunk.map (·.left)).getD 0 else 0).foldl (· + ·) 0
    let s1 := (victims.map Core.latch).eraseDups.foldl (fun (s : State) k =>
      let (l, out) := freeMutexes ((victims.filter fun c => c.latch == k).map (·.num % 4)) (s.latch k)
      (s.setLatch k l).mapCores fun c =>
        if c.latch == k && out.contains (c.num % 4) then { c with wake := some 2#64 } else c) s
    let s2 := (s1.abortColls p).abortScopeBars fun c => p c && c.run != .killed
    let s3 := ((s2.mapCores fun c => if p c && c.run != .killed then c.killed else c).ackKilled victims).endLeases
    let s4 := if 3 ≤ level then (victims.filterMap (·.field)).eraseDups.foldl (fun (s : State) i =>
      s.setField i { s.fieldAt i with stat := .killed }) s3 else s3
    let i := first.field.getD 0
    let f := s4.fieldAt i
    (s4.setField i { f with killrec := BitVec.ofNat 64 (2 ^ 63 + level * 2 ^ 60 + cls * 2 ^ 58 + code.toNat * 2 ^ 40
      + min recs (2 ^ 28 - 1) * 2 ^ 12 + lcn % 4096) }).irqCreator f 0

/-! ## Containment -/

/-- The outcome of CONTAIN for a class (spec/21 R370): true and a level to trap, false and a level to kill. -/
def containDecision (contain : Word) (cls : Nat) (handler timed : Bool) (levels : List Nat) : Bool × Nat :=
  match levels with
  | [] => (false, 5)
  | l :: rest =>
    match bits contain (8 * l + 2 * cls + 1) (8 * l + 2 * cls) with
    | 1 => if handler then containDecision contain cls handler timed rest
           else (true, if timed && l < 3 then 3 else l)
    | 2 => (false, l)
    | 3 => (false, min (l + 1) 5)
    | _ => containDecision contain cls handler timed rest

def sameGang (x c : Core) : Bool := x.ganged && c.ganged && x.die == c.die && x.quad == c.quad

/-- A cause of the focused core reaches containment (spec/21 R370). A RETRY traps cores that run a program; up to level 3 one
of a timed region traps those still inside, and TIMING the consulting core alone. -/
def State.contain (s : State) (e : Exc) (cls : Nat) (sibling done : Bool) : State :=
  let x := s.core
  match containDecision x.sys.contain cls x.handler x.timed.active (List.range 6) with
  | (true, level) =>
    let near := decide (level ≤ 3)
    let s1 := if e.code == timingCause && near then s else s.mapCores fun c =>
      if !c.is x.die x.num && !sameGang x c && inScope level x c && c.run == .running && !c.idled
          && (!(x.timed.active && near) || c.timed.active) then { c with abortPend := true } else c
    s1.enter e sibling done
  | (false, level) => s.kill (inScope level x) level cls e.code x.lcn

/-- The focused core raises a cause: in user mode a cause of class "—" traps without consultation, every other cause
reaches containment (spec/21 R366, R367, R370). A core that a kill has stopped takes nothing. -/
def State.raise (s : State) (e : Exc) (sibling done : Bool) : State :=
  if s.core.run == .killed then s
  else match causeClass e.code with
  | none => if s.core.handler then s else s.enter e sibling done
  | some cls => s.contain e cls sibling done

/-- Containment settles a cause at a core by a kill (R370). -/
def Core.killsFor (c : Core) (e : Exc) : Bool :=
  match causeClass e.code with
  | none => false
  | some cls => !(containDecision c.sys.contain cls c.handler c.timed.active (List.range 6)).1

/-! ## Timing and rollback -/

/-- Positions of the marks a core holds. -/
def Core.marks (c : Core) : List Mark := c.mark.toList ++ c.pmark.toList

/-- A result that a rollback does not take back: a register or a predicate (R162). -/
def Result.scalar (r : Result) : Bool :=
  match r.what with
  | .reg _ => true
  | .pred _ => true
  | _ => false

/-- Rollback of one core to the mark at a position (spec/08 R162): slots get back their states and records, and keep the bytes
they hold. -/
def Core.rollback (c : Core) (pos : Int) (base : Word) : Core :=
  match c.marks.find? fun m => m.pos == pos with
  | none => c
  | some m =>
    { c with pc := m.pc, q := m.q, bfmt := m.bfmt, xnext := m.xnext, gnext := m.gnext
             slots := Vector.ofFn fun (i : Fin 16) => { m.slots.get i with data := (c.slots.get i).data }
             xq := Vector.replicate 4 [], gq := Vector.replicate 4 [], mq := [], mqIssued := c.mqDone
             sys := { c.sys with repst := 0#64 }, reuseA := none, reuseB := none, rxbuf := [], lanes := []
             board := { Board.reset with made := c.board.made.filter Result.scalar }
             lag := [], solo := false, arrived := false, rbTarget := some pos, wait := .release
             timed := { c.timed with base := base, offset := pos.toNat, first := true, leaving := false, comm := m.comm } }

/-- The timed commands and matrix operations of a core that has left the region are cancelled too; where nothing younger stands in its queue their
ids are returned (spec/08 R162; log entry 65). -/
def Core.cancelTimed (c : Core) : Core :=
  let keepX := c.xq.map fun l => l.filter fun t => !t.timed
  let keepG := c.gq.map fun l => l.filter fun t => !t.timed
  { c with
    xq := keepX, gq := keepG, mq := c.mq.filter (·.due == 0), lanes := []
    xnext := Vector.ofFn fun (i : Fin 4) => if (keepX.get i).isEmpty then c.xnext.get i - (c.xq.get i).length else c.xnext.get i
    gnext := Vector.ofFn fun (i : Fin 4) => if (keepG.get i).isEmpty then c.gnext.get i - (c.gq.get i).length else c.gnext.get i }

/-- TFLT (spec/08 R161): condition, consecutive rollbacks, the detecting core, its cycle. -/
def tfltWord (cond count fcn : Nat) (cycle : Word) : Word :=
  BitVec.ofNat 64 (cond % 16 * 2 ^ 56 + count * 2 ^ 48 + fcn * 2 ^ 36 + cycle.toNat % 2 ^ 36)

/-- TFLT of every core of a field. -/
def State.putTflt (s : State) (field : Option Nat) (w : Word) : State :=
  s.mapCores fun c => if c.field == field then { c with sys := { c.sys with tflt := w } } else c

/-- TIMING with a condition at the focused core: the whole field rolls back to the latest restart point common to the
cores in the region and waits for its re-release (spec/08 R162), or, where R163 refuses, every such core takes
TIMING. The cores stop with the detection itself, and all of them have stopped, at F, within 128 cycles of it, a free choice (log
entry 12). TFLT records the fault either way; where the rollback is
refused RBCNT is left (log entry 65). -/
def State.rollback (s : State) (cond : Nat) : State :=
  let x := s.core
  let inRegion := fun (c : Core) => c.field == x.field && c.field.isSome && c.timed.active
  let cores := s.cores.filter inRegion
  let common := (x.marks.map (·.pos)).filter fun p => cores.all fun c => c.marks.any fun m => m.pos == p
  let target : Option Int := common.foldl (fun b p => match b with
    | none => some p
    | some q => some (max p q)) none
  let had := bits x.sys.tflt 55 48
  let refused := (cores.map fun c => (c.die, c.num)).foldl (fun (s : State) (k : Nat × Nat) =>
    s.within k.1 k.2 fun t => t.raise (cause timingCause) false false)
    (s.putTflt x.field (tfltWord cond had x.fcn (s.fcyc x)))
  match target with
  | none => refused
  | some pos =>
    let left := s.cores.any fun c => c.field == x.field && !c.memc && !c.timed.active
      && c.timed.base != 0#64 && decide (pos < c.position c.timed.last)
    let count := if x.rbTarget = some pos then had + 1 else 1
    if left ∨ 17 ≤ count then refused
    else
      let s1 := s.mapCores fun c =>
        if inRegion c then c.rollback pos (s.fcyc c + 64#64 + BitVec.ofNat 64 (Config.turn s.free % 129))
        else if c.field == x.field && c.field.isSome && !c.memc then c.cancelTimed else c
      let s2 := s1.putTflt x.field (tfltWord cond count x.fcn (s.fcyc x))
      let s3 := { s2 with free := s2.free + 1, flits := s2.flits.filter fun f => !s.cores.any fun c => c.field == x.field && f.src == c.die * 8 + c.num }
      s3.mapCores fun c => if inRegion c && c.preemptPend then c.trapEntry (cause preemptCause) false false else c

end Sys2Proof.Machine
end

