-- ==== Sys2Proof/Machine/Races.lean ====
section
/-!
DEFINITION. Race records (spec/04 R86 to R93): the check of one access, generations, and the stops an operand check ends
in.
-/

namespace Sys2Proof.Machine

/-- Why an instruction does not complete. -/
inductive Stop where
  | exc (e : Exc)
  | wait (w : Wait)
  | timing (cond : Nat)
  deriving DecidableEq, Repr

abbrev Chk (α : Type) := Except Stop α

def stop {α : Type} (code : BitVec 8) : Chk α := .error (.exc (cause code))
def stopAt {α : Type} (code : BitVec 8) (eva : Word) : Chk α := .error (.exc (causeAt code eva))

/-- A check that raises a cause when it fails. -/
def demand (ok : Bool) (code : BitVec 8) : Chk Unit := if ok then .ok () else stop code
def demandAt (ok : Bool) (code : BitVec 8) (eva : Word) : Chk Unit := if ok then .ok () else stopAt code eva
def demandWait (ok : Bool) (w : Wait) : Chk Unit := if ok then .ok () else .error (.wait w)

/-- A state in which the instruction stops unchanged, or completes. -/
def finish (s : State) (r : Chk State) : Res :=
  match r with
  | .ok t => .done t
  | .error (.exc e) => .trap e s
  | .error (.wait w) => .wait w s
  | .error (.timing k) => .timing k s

/-- The same for a result of its own. -/
def settleWith (s : State) (r : Chk Res) : Res :=
  match r with
  | .ok t => t
  | .error (.exc e) => .trap e s
  | .error (.wait w) => .wait w s
  | .error (.timing k) => .timing k s

def Race.none : Race := ⟨0xFFF#12, 0#16, 0#8, 0#8, 0xFFF#12, false, false⟩

def noCore : BitVec 12 := 0xFFF#12

/-- The core that makes a gang's mutex requests (spec/01 R12). -/
def State.requester (s : State) (c : Core) : Core := if c.ganged then (s.gang c).headD c else c

/-- A core holds at least one Latch mutex; every member of a gang holds what its leader does (spec/04 R89, spec/01 R12). -/
def State.holdsMutex (s : State) (c : Core) : Bool :=
  (s.latch c.latch).mutexes.any fun m => m.holder == some ((s.requester c).num % 4)

def State.qgen (s : State) (c : Core) : BitVec 8 := lookupD s.gens.qgen c.latch 0#8
def State.dgen (s : State) (c : Core) : BitVec 8 := lookupD s.gens.dgen c.die 0#8
def State.fgen (s : State) (c : Core) : BitVec 16 := lookupD s.gens.fgen (c.field.getD 16) 0#16

/-- The core a record compares with: its writer, or its reader (R341). -/
def Race.owner (r : Race) : BitVec 12 := if r.writer = 0xFFF#12 then r.reader else r.writer

/-- The core that a logical number names: a compute core, or an attached memory core (log entry 14). -/
def State.coreOf (s : State) (o : BitVec 12) : Option Core :=
  (s.cores.find? fun c => BitVec.ofNat 12 c.lcn == o && !c.memc).orElse fun _ =>
    s.cores.find? fun c => BitVec.ofNat 12 c.lcn == o && c.memc && c.field.isSome

/-- The sweep of R93: records whose FGEN lies 2^15 or more behind their field's. -/
def State.sweep (s : State) : State :=
  { s with race := s.race.filter fun x => match s.coreOf x.2.owner with
      | some c => decide ((s.fgen c - x.2.fgen).toNat < 2 ^ 15)
      | none => true }

/-- FGEN advances; the sweeper is never outrun (R93). -/
def State.bumpField (s : State) (f : Nat) : State :=
  State.sweep { s with gens := { s.gens with fgen := assign s.gens.fgen f (lookupD s.gens.fgen f 0#16 + 1#16) } }

/-- A flip advances the generation of its scope; a QGEN or DGEN that wraps advances FGEN as well (spec/04 R88). -/
def State.bumpGen (s : State) (level : Nat) (c : Core) : State :=
  match level with
  | 1 =>
    let g := s.qgen c + 1#8
    let t := { s with gens := { s.gens with qgen := assign s.gens.qgen c.latch g } }
    if g = 0#8 then t.bumpField (c.field.getD 16) else t
  | 2 =>
    let g := s.dgen c + 1#8
    let t := { s with gens := { s.gens with dgen := assign s.gens.dgen c.die g } }
    if g = 0#8 then t.bumpField (c.field.getD 16) else t
  | 3 => s.bumpField (c.field.getD 16)
  | _ => ((s.cores.filter fun k => k.ctx == c.ctx).filterMap (·.field)).eraseDups.foldl State.bumpField s

def findRace (t : List (Place × Race)) (p : Place) : Option Race := (t.find? fun x => x.1 == p).map (·.2)

/-- Writing a record: the newest stands first; a local store keeps the 512 newest (spec/04 R87). -/
def putRace (t : List (Place × Race)) (p : Place) (r : Race) : List (Place × Race) :=
  let rest := t.filter fun x => x.1 != p
  match p with
  | .global _ => (p, r) :: rest
  | .localStore l _ =>
    let mine := rest.filter fun x => match x.1 with
      | .localStore k _ => k == l
      | .global _ => false
    if mine.length < 512 then (p, r) :: rest
    else match mine.getLast? with
      | some old => (p, r) :: rest.filter fun x => x.1 != old.1
      | none => (p, r) :: rest

/-- The home tags replace a GLOBAL record, which is lost (spec/04 R87): the n-th. -/
def State.evictRace (s : State) (n : Nat) : State :=
  let globals := s.race.filter fun x => match x.1 with
    | .global _ => true
    | .localStore _ _ => false
  match globals[n % max globals.length 1]? with
  | some g => { s with race := s.race.filter fun x => x.1 != g.1 }
  | none => s

/-- separated(R, O, X) of spec/04 R89. -/
def State.separated (s : State) (r : Race) (o : BitVec 12) (x : Core) : Bool :=
  match s.coreOf o with
  | none => true
  | some k => k.field != x.field || s.fgen x != r.fgen || (k.die == x.die && s.dgen x != r.dgen)
      || (k.latch == x.latch && s.qgen x != r.qgen)

/-- race_access of spec/04 R89: none is RACE; the conflicting core goes to CAUSE.OTHER. -/
def State.raceAccess (s : State) (x : Core) (p : Place) (w locked : Bool) : Except (BitVec 12) State :=
  let me := BitVec.ofNat 12 x.lcn
  let r := (findRace s.race p).getD Race.none
  let o := if r.writer ≠ noCore then r.writer else r.reader
  let fresh : Race :=
    { writer := if w then me else noCore, reader := if w then noCore else me, many := false, locked := locked,
      fgen := s.fgen x, dgen := s.dgen x, qgen := s.qgen x }
  let opened : State := { s with race := putRace s.race p fresh }
  if o = noCore ∨ s.separated r o x then .ok opened
  else
    let others := (r.writer != noCore && r.writer != me)
      || (w && ((r.reader != noCore && r.reader != me) || r.many))
    if !others then
      let joined : Race := { r with
        writer := if w then me else r.writer
        reader := if !w && r.reader == noCore then me else r.reader
        many := r.many || (!w && r.reader != noCore && r.reader != me)
        locked := r.locked && locked }
      .ok { s with race := putRace s.race p joined }
    else if (r.locked && locked) || x.sys.racest.getLsbD 0 then .ok opened
    else .error o

/-- An access of the owner to a piece of its local store: checked only where another core's access is recorded
(spec/04 R86). -/
def State.raceLocal (s : State) (piece : Nat) (w : Bool) (eva : Word) : Chk State :=
  let p := Place.localStore s.core.lcn piece
  if s.core.timed.active then .ok s
  else match findRace s.race p with
    | none => .ok s
    | some _ => match s.raceAccess s.core p w (s.holdsMutex s.core) with
      | .ok t => .ok t
      | .error o => .error (.exc { causeAt raceCause eva with other := o })

/-- The acquire of a synchronising access sets RACEST.OPEN (spec/04 R90). -/
def State.acquire (s : State) : State := s.modSys fun r => { r with racest := r.racest ||| 1#64 }

/-- A release has nothing outstanding before it: every earlier store performed, no deferred cause pending
(spec/04 R70, R76, spec/13 R242). -/
def Core.settled (c : Core) : Bool := c.stores.isEmpty && c.acks.isEmpty

end Sys2Proof.Machine
end

