-- ==== Sys2Proof/Machine/Operands.lean ====
section
/-!
DEFINITION. Tile operands: shape records (spec/02 R29), element location (R30, R31), the checks of R32 to R35, stream-mode
registers (R44), elements read and written under the bank's format (R33, R38, R39), and the bytes of the local store
(spec/03 R61, spec/13 R243, R245).
-/

namespace Sys2Proof.Machine

/-! ## Shape records -/

def recBase (r : Shape) : Nat := bits r 20 0
def recRows (r : Shape) : Nat := bits r 26 21 + 1
def recCols (r : Shape) : Nat := bits r 32 27 + 1
def recRstr (r : Shape) : Nat := bits r 48 33
def recEstr (r : Shape) : Nat := bits r 52 49 + 1
def recVrows (r : Shape) : Nat := bits r 59 53
def recVcols (r : Shape) : Nat := bits r 66 60
def recAlt (r : Shape) : Nat := bits r 74 67
def recMbank (r : Shape) : Nat := bits r 78 75
def recMv (r : Shape) : Bool := r.getLsbD 79
def recStrm (r : Shape) : Bool := r.getLsbD 80
def recBank (r : Shape) : Nat := bits r 20 17

def fmtCode (b : BitVec 32) : Nat := bits b 11 8
def fmtScale (b : BitVec 32) : Int := signed (bits b 7 0) 8
def fmtSat (b : BitVec 32) : Bool := b.getLsbD 12

/-! ## Local-store bytes -/

/-- Bytes of a bank: under AF56 and AI56 the top byte of each word reads 0x00 (spec/03 R60). -/
def Core.lsByte (c : Core) (a : Nat) : Byte :=
  let f := fmtCode (c.bank (a / 0x20000))
  if a % 8 = 7 ∧ (f = 7 ∨ f = 8) then 0#8 else Mem.get c.ls a

def Core.lsBytes (c : Core) (a n : Nat) : List Byte := (List.range n).map fun k => c.lsByte (a + k)

/-- An uncorrectable error among n bytes (spec/03 R61): its address. -/
def Core.lsBadAt (c : Core) (a n : Nat) : Option Nat :=
  if c.lsBad.isEmpty then none
  else ((List.range n).find? fun k => c.lsBad.contains ((a + k) / 8)).map (a + ·)

/-- A single-bit error among n bytes, which a read corrects (R61). -/
def Core.weakAt (c : Core) (a n : Nat) : Bool := c.lsWeak.any fun w => decide (a / 8 ≤ w) && decide (w ≤ (a + n - 1) / 8)

/-- The single-bit errors among n bytes have been corrected (log entry 89). -/
def Core.correct (c : Core) (a n : Nat) : Core :=
  { c with lsWeak := c.lsWeak.filter fun w => !(decide (a / 8 ≤ w) && decide (w ≤ (a + n - 1) / 8)) }

/-! ## Locating elements -/

/-- Element index of (i,j) in the tile's own coordinates (R30). -/
def elemIndex (r : Shape) (alt : Bool) (i j : Nat) : Nat :=
  i * recRstr r + j * recEstr r + (if alt then recAlt r else 0)

/-- Bytes of an element of a byte-aligned format (R31). -/
def Fmt.bytes (f : Fmt) : Nat :=
  match f with
  | .fp32 | .i32 => 4
  | .fp16 => 2
  | .af56 | .ai56 => 8
  | _ => 1

/-- First byte of element e (R31); T6: of its group. -/
def elemByte (f : Fmt) (base e : Nat) : Nat :=
  match f with
  | .t6 => base + 3 * (e / 4)
  | .m1 => base + e / 8
  | f => base + f.bytes * e

/-- First byte of element e itself. -/
def elemFirst (f : Fmt) (base e : Nat) : Nat :=
  match f with
  | .t6 => base + 3 * (e / 4) + 6 * (e % 4) / 8
  | f => elemByte f base e

/-- Last byte of element e. -/
def elemLast (f : Fmt) (base e : Nat) : Nat :=
  match f with
  | .t6 => base + 3 * (e / 4) + (6 * (e % 4) + 5) / 8
  | .m1 => base + e / 8
  | f => base + f.bytes * e + (f.bytes - 1)

/-- Bytes read to fetch element e. -/
def elemSpan (f : Fmt) : Nat :=
  match f with
  | .t6 => 3
  | f => f.bytes

/-! ## Streams as operands (spec/06 R118) -/

def Stream.total (t : Stream) : Nat := t.cnt.foldl (· * ·) 1

/-- Index of tile n along dimension d. -/
def Stream.index (t : Stream) (n d : Nat) : Nat :=
  n / (t.cnt.take d).foldl (· * ·) 1 % (t.cnt[d]?.getD 1)

/-- The shape record of ring entry n mod DEPTH for tile n. -/
def Stream.entry (t : Stream) (n : Nat) : Shape :=
  let r := setBits t.saved 20 0 (t.rbase + n % t.depth * t.entsz)
  let r := if t.edgec ≠ 0 ∧ t.index n 0 + 1 = t.cnt[0]?.getD 1 then setBits r 66 60 (min (recVcols r) t.edgec) else r
  let r := if t.edger ≠ 0 ∧ t.index n 1 + 1 = t.cnt[1]?.getD 1 then setBits r 59 53 (min (recVrows r) t.edger) else r
  r ||| (1#128 <<< 80)

def Core.stream (c : Core) (n : BitVec 5) : Option Stream := c.streams.find? fun t => t.tile == n

/-- The shape record an operand sees: the head ring entry's in stream mode (R44). -/
def Core.record (c : Core) (n : BitVec 5) : Shape :=
  match c.stream n with
  | some t => t.entry t.next
  | none => c.tile n

/-! ## Resolved operands -/

/-- A tile operand with its record and the format its elements have. -/
structure View where
  reg   : BitVec 5
  shape : Shape
  fmt   : Fmt
  code  : Nat
  scale : Int
  sat   : Bool
  neg   : Bool
  trn   : Bool
  alt   : Bool
  deriving DecidableEq, Repr

/-- A view under a format code, with the bank's own SCALE and SAT (spec/07 R147); code 0 is the bank's format. -/
def Core.viewAs (c : Core) (o : Operand) (fovr : Nat) : View :=
  let r := c.record (regOf o)
  let b := c.bank (recBank r)
  let k := if fovr = 0 then fmtCode b else fovr
  let (neg, trn, alt) := match o with
    | .t _ neg trn alt => (neg, trn, alt)
    | _ => (false, false, false)
  { reg := regOf o, shape := r, fmt := fmtOf k, code := k, scale := fmtScale b, sat := fmtSat b, neg := neg, trn := trn,
    alt := alt }

def Core.view (c : Core) (o : Operand) : View := c.viewAs o 0

/-- Rows and columns of the operand, after TRN (R30). -/
def View.rows (v : View) : Nat := if v.trn then recCols v.shape else recRows v.shape
def View.cols (v : View) : Nat := if v.trn then recRows v.shape else recCols v.shape
def View.vrows (v : View) : Nat := if v.trn then recVcols v.shape else recVrows v.shape
def View.vcols (v : View) : Nat := if v.trn then recVrows v.shape else recVcols v.shape
def View.valid (v : View) (i j : Nat) : Bool := decide (i < v.vrows) && decide (j < v.vcols)

/-- Element index of operand element (i,j). -/
def View.index (v : View) (i j : Nat) : Nat :=
  if v.trn then elemIndex v.shape v.alt j i else elemIndex v.shape v.alt i j

/-- Constraints of R31. -/
def layoutOk (f : Fmt) (r : Shape) (alt : Bool) : Bool :=
  match f with
  | .t6 => recEstr r == 1 && recRstr r % 4 == 0 && recCols r % 4 == 0 && (!alt || recAlt r % 4 == 0)
  | .m1 => recEstr r == 1 && recRstr r % 8 == 0 && recCols r % 8 == 0 && (!alt || recAlt r % 8 == 0)
  | f => recBase r % f.bytes == 0

/-- The last element's index and the byte range of the full extent (R32). -/
def lastIndex (r : Shape) (alt : Bool) : Nat := elemIndex r alt (recRows r - 1) (recCols r - 1)
def extentLo (f : Fmt) (r : Shape) (alt : Bool) : Nat := elemFirst f (recBase r) (elemIndex r alt 0 0)
def extentHi (f : Fmt) (r : Shape) (alt : Bool) : Nat := elemLast f (recBase r) (lastIndex r alt)

/-- Conditions 1 to 4 of R32. -/
def shapeOk (f : Fmt) (r : Shape) (alt : Bool) : Bool :=
  decide (recVrows r ≤ recRows r) && decide (recVcols r ≤ recCols r) && layoutOk f r alt
    && extentHi f r alt / 0x20000 == recBank r && (!recMv r || recMbank r != recBank r)

def View.shapeOk (v : View) : Bool := Machine.shapeOk v.fmt v.shape v.alt

/-- Some element of the full grid holds byte b (R32, R34). -/
def byteInExtent (f : Fmt) (r : Shape) (alt : Bool) (b : Nat) : Bool :=
  let base := recBase r
  decide (base ≤ b) &&
    (let e := match f with
      | .t6 => 4 * ((b - base) / 3)
      | .m1 => 8 * (b - base)
      | f => (b - base) / f.bytes
     (List.range (recRows r)).any fun i =>
       let lo := elemIndex r alt i 0
       decide (lo ≤ e) && (e - lo) % recEstr r == 0 && decide ((e - lo) / recEstr r < recCols r))

/-- The extents of two views share a byte. -/
def View.meets (v w : View) : Bool :=
  decide (extentLo v.fmt v.shape v.alt ≤ extentHi w.fmt w.shape w.alt)
    && decide (extentLo w.fmt w.shape w.alt ≤ extentHi v.fmt v.shape v.alt)
    && (List.range (recRows v.shape)).any fun i => (List.range (recCols v.shape)).any fun j =>
        let e := elemIndex v.shape v.alt i j
        let a := elemByte v.fmt (recBase v.shape) e
        (List.range (elemSpan v.fmt)).any fun k => byteInExtent w.fmt w.shape w.alt (a + k)

def View.extent (v : View) : Extent := ⟨v.code, v.shape, v.alt⟩

/-- The record of a mirrored tile's second copy (spec/02 R35). -/
def mirrorRecord (r : Shape) : Shape := setBits r 20 17 (recMbank r)

/-- The bytes of a tile and of its mirror copy. -/
def View.extents (v : View) : List Extent :=
  v.extent :: (if recMv v.shape then [{ v.extent with shape := mirrorRecord v.shape }] else [])

def Extent.view (x : Extent) : View :=
  { reg := 0#5, shape := x.shape, fmt := fmtOf x.code, code := x.code, scale := 0, sat := false, neg := false, trn := false
    alt := x.alt }

def Extent.meets (x y : Extent) : Bool := x.view.meets y.view

/-- Two operands name the same elements (R34). -/
def View.same (d v : View) : Bool :=
  recBase d.shape == recBase v.shape && recRstr d.shape == recRstr v.shape && recEstr d.shape == recEstr v.shape
    && d.alt == v.alt && !d.trn && !v.trn

/-- The overlap rule of a row-resumable instruction (R34). -/
def overlapOk (d : View) (srcs : List View) : Bool := srcs.all fun v => d.same v || !d.meets v

/-- FMT, SCALE and SAT of both banks of a mirrored tile agree (R35). -/
def Core.mirrorOk (c : Core) (v : View) : Bool :=
  !recMv v.shape || bits (c.bank (recBank v.shape)) 12 0 == bits (c.bank (recMbank v.shape)) 12 0

/-! ## Stored codes -/

/-- A byte of a tile as its bank holds it now is written, or of its mirror copy: a reuse buffer with the tile is stale
(spec/08 R158). -/
def Core.staleBy (c : Core) (a n : Nat) (t : BitVec 5) : Bool :=
  let r := c.tile t
  let f := fmtOf (fmtCode (c.bank (recBank r)))
  (List.range n).any fun k => byteInExtent f r false (a + k) || byteInExtent f r true (a + k)
    || (recMv r && (byteInExtent f (mirrorRecord r) false (a + k) || byteInExtent f (mirrorRecord r) true (a + k)))

/-- The bank at a byte of the local store holds AF56 or AI56: the top byte of each word is its check byte (spec/03 R60). -/
def Core.checkByte (c : Core) (a : Nat) : Bool :=
  let f := fmtCode (c.bank (a / 0x20000))
  a % 8 == 7 && (f == 7 || f == 8)

/-- A write of bytes regenerates the check bits of its words and invalidates a reuse buffer whose tile holds one of them; what it
brings for the top byte of an accumulator word is ignored (spec/03 R61). -/
def Core.putLs (c : Core) (a : Nat) (bs : List Byte) : Core :=
  let hold := (List.range bs.length).any fun k => c.checkByte (a + k)
  let data := if hold then (bs.zip (List.range bs.length)).map fun p => if c.checkByte (a + p.2) then 0#8 else p.1 else bs
  { c with
    ls := Mem.putBytes c.ls a data
    lsBad := c.lsBad.filter fun w => !(decide (a / 8 ≤ w) && decide (w ≤ (a + bs.length - 1) / 8))
    lsWeak := c.lsWeak.filter fun w => !(decide (a / 8 ≤ w) && decide (w ≤ (a + bs.length - 1) / 8))
    reuseA := c.reuseA.filter fun n => !c.staleBy a bs.length n
    reuseB := c.reuseB.filter fun n => !c.staleBy a bs.length n }

/-- The stored code of element e. -/
def Core.code (c : Core) (f : Fmt) (base e : Nat) : Nat :=
  let a := elemByte f base e
  match f with
  | .t6 => ofBytes (c.lsBytes a 3) / 2 ^ (6 * (e % 4)) % 64
  | .m1 => (c.lsByte a).toNat / 2 ^ (e % 8) % 2
  | .af56 | .ai56 => Mem.load c.ls a 7
  | f => ofBytes (c.lsBytes a f.bytes)

/-- Replaces the bits of element e in the bytes of its group, byte or word; the top byte of an accumulator word reads 0x00 once its
bank has another format (log entry 100). -/
def Core.putCode (c : Core) (f : Fmt) (base e v : Nat) : Core :=
  let a := elemByte f base e
  match f with
  | .t6 =>
    let g := Mem.load c.ls a 3
    let p := 2 ^ (6 * (e % 4))
    c.putLs a (toBytes 3 (g - g / p % 64 * p + v % 64 * p))
  | .m1 =>
    let g := (Mem.get c.ls a).toNat
    let p := 2 ^ (e % 8)
    c.putLs a (toBytes 1 (g - g / p % 2 * p + v % 2 * p))
  | .af56 | .ai56 => c.putLs a (toBytes 8 (v % 2 ^ 56))
  | f => c.putLs a (toBytes f.bytes v)

/-! ## Stream-mode sources (R44, spec/06 R120) -/

/-- One stream-mode source can be read now. -/
def Core.streamReady (c : Core) (t : Stream) : Chk Unit :=
  if c.timed.active then stop streamCause
  else if t.total ≤ t.next then stop streamCause
  else if t.next < t.filled then .ok ()
  else match t.poison with
    | some (code, eva, other) => .error (.exc { causeAt code eva with other := other })
    | none => .error (.wait .interlock)

/-- A stream-mode operand carries no reuse hint (R44). -/
def Core.hintOk (c : Core) (x : Args) : Bool :=
  !((x.head.ra && x.a.isTsrc && (c.stream (regOf x.a)).isSome) || (x.head.rb && x.b.isTsrc && (c.stream (regOf x.b)).isSome))

/-- STREAM checks of an instruction: a destination in stream mode, each stream-mode source, and the reuse hints such a
source must not carry. -/
def Core.streamCheck (c : Core) (x : Args) (d : Option View) (srcs : List View) : Chk Unit := do
  demand (c.hintOk x) reservedField
  match d with
  | some v => demand (c.stream v.reg).isNone streamCause
  | none => pure ()
  srcs.forM fun v => match c.stream v.reg with
    | some t => c.streamReady t
    | none => pure ()

/-- The poison of a stream whose cause is being taken is marked, so that ERET's re-issue fills again (R120). -/
def Core.markPoison (c : Core) (srcs : List View) : Core :=
  { c with streams := c.streams.map fun t =>
      if srcs.any (fun v => v.reg == t.tile) && t.next == t.filled && t.poison.isSome then { t with raised := true }
      else t }

/-- Each stream-mode source register consumes one entry. -/
def Core.consume (c : Core) (srcs : List View) : Core :=
  { c with streams := c.streams.map fun t =>
      if srcs.any fun v => v.reg == t.tile then { t with next := t.next + 1 } else t }

/-- The reuse buffers take the tiles read through A and B (spec/08 R158). -/
def Core.reuse (c : Core) (x : Args) : Core :=
  { c with reuseA := (if x.a.isTsrc then some (regOf x.a) else c.reuseA)
           reuseB := (if x.b.isTsrc then some (regOf x.b) else c.reuseB) }

/-! ## Elements -/

/-- Zero code of a format is 0 in each (R33). The stored code of operand element (i,j): of a mirrored tile that of the primary
copy, also where a direct write has left the copies different and R35 allows either (log entry 64). -/
def Core.rawElem (c : Core) (v : View) (i j : Nat) : Nat :=
  if v.valid i j then c.code v.fmt (recBase v.shape) (v.index i j) else 0

/-- The value of operand element (i,j), NEG applied (R30, R33). -/
def Core.elem (c : Core) (v : View) (i j : Nat) : Val :=
  let k := c.rawElem v i j
  if v.neg then negVal v.fmt v.scale k else decodeVal v.fmt k v.scale

/-- An uncorrectable error in element (i,j) (spec/03 R61). -/
def Core.elemBad (c : Core) (v : View) (i j : Nat) : Option Nat :=
  if v.valid i j then c.lsBadAt (elemByte v.fmt (recBase v.shape) (v.index i j)) (elemSpan v.fmt) else none

/-- The same over a row of n elements. -/
def Core.rowBad (c : Core) (v : View) (i n : Nat) : Option Nat :=
  if c.lsBad.isEmpty then none else (List.range n).findSome? fun j => c.elemBad v i j

/-- SATS of a tile's bank, and of its mirror's (R35, R39). -/
def Core.setSats (c : Core) (v : View) : Core :=
  let on := fun (c : Core) (b : Nat) => c.setBank b (c.bank b ||| (1#32 <<< 13))
  let c := on c (recBank v.shape)
  if recMv v.shape then on c (recMbank v.shape) else c

/-- Writes a stored code into destination element (i,j), in both copies of a mirrored tile (R35). -/
def Core.putElem (c : Core) (v : View) (i j k : Nat) : Core :=
  let e := v.index i j
  let c := c.putCode v.fmt (recBase v.shape) e k
  if recMv v.shape then c.putCode v.fmt (recMbank v.shape * 0x20000 + recBase v.shape % 0x20000) e k else c

/-- Writes an encoded value, with its clamp. -/
def Core.putVal (c : Core) (v : View) (i j : Nat) (r : Nat × Bool) : Core :=
  let c := c.putElem v i j r.1
  if r.2 then c.setSats v else c

/-- An element moved under R38, as source code and format, into a destination format. The view of a RAW side is located
as if its bank held the other side's format. -/
def moveCode (src dst : View) (mode : Rounding) (sat : Bool) (k : Nat) : Nat × Bool :=
  if src.code = 0 ∨ dst.code = 0 then (k, false)
  else if src.code = dst.code ∧ src.scale = dst.scale ∧ !src.neg then (k, false)
  else
    let x := if src.neg then negVal src.fmt src.scale k else decodeVal src.fmt k src.scale
    encodeVal dst.fmt x dst.scale mode sat

/-- The views of a move: a RAW side is located under the other side's format (R31, R38). -/
def movePair (a d : View) : View × View :=
  if a.code = 0 then ({ a with fmt := d.fmt }, d)
  else if d.code = 0 then (a, { d with fmt := a.fmt })
  else (a, d)

/-! ## Race records of extents -/

/-- The 64-byte pieces of an extent. -/
def View.pieces (v : View) : List Nat :=
  let lo := extentLo v.fmt v.shape v.alt / 64
  let hi := extentHi v.fmt v.shape v.alt / 64
  (List.range (hi + 1 - lo)).map (lo + ·)

/-- Checks the recorded pieces of operand extents, of both copies of a mirrored tile that is written, before anything is
written (spec/04 R86, R92). -/
def State.raceViews (s : State) (vs : List (View × Bool)) : Chk State :=
  if s.race.isEmpty then .ok s
  else (vs.flatMap fun p => (p.1, p.2) :: (if p.2 && recMv p.1.shape then [({ p.1 with shape := mirrorRecord p.1.shape }, true)]
      else [])).foldlM (fun (s : State) (p : View × Bool) =>
    p.1.pieces.foldlM (fun (s : State) (k : Nat) =>
      if (List.range 64).any fun b => byteInExtent p.1.fmt p.1.shape p.1.alt (64 * k + b) then
        s.raceLocal k p.2 (BitVec.ofNat 64 (64 * k)) else .ok s) s) s

/-! ## Waits for the matrix queue (spec/12 R230) -/

/-- A queued operation reads or writes the extent of a view, or the bank of it. -/
def MatrixOp.touches (o : MatrixOp) (v : View) : Bool :=
  match o with
  | .mma c _ _ _ =>
    let w : View := { v with shape := c, fmt := .af56, code := 7, alt := false, trn := false }
    v.extents.any fun x => w.extents.any x.meets
  | .unload _ base => v.extents.any fun x =>
    decide (extentLo x.view.fmt x.shape x.alt ≤ base + 4095) && decide (base ≤ extentHi x.view.fmt x.shape x.alt)
  | _ => false

/-- In a free phase an instruction waits for the matrix-queue operations on its operands (spec/02 R41). -/
def Core.queueClear (c : Core) (vs : List View) : Chk Unit :=
  if c.timed.active then .ok ()
  else demandWait (!(c.mq.any fun e => vs.any fun v => e.op.touches v)) .interlock

end Sys2Proof.Machine
end

