-- ==== Sys2Proof/Machine/Ports.lean ====
section
/-!
DEFINITION. The timetable of a core's units in a timed phase: latencies and occupancies (spec/08 R155), bank ports on fixed
cycles (R156, R157), the reuse buffers that spare a port (R158), and the conditions 1 to 3 of R161 they give. In a free
phase none of it acts: the core waits instead (spec/01 R16), and how long is not architectural (log entry 5).
-/

namespace Sys2Proof.Machine

/-! ## Results under way -/

/-- n bytes from an address: one row up to 64 bytes, else rows of 64. -/
def bytesExtent (a n : Nat) : Extent :=
  let r := setBits 0#128 20 0 a
  let r := if n ≤ 64 then setBits r 32 27 (n - 1) else setBits (setBits (setBits r 26 21 (ceilDiv n 64 - 1)) 32 27 63) 48 33 64
  ⟨0, r, false⟩

/-- A result that is not yet delivered at a cycle. -/
def Core.pendingAt (c : Core) (cycle : Nat) (p : Product → Bool) : Bool :=
  c.board.made.any fun r => decide (cycle < r.ready) && p r.what

/-- A scalar source or predicate is read before its producer's latency has elapsed. -/
def Core.earlyScalar (c : Core) (o : Operand) : Bool :=
  match o with
  | .s n => n != 0#5 && c.pendingAt c.now fun p => p == .reg n
  | .q n => decide (n.toNat < c.pushes) && c.pendingAt c.now fun p => p == .push (c.pushes - 1 - n.toNat)
  | .p n _ => n != 0#3 && c.pendingAt c.now fun p => p == .pred n
  | _ => false

/-- The bytes of an extent are written by something whose latency has not elapsed at a cycle. -/
def Core.earlyBytes (c : Core) (cycle : Nat) (x : Extent) : Bool :=
  c.pendingAt cycle fun p => match p with
    | .tile y => x.meets y
    | _ => false

/-- A slot is loading at the present cycle. -/
def Core.earlySlot (c : Core) (n : Nat) : Bool := c.pendingAt c.now fun p => p == .slot n

/-- A result is under way; what was under way to the same place is forgotten (log entry 91), and so is what has arrived. -/
def Board.produce (b : Board) (now : Nat) (what : Product) (ready : Nat) : Board :=
  let rest := b.made.filter fun r => decide (now < r.ready) && !(r.what == what)
  { b with made := if ready ≤ now + 1 then rest else ⟨what, ready⟩ :: rest }

/-- What a scalar destination is. -/
def Core.product (c : Core) (d : Operand) : Option Product :=
  match d with
  | .s n => if n = 0#5 then none else some (.reg n)
  | .q _ => some (.push c.pushes)
  | .p n _ => if n = 0#3 then none else some (.pred n)
  | _ => none

/-- A scalar destination is delivered `lat` cycles after issue; in a free phase nothing is noted. -/
def Core.deliverIn (c : Core) (d : Operand) (lat : Nat) : Core :=
  if c.timed.active then
    match c.product d with
    | some p => { c with board := c.board.produce c.now p (c.now + lat) }
    | none => c
  else c

/-! ## Ports -/

def PortUse.at (u : PortUse) (cycle : Nat) : Bool :=
  decide (u.start ≤ cycle) && (cycle - u.start) % u.step == 0 && decide ((cycle - u.start) / u.step < u.count)

/-- The cycle after the last access. -/
def PortUse.last (u : PortUse) : Nat := u.start + (u.count - 1) * u.step + 1

def portTaken (ports : List PortUse) (bank : Nat) (write : Bool) (cycle : Nat) : Bool :=
  ports.any fun u => u.bank == bank && u.write == write && u.at cycle

/-- The first cycle on which a use meets another of its port. -/
def PortUse.clash (u : PortUse) (ports : List PortUse) : Option Nat :=
  let same := ports.filter fun v => v.bank == u.bank && v.write == u.write
  if same.isEmpty then none
  else ((List.range u.count).find? fun k => same.any fun v => v.at (u.start + k * u.step)).map fun k => u.start + k * u.step

/-- Reads of a mirrored tile: each on the primary copy's port if that is free, else on the mirror's (spec/02 R35). -/
def mirrorReads (ports : List PortUse) (u : PortUse) (mirror : Nat) : List PortUse :=
  (List.range u.count).map fun k =>
    let cycle := u.start + k * u.step
    let bank := if portTaken ports u.bank false cycle && !portTaken ports mirror false cycle then mirror else u.bank
    { u with bank := bank, start := cycle, count := 1, step := 1 }

/-- A condition of R161 on a cycle: the earliest is kept. -/
def Board.condition (b : Board) (cycle code : Nat) : Board :=
  match b.doom with
  | some d => if cycle < d.1 then { b with doom := some (cycle, code) } else b
  | none => { b with doom := some (cycle, code) }

/-- Takes a port; a use that meets another is condition 3 on that cycle. -/
def Board.take (b : Board) (u : PortUse) : Board :=
  let t := match u.clash b.ports with
    | some cycle => b.condition cycle 3
    | none => b
  { t with ports := u :: t.ports }

/-- Reads of a tile's bank, with the choice a mirrored tile has. -/
def Board.takeRead (b : Board) (shape : Shape) (u : PortUse) : Board :=
  if recMv shape && (u.clash b.ports).isSome then (mirrorReads b.ports u (recMbank shape)).foldl Board.take b else b.take u

/-- Writes of a tile's bank, and of its mirror's. -/
def Board.takeWrite (b : Board) (shape : Shape) (u : PortUse) : Board :=
  let t := b.take u
  if recMv shape then t.take { u with bank := recMbank shape } else t

/-- Reads of several tiles on a cycle: those without a choice take their ports first. -/
def Board.takeAll (b : Board) (rs : List (Shape × PortUse)) : Board :=
  ((rs.filter fun r => !recMv r.1) ++ rs.filter fun r => recMv r.1).foldl (fun (b : Board) r => b.takeRead r.1 r.2) b

/-- Port uses that are over are forgotten. -/
def Board.prune (b : Board) (now : Nat) : Board := { b with ports := b.ports.filter fun u => decide (now < u.last) }

/-- A condition on the present cycle is raised at once; one on a later cycle is due then. -/
def Core.accept (c : Core) (b : Board) : Chk Core :=
  match b.doom with
  | some (cycle, code) => if cycle ≤ c.now then .error (.timing code) else .ok { c with board := b }
  | none => .ok { c with board := b }

/-! ## Tile beats (R155, R156, spec/11 R194, R199) -/

/-- Elements per cycle of a format. -/
def Fmt.perCycle (f : Fmt) : Nat :=
  match f with
  | .fp32 | .i32 => 64
  | .fp16 => 128
  | .af56 | .ai56 => 32
  | _ => 256

/-- Elements per cycle of an operand, by its own format also where a move locates it under another's (R155). -/
def View.epc (v : View) : Nat := (fmtOf v.code).perCycle

def View.size (v : View) : Nat := recRows v.shape * recCols v.shape

/-- Beats of a tile by itself (β_X). -/
def View.beats (v : View) : Nat := ceilDiv v.size v.epc

/-- The slowest format among an instruction's operands. -/
def slowest (d : View) (srcs : List View) : Nat := (d :: srcs).foldl (fun n v => min n v.epc) 256

/-- β of an instruction: D's full shape at the slowest format among its operands. -/
def beta (d : View) (srcs : List View) : Nat := ceilDiv d.size (slowest d srcs)

/-- Beats at one bank: view, cycles after issue of the first, number, distance; the elements of each beat in operand order: how
many, how far apart. -/
structure Beats where
  view  : View
  off   : Nat
  count : Nat
  step  : Nat
  per   : Nat
  apart : Nat

/-- Bank lines one a cycle. -/
def Beats.lines (v : View) (off n : Nat) : Beats := ⟨v, off, n, 1, 0, 1⟩

/-- What an instruction of the vector unit takes. -/
structure VectorUse where
  occ    : Nat
  lat    : Nat
  reads  : List Beats
  writes : List Beats

def Beats.use (b : Beats) (now : Nat) (write : Bool) : PortUse := ⟨recBank b.view.shape, write, now + b.off, b.count, b.step⟩

/-- The format code under which a view's elements are located. -/
def View.located (v : View) : Nat := ((List.range 10).find? fun k => fmtOf k == v.fmt).getD 0

/-- The elements that the beats of an instruction issued at a cycle cover. -/
def Beats.touches (b : Beats) (now : Nat) : List Touch :=
  (List.range b.count).map fun k =>
    { cycle := now + b.off + k * b.step, shape := b.view.shape, code := b.view.located, trn := b.view.trn, alt := b.view.alt
      first := k * b.per * b.apart, count := b.per, step := b.apart }

/-- Books reads issued at a cycle. -/
def Board.takeReads (b : Board) (now : Nat) (rs : List Beats) : Board :=
  b.takeAll (rs.map fun r => (r.view.shape, r.use now false))

/-- The reads that no reuse buffer serves (R158): field A is the first of its register, field B the last of its own. -/
def Core.unserved (c : Core) (x : Args) (rs : List Beats) : List Beats :=
  let rs := if x.head.ra && x.a.isTsrc && c.reuseA == some (regOf x.a) then rs.eraseP fun b => b.view.reg == regOf x.a else rs
  if x.head.rb && x.b.isTsrc && c.reuseB == some (regOf x.b) then
    (rs.reverse.eraseP fun b => b.view.reg == regOf x.b).reverse
  else rs

/-- Reads of sources one after another, `step` cycles a beat, from `off`. -/
def Beats.inTurn (srcs : List View) (off : Nat) : List Beats :=
  match srcs with
  | [] => []
  | v :: rest => ⟨v, off, v.beats, 1, v.epc, 1⟩ :: Beats.inTurn rest (off + v.beats)

/-- A row-resumable instruction of occupancy kβ; `third`: D is read in step with A (R199). -/
def rowUse (k : Nat) (third : Bool) (d : View) (srcs : List View) : VectorUse :=
  let n := beta d srcs
  { occ := k * n, lat := k * n + 6
    reads := (srcs ++ if third then [d] else []).map fun v => ⟨v, 0, n, k, slowest d srcs, 1⟩
    writes := [⟨d, 6, n, k, slowest d srcs, 1⟩] }

/-- A whole-tile instruction: sources in turn, then the destination (R199). -/
def wholeUse (d : View) (srcs : List View) : VectorUse :=
  let n := beta d srcs
  let sum := (srcs.map View.beats).foldl (· + ·) 0
  { occ := sum + n, lat := sum + n + 6, reads := Beats.inTurn srcs 0, writes := [⟨d, sum + 6, n, 1, slowest d srcs, 1⟩] }

/-- A row or column reduction: `edge` is D's full rows or cols, `apart` from one element it writes to the next (R199). -/
def reduceUse (d a : View) (edge apart : Nat) : VectorUse :=
  { occ := a.beats + 64, lat := a.beats + 72, reads := [⟨a, 0, a.beats, 1, a.epc, 1⟩]
    writes := [⟨d, a.beats + 70, ceilDiv edge d.epc, 1, d.epc, apart⟩] }

/-- TANY, TALL and TCNT. -/
def testUse (a : View) : VectorUse := { occ := a.beats, lat := a.beats + 6, reads := [⟨a, 0, a.beats, 1, a.epc, 1⟩], writes := [] }

/-- TSTEN with E table entries (R199). -/
def stencilUse (d a : View) (e : Nat) : VectorUse :=
  let n := beta d [a]
  { occ := a.beats + e * n, lat := a.beats + e * n + 6, reads := [⟨a, 0, a.beats, 1, a.epc, 1⟩]
    writes := [⟨d, a.beats + (e - 1) * n + 6, n, 1, slowest d [a], 1⟩] }

/-- The vector unit takes an instruction in a timed phase: condition 1 where a source is not written yet, 2 where the unit is
busy, 3 where a port is taken. -/
def Core.vector (c : Core) (x : Args) (u : VectorUse) : Chk Core :=
  if !c.timed.active then .ok c
  else if u.reads.any fun b => b.view.extents.any (c.earlyBytes c.now) then .error (.timing 1)
  else if c.now < c.board.vector then .error (.timing 2)
  else
    let b0 := { c.board.prune c.now with vector := c.now + u.occ }
    let b1 := b0.takeReads c.now (c.unserved x u.reads)
    let b2 := u.writes.foldl (fun (b : Board) w => b.takeWrite w.view.shape (w.use c.now true)) b1
    let b3 := (u.writes.flatMap fun w => w.view.extents).foldl (fun (b : Board) x => b.produce c.now (.tile x) (c.now + u.lat)) b2
    c.accept b3

/-- An access to one line of a bank `off` cycles after issue: LD, ST, TEXT, TINS, a stencil table; of a mirrored tile under
spec/02 R35. `served`: a reuse buffer has the tile. A read that must correct a word is condition 3 (R161). -/
def Core.lineAccess (c : Core) (xs : List Extent) (off : Nat) (write : Bool) (lat : Nat) (served : Bool := false) : Chk Core :=
  match xs with
  | [] => .ok c
  | x :: _ =>
    if !c.timed.active then .ok c
    else if !write && xs.any (c.earlyBytes c.now) then .error (.timing 1)
    else
      let u : PortUse := ⟨recBank x.shape, write, c.now + off, 1, 1⟩
      let b := c.board.prune c.now
      c.accept (if write then xs.foldl (fun (b : Board) x => b.produce c.now (.tile x) (c.now + lat)) (b.takeWrite x.shape u)
        else if served then b else b.takeRead x.shape u)

/-- `vector` on the focused core. -/
def State.vector (s : State) (x : Args) (u : VectorUse) : Chk State := do pure { s with core := ← s.core.vector x u }

/-- `lineAccess` on the focused core. -/
def State.lineAccess (s : State) (xs : List Extent) (off : Nat) (write : Bool) (lat : Nat) (served : Bool := false) :
    Chk State := do
  pure { s with core := ← s.core.lineAccess xs off write lat served }

/-! ## Beats under way -/


/-- The elements of a beat: row and column as an operand. -/
def Touch.cells (t : Touch) : List (Nat × Nat) :=
  let cols := if t.trn then recRows t.shape else recCols t.shape
  ((List.range t.count).map fun k => t.first + k * t.step).filterMap fun n =>
    if n < recRows t.shape * recCols t.shape then some (n / cols, n % cols) else none

def Touch.view (t : Touch) : View :=
  { reg := 0#5, shape := t.shape, fmt := fmtOf t.code, code := t.code, scale := 0, sat := false, neg := false, trn := t.trn
    alt := t.alt }

/-- The byte ranges of a beat's valid elements. -/
def Touch.spans (t : Touch) : List (Nat × Nat) :=
  (t.cells.filter fun p => t.view.valid p.1 p.2).map fun p =>
    (elemByte t.view.fmt (recBase t.shape) (t.view.index p.1 p.2), elemSpan t.view.fmt)

/-- The bytes of a beat's elements, as they are now. -/
def Core.fetchBeat (c : Core) (t : Touch) : List (Nat × List Byte) :=
  t.spans.map fun p => (p.1, (List.range p.2).map fun k => Mem.get c.ls (p.1 + k))

/-- An instruction of a timed phase has issued: the beats of `now` are done with it, the others are to come; its scalar result
comes after `lat`. -/
def Core.startWork (c : Core) (i : Instr) (free : Nat) (now reads writes : List Touch) (d : Operand) (lat : Nat) : Core :=
  let w : Work :=
    { instr := i, regs := c.regs, preds := c.preds, q := c.q, tiles := c.tiles, bfmt := c.bfmt, repst := c.sys.repst
      tprog := c.sys.tprog, free := free, reads := reads, writes := writes, got := now.flatMap c.fetchBeat
      result := (c.product d).map fun p => (p, c.now + lat) }
  { c with works := c.works ++ [w] }

/-- What a reuse buffer serves is read at issue, the rest beat by beat (R156, R158). -/
def Core.startBeats (c : Core) (i : Instr) (x : Args) (free : Nat) (u : VectorUse) (also : List Touch) : Core :=
  let all := u.reads.flatMap fun b => b.touches c.now
  let later := (c.unserved x u.reads).flatMap fun b => b.touches c.now
  (c.reuse x).startWork i free (also ++ all.filter fun t => !later.contains t) later (u.writes.flatMap fun b => b.touches c.now) x.d
    u.lat

/-- The first cycle on which something of an instruction is to come, and its order there: reads before what issues, writes
behind it, a scalar result before both. -/
def Work.next (w : Work) : Option (Nat × Nat) :=
  let ts := w.reads.map (fun t => (t.cycle, 2)) ++ w.writes.map (fun t => (t.cycle, 4)) ++ w.result.toList.map fun r => (r.2, 1)
  ts.foldl (fun (b : Option (Nat × Nat)) t => match b with
    | none => some t
    | some k => if t.1 < k.1 ∨ (t.1 = k.1 ∧ t.2 < k.2) then some t else some k) none

/-- An instruction with beats to come reads or writes a bank. -/
def Work.usesBank (w : Work) (b : Nat) : Bool :=
  (w.reads ++ w.writes).any fun t => recBank t.shape == b || (recMv t.shape && recMbank t.shape == b)

/-- A scalar result is put where it belongs, unless something younger stands there. -/
def Core.deliverResult (c : Core) (p : Product) (cycle : Nat) (u : Core) : Core :=
  if !c.board.made.any fun r => r.what == p && r.ready == cycle then c
  else match p with
    | .reg n => { c with regs := c.regs.set n.toNat (u.readS n) n.isLt }
    | .pred n => c.writeP n (u.readP n)
    | .push k => if c.pushes ≤ k + 16 ∧ k < c.pushes then { c with q := c.q.setIfInBounds (c.pushes - 1 - k) (u.readQ 0#4) } else c
    | _ => c

end Sys2Proof.Machine
end

