-- ==== Sys2Proof/Machine/Issue.lean ====
section
/-!
DEFINITION. The frame every instruction issues through: guard, checks 3 and 4 (spec/07 R141, R152), scalar sources (spec/01
R16, spec/08 R161), gangs (spec/01 R12, R13), completion.
-/

namespace Sys2Proof.Machine

/-! ## Issue -/

/-- Where an instruction may issue (spec/01 R18, spec/14 R261). -/
inductive Phase where
  /-- every phase -/
  | any
  /-- free and timed compute phases -/
  | compute
  /-- timed communication phases only -/
  | comm
  /-- free phases only -/
  | free
  deriving DecidableEq, Repr

/-- Whose guard a member of a gang takes: its own; the leader's, in control transfers and END (spec/01 R13, spec/10 R193);
both, where the leader's request is the gang's (R12). -/
inductive Lead where
  | own | leader | both
  deriving DecidableEq, Repr

/-- What `issue` judges before an instruction acts (spec/07 R152 checks 3 and 4). -/
structure Form where
  phase : Phase
  /-- not in a REP body (spec/02 R47) -/
  alone : Bool
  priv  : Bool
  soff  : BitVec 8
  /-- whose guard a gang's member takes -/
  leads : Lead
  /-- scalar sources beyond the fields A and B -/
  reads : List Operand
  /-- timed latency of a scalar result (spec/08 R155); 0 where D is no result -/
  lat   : Nat
  /-- runs on the divider (R155) -/
  divides : Bool
  /-- what a gang's member does at once stands while others wait (spec/01 R12) -/
  arrives : Bool
  deriving DecidableEq, Repr

def plainForm : Form := ⟨.any, false, false, 0#8, .own, [], 1, false, false⟩
def freeForm : Form := { plainForm with phase := .free }
def privForm : Form := { freeForm with priv := true }

def Core.phaseOk (c : Core) (p : Phase) : Bool :=
  match p with
  | .any => true
  | .compute => !c.timed.active || !c.timed.comm
  | .comm => c.timed.active && c.timed.comm
  | .free => !c.timed.active

/-- The guard (spec/07 R141). -/
def Core.guard (c : Core) (h : Head) : Bool := c.readP h.gp != h.gneg

/-- Checks 3 and 4 of spec/07 R152, against the core before its issue. -/
def Core.check (c : Core) (f : Form) (h : Head) : Option (BitVec 8) :=
  if !c.phaseOk f.phase then some illegalOp
  else if c.timed.active && !c.timed.first && h.delta == 0#8 then some reservedField
  else if !c.timed.active && f.soff != 0#8 then some reservedField
  else if repAct c.sys.repst && f.alone then some illegalOp
  else if repAct c.sys.repst && h.rp then some reservedField
  else if f.priv && !c.handler then some privCause
  else none

/-- A member's own guard and scalar sources play a part: not a follower's in a control transfer (spec/01 R13). -/
def Form.own (f : Form) (s : State) : Bool := f.leads != .leader || !s.follower

/-- A timed instruction reads a scalar or predicate too early (condition 1), or finds the divider busy (condition 2). -/
def Core.early (c : Core) (f : Form) (x : Args) : Option Nat :=
  if (x.a :: x.b :: f.reads).any c.earlyScalar || c.owes (x.a :: x.b :: f.reads) then some 1
  else if f.divides && decide (c.now < c.board.divider) then some 2
  else none

/-- The scalar result of an instruction is under way, and the divider is taken (R155). -/
def Core.book (c : Core) (f : Form) (x : Args) : Core :=
  let d := if f.lat = 0 then c else c.deliverIn x.d f.lat
  if c.timed.active && f.divides then { d with board := { d.board with divider := c.now + 20 } } else d

/-- One core's part in an instruction: guard, checks 3 and 4, its scalar sources, then its effect. `s` is the state at issue,
its clock already advanced; `c` the core before. -/
def issueOne (f : Form) (x : Args) (guard : Bool) (c : Core) (s : State) (body : Args → State → Res) : Res :=
  if s.core.skip then .done (s.modC fun c => { c with skip := false })
  else if s.core.timed.active && f.own s && s.core.earlyScalar (.p x.head.gp false) then .timing 1 s
  else if !guard then .done s
  else match c.check f x.head with
    | some code => .trap (cause code) s
    | none =>
      if s.core.timed.active then
        match (if f.own s then s.core.early f x else none) with
        | some k => .timing k s
        | none => body (passArgs x c.sys.repst) (s.modC fun c => c.book f x)
      else if f.own s && s.core.owes (x.a :: x.b :: f.reads) then .wait .interlock s
      else body (passArgs x c.sys.repst) s

/-- A completed instruction: no wait is left. -/
def State.retire (s : State) : State := (s.modC fun c => { c with wait := .none, wake := none, arrived := false }).advance

def State.transfer (s : State) (target : Nat) : State :=
  s.modC fun c => { c with wait := .none, wake := none, arrived := false, pc := BitVec.ofNat 14 target }

/-- What the outcome at a single core, `c` before, makes of the state. -/
def Res.settle (r : Res) (c : Core) : State :=
  match r with
  | .done s => s.retire
  | .goto n s => s.transfer n
  | .exit s => s
  | .trap e s => (if e.late then s else s.unmark c).raise e false false
  | .timing k s => s.rollback k
  | .wait w s => s.modC fun c => { c with wait := w }

/-- PREEMPT at a restart point (spec/08 R167): recorded as if issued, then taken, by every member of a gang. -/
def State.preemptHere (s : State) (h : Head) : State :=
  let one := fun (t : State) => (t.clock { h with rp := true }).modC fun c =>
    { c with timed := { c.timed with offset := (c.position c.timed.last).toNat } }.trapEntry (cause preemptCause) false false
  if s.core.ganged then
    (((s.gang s.core).map fun c => (c.die, c.num)).foldl (fun (t : State) (k : Nat × Nat) => t.within k.1 k.2 one) s).focus
      s.core.die s.core.num
  else one s

/-- No chunk is half stored to CQIN: PREEMPT takes effect only at a chunk boundary (spec/05 R116). -/
def Core.wholeChunks (c : Core) : Bool := c.colls.all fun o => o.forming.isEmpty

/-- A PREEMPT deferred by the timed region is due at this instruction: a restart point at least 128 cycles after the
request. -/
def State.preemptDue (s : State) (h : Head) : Bool :=
  s.core.timed.active && s.core.preemptPend && (s.core.timed.first || h.rp)
    && (if s.core.ganged then (s.gang s.core).all Core.wholeChunks else s.core.wholeChunks)
    && decide (s.core.preemptAt + 128 ≤ (s.core.issueCycle h + s.core.fbase).toNat)

def Res.state (r : Res) : State :=
  match r with
  | .done s => s
  | .goto _ s => s
  | .exit s => s
  | .trap _ s => s
  | .timing _ s => s
  | .wait _ s => s

/-- The guard a member of a gang takes (R13). -/
def Form.guard (f : Form) (lead : Bool) (c : Core) (h : Head) : Bool :=
  match f.leads with
  | .own => c.guard h
  | .leader => lead
  | .both => lead && c.guard h

/-- One member's copy, at its own cycle (R12): whether it has a part in it, and what it makes of the instruction. -/
def gangOne (f : Form) (x : Args) (lead : Bool) (base : Nat) (body : Args → State → Res) (s : State) : Bool × Res :=
  let g := f.guard lead s.core x.head
  (g || s.core.skip, issueOne f x g s.core (s.clockMember x.head base) body)

/-- The copies of a gang's members, leader first; each sees the members before it. -/
def gangRun (f : Form) (x : Args) (lead : Bool) (base : Nat) (body : Args → State → Res) (ms : List (Nat × Nat))
    (s : State) : List (Bool × Res) :=
  match ms with
  | [] => []
  | (die, num) :: rest =>
    let r := gangOne f x lead base body (s.focus die num)
    r :: gangRun f x lead base body rest r.2.state

/-- The causes of a gang: every member traps at the instruction; one that has performed its copy sets DONE (spec/01 R13). A
member's kill takes precedence over the traps of those it stops (spec/21 R370). -/
def gangTrap (causes : List (Option Exc)) (performed : List Bool) (ms : List (Nat × Nat)) (e : Exc) (s : State) : State :=
  let all := ms.zip (causes.zip performed)
  let kills := fun (p : (Nat × Nat) × Option Exc × Bool) =>
    (s.find p.1.1 p.1.2).any fun c => c.killsFor (p.2.1.getD e)
  (all.filter kills ++ all.filter fun p => !kills p).foldl (fun (s : State) (p : (Nat × Nat) × Option Exc × Bool) =>
    s.within p.1.1 p.1.2 fun t => match p.2.1 with
      | some own => t.raise own false p.2.2
      | none => t.raise e true p.2.2) s

def Res.exc (r : Res) : Option Exc :=
  match r with
  | .trap e _ => some e
  | _ => none

/-- A cause found before the member performs anything (spec/07 R152). -/
def Res.early (r : Res) : Option Exc :=
  match r with
  | .trap e _ => if e.late then none else some e
  | _ => none

/-- A cause that is taken after the instruction has completed (spec/13 R252). -/
def Res.after (r : Res) : Bool :=
  match r with
  | .trap e _ => e.next
  | _ => false

def Res.isDone (r : Res) : Bool :=
  match r with
  | .done _ => true
  | .goto _ _ => true
  | .exit _ => true
  | _ => false

/-- The member has performed its copy: what is left is the cause, or the Tick edge at which a `.sc` form completes. -/
def Res.performed (r : Res) : Bool :=
  r.isDone || r.after || (match r with
    | .wait (.scTick _) _ => true
    | _ => false)

def Res.isWait (r : Res) : Bool :=
  match r with
  | .wait _ _ => true
  | _ => false

/-- The member cannot issue: the whole gang holds (R12). -/
def Res.holds (r : Res) : Bool :=
  match r with
  | .wait .interlock _ => true
  | .wait (.collapse _) _ => true
  | _ => false

/-- What such a member waits for; the others wait for it. -/
def Res.holding (r : Res) : Wait :=
  match r with
  | .wait (.collapse va) _ => .collapse va
  | _ => .interlock

def Res.cond (r : Res) : Option Nat :=
  match r with
  | .timing k _ => some k
  | _ => none

/-- Members that wait keep what they did (an arrival, a place in a FIFO); the others are held and issue again with them
(R12). An arrival or join at a barrier that needs no wait is made all the same. -/
def gangWait (f : Form) (x : Args) (lead : Bool) (base : Nat) (body : Args → State → Res) (ms : List (Nat × Nat))
    (s : State) : State :=
  match ms with
  | [] => s
  | (die, num) :: rest =>
    let t := s.focus die num
    let r := gangOne f x lead base body t
    let u := match r.2 with
      | .wait w v => v.modC fun c => { c with wait := w }
      | .done v => if f.arrives && r.1 then v.modC fun c => { c with wait := .none, arrived := true } else t.modC fun c => { c with wait := .none }
      | _ => t.modC fun c => { c with wait := .none }
    gangWait f x lead base body rest u

/-- Every member is held until the gang can issue. -/
def State.holdGang (s : State) (ms : List (Nat × Nat)) (rs : List Res) : State :=
  (ms.zip rs).foldl (fun (s : State) (p : (Nat × Nat) × Res) => s.onCore p.1.1 p.1.2 fun c => { c with wait := p.2.holding }) s

/-- What a member that finds a cause before it performs keeps: a marked poison, TPROG at 0 (spec/02 R49, spec/06 R120). -/
def State.keepFailures (s : State) (ms : List (Nat × Nat)) (rs : List Res) : State :=
  (ms.zip rs).foldl (fun (s : State) (p : (Nat × Nat) × Res) => match p.2 with
    | .trap _ v => s.onCore p.1.1 p.1.2 fun c => { c with streams := v.core.streams, sys := { c.sys with tprog := v.core.sys.tprog } }
    | _ => s) s

/-- The causes of a gang's members; a PREEMPT between rows is every member's own. -/
def ownCauses (e : Exc) (rs : List Res) : List (Option Exc) :=
  rs.map fun r => r.exc.or (if e.code = preemptCause then some e else none)

/-- An instruction of a gang (spec/01 R12, R13): a cause of R152 in any member lets nothing stand; a member that cannot issue
holds all; a cause that a destination returns leaves the copies performed; a wait is one wait of all. -/
def issueGang (f : Form) (x : Args) (body : Args → State → Res) (s : State) : State :=
  let ms := (s.gang s.core).map fun c => (c.die, c.num)
  let t := s.gangClock
  let lead := t.core.guard x.head
  let rs := gangRun f x lead t.cyc body ms t
  let results := rs.map (·.2)
  let home := fun (u : State) =>
    let v := u.focus s.core.die s.core.num
    if s.core.timed.active then v else { v with cyc := t.cyc }
  let final := (results.getLast?.map Res.state).getD t
  let none' := rs.map fun _ => false
  match results.findSome? Res.early with
  | some e => home (gangTrap (results.map Res.exc) none' ms e (t.keepFailures ms results))
  | none =>
    if results.any Res.holds then home (t.holdGang ms results)
    else match results.findSome? Res.exc with
      | some e =>
        if results.all Res.performed then
          home (gangTrap (results.map Res.exc) none' ms { e with next := true } final)
        else
          home (gangTrap ((ownCauses e results).map fun o => o.map fun e => { e with next := false })
            (rs.map fun r => r.1 && r.2.performed) ms { e with next := false } final)
      | none =>
        if results.any Res.isWait then home (gangWait f x lead t.cyc body ms t)
        else match (ms.zip results).find? (fun p => p.2.cond.isSome), results with
          | some (k, r), _ => ((final.focus k.1 k.2).rollback (r.cond.getD 0)).focus s.core.die s.core.num
          | none, .goto n _ :: _ =>
            home (ms.foldl (fun (t : State) k => t.within k.1 k.2 fun u => u.transfer n) final)
          | none, _ =>
            home ((ms.zip results).foldl (fun (t : State) (p : (Nat × Nat) × Res) => match p.2 with
              | .exit _ => t
              | _ => t.within p.1.1 p.1.2 State.retire) final)

/-- A cause of the focused core at an instruction boundary: every other member of its gang takes it as a sibling (spec/01
R13). -/
def State.raiseAll (s : State) (e : Exc) : State :=
  if s.core.ganged then
    let ms := (s.gang s.core).map fun c => (c.die, c.num)
    (gangTrap (ms.map fun k => if k = (s.core.die, s.core.num) then some e else none) (ms.map fun _ => false) ms e s).focus
      s.core.die s.core.num
  else s.raise e false false

/-- The target of a transfer. -/
def Res.target (r : Res) : Option Nat :=
  match r with
  | .goto n _ => some n
  | _ => none

/-- REPST as the leader's REP leaves it. -/
def State.leadRep (s : State) : Word :=
  match s.core.lag.head? with
  | some l => l.rep
  | none => s.leader.sys.repst

/-- A follower's copy goes on where its leader's went. -/
def Res.followTo (r : Res) (target : Option Nat) : Res :=
  match r, target with
  | .done s, some n => .goto n s
  | r, _ => r

/-- One member's copy of an instruction of a timed region, at the member's own cycle (spec/01 R12, spec/08 R154): a follower
takes from its leader what R13 says; the leader leaves that to its followers. -/
def issueSolo (f : Form) (x : Args) (body : Args → State → Res) (s : State) : State :=
  let s0 := s.modC fun c => { c with solo := false }
  let lead := if s.follower then (s.core.lag.head?.map Lag.lead).getD (s.core.guard x.head) else s.core.guard x.head
  let r := issueOne f x (f.guard lead s.core x.head) s0.core (s0.clock x.head) body
  let after := fun (r : Res) => match r with
    | .trap e t => t.raiseAll e
    | r => r.settle s0.core
  if s.follower then
    let t := after (r.followTo (s.core.lag.head?.bind Lag.target))
    if r.isDone then t.onCore s.core.die s.core.num fun c => { c with lag := c.lag.tail } else t
  else
    let t := after r
    if r.isDone then t.mapCores fun c =>
      if sameGang s.core c && !c.is s.core.die s.core.num then { c with lag := c.lag ++ [⟨lead, r.target, t.core.sys.repst⟩] } else c
    else t

/-- The frame of every instruction. -/
def issue (f : Form) (x : Args) (s : State) (body : Args → State → Res) : Out :=
  if !(s.core.solo && s.follower) && s.preemptDue x.head then .next (s.preemptHere x.head)
  else if s.core.ganged then .next (if s.core.solo && s.core.timed.active then issueSolo f x body s else issueGang f x body s)
  else .next ((issueOne f x (s.core.guard x.head) s.core (s.clock x.head) body).settle s.core)

/-- The class ILLEGAL_OP of check 1 on a memory core (spec/06 R137). -/
def notOnMemoryCore (f : Form) (x : Args) (s : State) (body : Args → State → Res) : Out :=
  if s.core.memc then .next (((s.clock x.head).unmark s.core).raise (cause illegalOp) false false) else issue f x s body

end Sys2Proof.Machine
end

