-- ==== Sys2Proof/Machine/Scalar.lean ====
section
/-!
DEFINITION. Scalar integer, scalar FP32 and predicate instructions (spec/10 R178 to R187): a result function per
instruction over one shared operation.
-/

namespace Sys2Proof.Machine

/-- Multiplies, divides and FP32 instructions, with the timed figures of spec/08 R155. -/
def mulForm : Form := { plainForm with lat := 3 }
def divForm : Form := { plainForm with lat := 20, divides := true }
def fpForm : Form := { plainForm with lat := 4 }

/-- A scalar instruction: the result of its operand values goes to D (R178). -/
def scalarOp (x : Args) (s : State) (f : Word → Word → Word) (form : Form := plainForm) : Out :=
  issue form x s fun x s => .done (s.modC fun c => c.writeD x.d (f (c.value x.a) (c.value x.b)))

/-- A scalar instruction that also reads its destination (R183, R185). -/
def scalarOpD (x : Args) (s : State) (f : Word → Word → Word → Word) : Out :=
  issue { plainForm with reads := [if x.d.isPush then .q 0#4 else x.d] } x s fun x s =>
    .done (s.modC fun c => c.writeD x.d (f (c.value x.a) (c.value x.b) (c.alternative x.d)))

/-! ## Results -/

/-- Bits 127..64 of the signed product (R180). -/
def mulHigh (a b : Word) : Word := BitVec.ofInt 64 (a.toInt * b.toInt / 2 ^ 64)

/-- Bits 127..64 of the unsigned product. -/
def mulHighN (a b : Word) : Word := BitVec.ofNat 64 (a.toNat * b.toNat / 2 ^ 64)

/-- divide(a, b, 1) of R181: quotient and remainder. -/
def divideSigned (a b : Word) : Word × Word :=
  if b = 0#64 then (BitVec.allOnes 64, a)
  else (BitVec.ofInt 64 (a.toInt.tdiv b.toInt), BitVec.ofInt 64 (a.toInt.tmod b.toInt))

/-- divide(a, b, 0) of R181. -/
def divideUnsigned (a b : Word) : Word × Word :=
  if b = 0#64 then (BitVec.allOnes 64, a) else (a / b, a % b)

/-- Leading zero bits (R180). -/
def leadingZeros (a : Word) : Word :=
  BitVec.ofNat 64 (if a = 0#64 then 64 else 63 - Nat.log2 a.toNat)

/-- Trailing zero bits. -/
def trailingZeros (a : Word) : Word :=
  BitVec.ofNat 64 (((List.range 64).find? fun k => a.getLsbD k).getD 64)

/-- Set bits. -/
def popCount (a : Word) : Word := BitVec.ofNat 64 ((List.range 64).filter fun k => a.getLsbD k).length

/-- A LEN field: 0 means 64. -/
def lenOf (m : BitVec 6) : Nat := if m = 0#6 then 64 else m.toNat

def signExtendLen (a : Word) (n : Nat) : Word := BitVec.ofInt 64 (signed a.toNat n)
def zeroExtendLen (a : Word) (n : Nat) : Word := BitVec.ofNat 64 (a.toNat % 2 ^ n)

/-- BFX; bits above 63 read as zero. -/
def extractField (a : Word) (m : PosLen) : Word := zeroExtendLen (a >>> m.pos.toNat) (lenOf m.len)

/-- The mask of BFI. -/
def insertMask (m : PosLen) : Word := BitVec.ofNat 64 ((2 ^ lenOf m.len - 1) * 2 ^ m.pos.toNat)

def insertField (a b : Word) (m : PosLen) : Word :=
  (b &&& ~~~insertMask m) ||| ((a <<< m.pos.toNat) &&& insertMask m)

def minSigned (a b : Word) : Word := if b.slt a then b else a
def maxSigned (a b : Word) : Word := if a.slt b then b else a
def minUnsigned (a b : Word) : Word := if b.ult a then b else a
def maxUnsigned (a b : Word) : Word := if a.ult b then b else a

/-! ## FP32 -/

/-- The binary32 value an FP32 instruction reads: a short immediate is its exact integer (R178). -/
def f32Value (o : Operand) (w : Word) : Val :=
  match o with
  | .imm v => Val.ofInt v.toInt
  | _ => binary32.decode (w.toNat % 2 ^ 32)

/-- An FP32 instruction (R184). -/
def f32Op (x : Args) (s : State) (f : Val → Val → Word) : Out :=
  issue fpForm x s fun x s =>
    .done (s.modC fun c => c.writeD x.d (f (f32Value x.a (c.value x.a)) (f32Value x.b (c.value x.b))))

/-- FMIN and FMAX deliver a selected value in binary32; every generated NaN is canonical. -/
def f32Select (v : Val) : Word := toF32 .rne v

/-- FCVTI (R186). -/
def f32ToInt (mode : Rounding) (u : Bool) (v : Val) : Word :=
  let lo : Int := if u then 0 else -(2 ^ 63)
  let hi : Int := if u then 2 ^ 64 - 1 else 2 ^ 63 - 1
  match v with
  | .nan => 0#64
  | .inf neg => BitVec.ofInt 64 (if neg then lo else hi)
  | v => BitVec.ofInt 64 (max lo (min hi (v.toInt mode)))

/-- FCVTF (R186). -/
def intToF32 (mode : Rounding) (u : Bool) (a : Word) : Word :=
  toF32 mode (Val.ofInt (if u then (a.toNat : Int) else a.toInt))

/-- The seeds as FP32 (spec/03 R62). -/
def f32Rsqrt (v : Val) : Word := toF32 .rne (rsqrtSeed v)
def f32Rcp (v : Val) : Word := toF32 .rne (rcpSeed v)

/-! ## Integer instructions (R180 to R183) -/

/-- ADD: R180. -/
def execAdd (x : Args) (s : State) : Out :=
  scalarOp x s fun a b => a + b

/-- SUB: R180. -/
def execSub (x : Args) (s : State) : Out :=
  scalarOp x s fun a b => a - b

/-- MUL: R180. -/
def execMul (x : Args) (s : State) : Out :=
  scalarOp x s (fun a b => a * b) mulForm

/-- MULH: R180. -/
def execMulh (x : Args) (s : State) : Out :=
  scalarOp x s (fun a b => mulHigh a b) mulForm

/-- MULHN: R180. -/
def execMulhn (x : Args) (s : State) : Out :=
  scalarOp x s (fun a b => mulHighN a b) mulForm

/-- DIV (R181): R180. -/
def execDiv (x : Args) (s : State) : Out :=
  scalarOp x s (fun a b => (divideSigned a b).1) divForm

/-- DIVN (R181): R180. -/
def execDivn (x : Args) (s : State) : Out :=
  scalarOp x s (fun a b => (divideUnsigned a b).1) divForm

/-- MOD (R181): R180. -/
def execMod (x : Args) (s : State) : Out :=
  scalarOp x s (fun a b => (divideSigned a b).2) divForm

/-- MODN (R181): R180. -/
def execModn (x : Args) (s : State) : Out :=
  scalarOp x s (fun a b => (divideUnsigned a b).2) divForm

/-- AND: R180. -/
def execAnd (x : Args) (s : State) : Out :=
  scalarOp x s fun a b => a &&& b

/-- OR: R180. -/
def execOr (x : Args) (s : State) : Out :=
  scalarOp x s fun a b => a ||| b

/-- XOR: R180. -/
def execXor (x : Args) (s : State) : Out :=
  scalarOp x s fun a b => a ^^^ b

/-- ANDN: R180. -/
def execAndn (x : Args) (s : State) : Out :=
  scalarOp x s fun a b => a &&& ~~~b

/-- ORN: R180. -/
def execOrn (x : Args) (s : State) : Out :=
  scalarOp x s fun a b => a ||| ~~~b

/-- SHL: R180. -/
def execShl (x : Args) (s : State) : Out :=
  scalarOp x s fun a b => a <<< (b.toNat % 64)

/-- SHR: R180. -/
def execShr (x : Args) (s : State) : Out :=
  scalarOp x s fun a b => a >>> (b.toNat % 64)

/-- SHA: R180. -/
def execSha (x : Args) (s : State) : Out :=
  scalarOp x s fun a b => a.sshiftRight (b.toNat % 64)

/-- ROL: R180. -/
def execRol (x : Args) (s : State) : Out :=
  scalarOp x s fun a b => a.rotateLeft (b.toNat % 64)

/-- MIN: R180. -/
def execMin (x : Args) (s : State) : Out :=
  scalarOp x s fun a b => minSigned a b

/-- MAX: R180. -/
def execMax (x : Args) (s : State) : Out :=
  scalarOp x s fun a b => maxSigned a b

/-- MINN: R180. -/
def execMinn (x : Args) (s : State) : Out :=
  scalarOp x s fun a b => minUnsigned a b

/-- MAXN: R180. -/
def execMaxn (x : Args) (s : State) : Out :=
  scalarOp x s fun a b => maxUnsigned a b

/-- CLZ: R180. -/
def execClz (x : Args) (s : State) : Out :=
  scalarOp x s fun a _ => leadingZeros a

/-- CTZ: R180. -/
def execCtz (x : Args) (s : State) : Out :=
  scalarOp x s fun a _ => trailingZeros a

/-- POPC: R180. -/
def execPopc (x : Args) (s : State) : Out :=
  scalarOp x s fun a _ => popCount a

/-- MOV: R180. -/
def execMov (x : Args) (s : State) : Out :=
  scalarOp x s fun a _ => a

/-- SEXT: R180. -/
def execSext (x : Args) (m : BitVec 6) (s : State) : Out :=
  scalarOp x s fun a _ => signExtendLen a (lenOf m)

/-- ZEXT: R180. -/
def execZext (x : Args) (m : BitVec 6) (s : State) : Out :=
  scalarOp x s fun a _ => zeroExtendLen a (lenOf m)

/-- BFX: R180. -/
def execBfx (x : Args) (m : PosLen) (s : State) : Out :=
  scalarOp x s fun a _ => extractField a m

/-- BFI: R180. -/
def execBfi (x : Args) (m : PosLen) (s : State) : Out :=
  scalarOp x s fun a b => insertField a b m

/-- LEA: R180. -/
def execLea (x : Args) (m : BitVec 3) (s : State) : Out :=
  scalarOp x s fun a b => a + (b <<< m.toNat)

/-- LIW: the 48-bit immediate, sign-extended (R180, spec/07 R145). -/
def execLiw (head : Head) (d : Operand) (value : BitVec 48) (s : State) : Out :=
  scalarOp ⟨head, d, .s 0#5, .s 0#5⟩ s fun _ _ => value.signExtend 64

/-- CMP writes its condition to predicate D (R182). -/
def execCmp (x : Args) (m : BitVec 4) (s : State) : Out :=
  scalarOp x s fun a b => if intCond m.toNat a b then 1#64 else 0#64

/-- SEL writes b or the alternative, always once (R183). -/
def execSel (x : Args) (s : State) : Out :=
  scalarOpD x s fun a b alt => if a = 1#64 then b else alt

/-! ## FP32 instructions (R184 to R186) -/

/-- FADD: R184. -/
def execFadd (x : Args) (m : BitVec 2) (s : State) : Out :=
  f32Op x s fun a b => toF32 (roundingOf m) (a.add (roundingOf m) b)

/-- FSUB: R184. -/
def execFsub (x : Args) (m : BitVec 2) (s : State) : Out :=
  f32Op x s fun a b => toF32 (roundingOf m) (a.add (roundingOf m) b.neg)

/-- FMUL: R184. -/
def execFmul (x : Args) (m : BitVec 2) (s : State) : Out :=
  f32Op x s fun a b => toF32 (roundingOf m) (a.mul b)

/-- FFMA: one rounding of a × b plus the addend of R185. -/
def execFfma (x : Args) (m : BitVec 2) (s : State) : Out :=
  issue { fpForm with reads := [if x.d.isPush then .q 0#4 else x.d] } x s fun x s =>
    .done (s.modC fun c => c.writeD x.d (toF32 (roundingOf m)
      (((f32Value x.a (c.value x.a)).mul (f32Value x.b (c.value x.b))).add (roundingOf m)
        (binary32.decode ((c.alternative x.d).toNat % 2 ^ 32)))))

/-- FMIN: R184, spec/03 R55. -/
def execFmin (x : Args) (s : State) : Out :=
  f32Op x s fun a b => f32Select (a.minimum b)

/-- FMAX: R184, spec/03 R55. -/
def execFmax (x : Args) (s : State) : Out :=
  f32Op x s fun a b => f32Select (a.maximum b)

/-- FCMP: spec/07 R149. -/
def execFcmp (x : Args) (m : BitVec 4) (s : State) : Out :=
  f32Op x s fun a b => if ordCond m.toNat (a.cmp b) then 1#64 else 0#64

/-- FCVTI: R186. -/
def execFcvti (x : Args) (m : RmU) (s : State) : Out :=
  f32Op x s fun a _ => f32ToInt (roundingOf m.rm) m.u a

/-- FCVTF: R186. -/
def execFcvtf (x : Args) (m : RmU) (s : State) : Out :=
  scalarOp x s (fun a _ => intToF32 (roundingOf m.rm) m.u a) fpForm

/-- FRSQS: spec/03 R62. -/
def execFrsqs (x : Args) (s : State) : Out :=
  f32Op x s fun a _ => f32Rsqrt a

/-- FRCPS: spec/03 R62. -/
def execFrcps (x : Args) (s : State) : Out :=
  f32Op x s fun a _ => f32Rcp a

/-! ## Predicate instructions (R187) -/

/-- PAND: R187. -/
def execPand (x : Args) (s : State) : Out :=
  scalarOp x s fun a b => a &&& b

/-- POR: R187. -/
def execPor (x : Args) (s : State) : Out :=
  scalarOp x s fun a b => a ||| b

/-- PXOR: R187. -/
def execPxor (x : Args) (s : State) : Out :=
  scalarOp x s fun a b => a ^^^ b

/-- PNOT: R187. -/
def execPnot (x : Args) (s : State) : Out :=
  scalarOp x s fun a _ => 1#64 - a

end Sys2Proof.Machine
end

