-- ==== Sys2Proof/Machine/Control.lean ====
section
/-!
DEFINITION. Control transfer, repetition, waiting and the end of a record (spec/10 R188 to R193); END's part in dispatch
is in Dealing.
-/

namespace Sys2Proof.Machine

/-- Control transfers: not in a REP body, the leader's guard in a gang (R188). -/
def controlForm : Form := { plainForm with alone := true, leads := .leader }

/-- A taken transfer: a target outside 0 to 16,383 raises PROT and nothing changes (R188, spec/07 R140). A
follower takes the leader's target. -/
def takeTo (target : Word) (s t : State) : Res :=
  if s.follower then .done t
  else if target.toNat < 16384 then .goto target.toNat t else .trap (cause protCause) s

/-- NOP (R192). -/
def execNop (x : Args) (s : State) : Out := issue plainForm x s fun _ s => .done s

/-- BRA (R188). -/
def execBra (x : Args) (s : State) : Out :=
  issue controlForm x s fun x s => takeTo (s.core.value x.a) s s

/-- BRX (R188). -/
def execBrx (x : Args) (s : State) : Out :=
  issue controlForm x s fun x s => takeTo (s.core.value x.a + s.core.value x.b) s s

/-- CALL: D receives the index of the CALL plus 1 (R188). -/
def execCall (x : Args) (s : State) : Out :=
  issue controlForm x s fun x s =>
    takeTo (s.core.value x.a) s (s.modC fun c => c.writeD x.d (BitVec.ofNat 64 (c.pc.toNat + 1)))

/-- RET (R188). -/
def execRet (x : Args) (s : State) : Out :=
  issue controlForm x s fun x s => takeTo (s.core.value x.a) s s

/-- LOOP: the counter falls by 1, and the branch is taken while it is not 0; untaken, the target is not checked
(R188). -/
def execLoop (x : Args) (s : State) : Out :=
  issue { controlForm with reads := [x.d] } x s fun x s =>
    let n := s.core.value x.d - 1#64
    let t := s.modC fun c => c.writeD x.d n
    if n = 0#64 then .done t else takeTo (s.core.value x.a) s t

/-- The repetition state REP starts (spec/02 R48). -/
def repWord (n k stride : Nat) : Word := BitVec.ofNat 64 (n * 2 ^ 16 + stride * 2 ^ 11 + k * 2 ^ 7 + 1)

/-- REP (R189, spec/02 R47): the body of k instructions runs n times; n = 0 skips it. The REP itself completes in
sequence and its state takes effect after it. -/
def execRep (x : Args) (m : RepM) (s : State) : Out :=
  issue controlForm x s fun x s =>
    let n := (s.core.value x.a).toNat
    if s.follower then .exit (s.retire.modSys fun r => { r with repst := s.leadRep }) else
    let k := m.k1.toNat + 1
    if 65535 < n then .trap (cause reservedField) s
    else if 16383 < s.core.pc.toNat + k then .trap (cause protCause) s
    else if n = 0 then
      if s.core.pc.toNat + k + 1 ≤ 16383 then .goto (s.core.pc.toNat + k + 1) s
      else .goto (Config.indexAfterLast s.free).toNat { s with free := s.free + 1 }
    else
      let t := s.retire
      .exit (t.modSys fun r => { r with repst := repWord n k m.stride.toNat })

/-- The target of a wait that a core is in. -/
def Wait.target (w : Wait) : Option Nat :=
  match w with
  | .cycle t => some t
  | .pause t => some t
  | _ => Option.none

/-- A wait until a cycle: the first issue fixes the target, the next judge it. In a gang it is the leader's, judged at the
leader's cycle (R190, R191); where the leader's guard is false, that of the lowest-ranked member whose guard is true (log entry
87). -/
def waitUntil (h : Head) (s : State) (target : Core → Nat → Nat) (w : Nat → Wait) : Res :=
  let ms := if s.core.ganged then s.gang s.core else [s.core]
  let now := (s.fcyc s.core).toNat - s.core.rank
  let t := (ms.findSome? fun c => c.wait.target).getD (target ((ms.find? fun c => c.guard h).getD s.core) now)
  if t ≤ now then .done s else .wait (w t) s

/-- WAITC (R190); a relative target does not wrap. -/
def execWaitc (x : Args) (m : Bool) (s : State) : Out :=
  issue freeForm x s fun x s =>
    waitUntil x.head s (fun c now => if m then (c.value x.a).toNat else now + (c.value x.a).toNat) .cycle

/-- YIELD pauses for y cycles (R191). -/
def execYield (x : Args) (s : State) : Out :=
  issue freeForm x s fun x s => waitUntil x.head s (fun c now => now + (c.value x.a).toNat) .pause

end Sys2Proof.Machine
end

