-- ==== Sys2Proof/Machine/Fabric.lean ====
section
/-!
DEFINITION. How an access finds its place: mesh paths and NSEL (spec/18 R309 to R311), homes (spec/19 R339), translation
(R330 to R333), hasp windows (R342, R343), HOST and CXL windows (spec/22 R388), PEER and EVENT addresses (spec/04 R69,
spec/05 R95).
-/

namespace Sys2Proof.Machine

/-! ## Paths -/

/-- The coordinates from a to b, a excluded. -/
def walkAxis (a b : Nat) : List Nat :=
  if a ≤ b then (List.range (b - a)).map fun k => a + k + 1 else (List.range (a - b)).map fun k => a - k - 1

/-- The dies after the source on a mesh path: X then Y on mesh A, Y then X on mesh B. -/
def meshPath (onB : Bool) (src dst : Nat) : List Nat :=
  let xs := walkAxis (dieX src) (dieX dst)
  let ys := walkAxis (dieY src) (dieY dst)
  if onB then ys.map (fun y => y * 20 + dieX src) ++ xs.map fun x => dieY dst * 20 + x
  else xs.map (fun x => dieY src * 20 + x) ++ ys.map fun y => y * 20 + dieX dst

/-- The port from a die to an adjacent one (spec/18, Bonds). -/
def portTo (a b : Nat) : Nat := if b + 20 = a then 0 else if b = a + 1 then 1 else if b = a + 20 then 2 else 3

/-- The neighbour behind a port. -/
def neighbour (die port : Nat) : Option Nat :=
  match port with
  | 0 => if 20 ≤ die then some (die - 20) else none
  | 1 => if dieX die < 19 then some (die + 1) else none
  | 2 => some (die + 20)
  | _ => if 0 < dieX die then some (die - 1) else none

/-- The neighbouring chiplet behind a port, where one stands. -/
def neighbourChip (die port : Nat) : Option Nat := (neighbour die port).filter fun d => (kindOf d).isSome

def Chip.dead (c : Chip) (port : Nat) : Bool := match c.links[port]? with
  | some l => l.state == 3#2
  | none => false

def Chip.barred (c : Chip) : Bool := c.bus == .fenced || c.bus == .isolated

/-- A path of dies avoids dead bonds and chiplets that are FENCED or ISOLATED. -/
def State.pathOpen (s : State) (src : Nat) (path : List Nat) : Bool :=
  match path with
  | [] => true
  | d :: rest =>
    let c := s.chip src
    !(c.dead (portTo src d)) && (kindOf d).isSome && !(s.chip d).barred && s.pathOpen d rest

/-- The NSEL entry of a chiplet for a destination; reset MESH 3. -/
def State.nselAt (s : State) (src dst : Nat) : BitVec 16 := lookupD (s.chip src).nsel dst 0xC000#16

/-- Parity of bits 17..10 of an address. -/
def hashParity (a : Nat) : Bool := ((List.range 8).filter fun k => a / 2 ^ (10 + k) % 2 == 1).length % 2 == 1

/-- What becomes of traffic from a chiplet to another (R309, R311): none when it arrives, PROT when the entry is
unreachable, LINK when its path is broken. -/
def State.reach (s : State) (src dst addr : Nat) : Option (BitVec 8) :=
  if src = dst then none
  else
    let e := s.nselAt src dst
    let mesh := bits e 15 14
    if mesh = 3 then some protCause
    else
      let onB := if mesh = 2 then hashParity addr else mesh == 1
      let path := if e.getLsbD 13 then
          let w := bits e 9 0
          meshPath onB src w ++ meshPath (!onB) w dst
        else meshPath onB src dst
      if s.pathOpen src path then none else some linkCause

/-- A destination that the path does not reach: PROT at issue, LINK from the fabric. -/
def demandReach (s : State) (src dst addr : Nat) (eva : Word) : Chk Unit :=
  match s.reach src dst addr with
  | none => .ok ()
  | some code => if code = linkCause then .error (.exc (causeFrom code eva)) else stopAt code eva

/-! ## Homes (R339) -/

def homeIndex (phys : Nat) : Nat :=
  let g := phys / 2048
  (g % 4096) ^^^ (g / 4096 % 4096) ^^^ (g / 2 ^ 24 % 4096) ^^^ (g / 2 ^ 36 % 32)

/-- The home slice of a physical address, as a chiplet's HOME table names it. -/
def State.homeOf (s : State) (die phys : Nat) : Nat := bits (lookupD (s.chip die).home (homeIndex phys) 0#16) 9 0

/-- A physical address of another module (spec/22 R390). -/
def remotePhys (phys : Nat) : Bool := decide (phys / 2 ^ 51 % 2 = 1)

/-! ## Translation (R330 to R333) -/

/-- The canonical virtual addresses. -/
def canonical (va : Word) : Bool := bits va 63 48 == (if va.getLsbD 47 then 0xFFFF else 0)

/-- Bytes of a leaf of SIZE 1 to 3. -/
def pageBytes (size : Nat) : Nat :=
  match size with
  | 1 => 2 ^ 16
  | 2 => 2 ^ 21
  | _ => 2 ^ 30

/-- One entry of a table: its address and word, after the checks every entry meets. -/
def State.tableEntry (s : State) (die base index : Nat) (va : Word) : Chk (Nat × Word) := do
  let a := base + 8 * index
  demandReach s die (s.homeOf die a) a va
  if s.poison.contains (a / 64) then stopAt eccCause va
  else
    let e := BitVec.ofNat 64 (Mem.load s.mem a 8)
    demandAt (e.getLsbD 0 && bits e 63 52 == 0) xlateCause va
    pure (a, e)

/-- A leaf, whose PA bits below its page size must be zero. -/
def leafOk (size : Nat) (e : Word) : Bool := (bits e 51 8 * 256) % pageBytes size == 0

/-- Units of a die that cache table entries: the L1 TLB of a core is its number. -/
def l2Unit : Nat := 8
def walkUnit : Nat := 9

/-- A cached entry for an address (R333). -/
def State.cachedIn (s : State) (die unit ctx : Nat) (va : Word) (p : Cached → Bool) : Option Cached :=
  s.tlb.find? fun t => t.die == die && t.unit == unit && t.ctx == ctx && decide (t.va ≤ va.toNat)
    && decide (va.toNat < t.va + pageBytes t.size) && p t

/-- A cached translation of an address in the L1 TLB of a core, or in its die's L2. -/
def State.cached (s : State) (die unit ctx : Nat) (va : Word) : Option Cached := s.cachedIn die unit ctx va fun _ => true

/-- Entries of one set: 192 fully associative, 16 ways, 64 pointers. -/
def unitWays (unit : Nat) : Nat := if unit < 8 then 192 else if unit = l2Unit then 16 else 64

/-- The set of an entry: only the L2 has more than one. -/
def Cached.set (t : Cached) : Nat := if t.unit = l2Unit then Config.tlbSet t.ctx (t.va / 2 ^ 16) % 256 else 0

/-- An entry is cached; a full set loses one (log entry 66). -/
def State.install (s : State) (t : Cached) : State :=
  let mates := s.tlb.filter fun u => u.die == t.die && u.unit == t.unit && u.set == t.set
  if mates.length < unitWays t.unit then { s with tlb := t :: s.tlb }
  else
    let victim := mates[Config.tlbVictim s.free % unitWays t.unit]?
    { s with tlb := t :: s.tlb.filter (fun u => some u != victim), free := s.free + 1 }

/-- What a walk finds: the leaf's address, its SIZE and its word, and the pointers it read, each with the size of the region it
stands for. -/
structure Walk where
  addr     : Nat
  size     : Nat
  pte      : Word
  pointers : List (Nat × Word)
  deriving DecidableEq, Repr

/-- The root is valid and the address canonical: else every GLOBAL access raises XLATE (R330, R331). -/
def State.rootOk (s : State) (die : Nat) (va : Word) : Bool := canonical va && (s.chip die).troot.getLsbD 63

/-- Level 3 of a walk, behind a level-2 pointer. -/
def State.walkLast (s : State) (die : Nat) (va e2 : Word) (ps : List (Nat × Word)) : Chk Walk := do
  let (a3, e3) ← s.tableEntry die (bits e2 51 8 * 256) (bits va 20 16) va
  demandAt (bits e3 7 6 == 1 && leafOk 1 e3) xlateCause va
  pure ⟨a3, 1, e3, ps⟩

/-- Level 2 of a walk, behind a level-1 pointer. -/
def State.walkMiddle (s : State) (die : Nat) (va e1 : Word) (ps : List (Nat × Word)) : Chk Walk := do
  let (a2, e2) ← s.tableEntry die (bits e1 51 8 * 256) (bits va 29 21) va
  if bits e2 7 6 = 2 then
    demandAt (leafOk 2 e2) xlateCause va
    pure ⟨a2, 2, e2, ps⟩
  else
    demandAt (bits e2 7 6 == 0) xlateCause va
    s.walkLast die va e2 ((2, e2) :: ps)

/-- Level 1 of a walk. -/
def State.walkFirst (s : State) (die : Nat) (va : Word) : Chk Walk := do
  let (a1, e1) ← s.tableEntry die (bits (s.chip die).troot 51 21 * 2 ^ 21) (bits va 47 30) va
  if bits e1 7 6 = 3 then
    demandAt (leafOk 3 e1) xlateCause va
    pure ⟨a1, 3, e1, []⟩
  else
    demandAt (bits e1 7 6 == 0 && bits e1 11 8 == 0) xlateCause va
    s.walkMiddle die va e1 [(3, e1)]

/-- The walk of R330, from the deepest pointer the walk cache holds. -/
def State.walk (s : State) (die ctx : Nat) (va : Word) : Chk Walk := do
  demandAt (s.rootOk die va) xlateCause va
  match s.cachedIn die walkUnit ctx va (fun t => t.size == 2), s.cachedIn die walkUnit ctx va (fun t => t.size == 3) with
  | some t, _ => s.walkLast die va t.pte []
  | none, some t => s.walkMiddle die va t.pte []
  | none, none => s.walkFirst die va

/-- The cached form of an entry that covers an address. -/
def cachedAt (die unit ctx : Nat) (va : Word) (size : Nat) (e : Word) : Cached :=
  { die := die, unit := unit, ctx := ctx, va := va.toNat / pageBytes size * pageBytes size, size := size, pte := e }

/-- The entry that translates an address for the focused core: from its L1 TLB, from the L2, or walked (R333). -/
def State.lookup (s : State) (va : Word) : Chk (State × Nat × Word) :=
  let c := s.core
  if !s.rootOk c.die va then stopAt xlateCause va
  else match s.cached c.die c.num c.ctx va, s.cached c.die l2Unit c.ctx va with
  | some t, _ => .ok (s, t.size, t.pte)
  | none, some t => .ok (s.install { t with unit := c.num }, t.size, t.pte)
  | none, none => do
    let w ← s.walk c.die c.ctx va
    let s1 := w.pointers.foldl (fun (s : State) p => s.install (cachedAt c.die walkUnit c.ctx va p.1 p.2)) s
    let s2 := s1.install (cachedAt c.die l2Unit c.ctx va w.size w.pte)
    pure (s2.install (cachedAt c.die c.num c.ctx va w.size w.pte), w.size, w.pte)

def physOf (size : Nat) (e va : Word) : Nat := bits e 51 8 * 256 + va.toNat % pageBytes size

/-- What an access needs of a page. -/
structure Rights where
  r : Bool
  w : Bool
  /-- only XCOPY views and stream fills reach another module (spec/22 R390) -/
  far : Bool
  /-- the request retires before it reaches its destination: a broken path is found later (spec/18 R326) -/
  posted : Bool
  deriving DecidableEq, Repr

/-- A path is judged where a request is made: PROT at issue; LINK there too, unless the request is posted. -/
def demandPath (s : State) (dst addr : Nat) (posted : Bool) (eva : Word) : Chk Unit :=
  if posted && s.reach s.core.die dst addr == some linkCause then .ok () else demandReach s s.core.die dst addr eva

def hops (a b : Nat) : Nat := (dieX a - dieX b) + (dieX b - dieX a) + (dieY a - dieY b) + (dieY b - dieY a)

/-- The ONLINE memory chiplet with the fewest hops, ties to the lowest die id (R336). -/
def State.nearestSlice (s : State) (die : Nat) : Option Nat :=
  (allDies.filter fun d => kindOf d == some 1 && s.online d).foldl (fun b d => match b with
    | none => some d
    | some m => if hops die d < hops die m then some d else some m) none

def State.noReplica (s : State) (granule : Nat) : Bool :=
  match s.norep.find? fun r => decide (r.1 ≤ granule) && decide (granule < r.1 + r.2.1) with
  | some r => r.2.2
  | none => false

/-- The replica of a sector at a slice. -/
def replicaKey (slice phys : Nat) : Nat := slice * 2 ^ 44 + phys / 256

/-- The path of a load on a replicated page: to the nearest slice, and from there to the home unless that slice holds a copy
(R336). -/
def State.replicaPath (s : State) (phys : Nat) (va : Word) : Chk Unit :=
  let home := s.homeOf s.core.die phys
  match s.nearestSlice s.core.die with
  | none => demandPath s home phys false va
  | some d => do
    demandPath s d phys false va
    if (s.reach d home phys).isNone || (!s.noReplica (phys / 2048) && s.replicas.any fun r => r.1 == replicaKey d phys) then pure ()
    else .error (.exc (causeFrom linkCause va))

/-- Translation with the checks of spec/13 R242: XLATE, PROT, MEM_LOST, COLLAPSE, and of the path to where the access is made. -/
def State.translateBy (s : State) (va : Word) (n : Rights) (path : State → Nat → Word → Chk Unit) : Chk (State × Nat × Word) := do
  let (t, size, e) ← s.lookup va
  let p := physOf size e va
  demandAt ((!n.r || e.getLsbD 1) && (!n.w || e.getLsbD 2)) protCause va
  demandAt (n.far || !remotePhys p) protCause va
  demandAt (!e.getLsbD 5) memLostCause va
  demandWait (!(n.w && e.getLsbD 3)) (.collapse va)
  if remotePhys p then pure () else path t p e
  pure (t, p, e)

/-- An access of a core or engine; a load on a replicated page goes to the nearest slice (R336). -/
def State.translate (s : State) (va : Word) (n : Rights) : Chk (State × Nat × Word) :=
  s.translateBy va n fun t p e =>
    if e.getLsbD 3 && !n.w then t.replicaPath p va else demandPath t (t.homeOf t.core.die p) p n.posted va

/-- A read made at the home. -/
def State.translateHome (s : State) (va : Word) : Chk (State × Nat × Word) :=
  s.translateBy va ⟨true, false, false, false⟩ fun t p _ => demandPath t (t.homeOf t.core.die p) p false va

/-! ## Hasp windows (R342, R343) -/

/-- One window admits a piece at offset `off` of the target for a source. -/
def haspWindow (h : Word) (src tgt : Core) (off : Nat) (r w i : Bool) : Bool :=
  let n := bits h 41 26
  let base := bits h 20 6
  let mode := bits h 63 62
  let source := (mode == 1 && src.die == tgt.die) || (mode == 2 && src.die == bits h 58 49)
    || (mode == 3 && src.field == tgt.field)
  source && decide (1 ≤ n) && decide (n ≤ 32768) && decide (base ≤ off / 64) && decide (off / 64 < base + n)
    && (!r || h.getLsbD 61) && (!w || h.getLsbD 60) && (!i || h.getLsbD 59)

/-- The target's judgement of a piece; its own accesses are not checked. -/
def haspOk (src tgt : Core) (off : Nat) (r w i : Bool) : Bool :=
  (src.die == tgt.die && src.num == tgt.num) || tgt.sys.hasp.toList.any fun h => haspWindow h src tgt off r w i

/-! ## PEER, INSTR and EVENT addresses -/

def peerDie (a : Word) : Nat := bits a 33 24
def peerNum (a : Word) : Nat := bits a 23 21
def peerOff (a : Word) : Nat := bits a 20 0

/-- The core a PEER or INSTR address names, in the field of the focused core (spec/04 R69). -/
def State.peer (s : State) (a : Word) : Option Core :=
  if bits a 63 34 ≠ 0 then none
  else (s.find (peerDie a) (peerNum a)).filter fun k => k.field == s.core.field && k.field.isSome
    && (s.online k.die || k.memc)

/-- The PEER address of a core's local-store offset. -/
def peerAddress (c : Core) (off : Nat) : Word := BitVec.ofNat 64 (c.die * 2 ^ 24 + c.num * 2 ^ 21 + off)

/-- Class, index and word of an EVENT address (spec/05 R95). -/
structure EventAddr where
  latch : Nat
  cls   : Nat
  index : Nat
  word  : Nat
  deriving DecidableEq, Repr

/-- A Latch of the focused core's field (R95). -/
def State.latchInField (s : State) (die quad : Nat) : Bool :=
  s.cores.any fun k => k.die == die && k.field == s.core.field && k.field.isSome && (!k.memc || quad == 0)

/-- R95: none raises PROT. -/
def State.eventAddr (s : State) (a : Word) : Option EventAddr :=
  let cls := bits a 14 12
  let index := bits a 11 4
  let top := match cls with
    | 0 => 64
    | 4 => 2
    | _ => 16
  if bits a 63 34 = 0 ∧ bits a 22 15 = 0 ∧ cls ≤ 4 ∧ index < top ∧ s.latchInField (bits a 33 24) (bits a 23 23) = true then
    some { latch := bits a 33 24 * 2 + bits a 23 23, cls := cls, index := index, word := bits a 3 3 }
  else none

/-! ## HOST and CXL windows (spec/22 R388) -/

/-- A window is open to a context and holds an address (spec/22 R388). -/
def windowHolds (w : Word × Word) (ctx a : Nat) : Bool :=
  w.2.getLsbD 63 && decide (w.1.toNat ≤ a) && decide (a < w.1.toNat + 2 ^ bits w.2 49 44) && bits w.2 31 16 == ctx

/-- The lowest window of the focused core's chiplet that serves an address: its word 1. -/
def State.window (s : State) (cxl : Bool) (a : Nat) : Option Word :=
  let chip := s.chip s.core.die
  let ws := if cxl then chip.cwin else chip.hwin
  (List.range 16).findSome? fun i =>
    let w := lookupD ws i (0#64, 0#64)
    if windowHolds w s.core.ctx a then some w.2 else none

/-- The I/O chiplet that serves an access, with the permission checks. -/
def State.windowDie (s : State) (cxl : Bool) (a : Word) (r w posted : Bool) : Chk Nat :=
  match s.window cxl a.toNat with
  | none => stopAt protCause a
  | some v => do
    demandAt ((!r || v.getLsbD 62) && (!w || v.getLsbD 61)) protCause a
    demandPath s (bits v 59 50) a.toNat posted a
    pure (bits v 59 50)

end Sys2Proof.Machine
end

