-- ==== Sys2Proof/Machine/LatchOps.lean ====
section
/-!
DEFINITION. The objects of a Latch (spec/05 R94 to R110): event lines, byte counts, barriers, mutexes; the replay log of
grants and external inputs (spec/23 R396, R397).
-/

namespace Sys2Proof.Machine

/-! ## Event lines -/

/-- A line is fired for a threshold (R98). -/
def fired (l : Line) (t : BitVec 32) : Bool := decide ((l.count - t).toNat < 2 ^ 31)

def Latch.line (l : Latch) (n : Nat) : Line := l.lines[n]?.getD ⟨0#32, 0#32⟩
def Latch.setLine (l : Latch) (n : Nat) (v : Line) : Latch :=
  if h : n < 64 then { l with lines := l.lines.set n v h } else l

/-- The status word of R100: COUNT and STATUS. -/
def statusWord (count : BitVec 32) (status : BitVec 8) : Word := (count.zeroExtend 64 <<< 32) ||| status.zeroExtend 64

/-- Ends the waits of a Latch's cores on a line for which `p` holds, with a status word. -/
def State.wakeLine (s : State) (k n : Nat) (p : BitVec 32 → Bool) (w : Word) : State :=
  s.mapCores fun c => match c.wait with
    | .line m t => if c.latch == k && m == n && c.wake.isNone && p t then { c with wake := some w } else c
    | _ => c

/-- An add to a line (R98): waits whose condition now holds end. -/
def State.addLine (s : State) (k n : Nat) (inc : BitVec 32) : State :=
  let l := s.latch k
  let v : Line := { l.line n with count := (l.line n).count + inc }
  (s.setLatch k (l.setLine n v)).wakeLine k n (fired v) (statusWord v.count 0#8)

/-- ECLR of a line (R99). -/
def State.clearLine (s : State) (k n : Nat) : State :=
  let l := s.latch k
  (s.setLatch k (l.setLine n ⟨0#32, 0#32⟩)).wakeLine k n (fun _ => true) (statusWord 0#32 1#8)

/-! ## Byte counts (R109, R110) -/

def ByteCount.none : ByteCount := ⟨0#32, 0#32, false, 0#6⟩

def Latch.count (l : Latch) (n : Nat) : ByteCount := l.counts[n]?.getD ByteCount.none
def Latch.setCount (l : Latch) (n : Nat) (v : ByteCount) : Latch :=
  if h : n < 16 then { l with counts := l.counts.set n v h } else l

/-- The firing test of R110. -/
def State.fireCount (s : State) (k n : Nat) : State :=
  let l := s.latch k
  let b := l.count n
  if b.armed && b.expect.ule b.arrived then
    (s.setLatch k (l.setCount n { b with arrived := b.arrived - b.expect, armed := false })).addLine k b.line.toNat 1#32
  else s

/-- Bytes written into a local store of the quad are counted; ARRIVED saturates (R109, R110). -/
def State.countBytes (s : State) (k n bytes : Nat) : State :=
  let l := s.latch k
  let b := l.count n
  (s.setLatch k (l.setCount n { b with arrived := BitVec.ofNat 32 (min (b.arrived.toNat + bytes) (2 ^ 32 - 1)) })).fireCount
    k n

/-! ## Replay log (spec/23 R396, R397) -/

def Field.replayMode (f : Field) : Nat := bits f.rpctl 63 62

def Field.logBase (f : Field) : Nat := bits f.rpctl 51 12 * 4096
def Field.logSize (f : Field) : Nat := 2 ^ (bits f.rpctl 11 8 + 20)

/-- Key of the grants of one object. -/
def logKey (kind obj : Nat) : Nat := kind * 2 ^ 48 + obj % 2 ^ 48

/-- Record number `skip` of an object in the log: CORE and DATA. -/
def findLog (m : Mem) (a n key skip : Nat) : Option (Nat × Word) :=
  match n with
  | 0 => none
  | k + 1 =>
    let w0 := Mem.load m a 8
    let kind := w0 / 2 ^ 60
    if kind = 0 then none
    else if logKey kind w0 = key then
      (match skip with
        | 0 => some (w0 / 2 ^ 48 % 2 ^ 12, BitVec.ofNat 64 (Mem.load m (a + 8) 8))
        | j + 1 => findLog m (a + 16) k key j)
    else findLog m (a + 16) k key skip

/-- The next logged record of an object in replay. -/
def State.nextLog (s : State) (f : Field) (kind obj : Nat) : Option (Nat × Word) :=
  findLog s.mem f.logBase (f.logSize / 16) (logKey kind obj) (lookupD f.replay (logKey kind obj) 0)

/-- In replay a grant goes only to the logged core; every other request is held (R397). -/
def State.grantable (s : State) (c : Core) (kind obj : Nat) : Bool :=
  match c.field with
  | none => true
  | some i =>
    let f := s.fieldAt i
    f.replayMode != 2 || (match s.nextLog f kind obj with
      | some (lcn, _) => lcn == c.lcn
      | none => false)

/-- A grant or external input is logged in capture mode and consumed in replay (R396, R397). -/
def State.record (s : State) (i : Nat) (kind lcn obj : Nat) (data : Word) : State :=
  let f := s.fieldAt i
  match f.replayMode with
  | 1 =>
    if f.logPos + 16 ≤ f.logSize then
      let a := f.logBase + f.logPos
      let w0 := kind * 2 ^ 60 + lcn % 2 ^ 12 * 2 ^ 48 + obj % 2 ^ 48
      { s with mem := Mem.store (Mem.store s.mem a 8 w0) (a + 8) 8 data.toNat }.setField i { f with logPos := f.logPos + 16 }
    else s.setField i { f with rpctl := setBits (setBits f.rpctl 61 61 1) 63 62 0 }
  | 2 =>
    let key := logKey kind obj
    s.setField i { f with replay := assign f.replay key (lookupD f.replay key 0 + 1), replayAt := assign f.replayAt key s.cyc }
  | _ => s

def State.recordFor (s : State) (c : Core) (kind obj : Nat) (data : Word) : State :=
  match c.field with
  | none => s
  | some i => if c.timed.active then s else s.record i kind c.lcn obj data

/-! ## Mutexes (R106, R107) -/

def Latch.mutex (l : Latch) (n : Nat) : Mutex := l.mutexes[n]?.getD ⟨none, []⟩
def Latch.setMutex (l : Latch) (n : Nat) (v : Mutex) : Latch :=
  if h : n < 16 then { l with mutexes := l.mutexes.set n v h } else l

/-- The EVENT address of a mutex. -/
def mutexAddress (k n : Nat) : Nat := k / 2 * 2 ^ 24 + k % 2 * 2 ^ 23 + 2 * 2 ^ 12 + n * 16

/-- The state word of R106: HOLDER while the mutex is free and WAIT0 to WAIT2 past NWAIT read 0 (log entry 73). -/
def mutexWord (m : Mutex) : Word :=
  let at' := fun (k : Nat) => m.waiters[k]?.getD 0
  BitVec.ofNat 64 ((match m.holder with
    | some h => h * 2 ^ 9 + 2 ^ 8
    | none => 0) + at' 0 * 2 ^ 6 + at' 1 * 2 ^ 4 + at' 2 * 2 ^ 2 + m.waiters.length % 4)

/-- A free mutex is taken by a core. -/
def State.takeMutex (s : State) (c : Core) (n : Nat) : State :=
  let l := s.latch c.latch
  (s.setLatch c.latch (l.setMutex n { l.mutex n with holder := some (c.num % 4) })).recordFor c 2 (mutexAddress c.latch n) 0#64

/-- The core of a Latch at a position of its quad. -/
def State.coreAt (s : State) (k pos : Nat) : Option Core := s.cores.find? fun c => c.latch == k && c.num % 4 == pos

/-- The waiter that a release grants: the oldest, or in replay the logged one. -/
def State.nextWaiter (s : State) (k n : Nat) (ws : List Nat) : Option Nat :=
  ws.find? fun w => match s.coreAt k w with
    | some c => s.grantable c 2 (mutexAddress k n)
    | none => false

/-- A core's request for a free mutex is granted: it is the oldest that may be, those in the FIFO first (spec/01 R25). -/
def State.mayTake (s : State) (k n pos : Nat) : Bool :=
  let ws := ((s.latch k).mutex n).waiters
  s.nextWaiter k n (if ws.contains pos then ws else ws ++ [pos]) == some pos

/-- A mutex is handed to its oldest waiter, whose MLOCK completes, or freed (R107). -/
def State.freeMutex (s : State) (k n : Nat) : State :=
  let l := s.latch k
  let m := l.mutex n
  let s1 := s.setLatch k (l.setMutex n { m with holder := none })
  match s1.nextWaiter k n m.waiters with
  | none => s1
  | some w =>
    let s2 := s1.setLatch k (l.setMutex n ⟨some w, m.waiters.filter (· != w)⟩)
    let s3 := match s2.coreAt k w with
      | some c => s2.recordFor c 2 (mutexAddress k n) 0#64
      | none => s2
    s3.mapCores fun c => if c.latch == k && c.num % 4 == w then { c with wake := some 0#64 } else c

/-- Every waiter leaves the FIFO of the mutexes a core holds, with HOLDER_OUT (R108). -/
def State.holderOut (s : State) (c : Core) : State :=
  (List.range 16).foldl (fun (s : State) (n : Nat) =>
    let l := s.latch c.latch
    let m := l.mutex n
    if m.holder = some (c.num % 4) ∧ m.waiters ≠ [] then
      (s.setLatch c.latch (l.setMutex n { m with waiters := [] })).mapCores fun k =>
        if k.latch == c.latch && m.waiters.contains (k.num % 4) && k.wait == .mutex n then { k with wake := some 2#64 } else k
    else s) s

/-! ## Barriers (R101 to R104) -/

/-- A barrier object of a Latch, or a scope barrier of a level and number. -/
inductive BarRef where
  | object (latch n : Nat)
  | scope (level num : Nat)
  deriving DecidableEq, Repr

/-- Compute cores of the context in a scope instance. -/
def State.scopeCores (s : State) (c : Core) (level : Nat) : List Core := s.cores.filter fun k => inScope level c k && !k.memc

/-- E of a scope barrier at first: those cores but the killed (R104, spec/21 R371); at pod scope those of other modules too (log
entry 81). -/
def State.scopeCount (s : State) (c : Core) (level : Nat) : Nat :=
  ((s.scopeCores c level).filter fun k => k.run != .killed).length + (if level = 5 then Config.podPeers c.ctx else 0)

def State.bar (s : State) (c : Core) (r : BarRef) : Bar :=
  match r with
  | .object k n => (s.latch k).bars[n]?.getD Bar.reset
  | .scope level num =>
    match s.scopeBars.find? fun b => b.level == level && b.key == scopeKey level c && b.num == num with
    | some b => b.bar
    | none => { Bar.reset with e := s.scopeCount c level }

def State.setBar (s : State) (c : Core) (r : BarRef) (b : Bar) : State :=
  match r with
  | .object k n =>
    if h : n < 16 then s.setLatch k { s.latch k with bars := (s.latch k).bars.set n b h } else s
  | .scope level num =>
    let rest := s.scopeBars.filter fun x => !(x.level == level && x.key == scopeKey level c && x.num == num)
    { s with scopeBars := ⟨level, scopeKey level c, num, b⟩ :: rest }

/-- The state word of R101. -/
def barWord (b : Bar) : Word :=
  BitVec.ofNat 64 (b.span.toNat * 2 ^ 49 + (if b.phase then 2 ^ 48 else 0) + b.joins % 2 ^ 12 * 2 ^ 36
    + b.drops % 2 ^ 12 * 2 ^ 24 + b.e % 2 ^ 12 * 2 ^ 12 + b.a % 2 ^ 12)

/-- BARST after an arrival of a core (R103). -/
def barstWord (r : BarRef) (phase wt : Bool) : Word :=
  let low := (if phase then 2 ^ 8 else 0) + (if wt then 2 else 0) + 1
  BitVec.ofNat 64 (match r with
    | .object k n => k / 2 * 2 ^ 24 + k % 2 * 2 ^ 23 + n * 2 ^ 19 + low
    | .scope level num => level * 2 ^ 16 + num * 2 ^ 13 + 2 ^ 9 + low)

/-- The object BARST names. -/
def barstRef (w : Word) : BarRef :=
  if w.getLsbD 9 then .scope (bits w 18 16) (bits w 15 13) else .object (bits w 33 24 * 2 + bits w 23 23) (bits w 22 19)

/-- Scope code of the smallest scope that holds two cores of a field. -/
def spanOf (other : Nat) (c : Core) : Nat :=
  if other / 8 = c.die then (if other % 8 / 4 = c.quad then 1 else 2) else 3

/-- An arrival of c, with the SPAN of a Latch object after it (R101). -/
def Bar.arrive (b : Bar) (c : Core) (timed : Bool) : Bar :=
  let me := c.die * 8 + c.num
  { b with a := b.a + 1, timed := b.timed + (if timed then 1 else 0), came := me :: b.came
           span := BitVec.ofNat 3 (max b.span.toNat (spanOf (b.came.getLastD me) c)) }

/-- The scope whose generation a flip advances (R88, R102). -/
def BarRef.flipLevel (r : BarRef) (b : Bar) : Nat :=
  match r with
  | .object _ _ => b.span.toNat
  | .scope level _ => level

/-- A core waits at a barrier, or has arrived there and waits for its BWAIT. -/
def awaits (c : Core) (r : BarRef) (x : Core) : Bool :=
  c.sys.barst.getLsbD 0 && barstRef c.sys.barst == r && (match r with
    | .object _ _ => true
    | .scope level _ => scopeKey level c == scopeKey level x)

/-- An arrived phase in which timed and other arrivals mix (R104). -/
def Bar.mixed (b : Bar) : Bool := b.timed != 0 && b.timed != b.a

/-- The barrier after a mixed phase: the arrivals are gone, E, PHASE and the joiners, who still wait, stand (log entry 70). -/
def Bar.refused (b : Bar) : Bar := { b with a := 0, drops := 0, timed := 0, came := [], span := 1#3 }

/-- The barrier after its flip (R102). -/
def Bar.flipped (b : Bar) : Bar :=
  { b with phase := !b.phase, e := b.e - b.drops + b.joins, a := 0, joins := 0, drops := 0, timed := 0, came := [], span := 1#3 }

/-- The flip (R102): waiters of the phase end their wait, the generation of its scope advances; a mixed timed phase is
refused and every core that arrived, by whatever form, raises COLLECTIVE_ABORT (R104). BARST keeps its arrival then (log entry
70). -/
def State.tryFlip (s : State) (x : Core) (r : BarRef) : State :=
  let b := s.bar x r
  if b.a ≠ b.e then s
  else if b.mixed then
    (s.setBar x r b.refused).mapCores fun c => if b.came.contains (c.die * 8 + c.num) then { c with abortRaise := true } else c
  else
    ((s.setBar x r b.flipped).bumpGen (r.flipLevel b) x).mapCores fun c =>
      let c1 := if awaits c r x && c.wait == .barrier then { c with wake := some 0#64 } else c
      if b.timed ≠ 0 && awaits c r x then { c1 with timed := { c1.timed with base := s.fcyc c } } else c1

/-- A core of another module arrives at a pod barrier of a context (R104): `x` is a core of the context here. -/
def State.podArrive (s : State) (ctx num : Nat) : State :=
  match s.cores.find? fun c => c.ctx == ctx && c.field.isSome && !c.memc with
  | none => s
  | some x =>
    let b := s.bar x (.scope 5 num)
    if b.e = 0 then s else (s.setBar x (.scope 5 num) { b with a := b.a + 1 }).tryFlip x (.scope 5 num)

/-- A scope barrier that holds every healthy compute core of the core's context, of which other modules may hold some (R90). -/
def State.contextWide (s : State) (c : Core) (r : BarRef) : Bool :=
  match r with
  | .object _ _ => false
  | .scope level _ => (Config.podPeers c.ctx == 0 || level == 5) && s.cores.all fun k => k.memc || k.field.isNone || k.ctx != c.ctx || inScope level c k

/-- Completion of a barrier wait: ARR and WT cleared; an acquire, or RACEST.OPEN cleared by a context-wide barrier (R76,
R90, R103). -/
def State.leaveBarrier (s : State) (r : BarRef) : State :=
  let wide := s.contextWide s.core r
  s.modSys fun y => { y with
    barst := y.barst &&& ~~~3#64
    racest := if wide then y.racest &&& ~~~1#64 else y.racest ||| 1#64 }

end Sys2Proof.Machine
end

