-- ==== Sys2Proof/Machine/Home.lean ====
section
/-!
DEFINITION. Accesses at the places that perform them (spec/04 R71 to R75, spec/13 R242 to R250): reads, writes and atomics
at homes, at peer cores and at I/O chiplets; the stores a core has retired and that are not yet performed; replicas and
collapse (spec/19 R336, R337).
-/

namespace Sys2Proof.Machine

/-! ## Race checks of an access -/

/-- A checked access of core x to a piece of a core's local store (spec/04 R86). -/
def State.raceStore (s : State) (x tgt : Core) (off : Nat) (w locked : Bool) : Except (BitVec 12) State :=
  let p := Place.localStore tgt.lcn (off / 64)
  if x.timed.active then .ok s
  else if x.die == tgt.die && x.num == tgt.num then
    (match findRace s.race p with
      | none => .ok s
      | some _ => s.raceAccess x p w locked)
  else s.raceAccess x p w locked

/-- A checked access to a GLOBAL piece whose page has race detection enabled. -/
def State.raceGlobal (s : State) (x : Core) (phys : Nat) (pte : Word) (w locked : Bool) : Except (BitVec 12) State :=
  if x.timed.active || !pte.getLsbD 4 then .ok s else s.raceAccess x (.global (phys / 64)) w locked

/-- A race a destination reports. -/
def raced {α : Type} (r : Except (BitVec 12) α) (eva : Word) : Chk α :=
  match r with
  | .ok t => .ok t
  | .error o => .error (.exc { causeFrom raceCause eva with other := o })

def failFrom {α : Type} (code : BitVec 8) (eva : Word) : Chk α := .error (.exc (causeFrom code eva))
def demandFrom (ok : Bool) (code : BitVec 8) (eva : Word) : Chk Unit := if ok then .ok () else failFrom code eva

/-! ## Local stores of other cores -/

/-- A bank format that refuses writes of fewer than 8 bytes, and atomics (spec/13 R245, R249). -/
def Core.wideBank (c : Core) (off : Nat) : Bool :=
  let f := fmtCode (c.bank (off / 0x20000))
  f == 7 || f == 8

/-- Writing bytes of a store: in an AF56 or AI56 bank an 8-byte store writes the low 7 bytes. -/
def Core.storeLs (c : Core) (off : Nat) (bs : List Byte) : Core :=
  c.putLs off bs

/-! ## Stores that have retired (spec/13 R242, R245) -/

/-- What a store's order against the core's other accesses goes by: space and piece (spec/04 R72). -/
def Store.piece (t : Store) : Nat × Nat :=
  (t.space.toNat, if t.space = 0#3 then t.phys / 64 else t.addr.toNat / 64)

/-- The destination of an ordered stream (spec/04 R82): a home, or a core for PEER, INSTR and START; elsewhere none. -/
def State.storeDest (s : State) (t : Store) : Option (Bool × Nat) :=
  match t.space.toNat with
  | 0 => some (false, s.homeOf s.core.die t.phys)
  | 2 => some (true, t.addr.toNat / 2 ^ 21)
  | 5 => some (true, t.addr.toNat / 2 ^ 21)
  | _ => none

def ackOf (t : Store) (code : BitVec 8) (other : BitVec 12) : Ack := ⟨code, t.addr, other, t.hm⟩

/-- The state of a core that START begins (spec/15 R297). -/
def Core.begin (c : Core) (index : Nat) (arg : Word) : Core :=
  let regs := (Vector.replicate 32 0#64).set 1 arg |>.set 3 (BitVec.ofNat 64 c.fcn)
  { c with
    run := .running, pc := BitVec.ofNat 14 index, regs := regs, preds := 1#8, q := Vector.replicate 16 0#64, pushes := 0
    owed := [], chunk := none, card := none, wait := .none, wake := none, fetched := []
    timed := { c.timed with active := false }
    sys := { c.sys with mode := setBits c.sys.mode 0 0 0, repst := 0#64, tprog := 0#64 } }

/-- Bytes written into the instruction store: the word that stood there may have been fetched (spec/04 R83). -/
def Core.storeInstr (c : Core) (off : Nat) (bs : List Byte) : Core :=
  let i := off / 12
  let old := wordOfBytes (Mem.getBytes c.istore (12 * i) 12)
  { c with istore := Mem.putBytes c.istore off bs
           fetched := if c.fetched.any fun f => f.1 == i then c.fetched else (i, old) :: c.fetched }

/-- A PEER, INSTR or START store at its target (spec/04 R70, spec/19 R343). -/
def State.performPeer (s : State) (x : Core) (t : Store) : State × Ack :=
  match s.find (peerDie t.addr) (peerNum t.addr) with
  | none => (s, ackOf t linkCause noCore)
  | some tgt =>
    let off := peerOff t.addr
    let instr := t.space == 5#3
    if (s.reach x.die tgt.die t.addr.toNat).isSome then (s, ackOf t linkCause noCore)
    else if !haspOk x tgt off false (!instr) instr then (s, ackOf t nackCause noCore)
    else match t.kind with
      | .start arg =>
        if tgt.run == .halted then (s.onCore tgt.die tgt.num fun c => c.begin (off / 12) arg, ackOf t 0#8 noCore)
        else (s, ackOf t nackCause noCore)
      | .add _ => (s, ackOf t 0#8 noCore)
      | .bytes bs =>
        if instr then
          (s.onCore tgt.die tgt.num fun c => c.storeInstr off bs, ackOf t 0#8 noCore)
        else if tgt.wideBank off && bs.length != 8 then (s, ackOf t bankFmtCause noCore)
        else match (if t.check then s.raceStore x tgt off true t.locked else .ok s) with
          | .error o => (s, ackOf t raceCause o)
          | .ok u => (u.onCore tgt.die tgt.num fun c => c.storeLs off bs, ackOf t 0#8 noCore)

/-- A retired store of core x is performed at its destination, which acknowledges it. -/
def State.performStore (s : State) (x : Core) (t : Store) : State × Ack :=
  match t.space.toNat with
  | 0 =>
    match s.reach x.die (s.homeOf x.die t.phys) t.phys with
    | some _ => (s, ackOf t linkCause noCore)
    | none =>
      match (if t.check then s.raceAccess x (.global (t.phys / 64)) true t.locked else .ok s) with
      | .error o => (s, ackOf t raceCause o)
      | .ok u => match t.kind with
        | .bytes bs => ({ u with mem := Mem.putBytes u.mem t.phys bs }, ackOf t 0#8 noCore)
        | _ => (u, ackOf t 0#8 noCore)
  | 3 =>
    match s.eventAddr t.addr, t.kind with
    | some e, .add inc =>
      if (s.reach x.die (e.latch / 2) t.addr.toNat).isSome then (s, ackOf t linkCause noCore)
      else (s.addLine e.latch e.index inc, ackOf t 0#8 noCore)
    | _, _ => (s, ackOf t protCause noCore)
  | 6 | 7 =>
    if (s.reach x.die t.phys t.addr.toNat).isSome then (s, ackOf t linkCause noCore)
    else match t.kind with
      | .bytes bs =>
        if t.space = 6#3 then ({ s with hostMem := Mem.putBytes s.hostMem t.addr.toNat bs }, ackOf t 0#8 noCore)
        else ({ s with cxlMem := Mem.putBytes s.cxlMem t.addr.toNat bs }, ackOf t 0#8 noCore)
      | _ => (s, ackOf t 0#8 noCore)
  | _ => s.performPeer x t

def StoreKind.isStart (k : StoreKind) : Bool :=
  match k with
  | .start _ => true
  | _ => false

/-- The window that a HOST or CXL address lies in. -/
def State.windowIndex (s : State) (cxl : Bool) (a : Nat) : Option Nat :=
  let chip := s.chip s.core.die
  (List.range 16).find? fun i => windowHolds (lookupD (if cxl then chip.cwin else chip.hwin) i (0#64, 0#64)) s.core.ctx a

/-- Store k of the focused core may be performed: no earlier one of its piece, which START does not access (spec/04 R83), of its ordered stream to the same
destination, or of its host window is still to come (spec/04 R72, R82, spec/22 R389). -/
def State.storeReady (s : State) (k : Nat) : Bool :=
  match s.core.stores[k]? with
  | none => false
  | some t => (s.core.stores.take k).all fun u =>
      (u.piece != t.piece || u.kind.isStart || t.kind.isStart) && !(t.sid != 0 && u.sid == t.sid && (s.storeDest t).isSome && s.storeDest u == s.storeDest t)
        && !((t.space == 6#3 || t.space == 7#3) && u.space == t.space
          && s.windowIndex (t.space == 7#3) u.addr.toNat == s.windowIndex (t.space == 7#3) t.addr.toNat)

/-- Store k of the focused core is performed and its response sent. -/
def State.performAt (s : State) (k : Nat) : State :=
  match s.core.stores[k]? with
  | none => s
  | some t =>
    let (u, a) := (s.modC fun c => { c with stores := c.stores.eraseIdx k }).performStore s.core t
    u.modC fun c => { c with acks := c.acks ++ [a] }

/-- The first n stores of the focused core are performed. -/
def State.performFirst (n : Nat) (s : State) : State :=
  match n with
  | 0 => s
  | k + 1 => State.performFirst k (s.performAt 0)

/-- Before an access to a piece, the core's earlier stores up to the last one to that piece are performed (spec/04 R72). -/
def State.flushPiece (s : State) (p : Nat × Nat) : State :=
  let n := s.core.stores.length
  match (List.range n).reverse.find? fun k => (s.core.stores[k]?.map Store.piece) == some p with
  | some k => State.performFirst (k + 1) s
  | none => s

/-- A store retires; the 65th unacknowledged one interlocks (R242). -/
def State.retireStore (s : State) (t : Store) : Chk State :=
  if 64 ≤ s.core.stores.length + s.core.acks.length then .error (.wait .interlock)
  else .ok (s.modC fun c => { c with stores := c.stores ++ [t] })

/-- A response reaches the core: a cause becomes deferred (R242). -/
def State.response (s : State) (k : Nat) : State :=
  match s.core.acks[k]? with
  | none => s
  | some a => s.modC fun c =>
    { c with acks := c.acks.eraseIdx k
             deferred := if a.code = 0#8 then c.deferred else c.deferred ++ [⟨a.code, a.addr, a.other, a.hm⟩] }

/-! ## Replicas and collapse (spec/04 R73, spec/19 R336, R337) -/

/-- The bytes a load on a REP page returns, filling the nearest slice's copy of the sector. -/
def State.replicaRead (s : State) (phys n : Nat) : State × List Byte :=
  match s.nearestSlice s.core.die with
  | none => (s, Mem.getBytes s.mem phys n)
  | some d =>
    if s.noReplica (phys / 2048) then (s, Mem.getBytes s.mem phys n)
    else
      let key := replicaKey d phys
      match s.replicas.find? fun r => r.1 == key with
      | some r => (s, (r.2.drop (phys % 256)).take n)
      | none =>
        let bs := Mem.getBytes s.mem (phys / 256 * 256) 256
        ({ s with replicas := (key, bs) :: s.replicas }, (bs.drop (phys % 256)).take n)

/-- The dies of the focused core's field. -/
def State.inField (s : State) (die : Nat) : Bool := s.cores.any fun k => k.die == die && k.field == s.core.field

/-- Every GLOBAL access under way in the field is performed before the cores acknowledge (R334). -/
def State.settleField (s : State) : State :=
  (s.cores.filter fun c => c.field == s.core.field && c.field.isSome && !c.stores.isEmpty).foldl (fun (s : State) (c : Core) =>
    s.within c.die c.num fun t => State.performFirst t.core.stores.length t) s

/-- The entries of one page of the focused core's context are removed in its field. -/
def State.dropPage (s : State) (va : Word) : State :=
  { s with tlb := s.tlb.filter fun t => !(s.inField t.die && t.ctx == s.core.ctx && decide (t.va ≤ va.toNat)
      && decide (va.toNat < t.va + pageBytes t.size)) }

/-- VINV.page of one page of the focused core's context (spec/15 R299). -/
def State.vinvPage (s : State) (va : Word) : State := s.settleField.dropPage va

/-- The collapse of the page that holds an address (R337): REP cleared, NOREP set, replicas dropped, the page shot down as
VINV.page does. -/
def State.collapsePage (s : State) (va : Word) : State :=
  match s.walk s.core.die s.core.ctx va with
  | .error _ => s.vinvPage va
  | .ok w =>
    let p := bits w.pte 51 8 * 256
    let n := pageBytes w.size
    State.vinvPage { s with
      mem := Mem.store s.mem w.addr 8 (w.pte &&& ~~~8#64).toNat
      norep := (p / 2048, n / 2048, true) :: s.norep
      replicas := s.replicas.filter fun r => !(decide (p / 256 ≤ r.1 % 2 ^ 44) && decide (r.1 % 2 ^ 44 < (p + n) / 256)) } va

/-! ## Loads -/

/-- A load of n bytes at a GLOBAL address, within one piece, for core `s.core` (spec/13 R242, R243). -/
def State.readGlobal (s : State) (va : Word) (n : Nat) (check far : Bool) : Chk (State × List Byte) := do
  let (t, p, e) ← s.translate va ⟨true, false, far, false⟩
  if remotePhys p then pure (t, Mem.getBytes t.podMem p n)
  else
    let t := t.flushPiece (0, p / 64)
    demandFrom (!t.poison.contains (p / 64)) eccCause va
    let u ← raced (if check then t.raceGlobal t.core p e false (t.holdsMutex t.core) else .ok t) va
    pure (if e.getLsbD 3 then u.replicaRead p n else (u, Mem.getBytes u.mem p n))

/-- n bytes within one piece, read at their home, for a die's controller. -/
def State.readHome (s : State) (va : Word) (n : Nat) : Chk (State × List Byte) := do
  let (t, p, _) ← s.translateHome va
  let t := t.flushPiece (0, p / 64)
  demandFrom (!t.poison.contains (p / 64)) eccCause va
  pure (t, Mem.getBytes t.mem p n)

/-- A load of n bytes at a PEER address. -/
def State.readPeer (s : State) (a : Word) (n : Nat) (check : Bool) : Chk (State × List Byte) := do
  match s.peer a with
  | none => stopAt protCause a
  | some tgt =>
    demandReach s s.core.die tgt.die a.toNat a
    let t := s.flushPiece (2, a.toNat / 64)
    let tgt := (t.find tgt.die tgt.num).getD tgt
    let off := peerOff a
    demandFrom (haspOk t.core tgt off true false false) nackCause a
    demandFrom (tgt.lsBadAt off n).isNone eccCause a
    let u ← raced (if check then t.raceStore t.core tgt off false (t.holdsMutex t.core) else .ok t) a
    pure (u, tgt.lsBytes off n)

/-- A view of n bytes of the own local store, for the waits of spec/02 R41. -/
def byteView (off n : Nat) : View :=
  { reg := 0#5, shape := BitVec.ofNat 128 (off + (n - 1) * 2 ^ 27), fmt := .raw, code := 0, scale := 0, sat := false, neg := false,
    trn := false, alt := false }

/-- The checks of a LOCAL access (R242): PROT, the waits for the matrix queue, its race record. -/
def State.localAccess (s : State) (a : Word) (n : Nat) (w check : Bool) : Chk State := do
  demandAt (decide (a.toNat < 0x200000)) protCause a
  s.core.queueClear [byteView a.toNat n]
  let t := s.flushPiece (2, (peerAddress s.core a.toNat).toNat / 64)
  if check then t.raceLocal (a.toNat / 64) w a else pure t

/-- A load of n bytes at a LOCAL address. -/
def State.readLocal (s : State) (a : Word) (n : Nat) (check : Bool) : Chk (State × List Byte) := do
  let t ← s.localAccess a n false check
  match t.core.lsBadAt a.toNat n with
  | some b => stopAt eccCause (BitVec.ofNat 64 b)
  | none => pure (t, t.core.lsBytes a.toNat n)

/-- A load through a HOST or CXL window. A HOST load is an external input (spec/23 R396, R397). -/
def State.readBus (s : State) (cxl : Bool) (a : Word) (n : Nat) : Chk (State × List Byte) := do
  let _ ← s.windowDie cxl a true false false
  let t := s.flushPiece (if cxl then 7 else 6, a.toNat / 64)
  if cxl then pure (t, Mem.getBytes t.cxlMem a.toNat n)
  else
    let f := t.fieldAt (t.core.field.getD 16)
    if t.core.field.isSome && f.replayMode == 2 then
      match t.nextLog f 4 a.toNat with
      | some (lcn, v) =>
        if lcn = t.core.lcn then pure (t.recordFor t.core 4 a.toNat v, toBytes n v.toNat) else .error (.wait (.replay (logKey 4 a.toNat)))
      | none => .error (.wait (.replay (logKey 4 a.toNat)))
    else
      let bs := Mem.getBytes t.hostMem a.toNat n
      pure (t.recordFor t.core 4 a.toNat (BitVec.ofNat 64 (ofBytes bs)), bs)

/-! ## Atomics (spec/13 R246 to R250) -/

/-- The operations of R246; TRED's AOP 0 to 8 name add, min, max, and, or, xor, fadd, fmin, fmax (spec/07 R148). -/
inductive AtomOp where
  | add | min | max | minu | maxu | and | or | xor | swp | cas | fadd | fmin | fmax
  deriving DecidableEq, Repr

/-- An FP16 or FP32 operation, rounded once into the memory format (R248). -/
def floatAtomic (op : AtomOp) (n old : Nat) (v : Val) : Nat :=
  let b := if n = 2 then binary16 else binary32
  let x := b.decode old
  (b.encode .rne false (match op with
    | .fadd => x.add .rne v
    | .fmin => x.minimum v
    | _ => x.maximum v)).1

/-- The new value of n bytes (R246): b and c are taken modulo 2^(8n). -/
def atomicNew (op : AtomOp) (n old b c : Nat) (v : Val) : Nat :=
  let m := 2 ^ (8 * n)
  let b := b % m
  match op with
  | .add => (old + b) % m
  | .min => if signed b (8 * n) < signed old (8 * n) then b else old
  | .max => if signed old (8 * n) < signed b (8 * n) then b else old
  | .minu => if b < old then b else old
  | .maxu => if old < b then b else old
  | .and => old &&& b
  | .or => old ||| b
  | .xor => old ^^^ b
  | .swp => b
  | .cas => if old = c % m then b else old
  | op => floatAtomic op n old v

/-- The echo buffer of a place: the last 8 atomics per requester (R250). -/
def State.echoPut (s : State) (place : Nat) (seq : BitVec 8) (old : Nat) : State :=
  let mine := s.echo.filter fun e => e.place == place && e.lcn == s.core.lcn
  let rest := s.echo.filter fun e => !(e.place == place && e.lcn == s.core.lcn)
  { s with echo := ((⟨place, s.core.lcn, seq, BitVec.ofNat 64 old⟩ : Echo) :: mine).take 8 ++ rest }

/-- An atomic that has been performed: the old value, and the die whose home slice or I/O chiplet performed it. -/
structure Performed where
  state : State
  old   : Nat
  place : Option Nat
  deriving DecidableEq, Repr

/-- A change of n bytes in one indivisible step at the place that performs address `a`. `sync` atomics are not race-checked. -/
def State.atomicAt (s : State) (space : BitVec 3) (a : Word) (n : Nat) (sync : Bool) (f : Nat → Nat) : Chk Performed :=
  match space.toNat with
  | 0 => do
    let (t, p, e) ← s.translate a ⟨true, true, false, false⟩
    let t := t.flushPiece (0, p / 64)
    demandFrom (!t.poison.contains (p / 64)) eccCause a
    let u ← raced (if sync then .ok t else t.raceGlobal t.core p e true (t.holdsMutex t.core)) a
    let old := Mem.load u.mem p n
    let die := u.homeOf u.core.die p
    pure ⟨{ u with mem := Mem.store u.mem p n (f old) }.echoPut die u.core.atomSeq old, old, some die⟩
  | 1 => do
    demandAt (decide (a.toNat < 0x200000)) protCause a
    demandAt (!s.core.wideBank a.toNat) bankFmtCause a
    let t ← s.localAccess a n true (!sync)
    match t.core.lsBadAt a.toNat n with
    | some b => stopAt eccCause (BitVec.ofNat 64 b)
    | none =>
      let old := ofBytes (t.core.lsBytes a.toNat n)
      pure ⟨t.modC fun c => c.putLs a.toNat (toBytes n (f old)), old, none⟩
  | 2 => do
    match s.peer a with
    | none => stopAt protCause a
    | some tgt =>
      demandReach s s.core.die tgt.die a.toNat a
      let t := s.flushPiece (2, a.toNat / 64)
      let tgt := (t.find tgt.die tgt.num).getD tgt
      let off := peerOff a
      demandFrom (haspOk t.core tgt off true true false) nackCause a
      demandFrom (!tgt.wideBank off) bankFmtCause a
      demandFrom (tgt.lsBadAt off n).isNone eccCause a
      let u ← raced (if sync then .ok t else t.raceStore t.core tgt off true (t.holdsMutex t.core)) a
      let old := ofBytes (tgt.lsBytes off n)
      pure ⟨u.onCore tgt.die tgt.num fun c => c.putLs off (toBytes n (f old)), old, none⟩
  | _ => do
    let die ← s.windowDie true a true true false
    let t := s.flushPiece (7, a.toNat / 64)
    let old := Mem.load t.cxlMem a.toNat n
    pure ⟨{ t with cxlMem := Mem.store t.cxlMem a.toNat n (f old) }.echoPut die t.core.atomSeq old, old, some die⟩

end Sys2Proof.Machine
end

