-- ==== Sys2Proof/Machine/TileShape.lean ====
section
/-!
DEFINITION. Shape and bank instructions (spec/11 R200 to R204), and what waits for a bank's operations (spec/02 R37).
-/

namespace Sys2Proof.Machine

/-- Writes a shape record; a reuse buffer of the register becomes invalid (spec/08 R158). -/
def Core.writeShape (c : Core) (n : BitVec 5) (r : Shape) : Core :=
  { c.setTile n r with reuseA := c.reuseA.filter (· != n), reuseB := c.reuseB.filter (· != n) }

def inStream (c : Core) (o : Operand) : Bool := o.isTsrc && (c.stream (regOf o)).isSome

/-- TDEF (R200). -/
def execTdef (x : Args) (s : State) : Out :=
  issue plainForm x s fun x s => finish s do
    let a := s.core.value x.a
    let b := s.core.value x.b
    demand (!inStream s.core x.d) streamCause
    demand (bits b 63 16 == 0) reservedField
    pure (s.modC fun c => c.writeShape (regOf x.d) (b ++ a))

/-- The field that TVIEW writes (R201); none where b is out of range. -/
def viewField (r : Shape) (fsel : Nat) (b : Nat) : Option Shape :=
  let put := fun (ok : Bool) (hi lo v : Nat) => if ok then some (setBits r hi lo v) else none
  match fsel with
  | 0 => put (decide (b ≤ 0x1FFFFF)) 20 0 b
  | 1 => put (decide (1 ≤ b ∧ b ≤ 64)) 26 21 (b - 1)
  | 2 => put (decide (1 ≤ b ∧ b ≤ 64)) 32 27 (b - 1)
  | 3 => put (decide (b ≤ 65535)) 48 33 b
  | 4 => put (decide (1 ≤ b ∧ b ≤ 16)) 52 49 (b - 1)
  | 5 => put (decide (b ≤ 64)) 59 53 b
  | 6 => put (decide (b ≤ 64)) 66 60 b
  | 7 => put (decide (b ≤ 255)) 74 67 b
  | 8 => put (decide (b ≤ 31)) 79 75 b
  | _ => none

/-- A shape instruction: D receives A's record changed by `f`, where none raises SHAPE. -/
def shapeOp (x : Args) (s : State) (f : Core → Shape → Nat → Option Shape) : Out :=
  issue plainForm x s fun x s => finish s do
    demand (s.core.hintOk x) reservedField
    demand (!inStream s.core x.d && !inStream s.core x.a) streamCause
    match f s.core (s.core.tileOf x.a) (s.core.value x.b).toNat with
    | some r => pure (s.modC fun c => c.writeShape (regOf x.d) r)
    | none => stop shapeCause

/-- TVIEW (R201). -/
def execTview (x : Args) (m : BitVec 4) (s : State) : Out := shapeOp x s fun _ r b => viewField r m.toNat b

/-- The origin move (R202). -/
def originField (f : Fmt) (r : Shape) (b : Nat) : Option Shape :=
  let i := b / 256
  let j := b % 256
  let e := elemIndex r false i j
  let step := match f with
    | .t6 => 4
    | .m1 => 8
    | _ => 1
  let base := elemByte f (recBase r) e
  if b < 65536 ∧ i < recRows r ∧ j < recCols r ∧ e % step = 0 ∧ base / 0x20000 = recBank r then
    some (setBits (setBits (setBits r 20 0 base) 59 53 (recVrows r - i)) 66 60 (recVcols r - j))
  else none

/-- TVIEW.origin (R202). -/
def execTviewOrigin (x : Args) (s : State) : Out :=
  shapeOp x s fun c r b => originField (fmtOf (fmtCode (c.bank (recBank r)))) r b

/-- The valid region that TEDGE sets (R203). -/
def edgeField (r : Shape) (fsel b : Nat) : Option Shape :=
  let vr := b / 256
  let vc := b % 256
  let put := fun (a c : Nat) => some (setBits (setBits r 59 53 a) 66 60 c)
  if fsel = 2 then put (recRows r) (recCols r)
  else if 65536 ≤ b ∨ 64 < vr ∨ 64 < vc then none
  else if fsel = 0 then put vr vc
  else put (min (recVrows r) vr) (min (recVcols r) vc)

/-- TEDGE (R203). -/
def execTedge (x : Args) (m : BitVec 4) (s : State) : Out := shapeOp x s fun _ r b => edgeField r m.toNat b

/-- The field TINFO returns (R201). -/
def infoField (c : Core) (r : Shape) (alt : Bool) (fsel : Nat) : Word :=
  let b := c.bank (recBank r)
  let f := fmtOf (fmtCode b)
  BitVec.ofNat 64 (match fsel with
    | 0 => recBase r
    | 1 => recRows r
    | 2 => recCols r
    | 3 => recRstr r
    | 4 => recEstr r
    | 5 => recVrows r
    | 6 => recVcols r
    | 7 => recAlt r
    | 8 => bits r 79 75
    | 10 => bits r 80 80
    | 11 => b.toNat
    | 12 => extentHi f r alt - extentLo f r alt + 1
    | 13 => bits r 63 0
    | _ => bits r 127 64)

/-- TINFO (R201): in stream mode only `.strm` answers. -/
def execTinfo (x : Args) (m : BitVec 4) (s : State) : Out :=
  issue plainForm x s fun x s => finish s do
    demand (s.core.hintOk x) reservedField
    demand (!inStream s.core x.a || m == 10#4) streamCause
    let alt := match x.a with
      | .t _ _ _ alt => alt
      | _ => false
    pure (s.modC fun c => c.writeD x.d (infoField c (c.record (regOf x.a)) alt m.toNat))

/-! ## Banks -/

def shapeInBank (r : Shape) (b : Nat) : Bool := recBank r == b || (recMv r && recMbank r == b)

/-- Some row of a view at a local-store offset lies in bank b. -/
def rowsInBank (off pitch rows len b : Nat) : Bool :=
  (List.range rows).any fun i =>
    decide ((off + i * pitch) / 0x20000 ≤ b) && decide (b ≤ (off + i * pitch + len - 1) / 0x20000)

/-- The far end of a copy of `r` at a PEER address lies in the core's own bank b: a row is at most 512 bytes long. -/
def Core.ownFar (c : Core) (r : Shape) (view ctl : Word) (b : Nat) : Bool :=
  bits ctl 63 61 == 2 && bits view 63 34 == 0 && bits view 33 24 == c.die && bits view 23 21 == c.num
    && rowsInBank (bits view 20 0) (bits ctl 29 0) (recVrows r) 512 b

/-- A command reads or writes bank b of its core, at the tile or at the far end. -/
def TransferKind.usesBank (c : Core) (k : TransferKind) (b : Nat) : Bool :=
  match k with
  | .copyOut r _ view ctl _ => shapeInBank r b || c.ownFar r view ctl b
  | .copyIn r _ view ctl _ => shapeInBank r b || c.ownFar r view ctl b
  | .cast r _ mask ctl _ => shapeInBank r b
      || (decide (bits ctl 47 36 ≤ c.fcn) && mask.getLsbD (c.fcn - bits ctl 47 36)
          && rowsInBank (bits ctl 20 0) (bits ctl 35 21) (recVrows r) 512 b)
  | _ => false

def RoodKind.usesBank (k : RoodKind) (b : Nat) : Bool :=
  match k with
  | .table _ _ => false
  | .restrict d a m w => shapeInBank d b || shapeInBank a b || (w.getLsbD 38 && shapeInBank m b)
  | .prolong d a m w => shapeInBank d b || shapeInBank a b || (w.getLsbD 38 && shapeInBank m b)
  | .convert d a m w => shapeInBank d b || shapeInBank a b || (w.getLsbD 38 && shapeInBank m b)

def MatrixOp.usesBank (k : MatrixOp) (b : Nat) : Bool :=
  match k with
  | .mma c _ _ _ => shapeInBank c b
  | .unload _ base => base / 0x20000 == b
  | .load _ _ src _ _ => shapeInBank src b
  | .release _ => false

/-- Entries of a stream that can be filled now. -/
def Stream.fillable (t : Stream) : Bool := t.poison.isNone && decide (t.filled < min (t.next + t.depth) t.total)

/-- A timed instruction's own accesses to bank b are not over, or what it writes there is not delivered. -/
def Core.unitBusy (c : Core) (b : Nat) : Bool :=
  c.timed.active && ((c.board.ports.any fun u => u.bank == b && decide (c.now < u.last))
    || c.pendingAt c.now fun p => match p with
      | .tile y => shapeInBank y.shape b
      | _ => false)

/-- Some earlier operation of the core still reads or writes bank b (spec/02 R37). -/
def Core.bankBusy (c : Core) (b : Nat) : Bool :=
  c.unitBusy b || (c.xq.any fun q => q.any fun t => t.kind.usesBank c b) || (c.gq.any fun q => q.any fun t => t.kind.usesBank b)
    || (c.mq.any fun e => e.op.usesBank b) || (c.works.any fun w => w.usesBank b) || (c.streams.any fun t => t.rbase / 0x20000 == b && t.fillable)

/-- A write of a bank format register waits for the bank's operations, or raises TIMING (R37, spec/08 R161). -/
def Core.bankReady (c : Core) (b : Nat) : Chk Unit :=
  if c.bankBusy b then (if c.timed.active then .error (.timing 5) else .error (.wait .interlock)) else .ok ()

/-- The operand of BFSET is acceptable as a format: code at most 9, and no scale with RAW, M1, AF56, AI56 (spec/02 R36). -/
def bankOk (a : Word) : Bool :=
  let f := bits a 11 8
  decide (f ≤ 9) && (bits a 7 0 == 0 || !(f == 0 || f == 9 || f == 7 || f == 8))

/-- The register after BFSET: SAT, FMT and SCALE from a, SATS cleared by bit 13. -/
def bankWrite (old : BitVec 32) (a : Word) : BitVec 32 :=
  let v := setBits old 12 0 (bits a 12 0)
  if a.getLsbD 13 then setBits v 13 13 0 else v

/-- BFSET (R204). -/
def execBfset (x : Args) (m : BitVec 4) (s : State) : Out :=
  issue plainForm x s fun x s => finish s do
    let a := s.core.value x.a
    demand (bits a 63 14 == 0) reservedField
    demand (bankOk a) bankFmtCause
    s.core.bankReady m.toNat
    pure (s.modC fun c => c.setBank m.toNat (bankWrite (c.bank m.toNat) a))

/-- BFGET (R204). -/
def execBfget (x : Args) (m : BitVec 4) (s : State) : Out :=
  issue plainForm x s fun x s => .done (s.modC fun c => c.writeD x.d ((c.bank m.toNat).zeroExtend 64))

end Sys2Proof.Machine
end

