-- ==== Sys2Proof/Machine/TileVector.lean ====
section
/-!
DEFINITION. Tile vector instructions (spec/11 R205 to R221) over shared row-resumable and whole-tile operations (R195 to
R198, spec/02 R49, R50).
-/

namespace Sys2Proof.Machine

/-! ## Shared operations -/

def Core.tprog (c : Core) : Nat := bits c.sys.tprog 6 0
def Core.setTprog (c : Core) (n : Nat) : Core := { c with sys := { c.sys with tprog := BitVec.ofNat 64 n } }

/-- n rows from row i, each after the check of its sources; a bad row stops before it (R49). -/
def runRows (n i : Nat) (bad : Core → Nat → Option Nat) (row : Core → Nat → Core) (c : Core) : Core × Option (Nat × Nat) :=
  match n with
  | 0 => (c, none)
  | k + 1 => match bad c i with
    | some a => (c, some (i, a))
    | none => runRows k (i + 1) bad row (row c i)

/-- Columns 0 to n−1 of a row. -/
def runCols (n : Nat) (f : Core → Nat → Core) (c : Core) : Core := (List.range n).foldl f c

/-- The tile sources among A and B. -/
def sourceViews (c : Core) (x : Args) : List View :=
  (if x.a.isTsrc then [c.view x.a] else []) ++ (if x.b.isTsrc then [c.view x.b] else [])

/-- The destination's view after FOVR; a reserved code is judged by BANK_FMT. -/
def destView (c : Core) (x : Args) (fovr : BitVec 4) : View :=
  c.viewAs x.d (if fovr.toNat ≤ 9 then fovr.toNat else 0)

/-- What a tile instruction checks in its own terms, after the common SHAPE checks and among BANK_FMT. -/
structure TileRule where
  /-- agreement of the operand shapes (condition 5 of R32) -/
  shape : Bool
  /-- formats -/
  fmt   : Bool
  /-- operand-value checks after them -/
  last  : Chk Unit

/-- Check 5 of a tile instruction with a tile destination (R198): STREAM, SHAPE, BANK_FMT, what follows, then the race
records; before them, in a free phase, the waits for the matrix queue. -/
def tileChecks (s : State) (x : Args) (fovr : BitVec 4) (d : View) (srcs : List View) (resumable : Bool) (r : TileRule) :
    Chk State := do
  s.core.streamCheck x (some d) srcs
  demand (d.shapeOk && srcs.all View.shapeOk && r.shape && (!resumable || overlapOk d srcs)) shapeCause
  demand (decide (fovr.toNat ≤ 9) && s.core.mirrorOk d && srcs.all s.core.mirrorOk && r.fmt) bankFmtCause
  r.last
  s.core.queueClear (d :: srcs)
  s.raceViews ((srcs.map fun v => (v, false)) ++ [(d, true)])

/-- Completion of a tile instruction: sources consumed, TPROG cleared. -/
def tileDone (srcs : List View) (s : State) (c : Core) : State := { s with core := (c.consume srcs).setTprog 0 }

/-- The state in which a check's cause is taken: TPROG is left at 0 (R49). -/
def tileFail (s : State) (srcs : List View) (e : Stop) : Res :=
  match e with
  | .exc e => .trap e (s.modC fun c => (c.markPoison srcs).setTprog 0)
  | .wait w => .wait w s
  | .timing k => .timing k s

/-- PREEMPT between two rows (R49, log entry 22). -/
def betweenRows : Exc := { cause preemptCause with late := true }

/-- A row-resumable instruction (R49): rows TPROG to VROWS − 1 of D, in a timed phase on the timetable of `u`. An uncorrectable
word and a PREEMPT stop it before a row; the copies of other members of a gang stand. In a timed phase its beats follow
(spec/08 R156). -/
def rowResumable (ins : Instr) (x : Args) (u : VectorUse) (srcs : List View) (d : View) (s : State) (r : Chk State)
    (bad : Core → Nat → Option Nat) (row : Core → Nat → Core) : Res :=
  match r.bind fun t => t.vector x u with
  | .error e => tileFail s srcs e
  | .ok t =>
    let i := t.core.tprog
    let todo := d.vrows - i
    let n := (t.core.rowLimit.getD todo).min todo
    match runRows n i bad row (t.core.reuse x) with
    | (c, none) =>
      if t.core.timed.active then .done (tileDone srcs t (t.core.startBeats ins x t.free u []))
      else if n < todo then .trap betweenRows { t with core := c.setTprog (i + n) } else .done (tileDone srcs t c)
    | (c, some (i, a)) => .trap (causeFrom eccCause (BitVec.ofNat 64 a)) { t with core := c.setTprog i }

/-- An uncorrectable error among the valid elements of the sources. -/
def Core.anyBad (c : Core) (srcs : List View) : Option Nat :=
  if c.lsBad.isEmpty then none
  else srcs.findSome? fun v => (List.range v.vrows).findSome? fun i => c.rowBad v i v.vcols

/-- A whole-tile instruction (R50): every source element is read before the first write. In a timed phase the beats follow; a
scalar result stands at once and is replaced on its cycle, before which nothing may read it. `also` is read at issue. -/
def wholeTile (ins : Instr) (x : Args) (u : VectorUse) (srcs : List View) (s : State) (r : Chk State) (write : Core → Core)
    (also : List Touch := []) : Res :=
  match r.bind fun t => t.vector x u with
  | .error e => tileFail s srcs e
  | .ok t => match t.core.anyBad srcs with
    | some a => .trap (causeFrom eccCause (BitVec.ofNat 64 a)) (t.modC fun c => c.setTprog 0)
    | none =>
      if t.core.timed.active then
        let c := t.core.startBeats ins x t.free u also
        .done (tileDone srcs t (if u.writes.isEmpty then write c else c))
      else .done (tileDone srcs t (write (t.core.reuse x)))

/-- Writes the codes that `f` gives for the valid region of D, all read from the core before. -/
def putCells (d : View) (f : Nat → Nat → Option (Nat × Bool)) (c : Core) : Core :=
  let cells := (List.range d.vrows).flatMap fun i => (List.range d.vcols).filterMap fun j => (f i j).map fun v => (i, j, v)
  cells.foldl (fun c p => c.putVal d p.1 p.2.1 p.2.2) c

/-- Same rows and columns (R195). -/
def sameShape (d : View) (srcs : List View) : Bool := srcs.all fun v => v.rows == d.rows && v.cols == d.cols

/-- Float mode (R196). -/
def floatMode (d : View) (srcs : List View) : Bool := d.fmt.isFloat || srcs.any fun v => v.fmt.isFloat

/-- No RAW operand (R196). -/
def noRaw (vs : List View) : Bool := vs.all fun v => v.code != 0

/-- The value of a scalar operand (R196). -/
def broadcast (fl : Bool) (o : Operand) (w : Word) : Val :=
  if fl then f32Value o w else Val.ofInt w.toInt

/-- The value of element (i,j) of an operand field, tile or scalar. -/
def operandVal (c : Core) (fl : Bool) (o : Operand) (i j : Nat) : Val :=
  if o.isTsrc then c.elem (c.view o) i j else broadcast fl o (c.value o)

def mode (m : TMod) : Rounding := roundingOf m.rm

/-- Encodes a value into a destination. -/
def View.encode (d : View) (m : TMod) (v : Val) : Nat × Bool :=
  encodeVal d.fmt v d.scale (mode m) (satChoice m.satm d.sat)

/-- An elementwise instruction (R207): `op` from x, y and D's own element, which is read only where `third` says so; k cycles
a beat (spec/08 R155). -/
def elementwise (ins : Instr) (x : Args) (m : TMod) (s : State) (op : State → Val → Val → Val → Val) (k : Nat := 1) (third : Bool := false) :
    Out :=
  issue plainForm x s fun x s =>
    let d := destView s.core x m.fovr
    let srcs := sourceViews s.core x
    let fl := floatMode d srcs
    rowResumable ins x (rowUse k third d srcs) srcs d s
      (tileChecks s x m.fovr d srcs true ⟨sameShape d srcs, noRaw (d :: srcs), .ok ()⟩)
      (fun c i => (if third then d :: srcs else srcs).findSome? fun v => c.rowBad v i d.vcols)
      (fun c i => runCols d.vcols (fun c j => c.putVal d i j
        (d.encode m (op s (operandVal c fl x.a i j) (operandVal c fl x.b i j) (c.elem d i j)))) c)

/-- What TMIN and TMAX store in element (i,j): the selected element is moved under R38 (spec/03 R55). -/
def selectElem (low fl : Bool) (x : Args) (m : TMod) (d : View) (c : Core) (i j : Nat) : Nat × Bool :=
  let a := c.view x.a
  let b := c.view x.b
  let y := operandVal c fl x.b i j
  let move := fun (v : View) => moveCode v d (mode m) (satChoice m.satm d.sat) (c.rawElem v i j)
  if Val.second low (c.elem a i j) y then
    (if y = .nan ∨ !x.b.isTsrc then d.encode m y else move b)
  else move a

/-- TMIN and TMAX (R207). -/
def selecting (ins : Instr) (low : Bool) (x : Args) (m : TMod) (s : State) : Out :=
  issue plainForm x s fun x s =>
    let d := destView s.core x m.fovr
    let srcs := sourceViews s.core x
    let fl := floatMode d srcs
    rowResumable ins x (rowUse 1 false d srcs) srcs d s
      (tileChecks s x m.fovr d srcs true ⟨sameShape d srcs, noRaw (d :: srcs), .ok ()⟩)
      (fun c i => srcs.findSome? fun v => c.rowBad v i d.vcols)
      (fun c i => runCols d.vcols (fun c j => c.putVal d i j (selectElem low fl x m d c i j)) c)

/-- A value drawn from the free counter is spent (log entry 7). -/
def spend (o : Out) : Out :=
  match o with
  | .next s => .next { s with free := s.free + 1 }
  | o => o

/-! ## Moves and generated tiles (R205, R206) -/

/-- TMOV (R205, spec/02 R38). -/
def execTmov (x : Args) (m : TMod) (s : State) : Out :=
  let ins : Instr := .tmov x m
  issue plainForm x s fun x s =>
    let (a, d) := movePair (s.core.view x.a) (destView s.core x m.fovr)
    rowResumable ins x (rowUse 1 false d [a]) [a] d s (tileChecks s x m.fovr d [a] true ⟨sameShape d [a], true, .ok ()⟩)
      (fun c i => c.rowBad a i d.vcols)
      (fun c i => runCols d.vcols (fun c j => c.putVal d i j
        (moveCode a d (mode m) (satChoice m.satm d.sat) (c.rawElem a i j))) c)

/-- TCVT (R205): always decodes and encodes; SFMT as the source's format. -/
def execTcvt (x : Args) (m : TMod) (s : State) : Out :=
  let ins : Instr := .tcvt x m
  issue plainForm x s fun x s =>
    let sfmt := m.aux.toNat
    let a := s.core.viewAs x.a (if sfmt ≤ 9 then sfmt else 0)
    let d := destView s.core x m.fovr
    rowResumable ins x (rowUse 1 false d [a]) [a] d s
      (tileChecks s x m.fovr d [a] true ⟨sameShape d [a], decide (sfmt ≤ 9) && noRaw [a, d], .ok ()⟩)
      (fun c i => c.rowBad a i d.vcols)
      (fun c i => runCols d.vcols (fun c j => c.putVal d i j (d.encode m (c.elem a i j))) c)

/-- The code TFILL and TINS store: a RAW destination takes the low byte (R206). -/
def fillCode (d : View) (m : TMod) (o : Operand) (w : Word) : Nat × Bool :=
  if d.code = 0 then (w.toNat % 256, false) else d.encode m (broadcast d.fmt.isFloat o w)

/-- TFILL (R206). -/
def execTfill (x : Args) (m : TMod) (s : State) : Out :=
  let ins : Instr := .tfill x m
  issue plainForm x s fun x s =>
    let d := destView s.core x m.fovr
    let v := fillCode d m x.a (s.core.value x.a)
    rowResumable ins x (rowUse 1 false d []) [] d s (tileChecks s x m.fovr d [] true ⟨true, true, .ok ()⟩) (fun _ _ => none)
      (fun c i => runCols d.vcols (fun c j => c.putVal d i j v) c)

/-- The index n of TIOTA. -/
def iotaIndex (aux cols i j : Nat) : Nat :=
  match aux with
  | 0 => i * cols + j
  | 1 => j
  | _ => i

/-- TIOTA (R206). -/
def execTiota (x : Args) (m : TMod) (s : State) : Out :=
  let ins : Instr := .tiota x m
  issue plainForm x s fun x s =>
    let d := destView s.core x m.fovr
    let a := (s.core.value x.a).toInt
    let b := (s.core.value x.b).toInt
    rowResumable ins x (rowUse 1 false d []) [] d s (tileChecks s x m.fovr d [] true ⟨true, noRaw [d], .ok ()⟩) (fun _ _ => none)
      (fun c i => runCols d.vcols (fun c j => c.putVal d i j
        (d.encode m (Val.ofInt (a + b * (iotaIndex m.aux.toNat d.cols i j : Int))))) c)

/-! ## Elementwise arithmetic (R207) -/

/-- TADD. -/
def execTadd (x : Args) (m : TMod) (s : State) : Out := elementwise (.tadd x m) x m s fun _ a b _ => a.add (mode m) b
/-- TSUB. -/
def execTsub (x : Args) (m : TMod) (s : State) : Out := elementwise (.tsub x m) x m s fun _ a b _ => a.add (mode m) b.neg
/-- TMUL. -/
def execTmul (x : Args) (m : TMod) (s : State) : Out := elementwise (.tmul x m) x m s fun _ a b _ => a.mul b
/-- TFMA: fused, D read before the write. -/
def execTfma (x : Args) (m : TMod) (s : State) : Out :=
  elementwise (.tfma x m) x m s (fun _ a b z => (a.mul b).add (mode m) z) (third := true)
/-- TDIV. -/
def execTdiv (x : Args) (m : TMod) (s : State) : Out := elementwise (.tdiv x m) x m s (fun _ a b _ => a.div b) (k := 4)
/-- TMIN. -/
def execTmin (x : Args) (m : TMod) (s : State) : Out := selecting (.tmin x m) true x m s
/-- TMAX. -/
def execTmax (x : Args) (m : TMod) (s : State) : Out := selecting (.tmax x m) false x m s
/-- TABS. -/
def execTabs (x : Args) (m : TMod) (s : State) : Out := elementwise (.tabs x m) x m s fun _ a _ _ => a.abs

/-- min(max(x, lo), hi) with the bounds of b (R207). -/
def clampVal (b : Word) (v : Val) : Val :=
  (v.maximum (binary32.decode (b.toNat % 2 ^ 32))).minimum (binary32.decode (b.toNat / 2 ^ 32))

/-- TCLAMP. -/
def execTclamp (x : Args) (m : TMod) (s : State) : Out :=
  elementwise (.tclamp x m) x m s fun t a _ _ => clampVal (t.core.value x.b) a
/-- TRSQS. -/
def execTrsqs (x : Args) (m : TMod) (s : State) : Out := elementwise (.trsqs x m) x m s fun _ a _ _ => rsqrtSeed a
/-- TRCPS. -/
def execTrcps (x : Args) (m : TMod) (s : State) : Out := elementwise (.trcps x m) x m s fun _ a _ _ => rcpSeed a

/-- The operand a free choice depends on: its binary32 code. -/
def choiceKey (v : Val) : Nat := (binary32.encode .rz false v).1

/-- TEXP2 (spec/03 R63). -/
def execTexp2 (x : Args) (m : TMod) (s : State) : Out :=
  spend (elementwise (.texp2 x m) x m s (fun t a _ _ => binary32.decode (exp2Code t.free (choiceKey a) a)) (k := 2))
/-- TLOG2 (spec/03 R63). -/
def execTlog2 (x : Args) (m : TMod) (s : State) : Out :=
  spend (elementwise (.tlog2 x m) x m s (fun t a _ _ => binary32.decode (log2Code t.free (choiceKey a) a)) (k := 2))

/-! ## Bitwise operations (R208) -/

/-- A bitwise instruction on stored codes of width w. -/
def bitwise (ins : Instr) (x : Args) (m : TMod) (s : State) (count : Bool) (op : Nat → Nat → Nat → Nat) : Out :=
  issue plainForm x s fun x s =>
    let d := destView s.core x m.fovr
    let srcs := sourceViews s.core x
    let w := d.fmt.width
    let y := fun (c : Core) (i j : Nat) =>
      if x.b.isTsrc then c.rawElem (c.view x.b) i j
      else if count then (c.value x.b).toNat else (c.value x.b).toNat % 2 ^ w
    rowResumable ins x (rowUse 1 false d srcs) srcs d s
      (tileChecks s x m.fovr d srcs true ⟨sameShape d srcs, srcs.all fun v => v.fmt.width == w, .ok ()⟩)
      (fun c i => srcs.findSome? fun v => c.rowBad v i d.vcols)
      (fun c i => runCols d.vcols (fun c j =>
        c.putElem d i j (op w (c.rawElem (c.view x.a) i j) (y c i j) % 2 ^ w)) c)

/-- TAND. -/
def execTand (x : Args) (m : TMod) (s : State) : Out := bitwise (.tand x m) x m s false fun _ a b => a &&& b
/-- TOR. -/
def execTor (x : Args) (m : TMod) (s : State) : Out := bitwise (.tor x m) x m s false fun _ a b => a ||| b
/-- TXOR. -/
def execTxor (x : Args) (m : TMod) (s : State) : Out := bitwise (.txor x m) x m s false fun _ a b => a ^^^ b
/-- TNOT. -/
def execTnot (x : Args) (m : TMod) (s : State) : Out := bitwise (.tnot x m) x m s false fun w a _ => 2 ^ w - 1 - a
/-- TSHL: a count of w or more gives 0. -/
def execTshl (x : Args) (m : TMod) (s : State) : Out :=
  bitwise (.tshl x m) x m s true fun w a b => if w ≤ b then 0 else a * 2 ^ b

/-- A right shift of a w-bit code, filling with zeros or copies of the top bit. -/
def shiftRight (arith : Bool) (w a b : Nat) : Nat :=
  let fill := arith && a / 2 ^ (w - 1) % 2 == 1
  if w ≤ b then (if fill then 2 ^ w - 1 else 0)
  else a / 2 ^ b + (if fill then 2 ^ w - 2 ^ (w - b) else 0)

/-- TSHR. -/
def execTshr (x : Args) (m : TMod) (s : State) : Out := bitwise (.tshr x m) x m s true (shiftRight (m.aux.getLsbD 0))

/-! ## Compare, select, mask reductions (R209 to R211) -/

/-- An element read as an unsigned integer times 2^S (R209). -/
def unsignedVal (c : Core) (o : Operand) (i j : Nat) : Val :=
  if o.isTsrc then
    let v := c.view o
    let k := c.rawElem v i j
    (Val.fin false (if v.neg then negCode v.fmt k else k) 1 0).scale v.scale
  else .fin false (c.value o).toNat 1 0

/-- TCMP (R209). -/
def execTcmp (x : Args) (m : TMod) (s : State) : Out :=
  let ins : Instr := .tcmp x m
  issue plainForm x s fun x s =>
    let d := destView s.core x m.fovr
    let srcs := sourceViews s.core x
    let fl := floatMode d srcs
    let k := m.aux.toNat
    let last := demand (if fl then floatCondOk k else decide (k ≤ 9)) reservedField
    let read := fun (c : Core) (o : Operand) (i j : Nat) =>
      if !fl && decide (6 ≤ k) then unsignedVal c o i j else operandVal c fl o i j
    rowResumable ins x (rowUse 1 false d srcs) srcs d s
      (tileChecks s x m.fovr d srcs true ⟨sameShape d srcs, d.code == 9 && noRaw srcs, last⟩)
      (fun c i => srcs.findSome? fun v => c.rowBad v i d.vcols)
      (fun c i => runCols d.vcols (fun c j => c.putElem d i j
        (if ordCond k ((read c x.a i j).cmp (read c x.b i j)) then 1 else 0)) c)

/-- TSEL (R210). -/
def execTsel (x : Args) (m : TMod) (s : State) : Out :=
  let ins : Instr := .tsel x m
  issue plainForm x s fun x s =>
    let d := destView s.core x m.fovr
    let srcs := sourceViews s.core x
    let a := s.core.view x.a
    let b := s.core.view x.b
    let fl := floatMode d srcs
    rowResumable ins x (rowUse 1 true d srcs) srcs d s
      (tileChecks s x m.fovr d srcs true ⟨sameShape d srcs, a.code == 9 && noRaw (d :: srcs), .ok ()⟩)
      (fun c i => (d :: srcs).findSome? fun v => c.rowBad v i d.vcols)
      (fun c i => runCols d.vcols (fun c j =>
        if c.rawElem a i j = 1 then
          c.putVal d i j (if x.b.isTsrc then moveCode b d (mode m) (satChoice m.satm d.sat) (c.rawElem b i j)
            else d.encode m (broadcast fl x.b (c.value x.b)))
        else c) c)

/-- An element counts as nonzero: its value is not ±0; a RAW byte is not 0x00 (R211). -/
def nonzeroElem (c : Core) (v : View) (i j : Nat) : Bool :=
  if v.code = 0 then c.rawElem v i j != 0 else !(decodeVal v.fmt (c.rawElem v i j) v.scale).isZero

/-- Valid elements that are nonzero, and valid elements. -/
def countNonzero (c : Core) (v : View) : Nat × Nat :=
  (((List.range v.vrows).map fun i => ((List.range v.vcols).filter fun j => nonzeroElem c v i j).length).foldl (· + ·) 0,
    v.vrows * v.vcols)

/-- An instruction that examines a mask (R211). -/
def maskOp (ins : Instr) (x : Args) (s : State) (f : Nat × Nat → Word) : Out :=
  issue plainForm x s fun x s =>
    let a := s.core.view x.a
    let u := testUse a
    wholeTile ins x u [a] s
      (do s.core.streamCheck x none [a]
          demand a.shapeOk shapeCause
          demand (s.core.mirrorOk a) bankFmtCause
          s.core.queueClear [a]
          s.raceViews [(a, false)])
      (fun c => (c.deliverIn x.d u.lat).writeD x.d (f (countNonzero c a)))

/-- TANY. -/
def execTany (x : Args) (m : TMod) (s : State) : Out := maskOp (.tany x m) x s fun n => if n.1 = 0 then 0#64 else 1#64
/-- TALL. -/
def execTall (x : Args) (m : TMod) (s : State) : Out := maskOp (.tall x m) x s fun n => if n.1 = n.2 then 1#64 else 0#64
/-- TCNT. -/
def execTcnt (x : Args) (m : TMod) (s : State) : Out := maskOp (.tcnt x m) x s fun n => BitVec.ofNat 64 n.1

/-! ## Reductions (R212, spec/03 R65) -/

/-- The stored integer of an element, NEG applied. -/
def storedInt (c : Core) (v : View) (i j : Nat) : Int :=
  let k := c.rawElem v i j
  codeInt v.fmt (if v.neg then negCode v.fmt k else k)

/-- The reduction of R65 over element values in order; `sq` for TNRM2. -/
def sumFloat (sq : Bool) (vs : List Val) : Val :=
  match vs.map fun v => if sq then v.mul v else v with
  | [] => .zero
  | v :: rest => rest.foldl (fun acc v => rne56 (acc.add .rne v)) (rne56 v)

/-- The same over stored integers, clamped at each step, and whether a step was clamped (spec/03 R59). -/
def sumInt (sq : Bool) (ks : List Int) : Int × Bool :=
  ks.foldl (fun (acc : Int × Bool) k =>
    let r := clamp56 (acc.1 + if sq then k * k else k)
    (r.1, acc.2 || r.2)) (0, false)

/-- A sum over elements (i,j) of a view, encoded for D; a clamp on the way sets SATS too (R65, R212, spec/02 R39). -/
def reduceSum (sq : Bool) (m : TMod) (c : Core) (d v : View) (cells : List (Nat × Nat)) : Nat × Bool :=
  if v.fmt.isFloat then d.encode m (sumFloat sq (cells.map fun p => c.elem v p.1 p.2))
  else
    let r := sumInt sq (cells.map fun p => storedInt c v p.1 p.2)
    let e := d.encode m ((Val.ofInt r.1).scale (if sq then 2 * v.scale else v.scale))
    (e.1, e.2 || r.2)

/-- The largest under R55, moved under R38; no element gives D's zero. -/
def reduceMax (m : TMod) (c : Core) (d v : View) (cells : List (Nat × Nat)) : Nat × Bool :=
  match cells with
  | [] => (0, false)
  | p :: rest =>
    let best := rest.foldl (fun (b : Nat × Nat) q =>
      if Val.second false (c.elem v b.1 b.2) (c.elem v q.1 q.2) then q else b) p
    if c.elem v best.1 best.2 = .nan then d.encode m .nan
    else moveCode v d (mode m) (satChoice m.satm d.sat) (c.rawElem v best.1 best.2)

def rowCells (v : View) (i : Nat) : List (Nat × Nat) :=
  if i < v.vrows then (List.range v.vcols).map fun j => (i, j) else []
def colCells (v : View) (j : Nat) : List (Nat × Nat) :=
  if j < v.vcols then (List.range v.vrows).map fun i => (i, j) else []

/-- A reduction of each row into column 0 (R212). -/
def rowReduce (ins : Instr) (x : Args) (m : TMod) (s : State) (f : Core → View → View → List (Nat × Nat) → Nat × Bool) : Out :=
  issue plainForm x s fun x s =>
    let d := destView s.core x m.fovr
    let a := s.core.view x.a
    rowResumable ins x (reduceUse d a d.rows (recCols d.shape)) [a] d s
      (tileChecks s x m.fovr d [a] true ⟨d.rows == a.rows, noRaw [a, d], .ok ()⟩)
      (fun c i => c.rowBad a i a.vcols)
      (fun c i => if 0 < d.vcols then c.putVal d i 0 (f c d a (rowCells a i)) else c)

/-- A reduction of each column into row 0 (R212). -/
def colReduce (ins : Instr) (x : Args) (m : TMod) (s : State) (f : Core → View → View → List (Nat × Nat) → Nat × Bool) : Out :=
  issue plainForm x s fun x s =>
    let d := destView s.core x m.fovr
    let a := s.core.view x.a
    wholeTile ins x (reduceUse d a d.cols 1) [a] s
      (tileChecks s x m.fovr d [a] false ⟨d.cols == a.cols, noRaw [a, d], .ok ()⟩)
      (fun c => putCells d (fun i j => if i = 0 then some (f c d a (colCells a j)) else none) c)

/-- TRSUM. -/
def execTrsum (x : Args) (m : TMod) (s : State) : Out := rowReduce (.trsum x m) x m s (reduceSum false m)
/-- TNRM2. -/
def execTnrm2 (x : Args) (m : TMod) (s : State) : Out := rowReduce (.tnrm2 x m) x m s (reduceSum true m)
/-- TRMAX. -/
def execTrmax (x : Args) (m : TMod) (s : State) : Out := rowReduce (.trmax x m) x m s (reduceMax m)
/-- TCSUM. -/
def execTcsum (x : Args) (m : TMod) (s : State) : Out := colReduce (.tcsum x m) x m s (reduceSum false m)
/-- TCMAX. -/
def execTcmax (x : Args) (m : TMod) (s : State) : Out := colReduce (.tcmax x m) x m s (reduceMax m)

/-! ## Rearrangement (R213 to R217) -/

/-- A whole-tile move: D(i,j) from element `pick b i j` of A, b the member's own scalar operand, zero where it names none
(R38). -/
def rearrange (ins : Instr) (x : Args) (m : TMod) (s : State) (shape : View → View → Nat → Bool)
    (pick : Nat → Nat → Nat → Option (Nat × Nat)) : Out :=
  issue plainForm x s fun x s =>
    let (a, d) := movePair (s.core.view x.a) (destView s.core x m.fovr)
    let b := (s.core.value x.b).toNat
    wholeTile ins x (wholeUse d [a]) [a] s (tileChecks s x m.fovr d [a] false ⟨shape d a b, true, .ok ()⟩)
      (fun c => putCells d (fun i j =>
        some (moveCode a d (mode m) (satChoice m.satm d.sat) (match pick b i j with
          | some p => c.rawElem a p.1 p.2
          | none => 0))) c)

/-- TTRN (R213). -/
def execTtrn (x : Args) (m : TMod) (s : State) : Out :=
  rearrange (.ttrn x m) x m s (fun d a _ => d.rows == a.cols && d.cols == a.rows) fun _ i j => some (j, i)

/-- A signed 8-bit shift of TSHF. -/
def shiftField (b : Word) (hi lo : Nat) : Int := signed (bits b hi lo) 8

/-- The source index of TSHF on one axis: none outside; under `.wrap` modulo the valid count. -/
def shiftIndex (wrap : Bool) (i : Nat) (k : Int) (n : Nat) : Option Nat :=
  let t := (i : Int) - k
  if wrap then (if n = 0 then none else some (t % n).toNat)
  else if 0 ≤ t ∧ t < n then some t.toNat else none

/-- TSHF (R214). -/
def execTshf (x : Args) (m : TMod) (s : State) : Out :=
  let ins : Instr := .tshf x m
  issue plainForm x s fun x s =>
    let (a, d) := movePair (s.core.view x.a) (destView s.core x m.fovr)
    let b := s.core.value x.b
    let dy := shiftField b 15 8
    let dx := shiftField b 7 0
    let ok := decide (-64 ≤ dy ∧ dy ≤ 64 ∧ -64 ≤ dx ∧ dx ≤ 64)
    let wrap := m.aux.getLsbD 0
    wholeTile ins x (wholeUse d [a]) [a] s (tileChecks s x m.fovr d [a] false ⟨sameShape d [a] && ok, true, .ok ()⟩)
      (fun c => putCells d (fun i j =>
        some (moveCode a d (mode m) (satChoice m.satm d.sat)
          (match shiftIndex wrap i dy a.vrows, shiftIndex wrap j dx a.vcols with
            | some p, some q => c.rawElem a p q
            | _, _ => 0))) c)

/-- TBCR (R215). -/
def execTbcr (x : Args) (m : TMod) (s : State) : Out :=
  rearrange (.tbcr x m) x m s (fun d a r => d.cols == a.cols && decide (r < a.rows)) fun r _ j => some (r, j)

/-- TBCC (R215): row-resumable. -/
def execTbcc (x : Args) (m : TMod) (s : State) : Out :=
  let ins : Instr := .tbcc x m
  issue plainForm x s fun x s =>
    let (a, d) := movePair (s.core.view x.a) (destView s.core x m.fovr)
    let k := (s.core.value x.b).toNat
    rowResumable ins x (rowUse 1 false d [a]) [a] d s
      (tileChecks s x m.fovr d [a] true ⟨d.rows == a.rows && decide (k < a.cols), true, .ok ()⟩)
      (fun c i => c.elemBad a i k)
      (fun c i =>
        let v := moveCode a d (mode m) (satChoice m.satm d.sat) (c.rawElem a i k)
        runCols d.vcols (fun c j => c.putVal d i j v) c)

/-- I8 or I32 (R216). -/
def indexFmt (v : View) : Bool := v.code == 5 || v.code == 6

/-- Element k of A in row-major order, none outside. -/
def flatIndex (rows cols : Nat) (k : Int) : Option (Nat × Nat) :=
  if 0 ≤ k ∧ k < rows * cols then some (k.toNat / cols, k.toNat % cols) else none

/-- A move by an index tile B (R216). -/
def indexed (ins : Instr) (x : Args) (m : TMod) (s : State) (shape : View → View → View → Bool)
    (pick : Core → View → View → Nat → Nat → Option (Nat × Nat)) : Out :=
  issue plainForm x s fun x s =>
    let (a, d) := movePair (s.core.view x.a) (destView s.core x m.fovr)
    let b := s.core.view x.b
    wholeTile ins x (wholeUse d [a, b]) [a, b] s (tileChecks s x m.fovr d [a, b] false ⟨shape d a b, indexFmt b, .ok ()⟩)
      (fun c => putCells d (fun i j =>
        some (moveCode a d (mode m) (satChoice m.satm d.sat) (match pick c a b i j with
          | some p => c.rawElem a p.1 p.2
          | none => 0))) c)

/-- TGATH (R216). -/
def execTgath (x : Args) (m : TMod) (s : State) : Out :=
  indexed (.tgath x m) x m s (fun d _ b => sameShape d [b]) fun c a b i j => flatIndex a.rows a.cols (storedInt c b i j)

/-- TROWP (R216). -/
def execTrowp (x : Args) (m : TMod) (s : State) : Out :=
  indexed (.trowp x m) x m s (fun d a b => b.rows == d.rows && d.cols == a.cols) fun c a b i j =>
    let k := storedInt c b i 0
    if 0 ≤ k ∧ k < a.vrows then some (k.toNat, j) else none

/-- TSCAT (R217). -/
def execTscat (x : Args) (m : TMod) (s : State) : Out :=
  let ins : Instr := .tscat x m
  issue plainForm x s fun x s =>
    let (a, d) := movePair (s.core.view x.a) (destView s.core x m.fovr)
    let b := s.core.view x.b
    wholeTile ins x (wholeUse d [a, b]) [a, b] s (tileChecks s x m.fovr d [a, b] false ⟨sameShape a [b], indexFmt b, .ok ()⟩)
      (fun c =>
        let cells := (List.range (min a.vrows b.vrows)).flatMap fun i =>
          (List.range (min a.vcols b.vcols)).filterMap fun j =>
            match flatIndex d.rows d.cols (storedInt c b i j) with
            | some p => if d.valid p.1 p.2 then some (p, c.rawElem a i j) else none
            | none => none
        cells.foldl (fun c p => c.putVal d p.1.1 p.1.2 (moveCode a d (mode m) (satChoice m.satm d.sat) p.2)) c)

/-! ## Single elements (R218, R219) -/

/-- The element b names: row bits 15..8, column bits 7..0; none where SHAPE is raised. -/
def namedElem (v : View) (b : Word) : Option (Nat × Nat) :=
  if bits b 63 16 = 0 ∧ bits b 15 8 < v.rows ∧ bits b 7 0 < v.cols then some (bits b 15 8, bits b 7 0) else none

/-- The beat that accesses one element. -/
def View.elemTouch (v : View) (cycle : Nat) (p : Nat × Nat) : Touch :=
  { cycle := cycle, shape := v.shape, code := v.located, trn := v.trn, alt := v.alt, first := p.1 * v.cols + p.2, count := 1
    step := 1 }

/-- The value TEXT delivers. -/
def extractVal (m : TMod) (v : View) (x : Val) : Word :=
  if v.fmt.isFloat then toF32 (mode m) x else f32ToInt (mode m) false x

/-- TEXT delivers its scalar after 6 cycles (R194). -/
def elemForm : Form := { plainForm with lat := 6 }

/-- TEXT (R218). -/
def execText (x : Args) (m : TMod) (s : State) : Out :=
  let ins : Instr := .text x m
  issue elemForm x s fun x s =>
    let a := s.core.view x.a
    let raw := m.aux.getLsbD 0
    let p := (namedElem a (s.core.value x.b)).getD (0, 0)
    let served := (s.core.unserved x [Beats.lines a 0 1]).isEmpty
    let line := [a.elemTouch (s.core.now + 5) p]
    match (do
      s.core.streamCheck x none [a]
      demand (a.shapeOk && (namedElem a (s.core.value x.b)).isSome) shapeCause
      demand (s.core.mirrorOk a && (raw || a.code != 0)) bankFmtCause
      s.core.queueClear [a]
      (← s.raceViews [(a, false)]).lineAccess a.extents 5 false 0 served : Chk State) with
    | .error e => tileFail s [a] e
    | .ok t => match t.core.elemBad a p.1 p.2 with
      | some e => .trap (causeFrom eccCause (BitVec.ofNat 64 e)) (t.modC fun c => c.setTprog 0)
      | none =>
        let c := if t.core.timed.active then
            (t.core.reuse x).startWork ins t.free (if served then line else []) (if served then [] else line) [] x.d 6
          else t.core.reuse x
        .done (tileDone [a] t (c.writeD x.d (if raw then BitVec.ofNat 64 (t.core.rawElem a p.1 p.2) else extractVal m a (t.core.elem a p.1 p.2))))

/-- TINS (R219). -/
def execTins (x : Args) (m : TMod) (s : State) : Out :=
  let ins : Instr := .tins x m
  issue plainForm x s fun x s =>
    let d := destView s.core x m.fovr
    let raw := m.aux.getLsbD 0
    let p := namedElem d (s.core.value x.b)
    match (do (← tileChecks s x m.fovr d [] false ⟨p.isSome, raw || d.code != 0, .ok ()⟩).lineAccess d.extents 5 true 6 :
        Chk State) with
    | .error e => tileFail s [] e
    | .ok t => .done (tileDone [] t (match p with
        | some (i, j) =>
          if t.core.timed.active then t.core.startWork ins t.free [] [] [d.elemTouch (t.core.now + 5) (i, j)] x.d 6
          else if d.valid i j then
            t.core.putVal d i j (if raw then ((t.core.value x.a).toNat % 2 ^ d.fmt.width, false)
              else fillCode d m x.a (t.core.value x.a))
          else t.core
        | none => t.core))

/-! ## TSTEN (R220) and stencil tables (spec/06 R130) -/

/-- A table of 128 bytes, none where GTAB refuses it. -/
def parseTable (bs : List Byte) : Option Stencil :=
  let h := ofBytes (bs.take 8)
  let count := h % 32
  let dim3 := decide (h / 32 % 2 = 1)
  let entries := (List.range count).map fun n => ofBytes ((bs.drop (8 + 4 * n)).take 4)
  let off := fun (w lo : Nat) => signed (w / 2 ^ lo) 3
  let entryOk := fun (w : Nat) =>
    w % 16 == 0 && ([4, 7, 10].all fun lo => decide (-2 ≤ off w lo ∧ off w lo ≤ 2))
      && (dim3 || (off w 10 == 0 && w / 2 ^ 15 % 2 == 0))
  if h / 4096 = 0 ∧ h / 64 % 4 = 0 ∧ 1 ≤ count ∧ count ≤ 27 ∧ entries.all entryOk then
    some { shift := h / 256 % 16, dim3 := dim3, entries := entries.map fun w =>
      { num := signed (w / 65536) 16, par := w / 2 ^ 13 % 8, dz := off w 10, dy := off w 7, dx := off w 4 } }
  else none

/-- n bytes from an address that are read at issue. -/
def bytesTouch (a n : Nat) : Touch :=
  let e := bytesExtent a n
  { cycle := 0, shape := setBits (setBits e.shape 59 53 (recRows e.shape)) 66 60 (recCols e.shape), code := 0, trn := false
    alt := false, first := 0, count := n, step := 1 }

/-- w × x of an entry, exact. -/
def weigh (shift : Nat) (e : StencilEntry) (x : Val) : Val :=
  (Val.fin (decide (e.num < 0)) e.num.natAbs 1 (-(shift : Int))).mul x

/-- The sum of R66 in table order; none for no entry. -/
def stencilSum (shift : Nat) (terms : List (StencilEntry × Val)) : Option Val :=
  match terms with
  | [] => none
  | (e, x) :: rest => some (rest.foldl (fun acc p => rne56 (acc.add .rne (weigh shift p.1 p.2))) (rne56 (weigh shift e x)))

/-- TSTEN (R220). -/
def execTsten (x : Args) (m : TMod) (s : State) : Out :=
  let ins : Instr := .tsten x m
  issue plainForm x s fun x s =>
    let d := destView s.core x m.fovr
    let a := s.core.view x.a
    let h := m.aux.toNat
    let b := (s.core.value x.b).toNat
    let table := (parseTable (s.core.lsBytes b 128)).filter fun t => !t.dim3 && t.entries.all fun e => e.par == 0
    let last : Chk Unit := do
      demandAt (b % 128 == 0) alignCause (s.core.value x.b)
      demandAt (decide (b < 0x200000)) protCause (s.core.value x.b)
      match s.core.lsBadAt b 128 with
      | some a => stopAt eccCause (BitVec.ofNat 64 a)
      | none => demand table.isSome reservedField
    wholeTile ins x (stencilUse d a ((table.map fun t => t.entries.length).getD 1)) [a] s
      (do
        let t ← tileChecks s x m.fovr d [a] false
          ⟨decide (d.rows + 2 * h ≤ a.rows ∧ d.cols + 2 * h ≤ a.cols), noRaw [a, d], last⟩
        let u ← (← t.raceLocal (b / 64) false (s.core.value x.b)).raceLocal (b / 64 + 1) false (BitVec.ofNat 64 (b + 64))
        u.lineAccess [bytesExtent b 128] 0 false 0)
      (fun c => putCells d (fun i j =>
        let t := table.getD ⟨0, false, []⟩
        let at' := fun (e : StencilEntry) =>
          let p := (i : Int) + h + e.dy
          let q := (j : Int) + h + e.dx
          if 0 ≤ p ∧ 0 ≤ q then c.elem a p.toNat q.toNat
          else if a.neg then negVal a.fmt a.scale 0 else decodeVal a.fmt 0 a.scale
        some (d.encode m ((stencilSum t.shift (t.entries.map fun e => (e, at' e))).getD .zero))) c)
      [bytesTouch b 128]

/-! ## TQUANT (R221) -/

def quantMax (code : Nat) : Option Nat :=
  match code with
  | 3 => some 4096
  | 4 => some 16
  | 5 => some 127
  | 2 => some 65504
  | _ => none

/-- The largest finite |x| over the valid elements; zero for none. -/
def largestMag (c : Core) (v : View) : Val :=
  ((List.range v.vrows).flatMap fun i => (List.range v.vcols).map fun j => c.elem v i j).foldl
    (fun m x => if x.isFinite && m.below x.abs then x.abs else m) .zero

/-- The scale of step 2: the smallest S with m × 2^−S ≤ MAXV, within −128 to 127. -/
def quantScale (m : Val) (maxv : Nat) : Int :=
  if m.isZero then 0
  else (((List.range 256).map fun (k : Nat) => (k : Int) - 128).find? fun s =>
    (m.scale (-s)).cmp (Val.ofInt maxv) != some .gt).getD 127

/-- TQUANT (R221). -/
def execTquant (x : Args) (m : TMod) (s : State) : Out :=
  let ins : Instr := .tquant x m
  issue plainForm x s fun x s =>
    let d := destView s.core x 0#4
    let a := s.core.view x.a
    let last : Chk Unit := do
      s.core.bankReady (recBank d.shape)
      if recMv d.shape then s.core.bankReady (recMbank d.shape) else pure ()
    wholeTile ins x (wholeUse d [a]) [a] s
      (tileChecks s x 0#4 d [a] false ⟨sameShape d [a], (quantMax d.code).isSome && noRaw [a], last⟩)
      (fun c =>
        let k := quantScale (largestMag c a) ((quantMax d.code).getD 1)
        let put := fun (c : Core) (b : Nat) => c.setBank b (setBits (c.bank b) 7 0 (wrapInt 8 k).toNat)
        let e : View := { d with scale := k }
        let c1 := put c (recBank d.shape)
        let c2 := if recMv d.shape then put c1 (recMbank d.shape) else c1
        let cells := (List.range d.vrows).flatMap fun i => (List.range d.vcols).map fun j =>
          (i, j, moveCode a e (mode m) (satChoice m.satm d.sat) (c.rawElem a i j))
        cells.foldl (fun c p => c.putVal e p.1 p.2.1 p.2.2) c2)

end Sys2Proof.Machine
end

