-- ==== Sys2Proof/Machine/Matrix.lean ====
section
/-!
DEFINITION. Operand memory and the matrix unit (spec/12 R222 to R238, spec/02 R41 to R43, spec/03 R64).
-/

namespace Sys2Proof.Machine

/-! ## The matrix queue (R223) -/

/-- The commands a join waits for are complete (spec/14 R266). -/
def Core.needDone (c : Core) (n : Need) : Bool :=
  n.all fun (q, id) =>
    if q < 4 then decide (id < (c.sys.xdone[q]?.getD 0#64).toNat)
    else if q < 8 then decide (id < (c.sys.gdone[q - 4]?.getD 0#64).toNat)
    else decide (id ≤ c.mqDone)

/-- Room for an operation; a full queue interlocks, or raises TIMING with condition 2. -/
def Core.matrixRoom (c : Core) : Chk Unit :=
  if c.timed.active then
    (if (c.mq.filter fun e => !e.over c.now).length < 16 then .ok () else .error (.timing 2))
  else demandWait (decide (c.mq.length < 16)) .interlock


def MatrixOp.reads (o : MatrixOp) (n : Nat) : Bool :=
  match o with
  | .mma _ a b _ => a == n || b == n
  | _ => false

def MatrixOp.loadsSlot (o : MatrixOp) (n : Nat) : Bool :=
  match o with
  | .load k _ _ _ _ => k == n
  | _ => false

def MatrixOp.frees (o : MatrixOp) (n : Nat) : Bool :=
  match o with
  | .release k => k == n
  | _ => false

/-- The slot that an operation writes or frees. -/
def MatrixOp.changes (o : MatrixOp) : Option Nat :=
  match o with
  | .load n _ _ _ _ => some n
  | .release n => some n
  | _ => none

/-- The slots that an operation reads. -/
def MatrixOp.sources (o : MatrixOp) : List Nat :=
  match o with
  | .mma _ a b _ => [a, b]
  | .unload n _ => [n]
  | _ => []

/-- An operation enters the queue behind the joins in force. In a timed phase it is performed `lat` cycles after issue, one on a
slot that a queued one changes not before that; it reads its slots for `slots` cycles, and accesses a bank on `beats` cycles
from `off` cycles after issue (spec/08 R155, R156). `got`: lines that a reuse buffer holds. -/
def Core.enqueue (c : Core) (o : MatrixOp) (lat slots off beats : Nat) (got : List (Nat × List Byte) := []) : Core :=
  let before := (c.mq.filter fun e => o.changes.isSome && e.op.changes == o.changes).foldl (fun n e => max n e.due) 0
  let t := c.timed.active
  let e : MatrixEntry :=
    { op := o, need := c.joins.get 8, hm := c.handler, due := if t then max before (c.now + lat) else 0
      free := if t then c.now + slots else 0, first := if t then c.now + off else 0, beats := if t then beats else 0, beat := 0
      got := if t then got else [], held := if t then o.sources.filterMap fun n => c.slots[n]? else [] }
  { c with mq := c.mq ++ [e], mqIssued := c.mqIssued + 1 }

/-- Loads of a slot queued after its last OREL. -/
def queuedLoads (q : List MatrixEntry) (n : Nat) : Nat :=
  q.foldl (fun k e => if e.op.frees n then 0 else if e.op.loadsSlot n then k + 1 else k) 0

/-- In a timed phase a slot that an earlier MMA still has to read raises condition 6 (R231). -/
def Core.slotIdle (c : Core) (n : Nat) : Chk Unit :=
  if c.timed.active && c.mq.any fun e => e.op.reads n && (e.due == 0 || decide (c.now < e.free)) then .error (.timing 6)
  else .ok ()

/-- A slot that is read before its load has reached its latency is condition 1 (R231). -/
def Core.slotReady (c : Core) (n : Nat) : Chk Unit :=
  if c.timed.active && c.earlySlot n then .error (.timing 1) else .ok ()

/-! ## Packing (R43, R224) -/

/-- Codes packed row-major with element stride 1. -/
def packCodes (f : Fmt) (cs : List Nat) : List Byte :=
  match f with
  | .t6 => (List.range (cs.length / 4)).flatMap fun k =>
      toBytes 3 (((cs.drop (4 * k)).take 4).foldr (fun c acc => c + 64 * acc) 0)
  | f => cs.flatMap fun c => toBytes f.bytes c

/-- Code of packed element e. -/
def packedCode (f : Fmt) (bs : List Byte) (e : Nat) : Nat :=
  match f with
  | .t6 => ofBytes ((bs.drop (3 * (e / 4))).take 3) / 2 ^ (6 * (e % 4)) % 64
  | f => ofBytes ((bs.drop (f.bytes * e)).take f.bytes)

/-- BYTES of a load. -/
def packedSize (f : Fmt) (n : Nat) : Nat :=
  match f with
  | .t6 => n * 3 / 4
  | f => n * f.bytes

def operandFmt (f : Fmt) : Bool := f == .fp16 || f == .t8 || f == .t6 || f == .i8

/-! ## Slot instructions -/

/-- OCLAIM: takes effect at issue (R223). -/
def execOclaim (x : Args) (s : State) : Out :=
  notOnMemoryCore plainForm x s fun x s => finish s do
    let n := slotOf x.d
    let v := s.core.slotAt n
    demand (v.issue == .free) slotCause
    let perf := if v.perf = .free then .claimed else v.perf
    pure (s.modC fun c => c.setSlot n { v with issue := .claimed, perf := perf })

/-- OREL enters the queue. -/
def execOrel (x : Args) (s : State) : Out :=
  notOnMemoryCore plainForm x s fun x s => finish s do
    let n := slotOf x.d
    let v := s.core.slotAt n
    demand (v.issue != .free) slotCause
    s.core.slotIdle n.toNat
    s.core.matrixRoom
    pure (s.modC fun c => (c.setSlot n { v with issue := .free, record := none }).enqueue (.release n.toNat) 1 1 0 0)

/-- Bank lines from the first to the last byte of a tile's full extent (R222): the first, and how many. -/
def View.lines (v : View) : Nat × Nat :=
  let lo := extentLo v.fmt v.shape v.alt / 256
  (lo, extentHi v.fmt v.shape v.alt / 256 + 1 - lo)

/-- OLOAD reads a line of its source each cycle, and delivers the slot on a fixed one (R222, spec/08 R156). -/
def Core.loadTimes (c : Core) (x : Args) (n : Nat) (a : View) (lat : Nat) : Chk Core :=
  if !c.timed.active then .ok c
  else if a.extents.any (c.earlyBytes c.now) then .error (.timing 1)
  else
    let b := (c.board.prune c.now).takeReads c.now (c.unserved x [Beats.lines a 0 a.lines.2])
    c.accept (b.produce c.now (.slot n) (c.now + lat))

/-- The view of a load's source. -/
def loadView (r : SlotRecord) (src : Shape) (alt : Bool) : View :=
  { reg := 0#5, shape := src, fmt := fmtOf r.fmt.toNat, code := r.fmt.toNat, scale := 0, sat := false, neg := false, trn := false
    alt := alt }

/-- The packed bytes of a load's source. -/
def Core.sourceBytes (c : Core) (r : SlotRecord) (src : Shape) (alt : Bool) : List Byte :=
  let v := loadView r src alt
  packCodes v.fmt ((List.range r.rows).flatMap fun i => (List.range r.cols).map fun j => c.rawElem v i j)

/-- What a load reads now, or the address of an uncorrectable error in one of its lines. -/
def Core.readSource (c : Core) (r : SlotRecord) (src : Shape) (alt : Bool) : Except Nat (List Byte) :=
  let v := loadView r src alt
  match c.lsBadAt (256 * v.lines.1) (256 * v.lines.2) with
  | some a => .error a
  | none => .ok (c.sourceBytes r src alt)

/-- Bytes of a slot as the issue view records them. -/
def Slot.bytes (v : Slot) : Nat := match v.record with
  | some r => r.bytes
  | none => 0

/-- The write port and the bytes of an unload. -/
def Core.unloadTimes (c : Core) (e : Extent) (lines : Nat) : Chk Core :=
  if !c.timed.active || lines == 0 then .ok c
  else c.accept (((c.board.prune c.now).take ⟨recBank e.shape, true, c.now + 2, lines, 1⟩).produce c.now (.tile e)
    (c.now + lines + 3))

/-- OLOAD, unload form (R225). In a timed phase line b is written 2 + b cycles after issue. -/
def execOloadUnload (x : Args) (s : State) : Out :=
  notOnMemoryCore plainForm x s fun x s => finish s do
    let n := slotOf x.a
    let slot := s.core.slotAt n
    let base := recBase (s.core.tileOf x.d)
    let hi := base + slot.bytes - 1
    demand (s.core.stream (regOf x.d)).isNone streamCause
    demand (base % 256 == 0 && (slot.bytes == 0 || hi / 0x20000 == base / 0x20000)) shapeCause
    demand (!s.core.wideBank base) bankFmtCause
    demand (slot.issue == .loading || slot.issue == .ready) slotCause
    s.core.matrixRoom
    s.core.slotReady n.toNat
    let t ← (List.range ((slot.bytes + 63) / 64)).foldlM (fun (s : State) (k : Nat) =>
      s.raceLocal (base / 64 + k) true (BitVec.ofNat 64 (base + 64 * k))) s
    let lines := ceilDiv slot.bytes 256
    let e := bytesExtent base slot.bytes
    let c ← t.core.unloadTimes e lines
    pure { t with core := c.enqueue (.unload n.toNat base) (lines + 3) (lines + 3) 2 lines }

/-- STATE of OINFO: the performed state; the operation at the head of the queue, and every timed one, is being performed. -/
def Core.slotState (c : Core) (n : Nat) (v : Slot) : Nat :=
  match c.mq with
  | e :: rest => if e.op.loadsSlot n || rest.any (fun e => e.due != 0 && e.op.loadsSlot n) then 2 else code v.perf
  | [] => code v.perf
where
  code (p : SlotState) : Nat := match p with
    | .free => 0
    | .claimed => 1
    | .loading => 2
    | .ready => 3

/-- OINFO (R226). -/
def execOinfo (x : Args) (s : State) : Out :=
  notOnMemoryCore plainForm x s fun x s =>
    let n := slotOf x.a
    let v := s.core.slotAt n
    let r := match v.record with
      | some r => r.fmt.toNat * 2 ^ 48 + r.scale.toNat * 2 ^ 40 + r.vrows * 2 ^ 33 + r.vcols * 2 ^ 26 + (r.cols - 1) * 2 ^ 20
          + (r.rows - 1) * 2 ^ 14 + r.bytes
      | none => 0
    .done (s.modC fun c => c.writeD x.d (BitVec.ofNat 64 (c.slotState n.toNat v * 2 ^ 62 + r)))

/-! ## MMA (R228, R229) -/

/-- Rows and columns of a slot's operand under transposition. -/
def operandDims (r : SlotRecord) (t : Bool) : Nat × Nat := if t then (r.cols, r.rows) else (r.rows, r.cols)

/-- Integer mode: both slots recorded I8. -/
def intMode (a b : SlotRecord) : Bool := a.fmt == 5#4 && b.fmt == 5#4

/-- The accumulator of an MMA: no stream mode, element stride 1, no ALT (R41). -/
def accShapeOk (v : View) : Bool := v.shapeOk && recEstr v.shape == 1 && !v.alt

/-- Array cycles of an MMA for a contraction length: 1 ÷ kstep per index, the slower slot's (spec/08 R155). -/
def arrayCycles (a b : SlotRecord) (k : Nat) : Nat :=
  let halves := fun (r : SlotRecord) => match fmtOf r.fmt.toNat with
    | .t6 => 1
    | .fp16 => 8
    | _ => 2
  ceilDiv (k * max (halves a) (halves b)) 2

/-- The update beats over every row of C (R231): row, and bank line. -/
def updateLines (d : View) : List (Nat × Nat) :=
  (List.range (recRows d.shape)).flatMap fun i =>
    let first := elemFirst d.fmt (recBase d.shape) (elemIndex d.shape d.alt i 0) / 256
    let last := elemLast d.fmt (recBase d.shape) (elemIndex d.shape d.alt i (recCols d.shape - 1)) / 256
    (List.range (last + 1 - first)).map fun k => (i, first + k)

def updateBeats (d : View) : Nat := (updateLines d).length

/-- M of spec/08 R155. -/
def mmaCycles (d : View) (a b : SlotRecord) (m : MmaMod) : Nat := max (arrayCycles a b (operandDims a m.ta).2) (updateBeats d)

/-- An MMA takes the array for M cycles, holds both ports of C's bank for its U update beats, and delivers C after M + 16
(spec/08 R156, R231): condition 2 where the array is busy, 1 where C is not yet delivered at the first beat. -/
def Core.mmaTimes (c : Core) (d : View) (cycles beats : Nat) : Chk Core :=
  if !c.timed.active then .ok c
  else if c.now < c.board.array then .error (.timing 2)
  else
    let first := c.now + 16 + cycles - beats
    let b0 := { c.board.prune c.now with array := c.now + cycles }
    let b1 := if d.extents.any (c.earlyBytes first) then b0.condition first 1 else b0
    let u : PortUse := ⟨recBank d.shape, false, first, beats, 1⟩
    let b2 := (b1.take u).takeWrite d.shape { u with write := true }
    c.accept (d.extents.foldl (fun (b : Board) x => b.produce c.now (.tile x) (c.now + cycles + 16)) b2)

/-- MMA. -/
def execMma (x : Args) (m : MmaMod) (s : State) : Out :=
  notOnMemoryCore plainForm x s fun x s =>
    let d := s.core.view x.d
    let na := slotOf x.a
    let nb := slotOf x.b
    let a := s.core.slotAt na
    let b := s.core.slotAt nb
    let dims := match a.record, b.record with
      | some p, some q =>
        let (rows, k) := operandDims p m.ta
        let (k', cols) := operandDims q m.tb
        k' == k && d.rows == rows && d.cols == cols
      | _, _ => true
    let fmt := match a.record, b.record with
      | some p, some q => if intMode p q then d.fmt == .ai56 else d.fmt == .af56
      | _, _ => d.fmt == .ai56 || d.fmt == .af56
    let cycles := match a.record, b.record with
      | some p, some q => mmaCycles d p q m
      | _, _ => 1
    finish s do
      demand (s.core.stream d.reg).isNone streamCause
      demand (accShapeOk d && dims) shapeCause
      demand (fmt && s.core.mirrorOk d) bankFmtCause
      demand ((a.issue == .loading || a.issue == .ready) && (b.issue == .loading || b.issue == .ready)) slotCause
      s.core.matrixRoom
      s.core.slotReady na.toNat
      s.core.slotReady nb.toNat
      let t ← s.raceViews [(d, true)]
      let c ← t.core.mmaTimes d cycles (updateBeats d)
      pure { t with core := c.enqueue (.mma d.shape na.toNat nb.toNat m) (cycles + 16) cycles (16 + cycles - updateBeats d) (updateBeats d) }

/-- elem(X, r, c, intmode) of R229. -/
def slotElem (r : SlotRecord) (bs : List Byte) (int neg : Bool) (i j : Nat) : Val :=
  let v := if r.vrows ≤ i ∨ r.vcols ≤ j then Val.zero
    else decodeVal (fmtOf r.fmt.toNat) (packedCode (fmtOf r.fmt.toNat) bs (i * r.cols + j)) (if int then 0 else signed r.scale.toNat 8)
  if neg then v.neg else v

/-- The exact sum of a chunk's products (spec/03 R64). -/
def chunkSum (ps : List Val) : Val :=
  match ps with
  | [] => .zero
  | p :: rest => rest.foldl (fun acc q => acc.add .rne q) p

/-- One output element: the chunk loop of R64, on values held in C's format. -/
def chunkLoop (int : Bool) (ad sat : Bool) (chunks : List (List Val)) (c : Val) : Nat × Bool :=
  let f : Fmt := if int then .ai56 else .af56
  let step := fun (acc : (Nat × Bool) × Val) (p : List Val × Nat) =>
    let sum := chunkSum p.1
    let x := if ad && p.2 == 0 then sum else acc.2.add .rne sum
    let r := encodeVal f x 0 .rne sat
    ((r.1, acc.1.2 || r.2), decodeVal f r.1 0)
  ((chunks.zip (List.range chunks.length)).foldl step (((encodeVal f c 0 .rne false).1, false), c)).1

/-- The accumulator of an MMA as its bank has it. -/
def Core.accView (c : Core) (shape : Shape) : View :=
  let b := c.bank (recBank shape)
  { reg := 0#5, shape := shape, fmt := fmtOf (fmtCode b), code := fmtCode b, scale := 0, sat := fmtSat b, neg := false, trn := false
    alt := false }

/-- The chunks of products of element (i,j). -/
def mmaChunks (p q : Slot) (rp rq : SlotRecord) (m : MmaMod) (i j : Nat) : List (List Val) :=
  let int := intMode rp rq
  let n := (operandDims rp m.ta).2
  let a := fun (k : Nat) => if m.ta then slotElem rp p.data int m.na k i else slotElem rp p.data int m.na i k
  let b := fun (k : Nat) => if m.tb then slotElem rq q.data int m.nb j k else slotElem rq q.data int m.nb k j
  (List.range (ceilDiv n 8)).map fun c => (List.range (min 8 (n - 8 * c))).map fun o => (a (8 * c + o)).mul (b (8 * c + o))

/-- One update beat: the valid elements of a row that lie in a bank line, as C stands now; a line with an uncorrectable error is
left as stored, and named (R64, R232). -/
def Core.mmaBeat (c : Core) (shape : Shape) (p q : Slot) (m : MmaMod) (beat : Nat × Nat) : Core × Option Nat :=
  let d := c.accView shape
  let cols := (List.range d.vcols).filter fun j =>
    decide (beat.1 < d.vrows) && elemByte d.fmt (recBase shape) (d.index beat.1 j) / 256 == beat.2
  match p.precord, q.precord with
  | some rp, some rq =>
    let int := intMode rp rq
    if cols.isEmpty then (c, none)
    else if (c.lsBadAt (256 * beat.2) 256).isSome then (c, some (256 * beat.2))
    else
      let vals := cols.map fun j => (j, chunkLoop int m.ad (int || d.sat) (mmaChunks p q rp rq m beat.1 j) (c.elem d beat.1 j))
      (vals.foldl (fun (c : Core) e => c.putVal d beat.1 e.1 e.2) c, none)
  | _, _ => (c, none)

/-- MMA performed, beat by beat; the lines that are left are named. -/
def Core.performMma (c : Core) (shape : Shape) (na nb : Nat) (m : MmaMod) : Core × List Nat :=
  let p := c.slots[na]?.getD Slot.reset
  let q := c.slots[nb]?.getD Slot.reset
  let r := (updateLines (c.accView shape)).foldl (fun (acc : Core × List Nat) beat =>
    let u := acc.1.mmaBeat shape p q m beat
    (u.1, acc.2 ++ u.2.toList)) (c, [])
  (r.1, r.2.eraseDups)

/-! ## Performing the queue (R223, R227, R230, R232) -/

/-- A deferred ECC_UNCORR. -/
def Core.deferEcc (c : Core) (hm : Bool) (a : Nat) : Core :=
  { c with deferred := c.deferred ++ [⟨eccCause, BitVec.ofNat 64 a, noCore, hm⟩] }

/-- A slot as it issues after some queued operations. -/
def Slot.issueAfter (v : Slot) (q : List MatrixEntry) (n : Nat) : Slot :=
  q.foldl (fun (v : Slot) (e : MatrixEntry) => match e.op with
    | .load k r _ _ _ => if k = n then { v with issue := .loading, record := some r } else v
    | .release k => if k = n then { v with issue := .free, record := none } else v
    | _ => v) { v with issue := v.perf, record := v.precord }

/-- The failing load of R227, behind k operations that go on. -/
def Core.failLoad (c : Core) (k : Nat) (hm : Bool) (n a : Nat) : Core :=
  let left := c.mq.take k
  let slots := Vector.ofFn fun (i : Fin 16) =>
    let v := c.slots.get i
    let w := v.issueAfter left i.val
    if i.val = n then { w with perf := .claimed, precord := none, issue := .claimed, record := none } else w
  { c with slots := slots, mq := left, mqDone := if left.isEmpty then c.mqIssued else c.mqDone
           mqIssued := if left.isEmpty then c.mqIssued else c.mqDone + k }.deferEcc hm a

/-- The bytes of a local store with lines that have been read before. -/
def Core.withRead (c : Core) (got : List (Nat × List Byte)) : Core :=
  { c with ls := got.foldl (fun (m : Mem) p => Mem.putBytes m p.1 p.2) c.ls }

/-- The operation at a place of the queue is performed; the bank accesses of a timed one are made by its beats. -/
def Core.performAt (c : Core) (k : Nat) : Core :=
  match c.mq[k]? with
  | none => c
  | some e =>
    let rest := c.mq.drop (k + 1)
    let timed := e.due != 0
    let c := { c with mq := c.mq.eraseIdx k, mqDone := c.mqDone + 1 }
    match e.op with
    | .load n r src alt data =>
      if h : n < 16 then
        let v := c.slots[n]'h
        let last := v.issue == .loading && !rest.any fun e => e.op.loadsSlot n || e.op.frees n
        let read := if timed then some ((c.withRead e.got).sourceBytes r src alt) else data
        let w : Slot :=
          { v with perf := .ready, precord := some r, data := read.getD v.data, issue := if last then .ready else v.issue }
        { c with slots := c.slots.set n w h }
      else c
    | .unload n base =>
      (match c.slots[n]? with
        | some v => if timed then c else c.putLs base (v.data.take ((v.precord.map (·.bytes)).getD 0))
        | none => c)
    | .release n =>
      if h : n < 16 then
        let v := c.slots[n]'h
        let held := v.issue != .free || rest.any fun e => e.op.frees n
        { c with slots := c.slots.set n { v with perf := if held then .claimed else .free, precord := none } h }
      else c
    | .mma shape a b m =>
      if timed then c
      else
        let (c, lines) := c.performMma shape a b m
        lines.foldl (fun (c : Core) line => c.deferEcc e.hm line) c

/-- The first n operations are performed. -/
def Core.performMany (n : Nat) (c : Core) : Core :=
  match n with
  | 0 => c
  | k + 1 => Core.performMany k (c.performAt 0)

/-- The load at a place of the queue begins: it reads its source, or stops the queue there, what stands before it being
performed first (R227, log entry 80). -/
def Core.beginLoad (c : Core) (k : Nat) : Core :=
  match c.mq[k]? with
  | some e => match e.op with
    | .load n r src alt none =>
      (match c.readSource r src alt with
        | .ok bs => { c with mq := c.mq.set k { e with op := .load n r src alt (some bs) } }
        | .error a => (c.performMany k).failLoad 0 e.hm n a)
    | _ => c
  | none => c

/-- The first load of a free phase that its join has let begin and that has not read its source. -/
def Core.waitingLoad (c : Core) : Option Nat :=
  (List.range c.mq.length).find? fun k => match c.mq[k]? with
    | some e => e.due == 0 && c.needDone e.need && (match e.op with
      | .load _ _ _ _ none => true
      | _ => false)
    | none => false

/-- The queue may move: a load behind a cleared join begins, or the head is performed, one of a free phase. -/
def Core.matrixReady (c : Core) : Bool :=
  c.waitingLoad.isSome || (match c.mq with
    | e :: _ => e.due == 0 && c.needDone e.need
    | [] => false)

/-- The queue's next move in a free phase. -/
def Core.matrixMove (c : Core) : Core :=
  match c.waitingLoad with
  | some k => c.beginLoad k
  | none => c.performAt 0

/-- The cycle of a timed operation's next access or end, and its order there. -/
def MatrixEntry.time (e : MatrixEntry) : Nat × Nat := if e.beat < e.beats then (e.first + e.beat, 2) else (e.due, 1)

/-- The timed operation of the queue that acts next, with its place. -/
def Core.matrixNext (c : Core) : Option (Nat × MatrixEntry) :=
  (((List.range c.mq.length).zip c.mq).filter fun p => p.2.due != 0 && c.needDone p.2.need).foldl
    (fun (b : Option (Nat × MatrixEntry)) p => match b with
      | none => some p
      | some q => if p.2.time.1 < q.2.time.1 ∨ (p.2.time.1 = q.2.time.1 ∧ p.2.time.2 < q.2.time.2) then some p else some q) none

/-- An access of a timed phase that must correct a word in one of the lines it reads: condition 3 in the region, a delay
otherwise (spec/08 R161). -/
def State.correcting (s : State) (a n : Nat) (go : State → State) : State :=
  if s.core.weakAt a n then
    let t := s.modC fun c => c.correct a n
    if s.core.timed.active then t.rollback 3 else go t
  else go s

/-- One access of a timed operation: a load reads line b, an unload writes it, an MMA updates it (R156). -/
def State.matrixBeat (s : State) (k : Nat) (e : MatrixEntry) : State :=
  let next := { e with beat := e.beat + 1 }
  let put := fun (c : Core) (e : MatrixEntry) => { c with mq := c.mq.set k e }
  match e.op with
  | .load n r src alt _ =>
    let a := 256 * ((loadView r src alt).lines.1 + e.beat)
    s.correcting a 256 fun t => t.modC fun c => match c.lsBadAt a 256 with
      | some b => c.failLoad k e.hm n b
      | none => put c { next with got := e.got ++ [(a, Mem.getBytes c.ls a 256)] }
  | .unload _ base =>
    let v := e.held[0]?.getD Slot.reset
    let bytes := ((v.data.take ((v.precord.map (·.bytes)).getD 0)).drop (256 * e.beat)).take 256
    s.modC fun c => (put c next).putLs (base + 256 * e.beat) bytes
  | .mma shape _ _ m =>
    match (updateLines (s.core.accView shape))[e.beat]? with
    | none => s.modC fun c => put c next
    | some line => s.correcting (256 * line.2) 256 fun t => t.modC fun c =>
        let u := c.mmaBeat shape (e.held[0]?.getD Slot.reset) (e.held[1]?.getD Slot.reset) m line
        match u.2 with
        | some a =>
          let new := !e.got.any fun g => g.1 == a
          let c := put u.1 { next with got := if new then e.got ++ [(a, [])] else e.got }
          if new then c.deferEcc e.hm a else c
        | none => put u.1 next
  | .release _ => s.modC fun c => put c next

/-- MATRIX_QUEUE_PERFORM: the next move of a free phase, or the next access or end of a timed operation on its cycle. -/
def execMatrixQueuePerform (s : State) : Out :=
  .next (if s.core.matrixReady then s.modC Core.matrixMove
    else match s.core.matrixNext with
      | some (k, e) =>
        let t := s.reachCycle e.time.1
        if e.beat < e.beats then t.matrixBeat k e else t.modC fun c => c.performAt k
      | none => s)

/-- OLOAD, load form (R224): source and record are taken at issue; behind a join the source is read when the load may begin
(spec/14 R266, log entry 80). -/
def execOload (x : Args) (s : State) : Out :=
  notOnMemoryCore plainForm x s fun x s =>
    let n := slotOf x.d
    let a := s.core.view x.a
    let slot := s.core.slotAt n
    let size := packedSize a.fmt (a.rows * a.cols)
    let lat := if a.lines.2 ≤ 12 then 16 else a.lines.2 + 4
    let rec' : SlotRecord := { fmt := BitVec.ofNat 4 a.code, scale := wrapInt 8 a.scale, rows := a.rows, cols := a.cols,
                               vrows := a.vrows, vcols := a.vcols, bytes := size }
    match (do
      s.core.streamCheck x none [a]
      demand (a.shapeOk && (!operandFmt a.fmt || decide (size ≤ 4096))) shapeCause
      demand (operandFmt a.fmt && s.core.mirrorOk a) bankFmtCause
      demand (!(slot.issue == .free || (slot.issue == .loading && decide (2 ≤ queuedLoads s.core.mq n.toNat)))) slotCause
      s.core.slotIdle n.toNat
      s.core.matrixRoom
      demandWait ((s.core.stream a.reg).isNone || s.core.needDone (s.core.joins.get 8)) .interlock
      s.core.queueClear [a]
      let t ← s.raceViews [(a, false)]
      pure { t with core := ← t.core.loadTimes x n.toNat a lat } : Chk State) with
    | .error e => tileFail s [a] e
    | .ok t =>
      let op := MatrixOp.load n.toNat rec' a.shape a.alt none
      let served := (t.core.unserved x [Beats.lines a 0 a.lines.2]).isEmpty
      let got := (List.range a.lines.2).map fun b => (256 * (a.lines.1 + b), Mem.getBytes t.core.ls (256 * (a.lines.1 + b)) 256)
      let c := (((t.core.setSlot n { slot with issue := .loading, record := some rec' }).enqueue op lat lat 0
        (if served then 0 else a.lines.2) (if served then got else [])).reuse x)
      let began := match c.waitingLoad with
        | some k => c.beginLoad k
        | none => c
      .done { t with core := began.consume [a] }

/-! ## Accumulator tiles (R234 to R238) -/

def accFmt (v : View) : Bool := v.fmt == .af56 || v.fmt == .ai56

/-- The accumulator operand's own shape rule. -/
def accPlain (v : View) : Bool := recEstr v.shape == 1 && !v.alt

/-- AZERO (R235). -/
def execAzero (x : Args) (s : State) : Out :=
  let ins : Instr := .azero x
  notOnMemoryCore plainForm x s fun x s =>
    let d := s.core.view x.d
    rowResumable ins x (rowUse 1 false d []) [] d s (tileChecks s x 0#4 d [] true ⟨accPlain d, accFmt d, .ok ()⟩) (fun _ _ => none)
      (fun c i => runCols d.vcols (fun c j => c.putElem d i j 0) c)

/-- RM and SATM as a tile instruction holds them. -/
def accTmod (m : AccMod) : TMod := ⟨m.rm, 0#4, m.satm, 0#4⟩

/-- ACVT (R236). -/
def execAcvt (x : Args) (m : AccMod) (s : State) : Out :=
  let ins : Instr := .acvt x m
  notOnMemoryCore plainForm x s fun x s =>
    let d := s.core.view x.d
    let a := s.core.view x.a
    let k := (s.core.value x.b).toInt
    rowResumable ins x (rowUse 1 false d [a]) [a] d s
      (tileChecks s x 0#4 d [a] true
        ⟨sameShape d [a] && accPlain a, accFmt a && noRaw [d], demand (decide (-128 ≤ k ∧ k ≤ 127)) reservedField⟩)
      (fun c i => c.rowBad a i d.vcols)
      (fun c i => runCols d.vcols (fun c j => c.putVal d i j (d.encode (accTmod m) ((c.elem a i j).scale k))) c)

/-- AADDT (R237). -/
def execAaddt (x : Args) (m : AccMod) (s : State) : Out :=
  let ins : Instr := .aaddt x m
  notOnMemoryCore plainForm x s fun x s =>
    let d := s.core.view x.d
    let a := s.core.view x.a
    let fmt := if d.fmt = .ai56 then a.fmt == .i8 || a.fmt == .i32 || a.fmt == .ai56 else noRaw [a]
    rowResumable ins x (rowUse 1 true d [a]) [a] d s
      (tileChecks s x 0#4 d [a] true ⟨sameShape d [a] && accPlain d, accFmt d && fmt, .ok ()⟩)
      (fun c i => [d, a].findSome? fun v => c.rowBad v i d.vcols)
      (fun c i => runCols d.vcols (fun c j => c.putVal d i j (d.encode (accTmod m)
        (if d.fmt = .ai56 then Val.ofInt (storedInt c d i j + storedInt c a i j)
         else (c.elem d i j).add (roundingOf m.rm) (c.elem a i j)))) c)

/-- z × a of an AF56 accumulator; an immediate 0 zeroes, with the sign of a negative z. -/
def scaledElem (z : Val) (o : Operand) (w : Word) : Val :=
  if o = .imm 0#15 then .fin (!(z.cmp .zero == some .gt || z.cmp .zero == some .eq)) 0 1 0 else z.mul (f32Value o w)

/-- ASCL (R238). -/
def execAscl (x : Args) (m : AccMod) (s : State) : Out :=
  let ins : Instr := .ascl x m
  notOnMemoryCore plainForm x s fun x s =>
    let d := s.core.view x.d
    let w := s.core.value x.a
    rowResumable ins x (rowUse 1 true d []) [] d s (tileChecks s x 0#4 d [] true ⟨accPlain d, accFmt d, .ok ()⟩)
      (fun c i => c.rowBad d i d.vcols)
      (fun c i => runCols d.vcols (fun c j => c.putVal d i j (d.encode (accTmod m)
        (if d.fmt = .ai56 then Val.ofInt (storedInt c d i j * w.toInt)
         else scaledElem (c.elem d i j) x.a w))) c)

end Sys2Proof.Machine
end

