-- ==== Sys2Proof/Machine/Chain.lean ====
section
/-!
DEFINITION. The Chain (spec/05 R111 to R116, spec/03 R67): COPEN, CINJ, CEXT, CCLOSE (spec/14 R277, R278), the loads and
stores of its queues (spec/05 R96), and the combination of a chunk at a node.
-/

namespace Sys2Proof.Machine

/-! ## The tree (spec/18 R324) -/

/-- The level-1 node of a core: the last one whose first core is not above it. -/
def leafNode (nodes : List ChainNode) (lcn : Nat) : Option Nat :=
  ((List.range nodes.length).filter fun i => match nodes[i]? with
    | some n => n.level == 1 && decide (n.first ≤ lcn)
    | none => false).getLast?

/-- The nodes and ports from a node upward. -/
def climb (nodes : List ChainNode) (fuel i port : Nat) : List (Nat × Nat) :=
  match fuel with
  | 0 => []
  | k + 1 => (i, port) :: (match nodes[i]? with
    | some n => if n.parent = 0xFFF then [] else climb nodes k n.parent n.port
    | none => [])

/-- The path of a member's contributions: its leaf node and port first. -/
def State.chainPath (s : State) (lcn : Nat) : List (Nat × Nat) :=
  match s.cores.find? fun c => c.lcn == lcn && !c.memc && c.field.isSome with
  | none => []
  | some c => match leafNode s.modState.chain lcn with
    | none => []
    | some i => climb s.modState.chain 16 i (c.num % 4)

/-- The root of a collective: the lowest node below which every member stands (spec/05 R105, R114). -/
def State.collRoot (s : State) (k : Coll) : Option Nat :=
  match k.members with
  | [] => none
  | m :: rest => (((s.chainPath m).map (·.1)).find? fun n => rest.all fun j => ((s.chainPath j).map (·.1)).contains n)

/-- The ports of a node below which a member stands. -/
def State.collPorts (s : State) (k : Coll) (node : Nat) : List Nat :=
  (List.range 4).filter fun p => k.members.any fun m => (s.chainPath m).contains (node, p)

/-! ## Elements -/

def collOp (d : Word) : Nat := bits d 10 8
def collFmt (d : Word) : Fmt := fmtOf (bits d 14 11)
def collN (d : Word) : Nat := bits d 33 18

/-- Stored bits of the elements of a chunk; AF56 and AI56 ignore the top byte (spec/14 R278). -/
def chunkCodes (f : Fmt) (bs : List Byte) : List Nat :=
  (List.range (64 / f.bytes)).map fun k => ofBytes ((bs.drop (k * f.bytes)).take f.bytes) % 2 ^ f.width

/-- The value a contribution travels as: AF56 or AI56 code, stored bits for logical operations, a count (R114). -/
def liftElem (d : Word) (c : Nat) : Word :=
  let f := collFmt d
  let v := decodeVal f c 0
  BitVec.ofNat 64 (match collOp d with
    | 3 => c
    | 4 => c
    | 5 => c
    | 6 => if v.isZero then 0 else 1
    | _ => if f.isFloat then (binaryAF56.encode .rne false v).1 else (wrapInt 56 (codeInt f c)).toNat)

/-- One step of a node in port order (spec/03 R67). -/
def combineElem (d : Word) (x y : Word) : Word :=
  let f := collFmt d
  let fx := binaryAF56.decode x.toNat
  let fy := binaryAF56.decode y.toNat
  let ix := signed x.toNat 56
  let iy := signed y.toNat 56
  let put := fun (v : Val) => BitVec.ofNat 64 (binaryAF56.encode .rne false v).1
  match collOp d with
  | 3 => x &&& y
  | 4 => x ||| y
  | 5 => x ^^^ y
  | 6 => x + y
  | 0 => if f.isFloat then put (fx.add .rne fy) else BitVec.ofNat 64 (wrapInt 56 (clamp56 (ix + iy)).1).toNat
  | 1 => if f.isFloat then put (fx.minimum fy) else (if iy < ix then y else x)
  | _ => if f.isFloat then put (fx.maximum fy) else (if ix < iy then y else x)

/-- The root's encode of an element, and its clamp (R114): each element is encoded, one that a minimum or maximum selected too, so
that the AI56 code of -2^55 clamps (log entry 101). -/
def rootElem (d : Word) (x : Word) : Nat × Bool :=
  let f := collFmt d
  match collOp d with
  | 3 => (x.toNat, false)
  | 4 => (x.toNat, false)
  | 5 => (x.toNat, false)
  | 6 => encodeVal f (Val.ofInt x.toNat) 0 .rne true
  | _ => encodeVal f (if f.isFloat then binaryAF56.decode x.toNat else Val.ofInt (signed x.toNat 56)) 0 .rne true

/-! ## Slots and the spill area (R111, R115; log entry 82) -/

/-- Base and chunks of a context's spill area; none without SPV (spec/21 R373, spec/22 R389). -/
def State.spillArea (s : State) (ctx : Nat) : Nat × Nat :=
  match s.fields.toList.find? fun f => f.valid && f.lead && f.ctx == ctx with
  | none => (0, 0)
  | some f =>
    let w := lookupD (s.chip f.anchor).cwin (bits f.w2 3 0) (0#64, 0#64)
    if f.w2.getLsbD 63 && w.2.getLsbD 63 then (w.1.toNat, 2 ^ bits w.2 49 44 / 64) else (0, 0)

/-- A node has a free slot (R111). -/
def State.slotFree (s : State) (node : Nat) : Bool :=
  decide (((s.colls.flatMap (·.parts)).filter fun p => p.node == node && p.spill.isNone).length < 64)

/-- The lowest free index of a context's spill area. -/
def State.spillFree (s : State) (ctx : Nat) : Option Nat :=
  let used := ((s.colls.filter fun k => k.ctx == ctx).flatMap (·.parts)).filterMap (·.spill)
  (List.range (s.spillArea ctx).2).find? fun j => !used.contains j

/-- A node accepts a chunk of a context. -/
def State.accepts (s : State) (ctx node : Nat) : Bool := s.slotFree node || (s.spillFree ctx).isSome

/-- A partial arrives at a node: in a slot, else in the spill area. The spec gives no layout of a spilled chunk. -/
def State.park (s : State) (i ctx : Nat) (p : Partial) : State :=
  let put := fun (s : State) (p : Partial) =>
    { s with colls := s.colls.modify i fun (k : Coll) => { k with parts := k.parts ++ [{ p with stamp := s.chainSeq }] }
             chainSeq := s.chainSeq + 1 }
  if s.slotFree p.node then put s { p with spill := none }
  else match s.spillFree ctx with
    | none => s
    | some j =>
      let image := (List.range 64).map (Config.freeByte s.free)
      let t : State := { s with cxlMem := Mem.putBytes s.cxlMem ((s.spillArea ctx).1 + 64 * j) image, free := s.free + 1 }
      put t { p with spill := some j }

/-- The spilled partial that arrived first, of those whose node has a free slot (R115). -/
def State.oldestSpilled (s : State) : Option Partial :=
  ((s.colls.flatMap (·.parts)).filter fun p => p.spill.isSome && s.slotFree p.node).foldl
    (fun (b : Option Partial) (p : Partial) => match b with
      | none => some p
      | some q => if p.stamp < q.stamp then some p else some q) none

/-- Spilled partials are fetched back in the order in which they arrived. -/
def State.fetchBack (s : State) (fuel : Nat) : State :=
  match fuel with
  | 0 => s
  | n + 1 => match s.oldestSpilled with
    | none => s
    | some p =>
      { s with colls := s.colls.map fun (k : Coll) => { k with
          parts := k.parts.map fun (q : Partial) => if q.stamp = p.stamp then { q with spill := none } else q } }.fetchBack n

/-- The collective that a core has open under an id. -/
def State.openOf (s : State) (c : Core) (id : Nat) : Option Nat :=
  s.colls.findIdx? fun k => k.ctx == c.ctx && k.id == id && k.opened.contains c.lcn && !k.closed.contains c.lcn

/-- CQIN of a core drains into its leaf node, in order, as far as the node accepts (R113, R115). -/
def State.drainCqin (s : State) (die num : Nat) (fuel : Nat) : State :=
  match fuel with
  | 0 => s
  | n + 1 => match s.cores.find? fun c => c.is die num with
    | none => s
    | some c => match c.cqin, (s.chainPath c.lcn).head? with
      | p :: rest, some (node, port) =>
        if s.accepts c.ctx node then
          let t := s.onCore die num fun k => { k with cqin := rest }
          (match s.openOf c p.id with
            | some i => t.park i c.ctx ⟨node, port, p.chunk, p.vals, none, 0⟩
            | none => t).drainCqin die num n
        else s
      | _, _ => s

/-- Spilled chunks take the slots that have become free, and every CQIN drains. -/
def State.settleChain (s : State) : State :=
  if s.colls.isEmpty then s
  else
    let spilled := ((s.colls.flatMap (·.parts)).filter fun p => p.spill.isSome).length
    ((s.cores.filter fun c => !c.cqin.isEmpty).map fun c => (c.die, c.num)).foldl
      (fun (t : State) (k : Nat × Nat) => t.drainCqin k.1 k.2 4) (s.fetchBack spilled)

/-! ## Combination (R114) -/

def combineAll (d : Word) (ps : List (List Word)) : List Word :=
  match ps with
  | [] => []
  | p :: rest => rest.foldl (fun acc q => (acc.zip q).map fun e => combineElem d e.1 e.2) p

/-- The partials of chunk n in the slots of a node, in port order; none where one is missing. -/
def State.partsAt (s : State) (k : Coll) (node chunk : Nat) : Option (List (List Word)) :=
  (s.collPorts k node).mapM fun p =>
    (k.parts.find? fun x => x.node == node && x.port == p && x.chunk == chunk && x.spill.isNone).map (·.vals)

/-- The node has the chunk at every present port, has combined the collective's earlier ones, and its parent accepts the partial
(R114, R115). -/
def State.combinable (s : State) (k : Coll) (node chunk : Nat) : Bool :=
  !k.aborted && !(k.parts.any fun x => x.node == node && decide (x.chunk < chunk)) && !(s.collPorts k node).isEmpty && (s.partsAt k node chunk).isSome
    && (s.collRoot k == some node || match s.modState.chain[node]? with
      | some n => s.accepts k.ctx n.parent
      | none => false)

/-- A node combines a chunk of a collective and forwards the partial; the root encodes it. -/
def State.combine (s : State) (i node chunk : Nat) : State :=
  match s.colls[i]? with
  | none => s
  | some k => match s.partsAt k node chunk with
    | none => s
    | some ps =>
      let vals := combineAll k.desc ps
      let parts := k.parts.filter fun x => !(x.node == node && x.chunk == chunk)
      if s.collRoot k = some node then
        let out := vals.map (rootElem k.desc)
        let f := collFmt k.desc
        let r : ChainResult := ⟨chunk, s.chainSeq, out.flatMap fun e => toBytes f.bytes e.1⟩
        let k' : Coll := { k with parts := parts, sat := k.sat || out.any (·.2), results := k.results ++ [r] }
        { s with colls := s.colls.set i k', chainSeq := s.chainSeq + 1 }
      else match s.modState.chain[node]? with
        | some n =>
          let t : State := { s with colls := s.colls.set i { k with parts := parts } }
          t.park i k.ctx ⟨n.parent, n.port, chunk, vals, none, 0⟩
        | none => s

/-- CHAIN_NODE_COMBINE: the oldest collective of the focused core's context with that id whose node has the chunk at every
port combines it. -/
def execChainNodeCombine (node id chunk : Nat) (s : State) : Out :=
  let t := s.settleChain
  match t.colls.findIdx? fun k => k.ctx == t.core.ctx && k.id == id && t.combinable k node chunk with
  | none => .next t
  | some i => .next (t.combine i node chunk).settleChain

/-! ## A core's open collectives -/

def Core.coll (c : Core) (id : Nat) : Option OpenColl := c.colls.find? fun k => k.id == id

def Core.setColl (c : Core) (v : OpenColl) : Core :=
  { c with colls := c.colls.map fun k => if k.id == v.id then v else k }

/-- CQIN of the focused core, after it has drained, holds fewer than four chunks (R113). -/
def State.cqinRoom (s : State) : Chk State :=
  let t := s.settleChain
  if 4 ≤ t.core.cqin.length then .error (.wait .interlock) else pure t

/-- The next chunk of a collective enters CQIN (R113). -/
def State.inject (s : State) (o : OpenColl) (bs : List Byte) : State :=
  let vals := (chunkCodes (collFmt o.desc) bs).map (liftElem o.desc)
  (s.modC fun c => { c.setColl { o with injected := o.injected + 1 } with
    cqin := c.cqin ++ [⟨o.id, o.injected, vals⟩] }).settleChain

/-- The open collective that an id names, with its state; PROT where none is open, COLLECTIVE_ABORT where it is aborted
(R116), for a store to CQIN and a load of CQOUT as for CINJ and CEXT (log entry 102). -/
def State.liveColl (s : State) (id : Nat) : Chk (OpenColl × Coll) :=
  match s.core.coll id, s.openOf s.core id with
  | some o, some i => match s.colls[i]? with
    | some k => if k.aborted then stop abortCause else .ok (o, k)
    | none => stop protCause
  | _, _ => stop protCause

/-- A store of 8 bytes to CQIN (R96, R113). R113 states nothing of a core without a collective: it interlocks (log entry
71). PROT comes at the first store of a chunk beyond the last (log entry 103). -/
def State.storeCqin (s : State) (v : Word) : Chk State :=
  match s.core.colls with
  | [] => .error (.wait .interlock)
  | o :: _ => do
    let (o, _) ← s.liveColl o.id
    demand (decide (o.injected < collN o.desc)) protCause
    let t ← s.cqinRoom
    let bs := o.forming ++ toBytes 8 v.toNat
    pure (if bs.length < 64 then t.modC fun c => c.setColl { o with forming := bs }
      else t.inject { o with forming := [] } bs)

def Coll.result (k : Coll) (n : Nat) : Option ChainResult := k.results.find? fun r => r.chunk == n

/-- The result chunk that reaches the focused core's CQOUT next: the one produced first among the next ones of its
collectives. -/
def State.nextDelivery (s : State) : Option OpenColl :=
  let waiting := s.core.colls.filterMap fun o => do
    let k ← s.colls[← s.openOf s.core o.id]?
    let r ← k.result o.delivered
    pure (r.stamp, o)
  (waiting.foldl (fun (m : Option (Nat × OpenColl)) (w : Nat × OpenColl) => match m with
    | some v => if w.1 < v.1 then some w else m
    | none => some w) none).map (·.2)

/-- Results waiting at the leaf node enter CQOUT, four chunks at most (R113, R116). -/
def State.fillCqout (s : State) (fuel : Nat) : State :=
  match fuel with
  | 0 => s
  | n + 1 =>
    if 4 ≤ (s.core.colls.map fun o => o.delivered - o.extracted).sum then s
    else match s.nextDelivery with
      | some o => (s.modC fun c => c.setColl { o with delivered := o.delivered + 1 }).fillCqout n
      | none => s

/-- The oldest chunk of a collective in CQOUT; interlocks where there is none (R113). -/
def State.oldestResult (s : State) (id : Nat) : Chk (State × OpenColl × List Byte) := do
  let t := s.fillCqout 4
  let (o, k) ← t.liveColl id
  match k.result o.extracted with
  | some r => if o.extracted < o.delivered then pure (t, o, r.bytes) else .error (.wait .interlock)
  | none => .error (.wait .interlock)

/-- A load from CQOUT (R96, spec/14 R278). -/
def State.loadCqout (s : State) : Chk (State × Word) :=
  match s.core.colls with
  | [] => .error (.wait .interlock)
  | o :: _ => do
    let (t, o, bs) ← s.oldestResult o.id
    let w := BitVec.ofNat 64 (ofBytes ((bs.drop (8 * o.popped)).take 8))
    let o' := if o.popped = 7 then { o with popped := 0, extracted := o.extracted + 1 } else { o with popped := o.popped + 1 }
    pure (t.modC fun c => c.setColl o', w)

/-! ## Instructions (spec/14 R277, R278) -/

/-- Members of a collective of the focused core: scope 3 its field, 4 its context (R112). -/
def State.collMembers (s : State) (scope : Nat) : List Nat :=
  (s.cores.filter fun k => !k.memc && k.field.isSome && k.ctx == s.core.ctx && (scope == 4 || k.field == s.core.field)).map
    (·.lcn)

/-- The descriptor fields COPEN accepts (R112). -/
def descOk (d : Word) : Bool :=
  bits d 63 34 == 0 && collN d != 0 && (bits d 17 15 == 3 || bits d 17 15 == 4) && [1, 2, 5, 6, 7, 8].contains (bits d 14 11)
    && collOp d != 7

/-- Descriptors of one id differ among members that two collectives share: both are aborted, and COLLECTIVE_ABORT is raised
at every other member but those waiting in its CCLOSE, which completes (R112, R116). -/
def State.mismatch (s : State) (i : Nat) (mine : List Nat) : State :=
  match s.colls[i]? with
  | none => s
  | some k =>
    let hit := fun (c : Core) => c.ctx == k.ctx && (k.members.contains c.lcn || mine.contains c.lcn)
    let t : State := { s with colls := s.colls.set i { k with aborted := true, parts := [] } }
    (t.mapCores fun c =>
      if hit c then
        let d := c.dropColl k.id
        if c.lcn == s.core.lcn || c.wait == .chain k.id then d else { d with abortRaise := true }
      else c).settleChain

/-- COPEN. A member that opens an id for the first time after its collective was aborted joins the aborted one, whatever its
descriptor, and finds it aborted (log entry 94). -/
def execCopen (x : Args) (s : State) : Out :=
  issue freeForm x s fun x s =>
    let d := s.core.value x.a
    let id := bits d 7 0
    let lcn := s.core.lcn
    let mine := s.collMembers (bits d 17 15)
    let opened : OpenColl :=
      { id := id, desc := d, injected := 0, extracted := 0, popped := 0, forming := [], delivered := 0 }
    let same := fun (k : Coll) => k.ctx == s.core.ctx && k.id == id
    let waits := fun (k : Coll) => same k && k.members.contains lcn && !k.opened.contains lcn
    let differs := fun (i : Nat) => (s.colls[i]?).any fun k => same k && !k.aborted && k.desc != d && !k.closed.contains lcn
      && k.members.any fun m => mine.contains m && !k.closed.contains m
    if !descOk d then .trap (cause reservedField) s
    else if 8 ≤ s.core.colls.length ∨ (s.core.coll id).isSome = true then .trap (cause protCause) s
    else match (List.range s.colls.length).filter differs, s.colls.findIdx? waits with
      | i :: more, _ => .trap (causeFrom abortCause 0#64) ((i :: more).foldl (fun (t : State) (j : Nat) => t.mismatch j mine) s)
      | [], some i =>
        let t : State := { s with colls := s.colls.modify i fun (k : Coll) => { k with opened := lcn :: k.opened } }
        .done (t.modC fun c => { c with colls := opened :: c.colls })
      | [], none =>
        let k : Coll := { ctx := s.core.ctx, id := id, desc := d, members := mine, opened := [lcn], closed := [], parts := []
                          results := [], sat := false, aborted := false }
        let t : State := { s with colls := s.colls ++ [k] }
        .done (t.modC fun c => { c with colls := opened :: c.colls })

/-- The LOCAL operand of CINJ and CEXT. -/
def chunkAddr (a : Word) : Chk Unit := do
  demandAt (a.toNat % 64 == 0) alignCause a
  demandAt (decide (a.toNat < 0x200000)) protCause a

/-- CINJ. -/
def execCinj (x : Args) (s : State) : Out :=
  issue freeForm x s fun x s =>
    let a := s.core.value x.a
    let id := s.core.value x.b
    finish s do
      chunkAddr a
      demand (decide (id.toNat < 256)) protCause
      let (o, _) ← s.liveColl id.toNat
      demand (decide (o.injected < collN o.desc)) protCause
      let t ← s.cqinRoom
      let (u, bs) ← t.readLocal a 64 true
      pure (u.inject o bs)

/-- CEXT. -/
def execCext (x : Args) (s : State) : Out :=
  issue freeForm x s fun x s =>
    let a := s.core.value x.a
    let id := s.core.value x.b
    finish s do
      chunkAddr a
      demand (decide (id.toNat < 256)) protCause
      let (o, _) ← s.liveColl id.toNat
      demand (o.popped == 0) protCause
      let wide := collFmt o.desc == .af56 || collFmt o.desc == .ai56
      demand (wide || !s.core.wideBank a.toNat) bankFmtCause
      let (t, o, bs) ← s.oldestResult id.toNat
      let u ← t.localAccess a 64 true true
      pure (u.modC fun c => (c.putLs a.toNat bs).setColl { o with extracted := o.extracted + 1 })

/-- CCLOSE: waits for the last result chunk or the abort. SAT is set whatever STATUS is (R100). -/
def execCclose (x : Args) (s : State) : Out :=
  issue freeForm x s fun x s =>
    let a := s.core.value x.a
    let lcn := s.core.lcn
    match s.core.coll a.toNat, s.openOf s.core a.toNat with
    | some o, some i => match s.colls[i]? with
      | none => .trap (cause protCause) s
      | some k =>
        let close := fun (w : Word) =>
          let t : State := { s with colls := (s.colls.modify i fun (k : Coll) => { k with closed := lcn :: k.closed }).filter fun k =>
            !(k.opened.all k.closed.contains && k.members.all k.opened.contains) }
          Res.done (t.modC fun c => { c with colls := c.colls.filter fun y => y.id != o.id }.push w)
        let sat := if k.sat then 256#64 else 0#64
        if k.aborted then close (3#64 ||| sat)
        else if o.injected < collN o.desc then .trap (cause protCause) s
        else if (k.result (collN o.desc - 1)).isSome then close sat
        else .wait (.chain o.id) s
    | _, _ => .trap (cause protCause) s

end Sys2Proof.Machine
end

