-- ==== Sys2Proof/Machine/Memory.lean ====
section
/-!
DEFINITION. Memory access, atomics and fences (spec/13 R239 to R254), and the steps of the places that perform a core's
accesses (spec/04 R70 to R81).
-/

namespace Sys2Proof.Machine

/-- Only LOCAL LD and ST without ordering issue in a timed phase (R241); LD delivers after 5 cycles (spec/08 R155). -/
def memForm (space : BitVec 3) (ord : BitVec 2) : Form :=
  { plainForm with phase := if space = 1#3 ∧ ord = 0#2 then .any else .free, lat := 5 }

def accessBytes (w : BitVec 2) : Nat := 2 ^ w.toNat

/-- Natural alignment (R240); EVENT accesses are 8 bytes wide (spec/05 R95). -/
def aligned (space : BitVec 3) (n : Nat) (a : Word) : Chk Unit :=
  demandAt (a.toNat % n == 0 && (space != 3#3 || n == 8)) alignCause a

def acquireIf (b : Bool) (s : State) : State := if b then s.acquire else s

/-- A destination whose NSEL entry is MESH 3 raises PROT at issue; a broken path is found later (spec/18 R309, R311). -/
def demandRoute (s : State) (dst : Nat) (a : Word) : Chk Unit :=
  demandAt (s.reach s.core.die dst a.toNat != some protCause) protCause a

/-! ## EVENT space (spec/05 R96) -/

/-- A load in EVENT space; one of a line's COUNT keeps the threshold its wait began with. Bit 3 of a Chain queue's address plays no part, and a mutex has no second word to load (log entry
72). -/
def State.eventLoad (s : State) (a : Word) : Chk (State × Word) :=
  match s.eventAddr a with
  | none => stopAt protCause a
  | some e =>
    let l := s.latch e.latch
    let word := fun (hi lo : Nat) => BitVec.ofNat 64 (hi * 2 ^ 32 + lo)
    if e.latch ≠ s.core.latch then stopAt protCause a
    else match e.cls, e.word with
      | 0, 0 =>
        (match s.core.wake with
          | some w => .ok (s.acquire, if bits w 7 0 = 1 then BitVec.allOnes 64 else w >>> 32)
          | none =>
            let v := l.line e.index
            let t := match s.core.wait with
              | .line _ t => t
              | _ => v.target
            if fired v t then .ok (s.acquire, v.count.zeroExtend 64) else .error (.wait (.line e.index t)))
      | 0, _ => .ok (s, (l.line e.index).target.zeroExtend 64)
      | 1, 0 => .ok (s, barWord (s.bar s.core (.object e.latch e.index)))
      | 2, 0 => .ok (s, mutexWord (l.mutex e.index))
      | 3, 0 => .ok (s, word (l.count e.index).expect.toNat (l.count e.index).arrived.toNat)
      | 3, _ => .ok (s, word 0 ((l.count e.index).line.toNat + if (l.count e.index).armed then 128 else 0))
      | 4, _ => if e.index = 1 then s.loadCqout else stopAt protCause a
      | _, _ => stopAt protCause a

/-- A store in EVENT space; bit 3 of a Chain queue's address plays no part (log entry 72). -/
def State.eventStore (s : State) (a v : Word) : Chk State :=
  match s.eventAddr a with
  | none => stopAt protCause a
  | some e =>
    let l := s.latch e.latch
    let own := e.latch = s.core.latch
    match e.cls, e.word with
    | 0, 0 => do
      demandWait s.core.settled .interlock
      if own then pure (s.addLine e.latch e.index (v.truncate 32))
      else
        demandRoute s (e.latch / 2) a
        s.retireStore { space := 3#3, addr := a, phys := 0, check := false, locked := false, sid := 0, kind := .add (v.truncate 32), hm := s.core.handler }
    | 0, _ =>
      if own then .ok (s.setLatch e.latch (l.setLine e.index { l.line e.index with target := v.truncate 32 }))
      else stopAt protCause a
    | 1, 1 =>
      let b := s.bar s.core (.object e.latch e.index)
      let fresh : Bar := { b with e := bits v 11 0, a := 0, drops := 0, joins := 0, timed := 0, span := 1#3, came := [] }
      if own ∧ b.a = 0 ∧ b.joins = 0 then .ok (s.setBar s.core (.object e.latch e.index) fresh)
      else stopAt protCause a
    | 4, _ => if own ∧ e.index = 0 then s.storeCqin v else stopAt protCause a
    | _, _ => stopAt protCause a

/-! ## Loads and stores -/

/-- Spaces whose loads the fabric may lose the response to. -/
def lossy (space : BitVec 3) : Bool := space != 1#3 && space != 3#3

/-- The word at a load's address, little-endian (R243). -/
def State.loadAt (s : State) (space : BitVec 3) (a : Word) (n : Nat) (sync : Bool) : Chk (State × Word) := do
  aligned space n a
  match space.toNat with
  | 0 => let (t, bs) ← s.readGlobal a n (!sync) false; pure (t, BitVec.ofNat 64 (ofBytes bs))
  | 1 => do
    let (t, bs) ← s.readLocal a n (!sync)
    pure (← t.lineAccess [bytesExtent a.toNat n] 0 false 0, BitVec.ofNat 64 (ofBytes bs))
  | 2 => let (t, bs) ← s.readPeer a n (!sync); pure (t, BitVec.ofNat 64 (ofBytes bs))
  | 3 => s.eventLoad a
  | 6 => let (t, bs) ← s.readBus false a n; pure (t, BitVec.ofNat 64 (ofBytes bs))
  | _ => let (t, bs) ← s.readBus true a n; pure (t, BitVec.ofNat 64 (ofBytes bs))

/-- A load into a register: the word goes through `f`, and an ordered load acquires. One whose response is lost is sent again;
a second loss is LINK (R243, log entry 68). In a timed phase the correction of a word is condition 3 (spec/08 R161). -/
def State.loadTo (s : State) (x : Args) (space : BitVec 3) (n : Nat) (sync : Bool) (f : Word → Word) : Res :=
  let a := s.core.value x.a + s.core.value x.b
  settleWith s do
    let (t, v) ← s.loadAt space a n sync
    pure (if space == 1#3 && s.core.timed.active && s.core.weakAt a.toNat n then .timing 3 (s.modC fun c => c.correct a.toNat n)
      else if s.lossLoad && lossy space then .trap (causeFrom linkCause a) { s with lossLoad := false }
      else .done (acquireIf sync (t.modC fun c => c.writeD x.d (f v))))

/-- A store of n bytes (R245). Whether its window is Locked is judged here, at issue (log entry 67). -/
def State.store (s : State) (m : StMod) (a v : Word) : Chk State := do
  let n := accessBytes m.w
  let sync := m.ord != 0#2
  aligned m.space n a
  demandWait (!sync || s.core.settled) .interlock
  let bs := toBytes n v.toNat
  let st : Store := { space := m.space, addr := a, phys := 0, check := !sync && !s.core.timed.active,
                      locked := s.holdsMutex s.core, sid := m.sid.toNat, kind := .bytes bs, hm := s.core.handler }
  match m.space.toNat with
  | 0 => do
    let (t, p, e) ← s.translate a ⟨false, true, false, true⟩
    t.retireStore { st with phys := p, check := st.check && e.getLsbD 4 }
  | 1 => do
    demandAt (decide (a.toNat < 0x200000)) protCause a
    demandAt (!s.core.wideBank a.toNat || n == 8) bankFmtCause a
    let t ← s.localAccess a n true (!sync)
    (t.modC fun c => c.storeLs a.toNat bs).lineAccess [bytesExtent a.toNat n] 0 true 1
  | 2 => match s.peer a with
    | none => stopAt protCause a
    | some tgt => do
      demandRoute s tgt.die a
      s.retireStore st
  | 3 => s.eventStore a v
  | 5 => match s.peer a with
    | none => stopAt protCause a
    | some tgt => do
      demandAt (decide (peerOff a < 0x30000)) protCause a
      demandRoute s tgt.die a
      s.retireStore { st with check := false }
  | k => do
    let die ← s.windowDie (k == 7) a false true true
    s.retireStore { st with check := false, phys := die }

/-- LD (R243). -/
def execLd (x : Args) (m : LdMod) (s : State) : Out :=
  issue (memForm m.space m.ord) x s fun x s =>
    let n := accessBytes m.w
    s.loadTo x m.space n (m.ord != 0#2) fun v => if m.sx then signExtendLen v (8 * n) else v

/-- LDP (R243). -/
def execLdp (x : Args) (m : LdMod) (s : State) : Out :=
  issue freeForm x s fun x s => s.loadTo x m.space (accessBytes m.w) (m.ord != 0#2) id

/-- ST (R245). -/
def execSt (x : Args) (m : StMod) (s : State) : Out :=
  issue { memForm m.space m.ord with reads := [x.d], lat := 0 } x s fun x s =>
    finish s (s.store m (s.core.value x.a + s.core.value x.b) (s.core.value x.d))

/-! ## Atomics (R246 to R250) -/

def isAcquire (ord : BitVec 2) : Bool := ord == 1#2 || ord == 3#2
def isRelease (ord : BitVec 2) : Bool := ord == 2#2 || ord == 3#2

/-- A member of the SC order completes at the first Tick edge after it is performed (spec/04 R81). -/
def State.untilTick (s : State) : Wait := .scTick (s.tick + 1)

/-- The number of the next atomic outside LOCAL space advances (R250). -/
def State.countAtomic (s : State) (space : BitVec 3) : State :=
  if space = 1#3 then s else s.modC fun c => { c with atomSeq := c.atomSeq + 1#8 }

/-- ALOST of a lost response (R250). -/
def lostWord (seq : BitVec 8) : Word := BitVec.ofNat 64 (2 ^ 63 + seq.toNat)

/-- The response to a performed atomic outside LOCAL space is lost (R250): ALOST names it, and the place that can echo it. -/
def Performed.lost (p : Performed) : State :=
  ({ p.state with lossNext := false }.modC fun c => { c with lostPlace := p.place }).modSys fun r =>
    { r with alost := lostWord p.state.core.atomSeq }

/-- An atomic: the operation, the compare value and the floating operand are functions of the core at issue. One that its
destination refuses has been issued and is numbered (R250). -/
def atomic (x : Args) (m : AtMod) (s : State) (op : AtomOp) (reads : List Operand) : Out :=
  issue { freeForm with reads := reads } x s fun x s =>
    let a := s.core.value x.a
    let n := accessBytes m.w
    let b := s.core.value x.b
    let c := (s.core.alternative x.d).toNat
    match s.core.wait with
    | .scTick e => .wait (.scTick e) s
    | _ =>
      match (do
        aligned m.space n a
        demandWait (!isRelease m.ord || s.core.settled) .interlock
        s.atomicAt m.space a n (m.ord != 0#2) fun old => atomicNew op n old b.toNat c (f32Value x.b b) : Chk Performed) with
      | .error (.exc e) => .trap e (if e.late then s.countAtomic m.space else s)
      | .error (.wait w) => .wait w s
      | .error (.timing k) => .timing k s
      | .ok p =>
        if s.lossNext && m.space != 1#3 then .trap (causeFrom atomicLostCause a) (p.lost.countAtomic m.space)
        else
          let u := acquireIf (isAcquire m.ord) ((p.state.countAtomic m.space).modC fun k => k.writeD x.d (BitVec.ofNat 64 p.old))
          if m.ord = 3#2 then .wait u.untilTick u else .done u

/-- AADD. -/
def execAadd (x : Args) (m : AtMod) (s : State) : Out := atomic x m s .add []
/-- AMIN, unsigned under `.u`. -/
def execAmin (x : Args) (m : AtMod) (s : State) : Out := atomic x m s (if m.u then .minu else .min) []
/-- AMAX. -/
def execAmax (x : Args) (m : AtMod) (s : State) : Out := atomic x m s (if m.u then .maxu else .max) []
/-- AAND. -/
def execAand (x : Args) (m : AtMod) (s : State) : Out := atomic x m s .and []
/-- AOR. -/
def execAor (x : Args) (m : AtMod) (s : State) : Out := atomic x m s .or []
/-- AXOR. -/
def execAxor (x : Args) (m : AtMod) (s : State) : Out := atomic x m s .xor []
/-- ASWP. -/
def execAswp (x : Args) (m : AtMod) (s : State) : Out := atomic x m s .swp []
/-- ACAS: the compare value is the destination's (R247). -/
def execAcas (x : Args) (m : AtMod) (s : State) : Out :=
  atomic x m s .cas [if x.d.isPush then .q 0#4 else x.d]
/-- AFADD (R248). -/
def execAfadd (x : Args) (m : AtMod) (s : State) : Out := atomic x m s .fadd []
/-- AFMIN. -/
def execAfmin (x : Args) (m : AtMod) (s : State) : Out := atomic x m s .fmin []
/-- AFMAX. -/
def execAfmax (x : Args) (m : AtMod) (s : State) : Out := atomic x m s .fmax []

/-! ## TRED (R251, R252) -/

def aopOf (aop : BitVec 4) : AtomOp :=
  match aop.toNat with
  | 0 => .add
  | 1 => .min
  | 2 => .max
  | 3 => .and
  | 4 => .or
  | 5 => .xor
  | 6 => .fadd
  | 7 => .fmin
  | _ => .fmax

/-- Format and AOP agree: I8 or I32 with 0 to 5, FP16 or FP32 with 6 to 8. -/
def tredFmtOk (v : View) (aop : BitVec 4) : Bool :=
  match v.fmt with
  | .i8 | .i32 => decide (aop.toNat ≤ 5)
  | .fp16 | .fp32 => decide (6 ≤ aop.toNat)
  | _ => false

/-- One element's atomic. -/
def tredElem (s : State) (m : TrMod) (v : View) (a p : Word) (i j : Nat) : Word × Chk Performed :=
  let n := v.fmt.bytes
  let ea := a + BitVec.ofNat 64 i * p + BitVec.ofNat 64 (j * n)
  let b := if v.fmt.isFloat then 0 else (wrapInt 32 (storedInt s.core v i j)).toNat
  (ea, s.atomicAt m.space ea n (m.ord != 0#2) fun old =>
    atomicNew (aopOf m.aop) n old b 0 (if v.fmt.isFloat then s.core.elem v i j else .zero))

/-- The core checks of a row, made before any of its elements is sent. -/
def tredRowCheck (s : State) (m : TrMod) (v : View) (a p : Word) (i : Nat) : Option Stop :=
  (List.range v.vcols).findSome? fun j => match (tredElem s m v a p i j).2 with
    | .error (.exc e) => if e.late then none else some (.exc e)
    | .error st => some st
    | .ok _ => none

/-- A cause kept with the core until TRED completes. -/
def State.keepCause (s : State) (e : Exc) : State :=
  s.modC fun c => { c with tredCause := c.tredCause.or (some ⟨e.code, e.eva, e.other, c.handler⟩) }

/-- A row's elements: the first cause a destination returns is kept, the others are performed. -/
def tredRow (m : TrMod) (v : View) (a p : Word) (i : Nat) (s : State) : State :=
  (List.range v.vcols).foldl (fun (s : State) (j : Nat) =>
    match (tredElem s m v a p i j).2 with
    | .ok q => q.state.countAtomic m.space
    | .error (.exc e) => (s.countAtomic m.space).keepCause e
    | .error _ => s) s

/-- n rows from row i; a stop with the row it comes before. -/
def tredRows (n i : Nat) (m : TrMod) (v : View) (a p : Word) (s : State) : State × Option (Nat × Stop) :=
  match n with
  | 0 => (s, none)
  | k + 1 =>
    match s.core.rowBad v i v.vcols with
    | some b => (s, some (i, .exc (causeFrom eccCause (BitVec.ofNat 64 b))))
    | none => match tredRowCheck s m v a p i with
      | some st => (s, some (i, st))
      | none => tredRows k (i + 1) m v a p (tredRow m v a p i s)

/-- TRED stops between rows: TPROG counts the rows sent, which stand (R252). -/
def tredStop (start i : Nat) (s : State) (st : Stop) : Res :=
  let t := s.modC fun c => c.setTprog i
  match st with
  | .exc e => .trap { e with late := e.late || decide (start < i) } t
  | .wait w => .wait w t
  | .timing k => .timing k t

/-- TRED has sent every row: it takes the first cause that a destination returned, with EPC behind it (R252). -/
def tredDone (m : TrMod) (v : View) (s : State) : Res :=
  let t := acquireIf (isAcquire m.ord) (s.modC fun c => { (c.consume [v]).setTprog 0 with tredCause := none })
  match s.core.tredCause with
  | some e => .trap ⟨e.code, e.eva, e.other, true, true, true⟩ t
  | none => if m.ord = 3#2 then .wait t.untilTick t else .done t

/-- TRED. -/
def execTred (x : Args) (m : TrMod) (s : State) : Out :=
  issue freeForm x s fun x s =>
    let v := s.core.view x.d
    let a := s.core.value x.a
    let p := s.core.value x.b
    let n := v.fmt.bytes
    match s.core.wait with
    | .scTick e => .wait (.scTick e) s
    | _ =>
      match (do
        s.core.streamCheck x none [v]
        demand v.shapeOk shapeCause
        demand (s.core.mirrorOk v && tredFmtOk v m.aop) bankFmtCause
        demandAt (a.toNat % n == 0 && p.toNat % n == 0) alignCause a
        demandWait (!isRelease m.ord || s.core.settled) .interlock
        s.core.queueClear [v]
        s.raceViews [(v, false)] : Chk State) with
      | .error e => tileFail s [v] e
      | .ok t =>
        let i := t.core.tprog
        let todo := v.vrows - i
        let n := (t.core.rowLimit.getD todo).min todo
        match tredRows n i m v a p (if i = 0 then t.modC fun c => { c with tredCause := none } else t) with
        | (u, none) => if n < todo then tredStop i (i + n) u (.exc betweenRows) else tredDone m v u
        | (u, some (j, st)) => tredStop i j u st

/-! ## Fences and line operations (R253, R254) -/

/-- FENCE: every earlier access is performed; then an acquire (spec/04 R76, R80). -/
def execFence (x : Args) (_m : BitVec 3) (s : State) : Out :=
  issue freeForm x s fun _ s => finish s do
    demandWait s.core.settled .interlock
    pure s.acquire

/-- FENCESC (spec/04 R81). -/
def execFencesc (x : Args) (s : State) : Out :=
  issue freeForm x s fun _ s =>
    match s.core.wait with
    | .scTick e => .wait (.scTick e) s
    | _ => settleWith s do
      demandWait s.core.settled .interlock
      pure (.wait s.untilTick s.acquire)

/-- Before a line operation the core's earlier stores to pieces of the line are performed. -/
def State.flushLine (s : State) (space line : Nat) : State :=
  let n := s.core.stores.length
  match (List.range n).reverse.find? fun k => match s.core.stores[k]? with
      | some t => t.piece.1 == space && t.piece.2 / 16 == line
      | none => false with
  | some k => State.performFirst (k + 1) s
  | none => s

/-- Leases whose end has not come (spec/06 R125). -/
def State.liveLeases (s : State) : List Lease := s.leases.filter fun l => decide (s.tick < l.endTick)

/-- LFLUSH: written back; nothing a program can see changes. -/
def execLflush (x : Args) (m : BitVec 3) (s : State) : Out :=
  issue freeForm x s fun x s => finish s do
    let a := s.core.value x.a + s.core.value x.b
    if m = 0#3 then
      let (t, p, _) ← s.translate a ⟨true, false, false, false⟩
      pure (t.flushLine 0 (p / 1024))
    else
      let _ ← s.windowDie true a true false false
      pure (s.flushLine 7 (a.toNat / 1024))

def State.leased (s : State) (phys : Nat) : Bool := s.liveLeases.any fun l => l.lines.contains (phys / 1024)

/-- LINV: the line leaves the slice, with its race records and replicas; NOREP of its granule is cleared (spec/19
R338). -/
def execLinv (x : Args) (_m : BitVec 3) (s : State) : Out :=
  issue freeForm x s fun x s => finish s do
    let a := s.core.value x.a + s.core.value x.b
    let (t, p, e) ← s.translate a ⟨true, false, false, false⟩
    let t := t.flushLine 0 (p / 1024)
    let inLine := fun (r : Place × Race) => match r.1 with
      | .global k => k / 16 == p / 1024
      | .localStore _ _ => false
    pure { t with
      race := if t.leased p then t.race else t.race.filter fun r => !inLine r
      norep := (p / 2048, 1, false) :: t.norep
      replicas := if e.getLsbD 3 then t.replicas.filter fun r => r.1 % 2 ^ 44 / 4 != p / 1024 else t.replicas }

/-! ## Steps of the places and of the fabric -/

/-- ACCESS_AT_HOME: store k of the focused core is performed at its home or I/O chiplet. -/
def execAccessAtHome (k : Nat) (s : State) : Out :=
  match s.core.stores[k]? with
  | some t => .next (if s.storeReady k && (t.space == 0#3 || t.space == 6#3 || t.space == 7#3) then s.performAt k else s)
  | none => .next s

/-- PEER_WRITE_ARRIVAL: store k reaches another core or another Latch. -/
def execPeerWriteArrival (k : Nat) (s : State) : Out :=
  match s.core.stores[k]? with
  | some t => .next (if s.storeReady k && (t.space == 2#3 || t.space == 3#3 || t.space == 5#3) && !t.kind.isStart then
      s.performAt k else s)
  | none => .next s

/-- START_DELIVERY (spec/15 R297). -/
def execStartDelivery (k : Nat) (s : State) : Out :=
  match s.core.stores[k]? with
  | some t => .next (if s.storeReady k && t.kind.isStart then s.performAt k else s)
  | none => .next s

/-- ACCESS_RESPONSE_ARRIVAL: response k reaches the focused core. -/
def execAccessResponseArrival (k : Nat) (s : State) : Out := .next (s.response k)

/-- ATOMIC_RESPONSE_LOST: the fabric will not deliver the response to the next atomic (R250). -/
def execAtomicResponseLost (s : State) : Out := .next { s with lossNext := true }

/-- The place of a member of the SC order among those that complete at one edge (spec/04 R81): a memory core, which has no
field core number, comes last (log entry 14). -/
def State.scKey (s : State) (edge : Nat) (c : Core) : List Nat :=
  [edge, if c.memc then 1 else 0, c.fcn, (s.fieldAt (c.field.getD 16)).anchor, c.die, c.num]

def scEdge (c : Core) : Option Nat :=
  match c.wait with
  | .scTick e => some e
  | _ => none

/-- The Tick edge a gang or core waits for, when every member that waits does so and no other member of the context's SC
order comes before it. -/
def State.tickDue (s : State) : Option Nat :=
  let ms := if s.core.ganged then s.gang s.core else [s.core]
  if ms.all fun c => c.wait == .none || (scEdge c).isSome then
    match ms.filterMap scEdge with
    | [] => none
    | e :: es =>
      let edge := es.foldl max e
      let first := s.cores.all fun k => k.ctx != s.core.ctx || ms.any (fun m => m.is k.die k.num) || (match scEdge k with
        | some f => !decide (s.scKey f k < s.scKey edge (ms.headD s.core))
        | none => true)
      if first then some edge else none
  else none

/-- SC_TICK_COMPLETION: the Tick edge comes and the member of the SC order completes (spec/04 R81). -/
def execScTickCompletion (s : State) : Out :=
  match s.tickDue with
  | none => .next s
  | some e =>
    let t := { s with cyc := max s.cyc (e * 4096) }
    if s.core.ganged then
      .next (((s.gang s.core).foldl (fun (t : State) (c : Core) => t.within c.die c.num State.retire) t).focus s.core.die
        s.core.num)
    else .next t.retire

/-- PAGE_WALK: a walk for the focused core's context ends and its entry is cached (spec/19 R333). -/
def execPageWalk (va : Word) (s : State) : Out :=
  match s.lookup va with
  | .ok (t, _) => .next t
  | .error _ => .next s

/-- COLLAPSE_SEQUENCE: the collapse that the core's store waits for is done; the store re-executes, in a gang with every
member's copy, or COLLAPSE traps first (spec/04 R73). -/
def execCollapseSequence (va : Word) (s : State) : Out :=
  if s.core.wait = .collapse va then
    let t := (s.collapsePage va).modC fun c =>
      { c with wait := if c.ganged then .interlock else .none, sys := { c.sys with collctl := setBits c.sys.collctl 47 0 (bits c.sys.collctl 47 0 + 1) } }
    .next (if t.core.sys.collctl.getLsbD 63 then t.raiseAll (causeAt collapseCause va) else t)
  else .next s

/-- RACE_RECORD_SWEEP (spec/04 R93). -/
def execRaceRecordSweep (s : State) : Out := .next s.sweep

end Sys2Proof.Machine
end

