-- ==== Sys2Proof/Machine/Latch.lean ====
section
/-!
DEFINITION. The Latch instructions (spec/14 R271 to R276, spec/05 R94 to R110): event lines, byte counts, barriers,
mutexes.
-/

namespace Sys2Proof.Machine

/-- The object number of a special operand (spec/07 R143). -/
def specialIndex (o : Operand) : Nat :=
  match o with
  | .x _ n => n.toNat
  | _ => 0

/-- SUB of a special operand. -/
def specialSub (o : Operand) : Nat :=
  match o with
  | .x sub _ => sub.toNat
  | _ => 0

/-! ## Event lines -/

/-- EWAIT (R271): the status word is pushed when the wait ends; an acquire. -/
def execEwait (x : Args) (m : Bool) (s : State) : Out :=
  issue freeForm x s fun x s =>
    let n := specialIndex x.a
    let l := (s.latch s.core.latch).line n
    let t := match s.core.wait with
      | .line _ t => t
      | _ => if m then (s.core.value x.b).truncate 32 else l.target
    let complete := fun (w : Word) => Res.done (s.modC fun c => c.push w).acquire
    match s.core.wake with
    | some w => complete w
    | none => if fired l t then complete (statusWord l.count 0#8) else .wait (.line n t) s

/-- ESIG (R272): a release. -/
def execEsig (x : Args) (s : State) : Out :=
  issue freeForm x s fun x s => finish s do
    demandWait s.core.settled .interlock
    pure (s.addLine s.core.latch (specialIndex x.a) ((s.core.value x.b).truncate 32))

/-- ECLR (R273) of an event line or a byte-count object. -/
def execEclr (x : Args) (s : State) : Out :=
  issue freeForm x s fun x s =>
    let k := s.core.latch
    .done (if specialSub x.a = 2 then s.clearLine k (specialIndex x.a)
      else s.setLatch k ((s.latch k).setCount (specialIndex x.a) ByteCount.none))

/-- EARM (R274, R110). -/
def execEarm (x : Args) (m : BitVec 6) (s : State) : Out :=
  issue freeForm x s fun x s => finish s do
    let v := (s.core.value x.b).toNat
    let k := s.core.latch
    let n := specialIndex x.a
    demand (decide (1 ≤ v ∧ v ≤ 2 ^ 31)) reservedField
    let l := s.latch k
    let b : ByteCount := { (l.count n) with expect := BitVec.ofNat 32 v, armed := true, line := m }
    pure ((s.setLatch k (l.setCount n b)).fireCount k n)

/-- EPOST (R272): class 0, word 0. -/
def execEpost (x : Args) (s : State) : Out :=
  issue freeForm x s fun x s => finish s do
    let a := s.core.value x.a
    demandAt (a.toNat % 8 == 0) alignCause a
    match s.eventAddr a with
    | some e =>
      demandAt (e.cls == 0 && e.word == 0) protCause a
      demandRoute s (e.latch / 2) a
      s.eventStore a (s.core.value x.b)
    | none => stopAt protCause a

/-! ## Barriers (R102 to R104, R275) -/

/-- The forms of BARV. -/
inductive BarForm where
  | plain | nb | drop | join | timed
  deriving DecidableEq, Repr

def BarForm.waits (f : BarForm) : Bool := f == .plain || f == .join || f == .timed

/-- The barrier that operand A names. Memory cores take part in no scope barrier (spec/06 R137). -/
def State.barrierOf (s : State) (o : Operand) : Chk BarRef :=
  match o with
  | .x sub n =>
    if sub = 3#3 then .ok (.object s.core.latch n.toNat)
    else if s.core.memc then stop protCause else .ok (.scope (n.toNat / 8) (n.toNat % 8))
  | o => do
    let a := s.core.value o
    demandAt (a.toNat % 8 == 0) alignCause a
    match s.eventAddr a with
    | some e =>
      demandAt (e.cls == 1 && e.word == 0) protCause a
      demandRoute s (e.latch / 2) a
      pure (.object e.latch e.index)
    | none => stopAt protCause a

/-- The queues that a timed arrival waits for are empty (spec/01 R20). -/
def Core.enginesIdle (c : Core) : Bool := c.xq.all (·.isEmpty) && c.gq.all (·.isEmpty) && c.mq.isEmpty

/-- Healthy compute cores of the focused core's field. -/
def State.fieldCount (s : State) : Nat := (s.scopeCores s.core 3).length

/-- The one barrier and E with which `.timed` is permitted (R104). -/
def State.timedBarrierOk (s : State) (r : BarRef) : Bool :=
  match r with
  | .scope 3 _ => (s.bar s.core r).e == s.fieldCount
  | _ => false

/-- After the release of a timed barrier the core waits for the base of its region (spec/01 R19, R20). -/
def State.enterRegion (s : State) : State :=
  s.retire.modC fun c => { c with wait := .release, rbTarget := none, nextComm := false, mark := none, pmark := none, board := Board.reset
                                  timed := { c.timed with comm := c.nextComm, offset := 0 } }

/-- The wait of a barrier is over. -/
def barDone (f : BarForm) (r : BarRef) (s : State) : Res :=
  let t := s.leaveBarrier r
  if f = .timed then .exit t.enterRegion else .done t

/-- The arrival, or the join (R102, R103). -/
def barArrive (f : BarForm) (r : BarRef) (s : State) : Res :=
  let b := s.bar s.core r
  let record := fun (t : State) (wt : Bool) =>
    (t.modSys fun y => { y with barst := barstWord r b.phase wt }).modC fun c => { c with wake := none }
  if f = .join ∧ b.e = 0 ∧ b.a = 0 then
    .done ((record (s.setBar s.core r { b with e := 1 }) true).leaveBarrier r)
  else if f = .join then .wait .barrier (record (s.setBar s.core r { b with joins := b.joins + 1 }) true)
  else if b.e = 0 then .trap (cause protCause) s
  else
    let b1 := b.arrive s.core (f == .timed)
    let t := s.setBar s.core r (if f = .drop then { b1 with drops := b1.drops + 1 } else b1)
    if f = .drop then .done (t.tryFlip s.core r)
    else
      let u := (record t f.waits).tryFlip s.core r
      if !f.waits then .done u
      else if (u.bar s.core r).phase = b.phase then .wait .barrier u
      else if s.core.ganged then .wait .barrier (u.modC fun c => { c with wake := some 0#64 })
      else barDone f r u

/-- An arrival that a broken path loses is LINK, deferred, and no barrier counts it (spec/18 R311, R326, log entry 93). -/
def State.arrivalLost (s : State) (o : Operand) (r : BarRef) : Bool :=
  match r with
  | .object k _ => s.reach s.core.die (k / 2) (s.core.value o).toNat == some linkCause
  | .scope _ _ => false

/-- BARV in one core; a member of a gang whose arrival stands waits for the others only. -/
def barv (f : BarForm) (x : Args) (s : State) : Res :=
  if s.core.arrived then .done s else
  settleWith s do
    let r ← s.barrierOf x.a
    demand (f != .timed || s.timedBarrierOk r) reservedField
    demandWait s.core.settled .interlock
    demandWait (f != .timed || s.core.enginesIdle) .interlock
    let st := s.core.sys.barst
    let named := st.getLsbD 0 && barstRef st == r
    let flipped := s.core.wake.isSome || (s.bar s.core r).phase != st.getLsbD 8
    if named && st.getLsbD 1 then pure (if flipped then barDone f r s else .wait .barrier s)
    else if named && !flipped then pure (.wait .barrier s)
    else if s.arrivalLost x.a r then
      pure (.trap { causeAt linkCause (s.core.value x.a) with deferred := true, next := !f.waits } s)
    else pure (barArrive f r s)

/-- BARV in a gang: each member's own object (spec/01 R12). -/
def barForm : Form := { freeForm with arrives := true }

/-- BARV. -/
def execBarv (x : Args) (s : State) : Out := issue barForm x s fun x s => barv .plain x s

/-- BARV.nb. -/
def execBarvNb (x : Args) (s : State) : Out := issue barForm x s fun x s => barv .nb x s

/-- BARV.drop. -/
def execBarvDrop (x : Args) (s : State) : Out := issue barForm x s fun x s => barv .drop x s

/-- BARV.join. -/
def execBarvJoin (x : Args) (s : State) : Out := issue barForm x s fun x s => barv .join x s

/-- BARV.timed (spec/01 R20). -/
def execBarvTimed (x : Args) (s : State) : Out := issue barForm x s fun x s => barv .timed x s

/-- BWAIT (R103, R275). -/
def execBwait (x : Args) (s : State) : Out :=
  issue freeForm x s fun _ s =>
    let st := s.core.sys.barst
    let r := barstRef st
    if !st.getLsbD 0 then .trap (cause protCause) s
    else if s.core.wake.isSome || (s.bar s.core r).phase != st.getLsbD 8 then
      .done ((s.leaveBarrier r).modC fun c => c.push 0#64)
    else .wait .barrier s

/-! ## Mutexes (R106 to R108, R276) -/

/-- The leader's request is the gang's (spec/01 R12): a member whose own guard is false has no part in it (R13). -/
def mutexForm : Form := { freeForm with leads := .both }

/-- MLOCK completes: the grant to its predicate, the status word to the queue; a grant is an acquire. -/
def mutexDone (pd : BitVec 3) (w : Word) (s : State) : Res :=
  let got := bits w 7 0 == 0
  .done (acquireIf got (s.modC fun c => (c.writeP pd got).push w))

/-- MLOCK. -/
def execMlock (x : Args) (m : BitVec 3) (s : State) : Out :=
  issue mutexForm x s fun x s =>
    let n := specialIndex x.a
    let k := s.core.latch
    let me := s.requester s.core
    let l := s.latch k
    let mu := l.mutex n
    let pos := me.num % 4
    match me.wake with
    | some w => mutexDone m w s
    | none =>
      if s.follower then (if mu.holder = some pos then mutexDone m 0#64 s else .wait (.mutex n) s)
      else if mu.holder = some pos then .trap (cause lockSelfCause) s
      else if mu.holder.isNone && s.mayTake k n pos then
        mutexDone m 0#64 ((s.setLatch k (l.setMutex n { mu with waiters := mu.waiters.filter (· != pos) })).takeMutex me n)
      else if mu.waiters.contains pos then .wait (.mutex n) s
      else .wait (.mutex n) (s.setLatch k (l.setMutex n { mu with waiters := mu.waiters ++ [pos] }))

/-- MTRY. In replay a request that is not the logged one is held (spec/23 R397). -/
def execMtry (x : Args) (s : State) : Out :=
  issue mutexForm x s fun x s =>
    let n := specialIndex x.a
    let k := s.core.latch
    let me := s.requester s.core
    let mu := (s.latch k).mutex n
    let pos := me.num % 4
    let answer := fun (got : Bool) (t : State) =>
      Res.done (acquireIf got (t.modC fun c => c.writeD x.d (if got then 1#64 else 0#64)))
    if s.follower then answer (mu.holder == some pos) s
    else if mu.holder = some pos then .trap (cause lockSelfCause) s
    else if mu.holder.isSome then answer false s
    else if s.mayTake k n pos then
      answer true ((s.setLatch k ((s.latch k).setMutex n { mu with waiters := mu.waiters.filter (· != pos) })).takeMutex me n)
    else .wait (if s.grantable me 2 (mutexAddress k n) then .interlock else .replay (logKey 2 (mutexAddress k n))) s

/-- MUNL: a release; the oldest waiter is granted. -/
def execMunl (x : Args) (s : State) : Out :=
  issue mutexForm x s fun x s => finish s do
    let n := specialIndex x.a
    let k := s.core.latch
    let me := s.requester s.core
    demandWait s.core.settled .interlock
    if s.follower then pure s
    else
      demand (((s.latch k).mutex n).holder == some (me.num % 4)) protCause
      pure (s.freeMutex k n)

end Sys2Proof.Machine
end

