-- ==== Sys2Proof/Machine/Routes.lean ====
section
/-!
DEFINITION. Static routes (spec/18 R312, spec/08 R165) and the records of engine faults (spec/06 R127): what the transfer
engine, the Rood engine and SEND share.
-/

namespace Sys2Proof.Machine

/-! ## Static route tables (spec/18 R312) -/

/-- RTE[n] of a chiplet. -/
def State.rteAt (s : State) (die n : Nat) : BitVec 32 := lookupD (s.chip die).rte n 0#32

def rteValid (e : BitVec 32) : Bool := e.getLsbD 31
def rteIn (e : BitVec 32) : Nat := bits e 30 28
def rteOut (e : BitVec 32) : Nat := bits e 27 25
def rteSrc (e : BitVec 32) : Nat := bits e 24 22
def rteDst (e : BitVec 32) : Nat := bits e 21 19
def rteField (e : BitVec 32) : Nat := bits e 18 15

/-- The entry at the core's die names the core as the source of the route. -/
def State.routeStarts (s : State) (c : Core) (n : Nat) : Bool :=
  let e := s.rteAt c.die n
  rteValid e && rteIn e == 4 && rteSrc e == c.num

/-- The entry at the core's die names the core as the destination. -/
def State.routeArrives (s : State) (c : Core) (n : Nat) : Bool :=
  let e := s.rteAt c.die n
  rteValid e && rteOut e == 4 && rteDst e == c.num

/-- Follows the tables from a chiplet, whatever the state of the links: die and direction of each link, and the core at which
the route ends; none where an entry does not continue it (R312). -/
def State.routeWalk (s : State) (fuel n die arrival : Nat) : List (Nat × Nat) × Option (Nat × Nat) :=
  match fuel with
  | 0 => ([], none)
  | k + 1 =>
    let e := s.rteAt die n
    if !rteValid e || rteIn e != arrival then ([], none)
    else if rteOut e = 4 then ([], some (die, rteDst e))
    else match neighbourChip die (rteOut e) with
      | some d =>
        let w := s.routeWalk k n d ((rteOut e + 2) % 4)
        ((die, rteOut e) :: w.1, w.2)
      | none => ([], none)

/-- A link that carries no flit. -/
def State.linkDown (s : State) (l : Nat × Nat) : Bool := (s.chip l.1).barred || (s.chip l.1).dead l.2

/-- The core at which a field's route ends: the one its entry with OUT = 4 names (R165). -/
def State.routeEnd (s : State) (field n : Nat) : Option (Nat × Nat) :=
  s.chips.findSome? fun p =>
    let e := lookupD p.2.rte n 0#32
    if rteValid e && rteOut e == 4 && rteField e == field then some (p.1, rteDst e) else none

/-- The chiplet at which a field's route starts. -/
def State.routeStart (s : State) (field n : Nat) : Option Nat :=
  s.chips.findSome? fun p =>
    let e := lookupD p.2.rte n 0#32
    if rteValid e && rteIn e == 4 && rteField e == field then some p.1 else none

/-- The field controller notes the core at which a route ends, and the hops to it once the route is whole (R165). It keeps them
when entries are invalidated later. -/
def State.noteRoute (s : State) (field n : Nat) : State :=
  match s.routeEnd field n with
  | none => s
  | some (die, core) =>
    let f := s.fieldAt field
    let start := s.routeStart field n
    let walked := start.bind fun d => match s.routeWalk 520 n d 4 with
      | (links, some e) => if e = (die, core) then some links.length else none
      | _ => none
    let known := (f.routeEnds.find? fun r => r.1 == n && r.2.1 == die && r.2.2.1 == core).map fun r => r.2.2.2
    let h := (walked.or known).getD ((start.map fun d => hops d die).getD 0)
    s.setField field { f with routeEnds := (n, die, core, h) :: f.routeEnds.filter fun r => r.1 != n }

/-- The cycle at which a flit injected at c enters its receive buffer (R165). -/
def flitDue (c hops : Nat) : Nat := c + max 2 (3 * hops)

/-- The cycle on which a flit occupies its link k, counted from 0 (R165). -/
def Flit.linkCycle (f : Flit) (k : Nat) : Nat := f.sent + 3 * k + 2

/-- The link it occupies on a cycle. -/
def Flit.linkAt (f : Flit) (cycle : Nat) : Option (Nat × Nat) :=
  if f.sent + 2 ≤ cycle ∧ (cycle - f.sent) % 3 = 2 then f.links[(cycle - f.sent) / 3]? else none

/-- Still on its way at a cycle. -/
def Flit.alive (f : Flit) (cycle : Nat) : Bool :=
  match f.lost with
  | some t => decide (cycle < t)
  | none => true

/-- It takes a link before another flit: the lower route id, then the command earlier in program order (R166). -/
def Flit.before (f g : Flit) : Bool :=
  decide (f.route < g.route) || (f.route == g.route && (decide (f.order < g.order) || (f.order == g.order && decide (f.sent < g.sent))))

/-- The flits that another keeps from their link on a cycle are lost. -/
def settleCycle (fs : List Flit) (cycle : Nat) : List Flit :=
  fs.map fun f =>
    if f.alive cycle && (f.linkAt cycle).isSome && fs.any fun g => g.alive cycle && g.linkAt cycle == f.linkAt cycle && g.before f then
      { f with lost := some cycle } else f

/-- The links after a cycle are given anew among the flits under way (R166). -/
def settleLinks (fs : List Flit) (now : Nat) : List Flit :=
  let fresh := fs.map fun f => match f.lost with
    | some t => if t ≤ now then f else { f with lost := f.broken }
    | none => f
  let last := fs.foldl (fun (m : Nat) (f : Flit) => max m f.due) 0
  (List.range (last - now)).foldl (fun (l : List Flit) (k : Nat) => settleCycle l (now + 1 + k)) fresh

/-- A flit leaves a core. One that is discarded on its way is due where and when it would have arrived: where the tables do not
lead on, at the end that the field controller keeps for its route. -/
def State.injectFlit (s : State) (c : Core) (n cycle order : Nat) (data : List Byte) (copy : Option FlitCopy) : State :=
  let (links, stop) := s.routeWalk 520 n c.die 4
  let kept := (s.fieldAt (c.field.getD 16)).routeEnds.find? fun r => r.1 == n
  match (stop.map fun e => (e.1, e.2, links.length)).or (kept.map fun r => r.2) with
  | none => s
  | some (die, core, h) =>
    let down := (links.findIdx? s.linkDown).or (if stop.isNone || (s.chip die).barred then some links.length else none)
    let f : Flit := { route := n, src := c.die * 8 + c.num, die := die, core := core
                      due := flitDue cycle h, sent := cycle, order := order, links := links, data := data
                      copy := copy, broken := none, lost := none }
    let at' := down.map f.linkCycle
    { s with flits := settleLinks (s.flits ++ [{ f with broken := at', lost := at' }]) cycle }

/-- Flits that have still to cross a link that is down are discarded (spec/18 R326). -/
def State.dropFlits (s : State) : State :=
  let drop := fun (f : Flit) =>
    match (f.links.zip (List.range f.links.length)).find? fun l => decide (s.cyc < f.linkCycle l.2) && s.linkDown l.1 with
    | some l => if f.alive (f.linkCycle l.2) then { f with broken := some (f.linkCycle l.2), lost := some (f.linkCycle l.2) } else f
    | none => f
  { s with flits := settleLinks (s.flits.map drop) s.cyc }

/-- The tile is dense in the sense of spec/14 R270. -/
def denseTile (v : View) : Bool :=
  recEstr v.shape == 1 && recRstr v.shape == recCols v.shape && recBase v.shape % 256 == 0 && !v.alt && !recMv v.shape

/-! ## Packed rows -/

/-- Bits from one element to the next. -/
def Fmt.step (f : Fmt) : Nat :=
  match f with
  | .t6 => 6
  | .m1 => 1
  | f => 8 * f.bytes

/-- Bytes that n elements in a row occupy. -/
def packedLen (f : Fmt) (n : Nat) : Nat := ceilDiv (n * f.step) 8

/-- Element codes of a packed row. -/
def unpackRow (f : Fmt) (n : Nat) (bs : List Byte) : List Nat :=
  (List.range n).map fun j => ofBytes bs / 2 ^ (f.step * j) % 2 ^ f.width

def packedValue (f : Fmt) (cs : List Nat) : Nat := cs.foldr (fun c acc => c + 2 ^ f.step * acc) 0

/-- A packed row over what stood there: bits beyond its elements are kept. -/
def packRow (f : Fmt) (cs : List Nat) (old : List Byte) : List Byte :=
  let n := cs.length * f.step
  toBytes (packedLen f cs.length) (packedValue f cs + ofBytes old / 2 ^ n * 2 ^ n)

/-- Flits of a dense tile: ceil(rows × cols × w ÷ 256). -/
def flitCount (v : View) : Nat := ceilDiv (packedLen v.fmt (recRows v.shape * recCols v.shape)) 256

/-- Line b of a dense tile, invalid elements as zero codes (spec/14 R270, R280). -/
def Core.tileLine (c : Core) (v : View) (b : Nat) : List Byte :=
  let cs := (List.range (recRows v.shape)).flatMap fun i => (List.range (recCols v.shape)).map fun j => c.rawElem v i j
  ((packRow v.fmt cs [] ++ List.replicate 256 0#8).drop (256 * b)).take 256

/-- The elements that line b holds bits of: index in the tile's packing, row and column; valid ones only. -/
def lineCells (v : View) (b : Nat) : List (Nat × Nat × Nat) :=
  let cols := recCols v.shape
  let lo := 2048 * b / v.fmt.step
  let hi := min (ceilDiv (2048 * (b + 1)) v.fmt.step) (recRows v.shape * cols)
  (List.range (hi - lo)).filterMap fun k =>
    let e := lo + k
    if v.valid (e / cols) (e % cols) then some (e, e / cols, e % cols) else none

/-- The code of element e with the bits that line b, whose bytes are `data`, holds of it. -/
def lineCode (f : Fmt) (b data e old : Nat) : Nat :=
  let lo := max (f.step * e) (2048 * b)
  let hi := min (f.step * (e + 1)) (2048 * (b + 1))
  let below := lo - f.step * e
  let n := hi - lo
  (old - old / 2 ^ below % 2 ^ n * 2 ^ below + data / 2 ^ (lo - 2048 * b) % 2 ^ n * 2 ^ below) % 2 ^ f.width

/-! ## Engine faults (spec/06 R127) -/

def xfaultWord (queue : Nat) (cmpl : Bool) (code : BitVec 8) (id : Nat) : Word :=
  BitVec.ofNat 64 (2 ^ 63 + queue * 2 ^ 59 + (if cmpl then 2 ^ 58 else 0) + code.toNat * 2 ^ 48 + id % 2 ^ 48)

/-- A record of an engine fault is in force. -/
def Core.xfaulted (c : Core) : Bool := c.sys.xfault.getLsbD 63

/-- An engine command of the focused core reports a cause, or stops its queue; a second one waits for ERET. -/
def State.engineFault (s : State) (queue id rows : Nat) (cmpl hm : Bool) (e : Exc) : State :=
  if s.core.xfaulted then s
  else s.modC fun c =>
    { c with xstop := if cmpl then c.xstop else some queue
             deferred := c.deferred ++ [⟨e.code, e.eva, e.other, hm⟩]
             sys := { c.sys with xfault := xfaultWord queue cmpl e.code id, xprog := BitVec.ofNat 64 rows } }

/-- The view of a tile record under its bank. -/
def Core.viewOf (c : Core) (r : Shape) (alt : Bool) : View :=
  let b := c.bank (recBank r)
  { reg := 0#5, shape := r, fmt := fmtOf (fmtCode b), code := fmtCode b, scale := fmtScale b, sat := fmtSat b, neg := false,
    trn := false, alt := alt }

end Sys2Proof.Machine
end

