-- ==== Sys2Proof/Machine/Streams.lean ====
section
/-!
DEFINITION. Streams (spec/06 R117 to R120): SBIND, SFREE, SSKIP, SSTAT (spec/13 R255 to R258) and the fill of a ring entry.
-/

namespace Sys2Proof.Machine

/-- The parts of n bytes from an address that lie in one 64-byte piece each: offset and length. -/
def pieceRuns (a n : Nat) : List (Nat × Nat) :=
  (List.range (n / 64 + 2)).filterMap fun k =>
    let lo := if k = 0 then 0 else 64 * k - a % 64
    let hi := min n (64 * (k + 1) - a % 64)
    if lo < hi then some (lo, hi - lo) else none

/-- n bytes of GLOBAL or PEER space, read piece by piece as loads of the core (R120). -/
def State.readRun (s : State) (space : Nat) (a : Word) (n : Nat) : Chk (State × List Byte) :=
  (pieceRuns a.toNat n).foldlM (fun (acc : State × List Byte) (r : Nat × Nat) => do
    let b := a + BitVec.ofNat 64 r.1
    let (t, bs) ← if space = 0 then acc.1.readGlobal b r.2 true true else acc.1.readPeer b r.2 true
    pure (t, acc.2 ++ bs)) (s, [])

/-! ## Descriptor (R117) -/

/-- The content checks of R117: none raises RESERVED_FIELD. -/
def parseStream (tile : BitVec 5) (saved : Shape) (bs : List Byte) : Option Stream :=
  let w := fun (n : Nat) => BitVec.ofNat 64 (ofBytes ((bs.drop (8 * n)).take 8))
  let space := bits (w 1) 63 61
  let cnt := [bits (w 2) 15 0, bits (w 2) 31 16, bits (w 2) 47 32, bits (w 2) 63 48]
  let depth := bits (w 7) 59 56
  if bits (w 1) 60 32 = 0 ∧ bits (w 7) 63 60 = 0 ∧ bits (w 7) 55 42 = 0 ∧ bits (w 7) 27 21 = 0 ∧ (space = 0 ∨ space = 2)
      ∧ !cnt.contains 0 ∧ 2 ≤ depth ∧ depth ≤ 8 then
    some { tile := tile, saved := saved, base := w 0, space := BitVec.ofNat 3 space, pitch := bits (w 1) 31 0, cnt := cnt
           stride := [w 3, w 4, w 5, w 6], depth := depth, entsz := 0, rbase := bits (w 7) 20 0, edger := bits (w 7) 41 35
           edgec := bits (w 7) 34 28, next := 0, filled := 0, poison := none, raised := false }
  else none

/-- The displaced record at ring entry 0, under which D's record is judged (R255). -/
def Stream.first (t : Stream) : Shape := setBits t.saved 20 0 t.rbase

/-- ENTSZ (R118). -/
def entrySize (f : Fmt) (t : Stream) : Nat :=
  ceilDiv (extentHi f t.first false - t.rbase + 1) 256 * 256

def Stream.ringEnd (t : Stream) : Nat := t.rbase + t.depth * t.entsz

/-- The SHAPE checks of SBIND. -/
def Core.ringOk (c : Core) (f : Fmt) (t : Stream) : Bool :=
  t.rbase % 256 == 0 && shapeOk f t.first false && !recMv t.saved && (t.ringEnd - 1) / 0x20000 == t.rbase / 0x20000
    && c.streams.all fun u => decide (u.ringEnd ≤ t.rbase) || decide (t.ringEnd ≤ u.rbase)

/-- A tile register whose reuse buffers become invalid (spec/08 R158). -/
def Core.unreuse (c : Core) (n : BitVec 5) : Core :=
  { c with reuseA := c.reuseA.filter (· != n), reuseB := c.reuseB.filter (· != n) }

/-- SBIND (R255). -/
def execSbind (x : Args) (s : State) : Out :=
  issue freeForm x s fun x s => finish s do
    let n := regOf x.d
    let a := s.core.value x.a
    demand ((s.core.stream n).isNone && decide (s.core.streams.length < 8)) streamCause
    demandAt (a.toNat % 64 == 0) alignCause a
    demandAt (decide (a.toNat < 0x200000)) protCause a
    demandWait s.core.settled .interlock
    let (t, bs) ← s.readLocal a 64 true
    match parseStream n (s.core.tile n) bs with
    | none => stop reservedField
    | some d =>
      let f := fmtOf (fmtCode (s.core.bank (d.rbase / 0x20000)))
      let d := { d with entsz := entrySize f d }
      demand (s.core.ringOk f d) shapeCause
      pure (t.modC fun c => { c with streams := c.streams ++ [d] }.unreuse n)

/-- SFREE (R256): fills are whole steps, so none is in flight. -/
def execSfree (x : Args) (s : State) : Out :=
  issue freeForm x s fun x s =>
    let n := regOf x.d
    .done (if (s.core.stream n).isSome then
      s.modC fun c => { c with streams := c.streams.filter fun t => t.tile != n }.unreuse n else s)

/-- Tiles consumed without reading them (R257). -/
def Stream.skip (t : Stream) (m : Nat) : Stream :=
  let next := t.next + m
  if t.filled < next then { t with next := next, filled := next, poison := none, raised := false } else { t with next := next }

/-- SSKIP (R257). -/
def execSskip (x : Args) (s : State) : Out :=
  issue freeForm x s fun x s => finish s do
    let n := regOf x.d
    let m := (s.core.value x.a).toNat
    let left := match s.core.stream n with
      | some t => t.total - t.next
      | none => 0
    demand (decide (m ≤ left)) streamCause
    pure (s.modC fun c => { c with streams := c.streams.map fun t => if t.tile == n then t.skip m else t })

/-- The stream status word (R120). -/
def Stream.status (t : Stream) : Word :=
  BitVec.ofNat 64 ((if t.next = t.total then 2 ^ 63 else 0) + (if t.next = t.filled ∧ t.poison.isSome then 2 ^ 62 else 0)
    + (t.filled - t.next) * 2 ^ 58 + t.next % 2 ^ 48)

/-- SSTAT (R258). -/
def execSstat (x : Args) (s : State) : Out :=
  issue freeForm x s fun x s => finish s do
    demand (s.core.hintOk x) reservedField
    let w := match s.core.stream (regOf x.a) with
      | some t => t.status
      | none => 0#64
    pure (s.modC fun c => c.writeD x.d w)

/-! ## Fills (R118, R119) -/

/-- Origin of tile n. -/
def Stream.origin (t : Stream) (n : Nat) : Word :=
  (t.stride.zip (List.range 4)).foldl (fun a p => a + BitVec.ofNat 64 (t.index n p.2) * p.1) t.base

/-- Bytes of a source row of n elements: whole groups of T6 and bytes of M1 (R119). -/
def rowBytes (f : Fmt) (n : Nat) : Nat :=
  match f with
  | .t6 => 3 * ceilDiv n 4
  | .m1 => ceilDiv n 8
  | f => f.bytes * n

/-- Bytes placed as row i of a tile of n valid columns, by R30. -/
def Core.putRow (c : Core) (f : Fmt) (r : Shape) (alt : Bool) (i n : Nat) (bs : List Byte) : Core :=
  match f with
  | .t6 | .m1 => c.putLs (elemByte f (recBase r) (elemIndex r alt i 0)) bs
  | f => (List.range n).foldl (fun (c : Core) (j : Nat) =>
      c.putLs (elemByte f (recBase r) (elemIndex r alt i j)) ((bs.drop (f.bytes * j)).take f.bytes)) c

/-- The 64-byte pieces in which the elements of row i in some columns lie. -/
def rowPieces (f : Fmt) (r : Shape) (alt : Bool) (i : Nat) (cols : List Nat) : List Nat :=
  (cols.flatMap fun j =>
    let e := elemIndex r alt i j
    let lo := elemFirst f (recBase r) e / 64
    (List.range (elemLast f (recBase r) e / 64 + 1 - lo)).map (lo + ·)).eraseDups

/-- The own engines' access to those elements in the local store, and to the mirror copy of what is written, checked where
another core's access is recorded (spec/04 R86). -/
def State.raceCells (s : State) (f : Fmt) (r : Shape) (alt : Bool) (i : Nat) (cols : List Nat) (w : Bool) : Chk State :=
  if s.race.isEmpty then .ok s
  else (rowPieces f r alt i cols ++ (if w && recMv r then rowPieces f (mirrorRecord r) alt i cols else [])).foldlM
    (fun (s : State) (k : Nat) =>
      raced (s.raceStore s.core s.core (k * 64) w (s.holdsMutex s.core)) (BitVec.ofNat 64 (k * 64))) s

/-- The same for the first n elements of a row. -/
def State.raceRow (s : State) (f : Fmt) (r : Shape) (alt : Bool) (i n : Nat) (w : Bool) : Chk State :=
  s.raceCells f r alt i (List.range n) w

/-- One entry filled: its rows in turn; the cause that stops it. -/
def State.fillEntry (s : State) (t : Stream) (f : Fmt) : Chk State :=
  let r := t.entry t.filled
  let o := t.origin t.filled
  (List.range (recVrows r)).foldlM (fun (s : State) (i : Nat) => do
    let (u, bs) ← s.readRun t.space.toNat (o + BitVec.ofNat 64 (i * t.pitch)) (rowBytes f (recVcols r))
    let v ← u.raceRow f r false i (recVcols r) true
    pure (v.modC fun c => c.putRow f r false i (recVcols r) bs)) s

/-- A killed core fills no stream (spec/21 R371). -/
def Core.fills (c : Core) : Bool := c.run != .killed && c.run != .dark

/-- STREAM_FILL: the next tile of the walk into a free entry, or the entry poisoned (R119, R120). An entry's
source is read in one step (log entry 105). -/
def execStreamFill (tile : BitVec 5) (s : State) : Out :=
  match s.core.stream tile with
  | none => .next s
  | some t =>
    if s.core.timed.active || !t.fillable || !s.core.fills then .next s
    else
      let f := fmtOf (fmtCode (s.core.bank (t.rbase / 0x20000)))
      let set := fun (u : State) (v : Stream) => u.modC fun c =>
        { c with streams := c.streams.map fun y => if y.tile == tile then v else y }
      match s.fillEntry t f with
      | .ok u => .next (set u { t with filled := t.filled + 1 })
      | .error (.exc e) => .next (set s { t with poison := some (e.code, e.eva, e.other) })
      | .error _ => .next s

end Sys2Proof.Machine
end

