-- ==== Sys2Proof/Machine/Transfer.lean ====
section
/-!
DEFINITION. The transfer engine (spec/06 R121 to R128, spec/14 R262 to R267, R270): XCOPY, XCAST, XLEASE, XFREE, XFENCE,
XWAIT, XSTAT, and the steps of their commands.
-/

namespace Sys2Proof.Machine

/-! ## Control words (R262) -/

def ctlSpace (w : Word) : Nat := bits w 63 61
def ctlKen (w : Word) : Bool := w.getLsbD 60
def ctlK (w : Word) : Nat := bits w 59 56
def ctlRoute (w : Word) : Nat := bits w 55 48
def ctlPen (w : Word) : Bool := w.getLsbD 47
def ctlPostLatch (w : Word) : Nat := bits w 46 37 * 2 + bits w 36 36
def ctlPostLine (w : Word) : Nat := bits w 35 30
def ctlPitch (w : Word) : Nat := bits w 29 0
def castBase (w : Word) : Nat := bits w 47 36
def castPitch (w : Word) : Nat := bits w 35 21
def castOffset (w : Word) : Nat := bits w 20 0

/-- The register after a view register. -/
def nextReg (o : Operand) : Operand := .s (regOf o + 1#5)

/-- The field core with a field core number. -/
def State.fieldCore (s : State) (n : Nat) : Option Core :=
  s.cores.find? fun k => k.field == s.core.field && k.field.isSome && !k.memc && k.fcn == n

/-- The NSEL entry for a core's die is not MESH 3 (spec/18 R309). -/
def State.reaches (s : State) (addr : Nat) (k : Core) : Bool := s.reach s.core.die k.die addr != some protCause

/-- Targets of an XCAST: those its mask selects, none where one does not exist (R123). -/
def State.castTargets (s : State) (mask ctl : Word) : Option (List Core) :=
  ((List.range 64).filter fun b => mask.getLsbD b).mapM fun b => s.fieldCore (castBase ctl + b)

/-! ## The far end of a view (R122) -/

/-- The bank register at a byte of a PEER view; none in a GLOBAL view. -/
def State.farBank (s : State) (space : Nat) (a : Word) : Option (BitVec 32) :=
  if space = 2 then (s.peer a).map fun k => k.bank (peerOff a / 0x20000) else none

/-- The two ends of a move as views, each located as R31 and R122 state. -/
def copyEnds (v : View) (far : Option (BitVec 32)) : View × View :=
  match far with
  | none => (v, v)
  | some b => movePair v { v with fmt := fmtOf (fmtCode b), code := fmtCode b, scale := fmtScale b, sat := fmtSat b }

/-- Where an element of a view's row lies: both ends, and its first bit, counted from the row's first byte. Each peer element
stands under the bank that holds it (R122); where two banks meet in a row, the widths of those before it place it (log
entry 76). -/
structure Spot where
  near : View
  far  : View
  bit  : Nat

/-- The next n places of a row at an address. -/
def State.places (s : State) (v : View) (space : Nat) (a : Word) (n bit : Nat) : List Spot :=
  match n with
  | 0 => []
  | k + 1 =>
    let (l, w) := copyEnds v (s.farBank space (a + BitVec.ofNat 64 (bit / 8)))
    ⟨l, w, bit⟩ :: s.places v space a k (bit + w.fmt.step)

/-- The row of a view: its valid elements. -/
def State.rowPlaces (s : State) (v : View) (space : Nat) (a : Word) : List Spot := s.places v space a v.vcols 0

def placesBits (ps : List Spot) : Nat :=
  match ps.getLast? with
  | some p => p.bit + p.far.fmt.step
  | none => 0

/-- Bytes that a row occupies. -/
def placesLen (ps : List Spot) : Nat := ceilDiv (placesBits ps) 8

/-- The bytes of a row over what stood there: bits beyond its elements are kept. -/
def placesPack (ps : List Spot) (codes : List Nat) (old : List Byte) : List Byte :=
  let n := placesBits ps
  toBytes (placesLen ps) ((ps.zip codes).foldl (fun (acc : Nat) (p : Spot × Nat) => acc + p.2 * 2 ^ p.1.bit) 0
    + ofBytes old / 2 ^ n * 2 ^ n)

/-- A peer element whose address does not suit its bank's format stops the command. -/
def Spot.aligned (a : Word) (p : Spot) : Bool :=
  p.far.fmt.step % 8 != 0 || (8 * a.toNat + p.bit) % (8 * p.far.fmt.bytes) == 0

/-- A RAW local tile meets the constraints of the formats it is located under (R31). -/
def rawShapeOk (v : View) (ps : List Spot) : Bool :=
  v.code != 0 || ((ps.map fun p => p.near.fmt).eraseDups.all fun f => shapeOk f v.shape v.alt)

/-- A RAW local tile meets, in every row, the constraints of the formats it is located under (R31, R32). -/
def State.rawRowsOk (s : State) (v : View) (space : Nat) (a : Word) (pitch : Nat) : Bool :=
  v.code != 0 || space != 2
    || (List.range v.vrows).all fun i => rawShapeOk v (s.rowPlaces v space (a + BitVec.ofNat 64 (i * pitch)))

/-! ## Checks at issue (R263, R270) -/

/-- w of the ALIGN check; a sub-byte format has no width in bytes and takes 1 (log entry 74). -/
def alignWidth (f : Fmt) : Nat :=
  match f with
  | .t6 | .m1 => 1
  | f => f.bytes

/-- SHAPE rules of a timed command: dense, PITCH = cols × w, offset a multiple of 256. -/
def timedShapeOk (v : View) (pitch off : Nat) : Bool :=
  denseTile v && decide (8 * pitch = recCols v.shape * v.fmt.step) && off % 256 == 0

/-- RESERVED_FIELD of the XCOPY control word. -/
def copyCtlOk (w : Word) (toView timed : Bool) : Bool :=
  (ctlSpace w == 0 || ctlSpace w == 2) && (!ctlKen w || !toView || ctlSpace w == 2) && (timed || ctlRoute w == 0)
    && !(timed && (ctlKen w || ctlPen w))

def castCtlOk (w : Word) (timed : Bool) : Bool :=
  ctlSpace w == 2 && !(timed && ctlKen w)

/-- A full queue (R121). -/
def Core.transferRoom (c : Core) (q : Nat) : Chk Unit :=
  match c.xq[q]? with
  | some l => if l.length < 16 then .ok () else if c.timed.active then .error (.timing 2) else .error (.wait .interlock)
  | none => .ok ()

/-- The cycle at which a command issued now begins (R126). -/
def State.startCycle (s : State) (soff : BitVec 8) : Nat :=
  if s.core.timed.active then (s.core.timed.last + s.core.fbase).toNat + soff.toNat else 0

/-- A transfer command writes a byte of some extents of the core's own local store. -/
def TransferKind.hits (c : Core) (k : TransferKind) (xs : List Extent) : Bool :=
  match k with
  | .copyIn r alt _ _ _ => (c.viewOf r alt).extents.any fun y => xs.any y.meets
  | .copyOut r _ view ctl _ => xs.any fun x => c.ownFar r view ctl (recBank x.shape)
  | .cast r _ mask ctl _ => xs.any fun x => decide (castBase ctl ≤ c.fcn) && mask.getLsbD (c.fcn - castBase ctl)
      && rowsInBank (castOffset ctl) (castPitch ctl) (recVrows r) 512 (recBank x.shape)
  | _ => false

/-- A Rood command writes a byte of some extents. -/
def RoodKind.hits (c : Core) (k : RoodKind) (xs : List Extent) : Bool :=
  let d := fun (r : Shape) (w : Word) =>
    let v := c.viewOf r false
    let v := if w.getLsbD 33 then { v with code := bits w 37 34, fmt := fmtOf (bits w 37 34) } else v
    v.extents.any fun y => xs.any y.meets
  match k with
  | .table _ _ => false
  | .restrict r _ _ w => d r w
  | .prolong r _ _ w => d r w
  | .convert r _ _ w => d r w

/-- The commands and matrix operations under way that write a byte of what a command of a free phase reads: it begins its reads
behind them (spec/16 R301). -/
def Core.writersOf (c : Core) (xs : List Extent) : Need :=
  if c.timed.active then []
  else
    ((List.range 4).flatMap fun q => ((c.xq[q]?.getD []).filter fun t => t.kind.hits c xs).map fun t => (q, t.id))
      ++ ((List.range 4).flatMap fun q => ((c.gq[q]?.getD []).filter fun t => t.kind.hits c xs).map fun t => (4 + q, t.id))
      ++ ((c.mq.zip (List.range c.mq.length)).filter fun e => xs.any fun x => e.1.op.touches x.view).map fun e => (8, c.mqDone + e.2 + 1)

/-- What a transfer command reads of the core's own local store. -/
def TransferKind.source (c : Core) (k : TransferKind) : List Extent :=
  match k with
  | .copyOut r alt _ _ _ => (c.viewOf r alt).extents
  | .cast r alt _ _ _ => (c.viewOf r alt).extents
  | .copyIn r _ view ctl _ =>
    ((List.range 16).filter fun b => c.ownFar r view ctl b).map fun b => bytesExtent (0x20000 * b) 0x1000
  | _ => []

/-- A command enters queue q with its id; `finish` is the cycle on which a timed one completes. -/
def State.putTransfer (s : State) (q : BitVec 2) (k : TransferKind) (soff : BitVec 8) (finish : Nat) : State :=
  s.modC fun c =>
    let id := c.xnext.get q.toFin
    let t : Transfer := { id := id, kind := k, rows := 0, begun := false, done := false, skipped := none
                          timed := c.timed.active, start := s.startCycle soff, issued := s.core.now
                          finish := finish, need := c.joins[q.toNat]?.getD [] ++ c.writersOf (k.source c), hm := c.handler }
    { c with xq := c.xq.set q.toNat (c.xq.get q.toFin ++ [t]) q.isLt, xnext := c.xnext.set q.toNat ((id + 1) % 2 ^ 48) q.isLt }

/-- The id that the next issue to a queue takes. -/
def Core.nextId (c : Core) (q : BitVec 2) : Word := BitVec.ofNat 64 (c.xnext.get q.toFin)

/-- The cycle after the last write of a timed command: its last line is injected `lines` cycles after its start (spec/14 R270). -/
def State.copyEnd (s : State) (lines start : Nat) (routes : List Nat) : Nat :=
  if s.core.timed.active then
    routes.foldl (fun (n : Nat) (r : Nat) => max n (flitDue (start + lines) (s.routeWalk 520 r s.core.die 4).1.length + 2)) (start + lines)
  else 0

/-- A timed copy takes its place in the timetable: the source ports on fixed cycles; condition 4 where an earlier operation
that writes the source is outstanding at the start (R126); at each target the tile is not there before the last line is written
(spec/14 R270). -/
def State.bookCopy (s : State) (v : View) (start : Nat) (routes : List Nat) (off : Nat) : Chk State :=
  let c := s.core
  if !c.timed.active then .ok s
  else do
    let lines := flitCount v
    let b := c.board.prune c.now
    let b := if v.extents.any (c.earlyBytes start) then b.condition start 4 else b
    let k ← c.accept (b.takeRead v.shape ⟨recBank v.shape, false, start, lines, 1⟩)
    let dest := setBits v.shape 20 0 off
    pure (routes.foldl (fun (s : State) (n : Nat) =>
      let (links, stop) := s.routeWalk 520 n c.die 4
      match stop with
      | some (die, num) => s.onCore die num fun t =>
        if t.timed.active then
          let ready := flitDue (start + lines) links.length + 2
          { t with board := t.board.produce t.now (.tile ⟨fmtCode (t.bank (off / 0x20000)), dest, false⟩) ready }
        else t
      | none => s) { s with core := k })

/-- A post address that R95 accepts. -/
def State.postOk (s : State) (w : Word) : Bool := !ctlPen w || s.latchInField (bits w 46 37) (bits w 36 36)

def transferForm (soff : BitVec 8) (reads : List Operand) : Form :=
  { plainForm with phase := .compute, soff := soff, reads := reads }

/-- XCOPY, tile to view: the checks of R263 in order, then the command is queued. -/
def execXcopy (x : Args) (m : XMod) (s : State) : Out :=
  issue (transferForm m.soff [nextReg x.b]) x s fun x s =>
    let v := s.core.view x.a
    let a := s.core.value x.b
    let w := s.core.value (nextReg x.b)
    let timed := s.core.timed.active
    if timed && ctlSpace w != 2 then .trap (cause illegalOp) s
    else finish s do
      demand (s.core.hintOk x) reservedField
      demand (s.core.stream v.reg).isNone streamCause
      demand (v.shapeOk && (!timed || timedShapeOk v (ctlPitch w) (peerOff a)) && s.rawRowsOk v (ctlSpace w) a (ctlPitch w))
        shapeCause
      demand (s.core.mirrorOk v) bankFmtCause
      demand (copyCtlOk w true timed) reservedField
      demandAt (a.toNat % alignWidth v.fmt == 0 && ctlPitch w % alignWidth v.fmt == 0) alignCause a
      demandAt (ctlSpace w == 0 || (s.peer a).any (s.reaches a.toNat)) protCause a
      demand (s.postOk w && (!timed || s.routeStarts s.core (ctlRoute w))) protCause
      s.core.transferRoom m.queue.toNat
      let s ← s.bookCopy v (s.startCycle m.soff) [ctlRoute w] (peerOff a)
      let id := s.core.nextId m.queue
      let last := s.copyEnd (flitCount v) (s.startCycle m.soff) [ctlRoute w]
      pure ((s.putTransfer m.queue (.copyOut v.shape v.alt a w m.rm) m.soff last).modC fun c => c.writeD x.d id)

/-- XCOPY, view to tile: free phases only (R270). -/
def execXcopyViewToTile (x : Args) (m : XMod) (s : State) : Out :=
  issue { transferForm m.soff [nextReg x.a] with phase := .free } x s fun x s =>
    let v := s.core.view x.b
    let a := s.core.value x.a
    let w := s.core.value (nextReg x.a)
    finish s do
      demand (s.core.hintOk x) reservedField
      demand (s.core.stream v.reg).isNone streamCause
      demand (v.shapeOk && s.rawRowsOk v (ctlSpace w) a (ctlPitch w)) shapeCause
      demand (s.core.mirrorOk v) bankFmtCause
      demand (copyCtlOk w false false) reservedField
      demandAt (a.toNat % alignWidth v.fmt == 0 && ctlPitch w % alignWidth v.fmt == 0) alignCause a
      demandAt (ctlSpace w == 0 || (s.peer a).any (s.reaches a.toNat)) protCause a
      demand (s.postOk w) protCause
      s.core.transferRoom m.queue.toNat
      let id := s.core.nextId m.queue
      pure ((s.putTransfer m.queue (.copyIn v.shape v.alt a w m.rm) m.soff 0).modC fun c => c.writeD x.d id)

/-- XCAST (R123). -/
def execXcast (x : Args) (m : XMod) (s : State) : Out :=
  issue (transferForm m.soff [nextReg x.b]) x s fun x s =>
    let v := s.core.view x.a
    let mask := s.core.value x.b
    let w := s.core.value (nextReg x.b)
    let timed := s.core.timed.active
    let n := ((List.range 64).filter fun b => mask.getLsbD b).length
    let routes := (List.range n).map fun r => (ctlRoute w + r) % 256
    finish s do
      demand (s.core.hintOk x) reservedField
      demand (s.core.stream v.reg).isNone streamCause
      demand (v.shapeOk && (!timed || timedShapeOk v (castPitch w) (castOffset w)) && ((s.castTargets mask w).getD []).all fun k =>
        s.rawRowsOk v 2 (peerAddress k (castOffset w)) (castPitch w)) shapeCause
      demand (s.core.mirrorOk v) bankFmtCause
      demand (castCtlOk w timed) reservedField
      demandAt (castOffset w % alignWidth v.fmt == 0 && castPitch w % alignWidth v.fmt == 0) alignCause
        (BitVec.ofNat 64 (castOffset w))
      demand ((s.castTargets mask w).any fun ks => ks.all (s.reaches (castOffset w))) protCause
      demand (!timed || routes.all fun r => s.routeStarts s.core r) protCause
      s.core.transferRoom m.queue.toNat
      let s ← s.bookCopy v (s.startCycle m.soff) routes (castOffset w)
      let id := s.core.nextId m.queue
      let last := s.copyEnd (flitCount v) (s.startCycle m.soff) routes
      pure ((s.putTransfer m.queue (.cast v.shape v.alt mask w m.rm) m.soff last).modC fun c => c.writeD x.d id)

/-- A handle is owed to D: a position of the queue, or a register (R263). -/
def Core.owe (c : Core) (d : Operand) (queue id : Nat) : Core :=
  match d with
  | .q _ => { c.push 0#64 with owed := c.owed ++ [⟨some c.pushes, 0#5, queue, id⟩] }
  | .s n => if n = 0#5 then c else { c with owed := c.owed.filter (fun o => !(o.push == none && o.reg == n)) ++ [⟨none, n, queue, id⟩] }
  | _ => c

/-- XLEASE (R265). -/
def execXlease (x : Args) (m : BitVec 2) (s : State) : Out :=
  issue freeForm x s fun x s => finish s do
    let a := s.core.value x.a
    let b := s.core.value x.b
    let len := bits b 31 0
    demand (bits b 63 48 != 0 && bits b 47 32 == 0 && len != 0 && len % 1024 == 0) reservedField
    demandAt (a.toNat % 1024 == 0) alignCause a
    s.core.transferRoom m.toNat
    let id := (s.core.nextId m).toNat
    pure ((s.putTransfer m (.lease a.toNat len (bits b 63 48)) 0#8 0).modC fun c => c.owe x.d m.toNat id)

/-- XFREE (R265). -/
def execXfree (x : Args) (m : BitVec 2) (s : State) : Out :=
  issue freeForm x s fun x s => finish s do
    s.core.transferRoom m.toNat
    let id := s.core.nextId m
    pure ((s.putTransfer m (.free (s.core.value x.a)) 0#8 0).modC fun c => c.writeD x.d id)

/-- The queues XFENCE names: 0 to 3 x, 4 to 7 g, 8 matrix (R266). -/
def fenceQueues (a : Operand) (m : BitVec 4) : List Nat :=
  let g : BitVec 15 := match a with
    | .imm v => v
    | _ => 0#15
  ((List.range 4).filter fun n => m.getLsbD n) ++ ((List.range 5).filter fun n => g.getLsbD n).map (4 + ·)

/-- The last command issued to a queue, if it is not complete. -/
def Core.lastOf (c : Core) (q : Nat) : Option (Nat × Nat) :=
  if q < 4 then ((c.xq[q]?.getD []).getLast?).map fun t => (q, t.id)
  else if q < 8 then ((c.gq[q - 4]?.getD []).getLast?).map fun t => (q, t.id)
  else if c.mq.isEmpty then none else some (8, c.mqIssued)

/-- XFENCE (R266): a join. -/
def execXfence (x : Args) (m : BitVec 4) (s : State) : Out :=
  issue freeForm x s fun x s =>
    let qs := fenceQueues x.a m
    .done (s.modC fun c =>
      let need := qs.filterMap c.lastOf
      let joins := Vector.ofFn fun (i : Fin 9) =>
        let old := (c.joins.get i).filter fun n => !c.needDone [n]
        if qs.contains i.val then old ++ need else old
      { c with joins := joins })

/-- NEXT of a queue that XWAIT names. -/
def Core.queueNext (c : Core) (o : Operand) : Nat :=
  if specialSub o = 0 then c.xnext[specialIndex o]?.getD 0 else c.gnext[specialIndex o]?.getD 0

/-- DONE of a queue that XWAIT names. -/
def Core.queueDone (c : Core) (o : Operand) : Nat :=
  if specialSub o = 0 then (c.sys.xdone[specialIndex o]?.getD 0#64).toNat else (c.sys.gdone[specialIndex o]?.getD 0#64).toNat

/-- XWAIT (R267): an acquire. -/
def execXwait (x : Args) (s : State) : Out :=
  issue freeForm x s fun x s =>
    let m := (s.core.value x.b).toNat
    if s.core.queueNext x.a ≤ m then .trap (cause protCause) s
    else if m < s.core.queueDone x.a then .done s.acquire
    else .wait .engine s

/-- The queue status word (R267). -/
def queueWord (stopped : Bool) (n next : Nat) : Word :=
  BitVec.ofNat 64 ((if stopped then 2 ^ 63 else 0) + n * 2 ^ 58 + next % 2 ^ 48)

/-- XSTAT (R267). -/
def execXstat (x : Args) (s : State) : Out :=
  issue freeForm x s fun x s =>
    let q := specialIndex x.a
    .done (s.modC fun c => c.writeD x.d (queueWord (c.xstop == some q) (c.xq[q]?.getD []).length (c.xnext[q]?.getD 0)))

/-! ## Rows of a copy (R122, R264) -/

/-- The checks of a row at its far end. -/
def rowChecks (v : View) (ps : List Spot) (space : Nat) (a : Word) : Chk Unit := do
  demandFrom (rawShapeOk v ps) shapeCause 0#64
  demandFrom (space != 2 || ps.all (Spot.aligned a)) bankFmtCause a

/-- The race checks of a row at the tile. -/
def State.raceNear (s : State) (ps : List Spot) (i : Nat) (w : Bool) : Chk State :=
  let cells := ps.zip (List.range ps.length)
  (ps.map fun p => p.near.fmt).eraseDups.foldlM (fun (s : State) (f : Fmt) =>
    match ps.head? with
    | some p => s.raceCells f p.near.shape p.near.alt i ((cells.filter fun c => c.1.near.fmt == f).map (·.2)) w
    | none => .ok s) s

/-- Bytes that stand at a GLOBAL or PEER address, unchecked: what a partly covered byte keeps. -/
def State.oldBytes (s : State) (space : Nat) (a : Word) (n : Nat) : List Byte :=
  if space = 2 then (match s.peer a with
    | some k => Mem.getBytes k.ls (peerOff a) n
    | none => [])
  else match s.lookup a with
    | .ok (_, size, e) => Mem.getBytes (if remotePhys (physOf size e a) then s.podMem else s.mem) (physOf size e a) n
    | .error _ => []

/-- The page of an address collapses for a write of the core's engine, and is counted (spec/04 R73). -/
def State.engineCollapse (s : State) (va : Word) : State :=
  (s.collapsePage va).modSys fun r => { r with collctl := setBits r.collctl 47 0 (bits r.collctl 47 0 + 1) }

/-- A write of the engine to one GLOBAL piece. A replicated page collapses first (spec/04 R73); with TRAPEN the command stops
with COLLAPSE, and the collapse is made as it stops (log entry 75). -/
def State.engineWriteGlobal (s : State) (a : Word) (bs : List Byte) (check : Bool) : Chk State := do
  let s ← match s.translate a ⟨false, true, true, false⟩ with
    | .error (.wait (.collapse va)) =>
      if s.core.sys.collctl.getLsbD 63 then failFrom collapseCause va else pure (s.engineCollapse va)
    | _ => pure s
  let (t, p, e) ← s.translate a ⟨false, true, true, false⟩
  if remotePhys p then pure { t with podMem := Mem.putBytes t.podMem p bs }
  else
    let t := t.flushPiece (0, p / 64)
    let u ← raced (if check then t.raceGlobal t.core p e true (t.holdsMutex t.core) else .ok t) a
    pure { u with mem := Mem.putBytes u.mem p bs }

/-- A write of the engine to one piece of a core's local store. -/
def State.engineWritePeer (s : State) (a : Word) (bs : List Byte) (check : Bool) : Chk State :=
  match s.peer a with
  | none => failFrom protCause a
  | some tgt => do
    match s.reach s.core.die tgt.die a.toNat with
    | some code => failFrom code a
    | none => pure ()
    let t := s.flushPiece (2, a.toNat / 64)
    demandFrom (haspOk t.core tgt (peerOff a) false true false) nackCause a
    let u ← raced (if check then t.raceStore t.core tgt (peerOff a) true (t.holdsMutex t.core) else .ok t) a
    pure (u.onCore tgt.die tgt.num fun c => c.putLs (peerOff a) bs)

def Stop.isNack (e : Stop) : Bool :=
  match e with
  | .exc e => e.code == nackCause
  | _ => false

/-- Bytes written piece by piece, and counted at a byte-count object of the destination's quad (R124). `skip`: the pieces
that hasp windows refuse are left out, the others written (spec/19 R343). -/
def State.writeRun (s : State) (space : Nat) (a : Word) (bs : List Byte) (check : Bool) (count : Option Nat) (skip : Bool) :
    Chk State :=
  (pieceRuns a.toNat bs.length).foldlM (fun (s : State) (r : Nat × Nat) => do
    let b := a + BitVec.ofNat 64 r.1
    let part := (bs.drop r.1).take r.2
    match (if space = 0 then s.engineWriteGlobal b part check else s.engineWritePeer b part check) with
    | .error e => if skip && e.isNack then pure s else .error e
    | .ok t => match count, t.peer b with
      | some k, some tgt => pure (t.countBytes tgt.latch k r.2)
      | _, _ => pure t) s

/-- SATS at the bank of a PEER address (spec/02 R39). -/
def State.peerSats (s : State) (a : Word) : State :=
  match s.peer a with
  | none => s
  | some k => s.onCore k.die k.num fun c =>
    c.setBank (peerOff a / 0x20000) (c.bank (peerOff a / 0x20000) ||| (1#32 <<< 13))

/-- The hasp windows of a PEER address's core admit a write there. -/
def State.admitted (s : State) (a : Word) : Bool :=
  match s.peer a with
  | some k => haspOk s.core k (peerOff a) false true false
  | none => false

def ctlCount (w : Word) : Option Nat := if ctlKen w then some (ctlK w) else none

/-- Row i of a tile to a view row at address a. -/
def State.rowOut (s : State) (v : View) (i : Nat) (space : Nat) (a : Word) (rm : BitVec 2) (check : Bool)
    (count : Option Nat) (skip : Bool) : Chk State := do
  let ps := s.rowPlaces v space a
  let cells := ps.zip (List.range ps.length)
  match (if s.core.lsBad.isEmpty then none else cells.findSome? fun c => s.core.elemBad c.1.near i c.2) with
  | some b => failFrom eccCause (BitVec.ofNat 64 b)
  | none =>
    if ps.isEmpty then pure s
    else
      rowChecks v ps space a
      let s ← s.raceNear ps i false
      let out := cells.map fun c => moveCode c.1.near c.1.far (roundingOf rm) c.1.far.sat (s.core.rawElem c.1.near i c.2)
      let t ← s.writeRun space a (placesPack ps (out.map (·.1)) (s.oldBytes space a (placesLen ps))) check count skip
      pure ((ps.zip out).foldl (fun (t : State) (p : Spot × Nat × Bool) =>
        let b := a + BitVec.ofNat 64 (p.1.bit / 8)
        if space == 2 && p.2.2 && (!skip || s.admitted b) then t.peerSats b else t) t)

/-- Row i of a tile from a view row at address a; of a mirrored tile the bytes of the primary copy count at a latch (log entry 106). -/
def State.rowIn (s : State) (v : View) (i : Nat) (space : Nat) (a : Word) (rm : BitVec 2) (count : Option Nat) :
    Chk State := do
  let ps := s.rowPlaces v space a
  let cells := ps.zip (List.range ps.length)
  if ps.isEmpty then pure s
  else
    rowChecks v ps space a
    let (t, bs) ← s.readRun space a (placesLen ps)
    let t ← t.raceNear ps i true
    let row := ofBytes bs
    let u := t.modC fun c => cells.foldl (fun (c : Core) (p : Spot × Nat) =>
      let l := p.1.near
      c.putVal l i p.2 (moveCode p.1.far l (roundingOf rm) l.sat (row / 2 ^ p.1.bit % 2 ^ p.1.far.fmt.width))) c
    pure (match count with
      | some k => u.countBytes u.core.latch k (ceilDiv ((ps.map fun p => p.near.fmt.step).foldl (· + ·) 0) 8)
      | none => u)

/-- Row i of a cast at every target; a target whose hasp windows refuse is skipped (R123). -/
def State.rowCast (s : State) (v : View) (i : Nat) (mask ctl : Word) (rm : BitVec 2) : Chk (State × Option Word) :=
  match s.castTargets mask ctl with
  | none => failFrom protCause 0#64
  | some ts => ts.foldlM (fun (acc : State × Option Word) (k : Core) =>
      let a := peerAddress k (castOffset ctl + i * castPitch ctl)
      match acc.1.rowOut v i 2 a rm true (ctlCount ctl) false with
      | .ok t => .ok (t, acc.2)
      | .error (.exc e) =>
        if e.code = nackCause then do
          let t ← acc.1.rowOut v i 2 a rm true (ctlCount ctl) true
          pure (t, acc.2.or (some e.eva))
        else .error (.exc e)
      | .error st => .error st) (s, none)

/-- The pieces of a refused row that the target's windows admit are written (spec/19 R343). -/
def State.partRow (s : State) (t : Transfer) (i : Nat) : State :=
  match t.kind with
  | .copyOut r alt a w rm =>
    (match s.rowOut (s.core.viewOf r alt) i (ctlSpace w) (a + BitVec.ofNat 64 (i * ctlPitch w)) rm true (ctlCount w) true with
      | .ok u => u
      | .error _ => s)
  | _ => s

/-- Row i of a command. -/
def State.moveRow (s : State) (t : Transfer) (i : Nat) : Chk (State × Option Word) :=
  match t.kind with
  | .copyOut r alt a w rm => do
    let u ← s.rowOut (s.core.viewOf r alt) i (ctlSpace w) (a + BitVec.ofNat 64 (i * ctlPitch w)) rm true (ctlCount w) false
    pure (u, none)
  | .copyIn r alt a w rm => do
    let u ← s.rowIn (s.core.viewOf r alt) i (ctlSpace w) (a + BitVec.ofNat 64 (i * ctlPitch w)) rm (ctlCount w)
    pure (u, none)
  | .cast r alt mask ctl rm => s.rowCast (s.core.viewOf r alt) i mask ctl rm
  | _ => .ok (s, none)

/-! ## Leases (R265, spec/19 R340) -/

/-- Lines of a region: their physical numbers, none where a page is replicated. -/
def State.leaseLines (s : State) (a n : Nat) : Chk (State × Option (List Nat)) :=
  (List.range (n / 1024)).foldlM (fun (acc : State × Option (List Nat)) (k : Nat) => do
    let (t, p, e) ← acc.1.translate (BitVec.ofNat 64 (a + 1024 * k)) ⟨true, false, false, false⟩
    pure (t, if e.getLsbD 3 then none else acc.2.map (p / 1024 :: ·))) (s, some [])

/-- At most 8 of the 16 ways of a set are leased (spec/04 R74): granules leased in one set of one slice. -/
def State.waysOk (s : State) (lines : List Nat) : Bool :=
  let granules := ((s.liveLeases.flatMap (·.lines)) ++ lines).map (· / 2) |>.eraseDups
  let place := fun (g : Nat) => (s.homeOf s.core.die (g * 2048), Config.setOf g % 4096)
  (lines.map (· / 2)).eraseDups.all fun g => decide ((granules.filter fun h => place h == place g).length ≤ 8)

/-- A free entry of the context's table and a serial that differs from the entry's last. -/
def State.leaseHandle (s : State) : Option (Nat × Nat) :=
  let used := (s.liveLeases.filter fun l => l.ctx == s.core.ctx).map (·.index)
  let free := (List.range 256).filter fun i => !used.contains i
  let pick := Config.leaseChoice s.free
  match free[pick % max free.length 1]? with
  | none => none
  | some i =>
    let last := lookupD s.leaseSerial (s.core.ctx * 256 + i) 0
    let serials := ((List.range 255).map (· + 1)).filter (· != last)
    (serials[pick / 256 % max serials.length 1]?).map fun n => (i, n)

/-- The handle reaches the position or register that waits for it. -/
def Core.deliver (c : Core) (queue id : Nat) (v : Word) : Core :=
  match c.owed.find? fun o => o.queue == queue && o.id == id with
  | none => c
  | some o =>
    let c := { c with owed := c.owed.filter fun o => !(o.queue == queue && o.id == id) }
    match o.push with
    | none => c.writeS o.reg v
    | some p =>
      let age := c.pushes - 1 - p
      if h : age < 16 then { c with q := c.q.set age v h } else c

def TransferKind.isLease (k : TransferKind) : Bool :=
  match k with
  | .lease _ _ _ => true
  | _ => false

/-- A lease is taken, or refused with handle 0. -/
def State.takeLease (s : State) (q id a n ticks : Nat) : Chk State := do
  let (t, lines) ← s.leaseLines a n
  match lines with
  | none => pure (t.modC fun c => c.deliver q id 0#64)
  | some ls =>
    if t.waysOk ls then
      match t.leaseHandle with
      | none => pure (t.modC fun c => c.deliver q id 0#64)
      | some (i, serial) =>
        let h := BitVec.ofNat 64 (i * 256 + serial)
        let l : Lease := { ctx := t.core.ctx, index := i, base := a, length := n, lines := ls, endTick := t.tick + ticks, handle := h }
        let u : State := { t with leases := l :: t.liveLeases, leaseSerial := assign t.leaseSerial (t.core.ctx * 256 + i) serial
                                  free := t.free + 1 }
        pure (u.modC fun c => c.deliver q id h)
    else pure (t.modC fun c => c.deliver q id 0#64)

/-! ## Steps of a transfer queue -/

/-- The bytes two rows lie in meet a common 64-byte piece. -/
def samePiece (lo1 hi1 lo2 hi2 : Nat) : Bool := decide (lo1 / 64 ≤ hi2 / 64) && decide (lo2 / 64 ≤ hi1 / 64)

/-- Row i shares a piece with the row before it, at either end: the pieces of a copy are never torn (spec/04 R85). -/
def State.rowJoined (s : State) (t : Transfer) (i : Nat) : Bool :=
  let rows := fun (v : View) (space : Nat) (a : Word) (pitch : Nat) =>
    let near := fun (i : Nat) => match s.rowPlaces v space (a + BitVec.ofNat 64 (i * pitch)) with
      | p :: _ => rowPieces p.near.fmt v.shape v.alt i (List.range v.vcols)
      | [] => []
    let far := fun (i : Nat) =>
      let b := a + BitVec.ofNat 64 (i * pitch)
      (b.toNat, b.toNat + placesLen (s.rowPlaces v space b) - 1)
    (near (i - 1)).any (near i).contains || samePiece (far (i - 1)).1 (far (i - 1)).2 (far i).1 (far i).2
  i != 0 && match t.kind with
    | .copyOut r alt a w _ => rows (s.core.viewOf r alt) (ctlSpace w) a (ctlPitch w)
    | .copyIn r alt a w _ => rows (s.core.viewOf r alt) (ctlSpace w) a (ctlPitch w)
    | .cast r alt mask w _ => ((s.castTargets mask w).getD []).any fun k =>
        rows (s.core.viewOf r alt) 2 (peerAddress k (castOffset w)) (castPitch w)
    | _ => false

/-- At least n rows of a command, in ascending order; a stop with what was done before it. -/
def State.moveRows (fuel n : Nat) (s : State) (t : Transfer) : State × Transfer × Option Stop :=
  match fuel with
  | 0 => (s, { t with done := true }, none)
  | k + 1 =>
    if n = 0 && !s.rowJoined t t.rows then (s, t, none)
    else match s.moveRow t t.rows with
      | .ok (u, sk) => State.moveRows k (n - 1) u { t with rows := t.rows + 1, skipped := t.skipped.or sk }
      | .error e => (if e.isNack then s.partRow t t.rows else s, t, some e)

/-- A flit of each target of line b of a timed command (R270). -/
def State.sendLine (s : State) (q : Nat) (t : Transfer) (r : Shape) (off : Nat) (routes : List Nat) (rm : BitVec 2) : State :=
  let v := s.core.viewOf r false
  let copy : FlitCopy := { queue := q, id := t.id, tile := r, code := v.code, scale := v.scale, line := t.rows, off := off, rm := rm }
  let data := s.core.tileLine v t.rows
  routes.foldl (fun (s : State) (n : Nat) => s.injectFlit s.core n (t.start + t.rows + 1) t.issued data (some copy)) s

/-- The tile, target offset and routes of a timed command. -/
def TransferKind.lane (k : TransferKind) : Option (Shape × Nat × List Nat × BitVec 2) :=
  match k with
  | .copyOut r _ a w rm => some (r, peerOff a, [ctlRoute w], rm)
  | .cast r _ mask w rm =>
    let n := ((List.range 64).filter fun b => mask.getLsbD b).length
    some (r, castOffset w, (List.range n).map fun k => (ctlRoute w + k) % 256, rm)
  | _ => none

/-- Replaces the command with an id in a queue. -/
def Core.setTransfer (c : Core) (q : Nat) (t : Transfer) : Core :=
  if h : q < 4 then { c with xq := c.xq.set q ((c.xq[q]'h).map fun u => if u.id == t.id then t else u) h } else c

/-- Whole rows among the lines that a timed command has sent (R127). -/
def Transfer.sentRows (c : Core) (t : Transfer) : Nat :=
  match t.kind.lane with
  | some (r, _, _, _) => min (2048 * t.rows / ((c.viewOf r false).fmt.step * recCols r)) 63
  | none => 0

/-- Where a command goes on from a row: a timed one at the line with the row's first element. -/
def Transfer.fromRow (c : Core) (t : Transfer) (rows : Nat) : Nat :=
  match (if t.timed then t.kind.lane else none) with
  | some (r, _, _, _) => rows * recCols r * (c.viewOf r false).fmt.step / 2048
  | none => rows

/-- The next line of a timed command: condition 4 where its queue holds a free-phase command when it begins (R126); an
uncorrectable error in it stops the command (spec/03 R61, R127), a corrected one is condition 3. -/
def State.timedLine (s : State) (q : Nat) (t : Transfer) : State :=
  let s := s.reachCycle (t.start + t.rows)
  let set := fun (u : State) (t : Transfer) => u.modC fun c => c.setTransfer q t
  match t.kind.lane with
  | none => set s { t with done := true }
  | some (r, off, routes, rm) =>
    if t.rows = 0 && (s.core.xq[q]?.getD []).any fun u => !u.timed then s.rollback 4
    else
      let a := recBase r + 256 * t.rows
      s.correcting a 256 fun s => match s.core.lsBadAt a 256 with
        | some b => set (s.engineFault q t.id (t.sentRows s.core) false t.hm (causeAt eccCause (BitVec.ofNat 64 b))) { t with begun := true }
        | none => set (s.sendLine q t r off routes rm)
            { t with begun := true, rows := t.rows + 1, done := decide (flitCount (s.core.viewOf r false) ≤ t.rows + 1) }

/-- The engines of a core serve its queues until it is acknowledged for a pre-emption (R128, spec/15 R296). -/
def Core.engineRuns (c : Core) : Bool := c.run != .killed && c.run != .acked && c.run != .dark

/-- The timed command of queue q with the earliest line still to send: each begins on its own cycle (R126). -/
def Core.timedNext (c : Core) (q : Nat) : Option Transfer :=
  if c.xstop == some q || !c.engineRuns then none
  else (c.xq[q]?.getD []).foldl (fun (b : Option Transfer) (t : Transfer) =>
    if !t.timed || t.done then b
    else match b with
      | some u => if t.start + t.rows < u.start + u.rows then some t else some u
      | none => some t) none

def Core.setHead (c : Core) (q : Nat) (t : Transfer) : Core :=
  if h : q < 4 then
    let l : List Transfer := match c.xq[q]'h with
      | _ :: rest => t :: rest
      | [] => []
    { c with xq := c.xq.set q l h }
  else c

/-- The head of queue q that may move. -/
def Core.readyHead (c : Core) (q : Nat) : Option Transfer :=
  match (c.xq[q]?.getD []).head? with
  | some t => if c.xstop != some q && !t.done && c.needDone t.need && c.engineRuns then some t else none
  | none => none

/-- What a transfer command with rows to move is left to do. -/
def TransferKind.total (c : Core) (k : TransferKind) : Nat :=
  match k with
  | .copyOut r alt _ _ _ => (c.viewOf r alt).vrows
  | .copyIn r alt _ _ _ => (c.viewOf r alt).vrows
  | .cast r alt _ _ _ => (c.viewOf r alt).vrows
  | _ => 0

/-- Stores of the core to its own local store by way of PEER space are performed before its engine reads there (spec/16 R301). -/
def State.flushSelf (s : State) : State :=
  match (List.range s.core.stores.length).reverse.find? fun k => (s.core.stores[k]?).any fun t =>
      t.space == 2#3 && (s.peer t.addr).any fun k => k.is s.core.die s.core.num with
  | some k => State.performFirst (k + 1) s
  | none => s

/-- TRANSFER_COMMAND_START: the head command of a queue of the focused core moves rows, or its next line. -/
def execTransferCommandStart (queue : BitVec 2) (rows : Nat) (s : State) : Out :=
  let q := queue.toNat
  let s := if (s.core.readyHead q).isSome then s.flushSelf else s
  match (s.core.readyHead q).filter fun t => !t.timed, s.core.timedNext q with
  | none, some t => .next (s.timedLine q t)
  | none, none => .next s
  | some t, _ => match t.kind with
      | .lease a n ticks =>
        (match s.takeLease q t.id a n ticks with
          | .ok u => .next (u.modC fun c => c.setHead q { t with begun := true, done := true })
          | .error (.exc e) => .next (s.engineFault q t.id 0 false t.hm e)
          | .error _ => .next s)
      | .free h =>
        .next ({ s with leases := s.leases.filter fun l => !(l.ctx == s.core.ctx && l.handle == h) }.modC fun c =>
          c.setHead q { t with begun := true, done := true })
      | k =>
        let (u, t', stopped) := State.moveRows (k.total s.core - t.rows) rows s { t with begun := true }
        let v := u.modC fun c => c.setHead q t'
        match stopped with
        | some (.exc e) =>
          let w := if e.code = collapseCause && !v.core.xfaulted then v.engineCollapse e.eva else v
          .next (w.engineFault q t.id t'.rows false t.hm e)
        | _ => .next v

/-- Writes of a timed command that are still under way. -/
def State.linesInFlight (s : State) (q : Nat) : Bool :=
  s.flits.any fun f => f.src == s.core.die * 8 + s.core.num && (f.copy.map (·.queue)) == some q

/-- The control word of a command that posts. -/
def TransferKind.post (k : TransferKind) : Option Word :=
  match k with
  | .copyOut _ _ _ w _ => if ctlPen w then some w else none
  | .copyIn _ _ _ w _ => if ctlPen w then some w else none
  | _ => none

/-- The EVENT address of the line to which a control word posts. -/
def postAddress (w : Word) : Word :=
  BitVec.ofNat 64 (ctlPostLatch w / 2 * 2 ^ 24 + ctlPostLatch w % 2 * 2 ^ 23 + ctlPostLine w * 16)

/-- The post of a command does not reach its line (spec/18 R311, R326). -/
def State.postLost (s : State) (k : TransferKind) : Option Word :=
  k.post.filter fun w => (s.reach s.core.die (ctlPostLatch w / 2) (postAddress w).toNat).isSome

/-- The post of a completed command (R262); one that is lost is LINK at the command. -/
def State.postOf (s : State) (q : Nat) (t : Transfer) : State :=
  match s.postLost t.kind, t.kind.post with
  | some w, _ => s.engineFault q t.id t.rows true t.hm (causeAt linkCause (postAddress w))
  | none, some w => s.addLine (ctlPostLatch w) (ctlPostLine w) 1#32
  | none, none => s

/-- The head of a queue is finished and may complete; one with a cause to report waits for the record of an earlier one. -/
def State.completable (s : State) (q : Nat) : Option Transfer :=
  match (s.core.xq[q]?.getD []).head? with
  | some t =>
    if t.done && !s.linesInFlight q && ((t.skipped.isNone && (s.postLost t.kind).isNone) || !s.core.xfaulted) then some t else none
  | none => none

/-- TRANSFER_COMMAND_COMPLETION: XDONE advances, the post is made, a skipped target is reported. -/
def execTransferCommandCompletion (queue : BitVec 2) (s : State) : Out :=
  let q := queue.toNat
  match s.completable q with
  | none => .next s
  | some t =>
    let u := (s.reachCycle t.finish).modC fun c =>
      { c with xq := c.xq.set q ((c.xq.get queue.toFin).tail) queue.isLt
               sys := { c.sys with xdone := c.sys.xdone.set q (BitVec.ofNat 64 ((t.id + 1) % 2 ^ 48)) queue.isLt } }
    let v := u.postOf q t
    .next (match t.skipped with
      | some a => v.engineFault q t.id t.rows true t.hm (causeAt nackCause a)
      | none => v)

/-- LEASE_EXPIRY: a lease of the focused core's context whose end Tick has come (R125). -/
def execLeaseExpiry (index : Nat) (s : State) : Out :=
  .next { s with leases := s.leases.filter fun l =>
    !(l.ctx == s.core.ctx && l.index == index && decide (l.endTick ≤ s.tick)) }

/-! ## Arrival of a static flit -/

/-- Replaces the bits of element e in those of its bytes that may be written. -/
def Core.putWhere (c : Core) (ok : Nat → Bool) (f : Fmt) (base e v : Nat) : Core :=
  let d := c.putCode f base e v
  let lo := elemFirst f base e
  (List.range (elemLast f base e + 1 - lo)).foldl (fun (c : Core) (k : Nat) =>
    if ok (lo + k) then c.putLs (lo + k) [Mem.get d.ls (lo + k)] else c) c

/-- A piece-wise write of a line that has arrived: what lies in pieces the hasp windows admit, an element that two lines share
converted when its end arrives, through the bank's port on the
cycle after it arrives (R126, R270). -/
def State.landLine (s : State) (f : Flit) (k : FlitCopy) : State :=
  match s.find f.die f.core, s.find (f.src / 8) (f.src % 8) with
  | some tgt, some src =>
    let bank := (k.off + 256 * k.line) / 0x20000
    let b := tgt.bank bank
    let sv : View := { src.viewOf k.tile false with fmt := fmtOf k.code, code := k.code, scale := k.scale }
    let (l, w) := copyEnds sv (some b)
    let busy := tgt.timed.active && portTaken tgt.board.ports bank true (f.due + 1)
    if busy ∨ (w.code ≠ 0 ∧ w.fmt.step ≠ sv.fmt.step) then s.within f.die f.core fun t => t.rollback 3
    else
      let data := ofBytes f.data
      let cells := (lineCells l k.line).map fun c =>
        let code := lineCode l.fmt k.line data c.1 (tgt.code w.fmt k.off c.1)
        (c.1, if l.fmt.step * (c.1 + 1) ≤ 2048 * (k.line + 1) then moveCode l w (roundingOf k.rm) w.sat code else (code, false))
      let ok := fun (a : Nat) => haspOk src tgt a false true false
      let touched := fun (e : Nat) =>
        let lo := elemFirst w.fmt k.off e
        (List.range (elemLast w.fmt k.off e + 1 - lo)).map (lo + ·)
      let refused := (cells.flatMap fun c => touched c.1).find? fun a => !ok a
      let good := cells.filter fun c => (touched c.1).any ok
      let t := s.onCore f.die f.core fun c =>
        let c : Core := if c.timed.active then
          { c with board := { c.board with ports := ⟨bank, true, f.due + 1, 1, 1⟩ :: c.board.ports } } else c
        let c := good.foldl (fun (c : Core) p => c.putWhere ok w.fmt k.off p.1 p.2.1) c
        if good.any fun p => p.2.2 then c.setBank bank (c.bank bank ||| (1#32 <<< 13)) else c
      match refused with
      | some a => t.onCore src.die src.num fun c => match (c.xq[k.queue]?.getD []).find? fun h => h.id == k.id with
          | some h => c.setTransfer k.queue { h with skipped := h.skipped.or (some (peerAddress tgt a)) }
          | none => c
      | none => t
  | _, _ => s

/-- When a flit acts, and in what order within that cycle: it enters a receive buffer, or is missed, at its due cycle; a line
of a copy is written on the cycle after, behind what issues then (spec/08 R158, R165). -/
def Flit.time (f : Flit) : Nat × Nat := if f.lost.isNone && f.copy.isSome then (f.due + 1, 4) else (f.due, 0)

/-- The flit to a core of the focused core's field that acts next, the oldest of those of one moment. -/
def State.nextFlit (s : State) : Option Flit :=
  (s.flits.filter fun f => ((s.find f.die f.core).bind Core.field) == s.core.field).foldl (fun (b : Option Flit) (f : Flit) => match b with
    | none => some f
    | some g => if f.time.1 < g.time.1 ∨ (f.time.1 = g.time.1 ∧ f.time.2 < g.time.2) then some f else some g) none

/-- STATIC_FLIT_ARRIVAL: the next flit enters the receive buffer of its core, is written, or is missing at its due cycle
(condition 9 of R161). -/
def execStaticFlitArrival (discarded : Bool) (s : State) : Out :=
  match s.nextFlit with
  | none => .next s
  | some f =>
    let t : State := { s with flits := s.flits.erase f }
    .next (if discarded || f.lost.isSome then (t.reachCycle f.due).within f.die f.core fun u => u.rollback 9
      else match f.copy with
        | some k => (t.reachCycle (f.due + 1)).landLine f k
        | none => (t.reachCycle f.due).onCore f.die f.core fun c => { c with rxbuf := c.rxbuf ++ [f] })

end Sys2Proof.Machine
end

