-- ==== Sys2Proof/Machine/RoodEngine.lean ====
section
/-!
DEFINITION. The Rood engine (spec/06 R129 to R136, spec/14 R268, R269): GTAB, GREST, GPROL, GCONV, GSTAT, and the steps of
the engine of a die.
-/

namespace Sys2Proof.Machine

/-! ## The command word (R131) -/

def cwTab (w : Word) : Nat := bits w 1 0
def cwBnd (w : Word) (axis : Nat) : Nat := bits w (3 + 2 * axis) (2 + 2 * axis)
def cwCell (w : Word) : Bool := w.getLsbD 8
def cwH (w : Word) : Nat := bits w 10 9
def cwNzs (w : Word) : Nat := bits w 17 11
def cwNzd (w : Word) : Nat := bits w 24 18
def cwAdd (w : Word) : Bool := w.getLsbD 25
def cwRm (w : Word) : BitVec 2 := BitVec.ofNat 2 (bits w 27 26)
def cwMen (w : Word) : Bool := w.getLsbD 38
def cwMtile (w : Word) : BitVec 5 := BitVec.ofNat 5 (bits w 43 39)

/-- The format code of the source or destination: the override, or 0 for the bank's. -/
def cwOvs (w : Word) : Nat := if w.getLsbD 28 then bits w 32 29 else 0
def cwOvd (w : Word) : Nat := if w.getLsbD 33 then bits w 37 34 else 0

inductive RoodOp where
  | restrict | prolong | convert
  deriving DecidableEq, Repr

/-- RESERVED_FIELD of the command word that no table decides. -/
def cwOk (op : RoodOp) (w : Word) : Bool :=
  bits w 63 44 == 0 && cwH w != 3 && (op == .prolong || !cwAdd w) && decide (1 ≤ cwNzs w ∧ cwNzs w ≤ 64)
    && decide (1 ≤ cwNzd w ∧ cwNzd w ≤ 64)

/-- Override codes 0 and 10 to 15 raise BANK_FMT. -/
def cwFmtOk (w : Word) : Bool :=
  (!w.getLsbD 28 || decide (1 ≤ bits w 32 29 ∧ bits w 32 29 ≤ 9)) && (!w.getLsbD 33 || decide (1 ≤ bits w 37 34 ∧ bits w 37 34 ≤ 9))

/-- A tile of a Rood command under its bank and an override. -/
def Core.roodView (c : Core) (r : Shape) (override : Nat) : View :=
  let v := c.viewOf r false
  if override = 0 then v else { v with fmt := fmtOf override, code := override }

/-! ## Grids (R132) -/

/-- A grid of a tile: points, planes, rows of a plane, halo. -/
structure Grid where
  nx : Int
  ny : Int
  nz : Int
  band : Nat
  /-- halo in rows and columns, and in planes -/
  h  : Nat
  hz : Nat
  deriving DecidableEq, Repr

/-- Planes divide the rows. -/
def planesOk (r : Shape) (nz : Nat) : Bool := recVrows r % nz == 0 && recRows r % nz == 0

def gridOf (r : Shape) (nz h : Nat) (dim3 : Bool) : Grid :=
  if dim3 then { nx := (recVcols r : Int) - 2 * h, ny := ((recVrows r / nz : Nat) : Int) - 2 * h, nz := (nz : Int) - 2 * h
                 band := recRows r / nz, h := h, hz := h }
  else { nx := (recVcols r : Int) - 2 * h, ny := (recVrows r : Int) - 2 * h, nz := 1, band := recRows r, h := h, hz := 0 }

def Grid.ok (g : Grid) : Bool := decide (1 ≤ g.nx) && decide (1 ≤ g.ny) && decide (1 ≤ g.nz)

/-- ceil(n ÷ 2). -/
def coarse (n : Int) : Int := (n + 1) / 2

/-- a holds at least the extents of b. -/
def Grid.holds (a : Grid) (x y z : Int) : Bool := decide (x ≤ a.nx) && decide (y ≤ a.ny) && decide (z ≤ a.nz)

/-- Tile row and column of a grid point. -/
def Grid.row (g : Grid) (k j : Int) : Int := (k + g.hz) * g.band + j + g.h
def Grid.col (g : Grid) (i : Int) : Int := i + g.h

/-! ## Boundary (R134) -/

/-- The index an axis reads: none for the zero rule. -/
def boundary (rule : Nat) (cell : Bool) (n h i : Int) : Option Int :=
  let lo := -h
  let hi := n - 1 + h
  let c := if cell then 1 else 0
  let clamp := fun (x : Int) => max lo (min hi x)
  if lo ≤ i ∧ i ≤ hi then some i
  else match rule with
    | 0 => none
    | 1 => some (clamp (if i < lo then 2 * lo - c - i else 2 * hi + c - i))
    | 2 => some (clamp i)
    | _ => some (lo + (i - lo) % (hi - lo + 1))

/-- The tile row and column that a source point is read at, none for the zero rule. -/
def gridCell (g : Grid) (w : Word) (z y x : Int) : Option (Nat × Nat) := do
  let z ← boundary (cwBnd w 2) (cwCell w) g.nz g.hz z
  let y ← boundary (cwBnd w 1) (cwCell w) g.ny g.h y
  let x ← boundary (cwBnd w 0) (cwCell w) g.nx g.h x
  pure ((g.row z y).toNat, (g.col x).toNat)

/-- The source value at a grid point. -/
def Core.gridRead (c : Core) (v : View) (g : Grid) (w : Word) (z y x : Int) : Val :=
  match gridCell g w z y x with
  | some p => decodeVal v.fmt (c.code v.fmt (recBase v.shape) (elemIndex v.shape false p.1 p.2)) v.scale
  | none => decodeVal v.fmt 0 v.scale

/-! ## Issue (R268, R269) -/

/-- A full Rood queue. -/
def Core.roodRoom (c : Core) (q : Nat) : Chk Unit :=
  match c.gq[q]? with
  | some l => if l.length < 8 then .ok () else if c.timed.active then .error (.timing 2) else .error (.wait .interlock)
  | none => .ok ()

/-- The operation and tiles of a command. -/
def RoodKind.parts (k : RoodKind) : Option (RoodOp × Shape × Shape × Shape × Word) :=
  match k with
  | .table _ _ => none
  | .restrict d a m w => some (.restrict, d, a, m, w)
  | .prolong d a m w => some (.prolong, d, a, m, w)
  | .convert d a m w => some (.convert, d, a, m, w)

/-- The tiles that a command reads: source, mask, and with ADD the destination. -/
def Core.roodSources (c : Core) (k : RoodKind) : List Extent :=
  match k.parts with
  | none => []
  | some (_, d, a, m, w) => (c.roodView a (cwOvs w)).extents ++ (if cwMen w then (c.viewOf m false).extents else [])
      ++ (if cwAdd w then (c.roodView d (cwOvd w)).extents else [])

/-- A command enters queue g. -/
def State.putRood (s : State) (q : BitVec 2) (k : RoodKind) (soff : BitVec 8) : State :=
  s.modC fun c =>
    let id := c.gnext.get q.toFin
    let t : Rood := { id := id, kind := k, rows := 0, begun := false, done := false, timed := c.timed.active
                      start := s.startCycle soff, finish := 0, need := c.joins[4 + q.toNat]?.getD [] ++ c.writersOf (c.roodSources k)
                      hm := c.handler, seen := [] }
    { c with gq := c.gq.set q.toNat (c.gq.get q.toFin ++ [t]) q.isLt, gnext := c.gnext.set q.toNat ((id + 1) % 2 ^ 48) q.isLt }

/-- The table a command uses. -/
def Core.tableOf (c : Core) (w : Word) : Stencil := c.gt[cwTab w]?.getD ⟨0, false, []⟩

/-- The grids of a command: source and destination. -/
def Core.roodGrids (c : Core) (op : RoodOp) (d a : Shape) (w : Word) : Grid × Grid :=
  let dim3 := if op = .convert then decide (1 < cwNzs w) || decide (1 < cwNzd w) else (c.tableOf w).dim3
  (gridOf a (cwNzs w) (cwH w) dim3, gridOf d (cwNzd w) (cwH w) dim3)

/-- The extents written: coarse ones for GREST, the destination's for GPROL, the source's for GCONV. -/
def roodExtent (op : RoodOp) (gs gd : Grid) : Int × Int × Int :=
  match op with
  | .restrict => (coarse gs.nx, coarse gs.ny, coarse gs.nz)
  | .prolong => (gd.nx, gd.ny, gd.nz)
  | .convert => (gs.nx, gs.ny, gs.nz)

/-- Cycles a command takes (R136). -/
def Core.roodCycles (c : Core) (k : RoodKind) : Nat :=
  match k.parts with
  | none => 8
  | some (op, d, a, _, w) =>
    let (gs, gd) := c.roodGrids op d a w
    let (nx, ny, nz) := roodExtent op gs gd
    let p := (nx * ny * nz).toNat
    match op with
    | .convert => 24 + ceilDiv (packedLen (c.roodView a (cwOvs w)).fmt p) 256
    | op =>
      let t := c.tableOf w
      let e := match op with
        | .prolong => (List.range 8).foldl (fun b q => max b (t.entries.filter fun e => e.par == q).length) 1
        | _ => max 1 t.entries.length
      24 + ceilDiv p (min 32 (288 / e))

/-- A timed command takes its place in the timetable: condition 4 where an earlier operation that writes a source is
outstanding at its start (R126); D is not there before its end, with the tables that are queued. -/
def State.bookRood (s : State) (k : RoodKind) (d : View) (srcs : List View) (start : Nat) : Chk State :=
  let c := s.core
  if !c.timed.active then .ok s
  else do
    let late := srcs.any fun v => v.extents.any (c.earlyBytes start)
    let b := c.board.prune c.now
    let b := if late then b.condition start 4 else b
    let tables := c.gq.toList.flatten.foldl (fun (g : Vector Stencil 4) (t : Rood) => match t.kind with
      | .table n v => if h : n < 4 then g.set n v h else g
      | _ => g) c.gt
    let finish := start + { c with gt := tables }.roodCycles k
    let b := d.extents.foldl (fun (b : Board) x => b.produce c.now (.tile x) finish) b
    pure { s with core := ← c.accept b }

/-- GTAB (R268): in a timed phase the table is read through its bank's port at issue (spec/02 R40). -/
def execGtab (x : Args) (m : GMod) (s : State) : Out :=
  notOnMemoryCore (transferForm m.soff []) x s fun x s => settleWith s do
    let a := s.core.value x.a
    let slot := match x.b with
      | .imm v => v.toNat
      | _ => 0
    demandAt (a.toNat % 128 == 0) alignCause a
    demandAt (decide (a.toNat < 0x200000)) protCause a
    let (t, lo) ← s.readLocal a 64 true
    let (u, hi) ← t.readLocal (a + 64#64) 64 true
    match parseTable (lo ++ hi) with
    | none => stop reservedField
    | some table =>
      u.core.roodRoom m.queue.toNat
      let z ← u.lineAccess [bytesExtent a.toNat 128] 0 false 0
      pure (if z.core.timed.active && z.core.weakAt a.toNat 128 then .timing 3 (u.modC fun c => c.correct a.toNat 128)
        else .done (z.putRood m.queue (.table slot table) m.soff))

/-- The SHAPE checks that no table decides (R132, R133, R135). -/
def roodShapeOk (op : RoodOp) (d a k : View) (w : Word) : Bool :=
  d.shapeOk && a.shapeOk && (!cwMen w || k.shapeOk) && planesOk a.shape (cwNzs w) && planesOk d.shape (cwNzd w)
    && (!cwMen w || decide (recVrows d.shape ≤ recRows k.shape ∧ recVcols d.shape ≤ recCols k.shape))
    && !d.meets a && (!cwMen w || (!d.meets k && !a.meets k))
    && (op != .convert ||
      (let dim3 := decide (1 < cwNzs w) || decide (1 < cwNzd w)
       let gs := gridOf a.shape (cwNzs w) (cwH w) dim3
       let gd := gridOf d.shape (cwNzd w) (cwH w) dim3
       gs.ok && gd.ok && gd.holds gs.nx gs.ny gs.nz))

/-- GREST, GPROL and GCONV at issue. -/
def rood (op : RoodOp) (x : Args) (m : GMod) (s : State) (mk : Shape → Shape → Shape → Word → RoodKind) : Out :=
  notOnMemoryCore (transferForm m.soff []) x s fun x s => finish s do
    let w := s.core.value x.b
    let d := s.core.roodView (s.core.tileOf x.d) (cwOvd w)
    let a := s.core.roodView (s.core.tileOf x.a) (cwOvs w)
    let k := s.core.viewOf (s.core.tile (cwMtile w)) false
    demand (s.core.hintOk x && cwOk op w) reservedField
    demand ((s.core.stream (regOf x.d)).isNone && (s.core.stream (regOf x.a)).isNone
      && (!cwMen w || (s.core.stream (cwMtile w)).isNone)) streamCause
    demand (roodShapeOk op d a k w) shapeCause
    demand (cwFmtOk w && d.code != 0 && a.code != 0 && s.core.mirrorOk d && s.core.mirrorOk a
      && (!cwMen w || (k.fmt == .m1 && s.core.mirrorOk k))) bankFmtCause
    s.core.roodRoom m.queue.toNat
    let kind := mk d.shape a.shape k.shape w
    let s ← s.bookRood kind d (a :: (if cwMen w then [k] else [])) (s.startCycle m.soff)
    pure (s.putRood m.queue kind m.soff)

/-- GREST. -/
def execGrest (x : Args) (m : GMod) (s : State) : Out := rood .restrict x m s .restrict

/-- GPROL. -/
def execGprol (x : Args) (m : GMod) (s : State) : Out := rood .prolong x m s .prolong

/-- GCONV. -/
def execGconv (x : Args) (m : GMod) (s : State) : Out := rood .convert x m s .convert

/-- GSTAT (R267). -/
def execGstat (x : Args) (s : State) : Out :=
  notOnMemoryCore freeForm x s fun x s =>
    let q := specialIndex x.a
    .done (s.modC fun c =>
      c.writeD x.d (queueWord (c.xstop == some (4 + q)) (c.gq[q]?.getD []).length (c.gnext[q]?.getD 0)))

/-! ## The engine (R129, R133) -/

/-- The checks the engine makes when it takes a command (R269). -/
def Core.roodTakeCheck (c : Core) (op : RoodOp) (d a : Shape) (w : Word) : Chk Unit := do
  if op = .convert then pure ()
  else
    let t := c.tableOf w
    let (gs, gd) := c.roodGrids op d a w
    demandFrom (!t.entries.isEmpty) reservedField 0#64
    demandFrom (t.dim3 || (cwNzs w == 1 && cwNzd w == 1)) reservedField 0#64
    demandFrom (op != .restrict || t.entries.all fun e => e.par == 0) reservedField 0#64
    demandFrom (gs.ok && gd.ok) shapeCause 0#64
    demandFrom (if op = .restrict then gd.holds (coarse gs.nx) (coarse gs.ny) (coarse gs.nz)
      else gs.holds (coarse gd.nx) (coarse gd.ny) (coarse gd.nz)) shapeCause 0#64

/-- Parity of a fine point as PAR counts it: bits z, y, x. -/
def parityOf (k j i : Int) : Nat := (k % 2).toNat * 4 + (j % 2).toNat * 2 + (i % 2).toNat

/-- The source points of an output point, in the order of their steps (R133). -/
def Core.roodTerms (c : Core) (op : RoodOp) (w : Word) (k j i : Int) : List (StencilEntry × Int × Int × Int) :=
  let t := c.tableOf w
  match op with
  | .restrict => t.entries.map fun e => (e, 2 * k + e.dz, 2 * j + e.dy, 2 * i + e.dx)
  | .prolong => (t.entries.filter fun e => e.par == parityOf k j i).map fun e => (e, k / 2 + e.dz, j / 2 + e.dy, i / 2 + e.dx)
  | .convert => []

/-- The source elements that an output point reads. -/
def Core.roodReads (c : Core) (op : RoodOp) (gs : Grid) (w : Word) (k j i : Int) : List (Nat × Nat) :=
  match op with
  | .convert => (gridCell gs w k j i).toList
  | op => (c.roodTerms op w k j i).filterMap fun e => gridCell gs w e.2.1 e.2.2.1 e.2.2.2

/-- The value of an output point (R133); none leaves the point. -/
def Core.roodPoint (c : Core) (op : RoodOp) (d a : View) (gs : Grid) (w : Word) (old : Val) (k j i : Int) : Option Val :=
  match op with
  | .convert => some (c.gridRead a gs w k j i)
  | op =>
    let terms := (c.roodTerms op w k j i).map fun e => (e.1, c.gridRead a gs w e.2.1 e.2.2.1 e.2.2.2)
    match stencilSum (c.tableOf w).shift terms with
    | none => if cwAdd w then none else some (decodeVal d.fmt 0 0)
    | some v => some (if cwAdd w then rne56 (v.add .rne old) else v)

/-- The mask bit of a destination point (R135). -/
def Core.maskBit (c : Core) (m : View) (w : Word) (y x : Nat) : Bool := !cwMen w || c.rawElem m y x == 1

/-- The core with the pieces that a command has read as they stood then. -/
def Core.overlay (c : Core) (seen : List (Nat × List Byte)) : Core :=
  { c with ls := seen.foldl (fun (m : Mem) (p : Nat × List Byte) => Mem.putBytes m (64 * p.1) p.2) c.ls }

/-- A command reads elements of a tile: the pieces it has not read yet, each once (spec/04 R85), checked against the race
records in a free phase (R86); an uncorrectable error of an element stops it (spec/03 R61). -/
def State.roodRead (s : State) (v : View) (race : Bool) (seen : List (Nat × List Byte)) (cells : List (Nat × Nat)) :
    Chk (State × List (Nat × List Byte)) :=
  cells.foldlM (fun (acc : State × List (Nat × List Byte)) (p : Nat × Nat) => do
    let fresh := (rowPieces v.fmt v.shape false p.1 [p.2]).filter fun k => !acc.2.any fun e => e.1 == k
    let t ← if race && !fresh.isEmpty then acc.1.raceCells v.fmt v.shape false p.1 [p.2] false else pure acc.1
    match t.core.elemBad v p.1 p.2 with
    | some b => failFrom eccCause (BitVec.ofNat 64 b)
    | none => pure (t, acc.2 ++ fresh.map fun k => (k, t.core.lsBytes (64 * k) 64))) (s, seen)

/-- Destination tile row y: its points, in ascending column (R133, R135). The mask is read first, then the source elements
of the points that are written, then, with ADD, the points themselves; a race or an uncorrectable error stops the command
before the row. GCONV encodes every value it decoded, between equal formats and scales too (log entry 99). -/
def State.roodRow (s : State) (t : Rood) (op : RoodOp) (d a m : Shape) (w : Word) (y : Nat) :
    Chk (State × List (Nat × List Byte)) := do
  let c := s.core
  let dv := c.roodView d (cwOvd w)
  let av := c.roodView a (cwOvs w)
  let mv := c.viewOf m false
  let (gs, gd) := c.roodGrids op d a w
  let (nx, ny, nz) := roodExtent op gs gd
  let k : Int := (y / gd.band : Nat) - gd.hz
  let j : Int := (y % gd.band : Nat) - gd.h
  if k < 0 ∨ nz ≤ k ∨ j < 0 ∨ ny ≤ j then pure (s, t.seen)
  else
    let all := (List.range nx.toNat).map fun (i : Nat) => (i, i + gd.h)
    let (s1, seen1) ← if cwMen w then s.roodRead mv (!t.timed) t.seen (all.map fun p => (y, p.2)) else pure (s, t.seen)
    let cols := all.filter fun p => (s1.core.overlay seen1).maskBit mv w y p.2
    let reads := (cols.flatMap fun p => s1.core.roodReads op gs w k j p.1).eraseDups
    let (s2, seen2) ← s1.roodRead av (!t.timed) seen1 reads
    let src := s2.core.overlay seen2
    let old := fun (x : Nat) => decodeVal dv.fmt (c.code dv.fmt (recBase d) (elemIndex d false y x)) dv.scale
    let out := cols.filterMap fun p => (src.roodPoint op dv av gs w (old p.2) k j p.1).map fun v =>
      (p.2, encodeVal dv.fmt v dv.scale (roundingOf (cwRm w)) dv.sat)
    match (if cwAdd w then out.findSome? fun p => s2.core.elemBad dv y p.1 else none) with
    | some b => failFrom eccCause (BitVec.ofNat 64 b)
    | none =>
      let s3 ← if t.timed then pure s2 else s2.raceCells dv.fmt d false y (out.map (·.1)) true
      pure (s3.modC fun c => out.foldl (fun (c : Core) (p : Nat × (Nat × Bool)) => c.putVal dv y p.1 p.2) c, seen2)

/-- Row y of the destination shares a piece with the row before it: no piece is torn (spec/04 R85). -/
def Core.roodJoined (c : Core) (k : RoodKind) (y : Nat) : Bool :=
  y != 0 && match k.parts with
    | none => false
    | some (_, d, _, _, w) =>
      let row := fun (i : Nat) => rowPieces (c.roodView d (cwOvd w)).fmt d false i (List.range (recVcols d))
      (row (y - 1)).any (row y).contains

/-- At least n rows of a command. -/
def State.roodRows (fuel n : Nat) (s : State) (t : Rood) : State × Rood × Option Stop :=
  match fuel with
  | 0 => (s, { t with done := true }, none)
  | k + 1 =>
    if n = 0 && !s.core.roodJoined t.kind t.rows then (s, t, none)
    else match t.kind.parts with
      | none => (s, { t with done := true }, none)
      | some (op, d, a, m, w) => match s.roodRow t op d a m w t.rows with
        | .ok (u, seen) => State.roodRows k (n - 1) u { t with rows := t.rows + 1, seen := seen }
        | .error e => (s, t, some e)

/-- A queue of the engine: the core and its g queue whose head may run. -/
def Core.roodHead (c : Core) (q : Nat) : Option Rood :=
  match (c.gq[q]?.getD []).head? with
  | some t => if c.xstop != some (4 + q) && !t.done && c.needDone t.need && c.engineRuns then some t else none
  | none => none

/-- The timed command of a queue that begins next. -/
def Core.roodTimed (c : Core) (q : Nat) : Option Rood :=
  if c.xstop == some (4 + q) || !c.engineRuns then none
  else (c.gq[q]?.getD []).foldl (fun (b : Option Rood) (t : Rood) =>
    if !t.timed || t.done then b
    else match b with
      | some u => if t.start < u.start then some t else some u
      | none => some t) none

/-- What a queue offers the engine: the timed command that begins next, or the head that may run. -/
def Core.roodOffer (c : Core) (q : Nat) : Option Rood := (c.roodTimed q).or ((c.roodHead q).filter fun t => !t.timed)

/-- A timed command that has begun holds the engine of a die at a cycle (R136). -/
def State.roodHeld (s : State) (die cycle : Nat) : Bool :=
  s.cores.any fun c => c.die == die && c.gq.any fun q => q.any fun t =>
    t.timed && t.done && decide (t.start ≤ cycle) && decide (cycle < t.finish)

/-- Queues of a die with a ready head, in the order of service from the one after the last served; a command that has
begun goes on, and the timed one that begins first comes first; a free-phase command is held while a timed one has the engine
(R129, R136). -/
def State.roodNext (s : State) (die : Nat) : Option (Nat × Nat) :=
  let last := (s.chip die).roodLast
  let order := (List.range 32).map fun k => (last + 1 + k) % 32
  let head := fun (i : Nat) => (s.find die (i / 4)).bind fun c => c.roodOffer (i % 4)
  let pick := fun (p : Rood → Bool) => order.find? fun i => match head i with
    | some t => p t
    | none => false
  let timed := order.foldl (fun (b : Option (Nat × Nat)) (i : Nat) => match head i, b with
    | some t, none => if t.timed then some (i, t.start) else none
    | some t, some p => if t.timed && decide (t.start < p.2) then some (i, t.start) else some p
    | none, b => b) none
  let choice := (timed.map (·.1)).orElse fun _ => if s.roodHeld die s.cyc then none else (pick fun t => t.begun).orElse fun _ => pick fun _ => true
  choice.map fun i => (i / 4, i % 4)

def Core.setRoodHead (c : Core) (q : Nat) (t : Rood) : Core :=
  if h : q < 4 then
    let l : List Rood := match c.gq[q]'h with
      | _ :: rest => t :: rest
      | [] => []
    { c with gq := c.gq.set q l h }
  else c

/-- Replaces the command with an id in a queue. -/
def Core.setRood (c : Core) (q : Nat) (t : Rood) : Core :=
  if h : q < 4 then { c with gq := c.gq.set q ((c.gq[q]'h).map fun u => if u.id == t.id then t else u) h } else c

/-- A timed command holds both ports of its source, destination and mask banks for its whole duration (spec/08 R156); D is
not there before its end. -/
def Core.holdBanks (c : Core) (d a m : Shape) (w : Word) (start finish : Nat) : Core :=
  if !c.timed.active then c
  else
    let tiles := [d, a] ++ (if cwMen w then [m] else [])
    let banks := (tiles.flatMap fun r => recBank r :: (if recMv r then [recMbank r] else [])).eraseDups
    let b := banks.foldl (fun (b : Board) (k : Nat) =>
      (b.take ⟨k, false, start, finish - start, 1⟩).take ⟨k, true, start, finish - start, 1⟩) (c.board.prune c.now)
    { c with board := (c.roodView d (cwOvd w)).extents.foldl (fun (b : Board) x => b.produce c.now (.tile x) finish) b }

/-- The engine serves queue q of the focused core: a table is loaded, or a command taken and its rows moved. A timed one is
condition 4 where another holds the engine, or its queue has a free-phase command, when it begins (R126, R136). -/
def State.roodServe (s : State) (q rows : Nat) : State :=
  match s.core.roodOffer q with
  | none => s
  | some t =>
    let s := if t.timed then s.reachCycle t.start else s
    let finish := if t.timed then t.start + s.core.roodCycles t.kind else 0
    let t := { t with begun := true, finish := finish }
    if t.timed && (s.roodHeld s.core.die t.start || (s.core.gq[q]?.getD []).any fun u => !u.timed) then s.rollback 4
    else match t.kind with
      | .table slot table =>
        s.modC fun c =>
          let c := if h : slot < 4 then { c with gt := c.gt.set slot table h } else c
          c.setRood q { t with done := true }
      | .restrict d a m w => run s t .restrict d a m w
      | .prolong d a m w => run s t .prolong d a m w
      | .convert d a m w => run s t .convert d a m w
where
  run (s : State) (t : Rood) (op : RoodOp) (d a m : Shape) (w : Word) : State :=
    let s := if t.timed then s.modC fun c => c.holdBanks d a m w t.start t.finish else s
    match (if t.rows = 0 then s.core.roodTakeCheck op d a w else .ok ()) with
    | .error (.exc e) => s.engineFault (4 + q) t.id 0 false t.hm e
    | .error _ => s
    | .ok _ =>
      let (u, t', stopped) := State.roodRows (recRows d - t.rows) (if t.timed then recRows d else rows) s t
      let v := u.modC fun c => c.setRood q t'
      match stopped with
      | some (.exc e) => v.engineFault (4 + q) t.id t'.rows false t.hm e
      | _ => v

/-- ROOD_COMMAND_START: the engine of the focused core's die serves its next command for some rows. -/
def execRoodCommandStart (rows : Nat) (s : State) : Out :=
  match s.roodNext s.core.die with
  | none => .next s
  | some (num, q) =>
    let die := s.core.die
    let chip := s.chip die
    .next ((s.setChip die { chip with roodLast := num * 4 + q }).within die num fun t => t.roodServe q (rows + 1))

/-- ROOD_COMMAND_COMPLETION: GDONE advances. -/
def execRoodCommandCompletion (queue : BitVec 2) (s : State) : Out :=
  let q := queue.toNat
  match (s.core.gq[q]?.getD []).head? with
  | some t =>
    if t.done then
      .next ((s.reachCycle t.finish).modC fun c =>
        { c with gq := c.gq.set q ((c.gq.get queue.toFin).tail) queue.isLt
                 sys := { c.sys with gdone := c.sys.gdone.set q (BitVec.ofNat 64 ((t.id + 1) % 2 ^ 48)) queue.isLt } })
    else .next s
  | none => .next s

end Sys2Proof.Machine
end

