-- ==== Sys2Proof/Machine/Timetable.lean ====
section
/-!
DEFINITION. Phases and the timetable (spec/01 R16 to R22, spec/08 R154 to R167, spec/14 R279 to R281): PHASE, SEND, RECV,
CYC, and the steps that release, roll back and pre-empt timed regions; fetching an instruction (spec/07 R140).
-/

namespace Sys2Proof.Machine

/-! ## Fetch -/

/-- The word at the program counter of the focused core; where the word was written since it may have been fetched, either
one (spec/04 R83). -/
def State.fetch (s : State) : State × InstrWord :=
  let c := s.core
  let i := c.pc.toNat
  let new := wordOfBytes (Mem.getBytes c.istore (12 * i) 12)
  match c.fetched.find? fun f => f.1 == i with
  | none => (s, new)
  | some f => ({ s with free := s.free + 1 }, if Config.turn s.free % 2 = 0 then f.2 else new)

/-- Guard and hints of the word at a core's program counter. -/
def Core.headAt (c : Core) : Head :=
  headOf (wordOfBytes (Mem.getBytes c.istore (12 * c.pc.toNat) 12))

/-! ## PHASE (R279) -/

def phaseForm : Form := { plainForm with alone := true }

/-- A route from a core crosses a link. -/
def State.leavesDie (s : State) (c : Core) (route : Nat) : Bool := !(s.routeWalk 520 route c.die 4).1.isEmpty

/-- The cycle by which the flits a core has sent and will send have left their first link (R279). -/
def State.flitsGone (s : State) (c : Core) : Nat :=
  let flits := (s.flits.filter fun f => f.src == c.die * 8 + c.num && !f.links.isEmpty).map fun f => f.sent + 3
  let lanes := c.lanes.map fun l => match l.act with
    | .send => if s.leavesDie c l.route then l.cycle + 3 else l.cycle
    | _ => 0
  (flits ++ lanes).foldl max 0

/-- The region ends at a core: what issues after it waits for what issued in it. -/
def Core.leaveRegion (c : Core) : Core :=
  { c with holdUntil := max c.holdUntil c.unitsEnd, timed := { c.timed with active := false, leaving := false } }

/-- PHASE.free: ends the region at this core once its flits have left their first link; nothing issues before. -/
def execPhaseFree (x : Args) (s : State) : Out :=
  issue phaseForm x s fun _ s =>
    if s.core.timed.active then
      let n := s.flitsGone s.core
      .done (s.modC fun c => if n ≤ c.now then c.leaveRegion else { c with holdUntil := n, timed := { c.timed with leaving := true } })
    else .done s

/-- The kind of the following phase, or of the next region. -/
def selectKind (comm : Bool) (s : State) : State :=
  s.modC fun c => if c.timed.active then { c with timed := { c.timed with comm := comm } } else { c with nextComm := comm }

/-- PHASE.timed. -/
def execPhaseTimed (x : Args) (s : State) : Out := issue phaseForm x s fun _ s => .done (selectKind false s)

/-- PHASE.comm. -/
def execPhaseComm (x : Args) (s : State) : Out := issue phaseForm x s fun _ s => .done (selectKind true s)

/-! ## SEND and RECV (R280) -/

/-- The lines of a tile, each on its cycle from the issue on. -/
def lanesOf (act : LaneAct) (v : View) (route now : Nat) : List Lane :=
  (List.range (flitCount v)).map fun b =>
    { act := act, route := route, tile := v.shape, line := b, cycle := now + b, order := now }

/-- SEND takes the sender and its source's port for L cycles. -/
def Core.bookSend (c : Core) (x : Args) (v : View) (route : Nat) : Chk Core :=
  if v.extents.any (c.earlyBytes c.now) then .error (.timing 1)
  else if c.now < c.board.sender then .error (.timing 2)
  else
    let n := flitCount v
    let b := (c.board.prune c.now).takeReads c.now (c.unserved x [Beats.lines v 0 n])
    (c.reuse x).accept { b with sender := c.now + n } |>.map fun k => { k with lanes := k.lanes ++ lanesOf .send v route c.now }

/-- RECV takes the receiver for L cycles and D's port from the next one; D is there after L + 2. -/
def Core.bookRecv (c : Core) (v : View) (route : Nat) : Chk Core :=
  if c.now < c.board.receiver then .error (.timing 2)
  else
    let n := flitCount v
    let b := (c.board.prune c.now).takeWrite v.shape ⟨recBank v.shape, true, c.now + 1, n, 1⟩
    let b := v.extents.foldl (fun (b : Board) x => b.produce c.now (.tile x) (c.now + n + 2)) { b with receiver := c.now + n }
    c.accept b |>.map fun k => { k with lanes := k.lanes ++ lanesOf .take v route c.now }

/-- SEND: line b is read and its flit injected b cycles after issue. -/
def execSend (x : Args) (m : BitVec 8) (s : State) : Out :=
  issue { plainForm with phase := .comm } x s fun x s =>
    let v := s.core.view x.a
    match (do
      s.core.streamCheck x none [v]
      demand (v.shapeOk && denseTile v) shapeCause
      demand (s.routeStarts s.core m.toNat) protCause
      match s.core.anyBad [v] with
      | some b => stopAt eccCause (BitVec.ofNat 64 b)
      | none => s.core.bookSend x v m.toNat : Chk Core) with
    | .error e => tileFail s [v] e
    | .ok c => .done { s with core := c }

/-- RECV: flit b is consumed b cycles after issue and written a cycle later. -/
def execRecv (x : Args) (m : BitVec 8) (s : State) : Out :=
  issue { plainForm with phase := .comm } x s fun x s =>
    let v := s.core.view x.d
    finish s do
      demand (s.core.stream v.reg).isNone streamCause
      demand (v.shapeOk && denseTile v) shapeCause
      demand (s.routeArrives s.core m.toNat) protCause
      pure { s with core := ← s.core.bookRecv v m.toNat }

/-- Line b of a tile written without conversion; of an element that two lines share, the bits that this one holds. -/
def Core.putLine (c : Core) (v : View) (b : Nat) (data : List Byte) : Core :=
  (lineCells v b).foldl (fun (c : Core) p =>
    c.putElem v p.2.1 p.2.2 (lineCode v.fmt b (ofBytes data) p.1 (c.rawElem v p.2.1 p.2.2))) c

/-- When a line acts, and in what order within the cycle: reads before issues, what is received behind them. -/
def Lane.time (l : Lane) : Nat × Nat :=
  match l.act with
  | .send => (l.cycle, 2)
  | _ => (l.cycle, 4)

/-- The line of a core that acts next. -/
def Core.nextLane (c : Core) : Option Lane :=
  c.lanes.foldl (fun (b : Option Lane) (l : Lane) => match b with
    | none => some l
    | some k => if l.time.1 < k.time.1 ∨ (l.time.1 = k.time.1 ∧ l.time.2 < k.time.2) then some l else some k) none

/-- The address of line b of a dense tile. -/
def lineBase (v : View) (b : Nat) : Nat := recBase v.shape + 256 * b

/-- A line of SEND or RECV of the focused core; a flit that is not there yet is condition 7. A line that cannot be corrected is
not sent and raises a deferred ECC_UNCORR (log entry 88). -/
def State.laneStep (s : State) (l : Lane) : State :=
  let t := (s.modC fun c => { c with lanes := c.lanes.erase l }).reachCycle l.cycle
  let v := t.core.viewOf l.tile false
  match l.act with
  | .send =>
    t.correcting (lineBase v l.line) 256 fun t => match t.core.lsBadAt (lineBase v l.line) 256 with
      | some a => t.modC fun c => c.deferEcc c.handler a
      | none => t.injectFlit t.core l.route l.cycle l.order (t.core.tileLine v l.line) none
  | .take => match t.core.rxbuf.find? fun f => f.route == l.route with
    | some f => t.modC fun c =>
      { c with rxbuf := c.rxbuf.erase f, lanes := c.lanes ++ [{ l with act := .write f.data, cycle := l.cycle + 1 }] }
    | none => t.rollback 7
  | .write data => t.modC fun c => c.putLine v l.line data

/-- The newest flit of a receive buffer that holds more than four of its route at the end of a cycle (R165; log entry 84). -/
def Core.overflow (c : Core) : Option Flit :=
  c.rxbuf.reverse.find? fun f => decide (4 < (c.rxbuf.filter fun g => g.route == f.route).length)

/-- Condition 8 at a core of a region; elsewhere the flit is lost. -/
def State.overflowStep (s : State) (f : Flit) : State :=
  if s.core.timed.active then (s.reachCycle f.due).rollback 8
  else s.modC fun c => { c with rxbuf := c.rxbuf.erase f }

/-! ## CYC (R281) -/

/-- FCYC at the issue of an instruction. -/
def State.issueFcyc (s : State) : Word := if s.core.timed.active then s.core.timed.last else s.fcyc s.core

/-- CYC: τ in a timed region, which a rollback does not change (log entry 11); FCYC outside, and under `.abs`. -/
def execCyc (x : Args) (m : Bool) (s : State) : Out :=
  issue plainForm x s fun x s =>
    let c := s.core
    let v := if c.timed.active && !m then c.timed.last - c.timed.base + BitVec.ofNat 64 c.timed.offset else s.issueFcyc
    .done (s.modC fun c => c.writeD x.d v)

/-! ## Releases of a field (R20, R162, R167) -/

/-- Compute cores of the focused core's field that can take part in a region. -/
def State.regionCores (s : State) : List Core :=
  s.cores.filter fun c => c.field == s.core.field && c.field.isSome && !c.memc && c.run != .killed

/-- The cores that wait for a release: at a first one all of the field, after a rollback all that were in the region, after
a restore those, once every core of the field has executed ERET (R167). -/
def State.releaseReady (s : State) (first : Bool) : Bool :=
  let cs := s.regionCores
  let rel := cs.filter fun c => c.wait == .release
  !rel.isEmpty && (if first then cs.all fun c => c.wait == .release && !c.timed.active
    else (rel.all fun c => c.timed.active) && cs.all fun c => !c.savedTimed && c.hwImage.isNone)

/-- The base cycle B = F + 64 for every waiting core (log entry 12: the latest F of the cores). -/
def State.releaseField (s : State) : State :=
  let rel := s.regionCores.filter fun c => c.wait == .release
  let f := rel.foldl (fun (b : Nat) c => max b c.timed.base.toNat) 0
  let base := BitVec.ofNat 64 (f + 64)
  let t := s.mapCores fun c =>
    if c.field == s.core.field && c.wait == .release && !c.memc && c.run != .killed then
      { c with wait := .none, timed := { c.timed with active := true, base := base, last := base, first := true } }
    else c
  t.reachCycle (base + s.core.fbase).toNat

/-- TIMED_REGION_BASE: the first release of a region; a field that has lost a route waits for new ones (spec/18 R326). -/
def execTimedRegionBase (s : State) : Out :=
  .next (if s.releaseReady true && !(s.fieldAt (s.core.field.getD 16)).noTimed then s.releaseField else s)

/-- TIMED_REREALEASE: the release after a rollback, or after the ERETs of a pre-empted region. -/
def execTimedRerelease (s : State) : Out := .next (if s.releaseReady false then s.releaseField else s)

/-- TIMING_ROLLBACK: the focused core detects a condition of R161 on its cycle. -/
def execTimingRollback (cond : BitVec 4) (s : State) : Out :=
  .next (if s.core.timed.active && decide (1 ≤ cond.toNat ∧ cond.toNat ≤ 9) then s.rollback cond.toNat else s)

/-- PREEMPT_AT_RESTART_POINT: the focused core stops before a restart point (R167). -/
def execPreemptAtRestartPoint (s : State) : Out :=
  let h := s.core.headAt
  .next (if s.core.wait != .release && s.preemptDue h then s.preemptHere h else s)

end Sys2Proof.Machine
end

