-- ==== Sys2Proof/Machine/System.lean ====
section
/-!
DEFINITION. Traps and returns, system registers, halting, START, VINV and DFLUSH (spec/15 R283, R293 to R300, spec/21 R364 to
R368, R377, R380), words that are no instruction (spec/07 R151, R152), pending causes (spec/21 R366).
-/

namespace Sys2Proof.Machine

/-! ## TRAP, BKPT, ERET (R293, R294) -/

/-- TRAP: in handler mode it escalates the cause being handled, with class n mod 4 (spec/21 R367). -/
def execTrap (x : Args) (s : State) : Out :=
  issue { freeForm with alone := true } x s fun x s =>
    let n := s.core.value x.a
    if s.core.handler then
      .exit (s.contain (cause (BitVec.ofNat 8 (bits s.core.sys.cause 7 0))) (n.toNat % 4) false false)
    else .trap (causeAt trapCause n) s

/-- BKPT: no effect while MODE.BRKEN is 0, and in handler mode (spec/21 R367). -/
def execBkpt (x : Args) (s : State) : Out :=
  issue freeForm x s fun x s =>
    if s.core.handler || !s.core.brken then .done s else .trap (causeAt breakCause (s.core.value x.a)) s

/-- The stopped engine command goes on from row XPROG, or is done without further writes; an XLEASE that is dropped pushes the
handle 0 of a refusal (spec/06 R125, R127). -/
def Core.resumeEngine (c : Core) : Core :=
  let f := c.sys.xfault
  let q := bits f 61 59
  let id := bits f 47 0
  let rows := bits c.sys.xprog 6 0
  let drop := f.getLsbD 62
  let c1 := { c with xstop := none, sys := { c.sys with xfault := setBits f 63 63 0 } }
  if !f.getLsbD 63 || f.getLsbD 58 then c1
  else if q < 4 then match (c.xq[q]?.getD []).find? fun t => t.id % 2 ^ 48 == id with
    | some t =>
      let c2 := c1.setTransfer q { t with rows := t.fromRow c rows, done := drop }
      if drop && t.kind.isLease then c2.deliver q t.id 0#64 else c2
    | none => c1
  else match (c.gq[q - 4]?.getD []).find? fun t => t.id % 2 ^ 48 == id with
    | some t => c1.setRood (q - 4) { t with rows := rows, done := drop }
    | none => c1

/-- The shape records and stream bindings that a restore puts back (spec/21 R377, R380). -/
def Core.putBack (c : Core) : Core :=
  match c.sys.cause.getLsbD 15, c.hwImage with
  | true, some (tiles, streams) => { c with tiles := tiles, streams := streams, hwImage := none }
  | _, _ => c

/-- A context saved in a timed region arrives at the field's release, whose F is the cycle of the field's last ERET (spec/08
R167). -/
def State.rearrive (s : State) (resume : Bool) (now : Word) : State :=
  let t := s.modC fun c =>
    if c.savedTimed && resume then
      { c with savedTimed := false, wait := .release, timed := { c.timed with active := true, base := now, first := true } }
    else { c with savedTimed := false }
  if resume then t.mapCores fun c =>
    if c.field == s.core.field && c.timed.active && c.wait == .release then { c with timed := { c.timed with base := now } } else c
  else t

/-- What ERET does to the core. -/
def Core.eret (c : Core) : Core :=
  let c := c.resumeEngine.putBack
  { c with
    run := if c.idled then .idle else c.run, idled := false
    pc := BitVec.ofNat 14 (bits c.sys.epc 13 0), wait := .none, wake := none
    skip := c.ganged && c.sys.cause.getLsbD 10
    streams := c.streams.map fun (t : Stream) => if t.raised then { t with poison := none, raised := false } else t
    sys := { c.sys with
      repst := c.sys.erepst, mode := setBits c.sys.mode 0 0 0, cause := setBits c.sys.cause 10 10 0
      alost := setBits c.sys.alost 63 61 0 } }

/-- ERET. -/
def execEret (x : Args) (s : State) : Out :=
  issue { privForm with alone := true } x s fun _ s =>
    .exit ((s.modC Core.eret).rearrive (s.core.sys.cause.getLsbD 15) (s.fcyc s.core))

/-! ## System registers (R295) -/

/-- Registers that user mode may read. -/
def userReadable (n : Nat) : Bool :=
  n == 0x004 || n == 0x010 || n == 0x014 || n == 0x015 || n == 0x019 || decide (0x020 ≤ n ∧ n ≤ 0x024)
    || decide (0x030 ≤ n ∧ n ≤ 0x037) || decide (0x040 ≤ n ∧ n ≤ 0x042)

/-- COREID. -/
def Core.coreId (c : Core) : Word :=
  BitVec.ofNat 64 (c.fcn % 2 ^ 12 * 2 ^ 32 + c.lcn % 2 ^ 12 * 2 ^ 20 + c.die * 2 ^ 10 + c.num % 8 * 2 ^ 7
    + (if c.ganged then c.rank % 4 * 2 ^ 5 else 0) + (if c.memc then 16 else 0))

/-- MODE with its TIMED bit. -/
def Core.modeWord (c : Core) : Word := setBits c.sys.mode 1 1 (if c.timed.active then 1 else 0)

/-- PRIO: the level at which the running card stands now (spec/20 R348). -/
def State.prioWord (s : State) : Word :=
  match s.core.card with
  | some k => match (s.fieldAt k.1).cards.find? fun d => d.serial == k.2 with
    | some d => BitVec.ofNat 64 d.level
    | none => s.core.sys.prio
  | none => s.core.sys.prio

/-- The value of a system register. -/
def State.sysRead (s : State) (n : Nat) : Word :=
  let c := s.core
  let y := c.sys
  match n with
  | 0x000 => y.cause
  | 0x001 => y.epc
  | 0x002 => y.eva
  | 0x003 => y.tvec
  | 0x004 => c.modeWord
  | 0x010 => y.tprog
  | 0x011 => y.repst
  | 0x012 => y.erepst
  | 0x013 => y.barst
  | 0x014 => y.racest
  | 0x015 => y.collctl
  | 0x016 => y.xfault
  | 0x017 => y.alost
  | 0x019 => y.tflt
  | 0x01A => y.xprog
  | 0x020 => s.fcyc c
  | 0x021 => y.markpc
  | 0x022 => y.markcyc
  | 0x023 => y.pmarkpc
  | 0x024 => y.pmarkcyc
  | 0x040 => y.ctxid
  | 0x041 => c.coreId
  | 0x042 => s.prioWord
  | 0x043 => y.contain
  | n =>
    if n < 0x00C then y.scr[n - 8]?.getD 0#64
    else if n < 0x034 then y.xdone[n - 0x030]?.getD 0#64
    else if n < 0x038 then y.gdone[n - 0x034]?.getD 0#64
    else y.hasp[n - 0x050]?.getD 0#64

/-- SYSRD; AECHO is AECHO_READ. -/
def execSysrd (x : Args) (m : BitVec 12) (s : State) : Out :=
  issue { freeForm with priv := !userReadable m.toNat } x s fun x s =>
    .done (s.modC fun c => c.writeD x.d (s.sysRead m.toNat))

/-- The RW fields of a register. -/
def sysMask (n : Nat) : Word :=
  match n with
  | 0x000 => 0x00000FFF0000CFFF#64
  | 0x001 => 0x3FFF#64
  | 0x002 => BitVec.allOnes 64
  | 0x003 => 0x3FFF#64
  | 0x004 => 0x8#64
  | 0x010 => 0x7F#64
  | 0x011 => 0x0000FFFFFFFFFFF1#64
  | 0x012 => 0x0000FFFFFFFFFFF1#64
  | 0x013 => 0x00000003FFFFE303#64
  | 0x014 => 0x1#64
  | 0x015 => 0x8000FFFFFFFFFFFF#64
  | 0x016 => 0x4000000000000000#64
  | 0x01A => 0x7F#64
  | 0x043 => 0x0000FFFFFFFFFFFF#64
  | n =>
    if n < 0x00C then BitVec.allOnes 64
    else if 0x050 ≤ n then 0xFFFE03FFFC1FFFC0#64
    else 0#64

/-- A register with its new value. -/
def SysRegs.put (y : SysRegs) (n : Nat) (v : Word) : SysRegs :=
  match n with
  | 0x000 => { y with cause := v }
  | 0x001 => { y with epc := v }
  | 0x002 => { y with eva := v }
  | 0x003 => { y with tvec := v }
  | 0x004 => { y with mode := v }
  | 0x010 => { y with tprog := v }
  | 0x011 => { y with repst := v }
  | 0x012 => { y with erepst := v }
  | 0x013 => { y with barst := v }
  | 0x014 => { y with racest := v }
  | 0x015 => { y with collctl := v }
  | 0x016 => { y with xfault := v }
  | 0x01A => { y with xprog := v }
  | 0x043 => { y with contain := v }
  | n =>
    if n < 0x00C then (if h : n - 8 < 4 then { y with scr := y.scr.set (n - 8) v h } else y)
    else if h : n - 0x050 < 4 then { y with hasp := y.hasp.set (n - 0x050) v h } else y

/-- The stored word that SYSWR blends into. -/
def State.sysStored (s : State) (n : Nat) : Word := if n = 0x004 then s.core.sys.mode else s.sysRead n

/-- SYSWR: RW fields take the value, RO fields keep theirs. -/
def execSyswr (x : Args) (m : BitVec 12) (s : State) : Out :=
  issue privForm x s fun x s =>
    let n := m.toNat
    .done (s.modSys fun y => y.put n (blend (sysMask n) (s.sysStored n) (s.core.value x.a)))

/-- ESTAT of ALOST (spec/13 R250). -/
def echoStat (w : Word) : Nat := bits w 62 61

/-- SYSRD of AECHO: waits for the reply. -/
def execAechoRead (x : Args) (s : State) : Out :=
  issue privForm x s fun x s =>
    let y := s.core.sys
    match echoStat y.alost with
    | 1 => .wait .interlock s
    | 2 => .done (s.modC fun c => c.writeD x.d y.aecho)
    | _ => .done (s.modC fun c => c.writeD x.d 0#64)

/-- SYSWR of AECHO: requests the echo of ALOST.SEQ. -/
def execAechoWrite (x : Args) (s : State) : Out :=
  issue privForm x s fun _ s =>
    .done (if s.core.sys.alost.getLsbD 63 then s.modSys fun y => { y with alost := setBits y.alost 62 61 1 } else s)

/-- ATOMIC_ECHO_REPLY: the echo buffer of the place that performed the atomic answers. -/
def execAtomicEchoReply (s : State) : Out :=
  let y := s.core.sys
  if echoStat y.alost = 1 then
    match s.echo.find? fun e => some e.place == s.core.lostPlace && e.lcn == s.core.lcn && e.seq.toNat == bits y.alost 7 0 with
    | some e => .next (s.modSys fun y => { y with alost := setBits y.alost 62 61 2, aecho := e.old })
    | none => .next (s.modSys fun y => { y with alost := setBits y.alost 62 61 3, aecho := 0#64 })
  else .next s

/-! ## Context, code and halting (R296 to R298) -/

/-- A member of a field is acknowledged. -/
def State.countAck (s : State) : State :=
  match s.core.field with
  | some i => s.setField i { s.fieldAt i with acks := (s.fieldAt i).acks + 1 }
  | none => s

/-- ACKPRE: engine commands that have begun stop at their row boundary, since an acknowledged core's queues do not move
(`Core.engineRuns`, spec/06 R128). -/
def execAckpre (x : Args) (s : State) : Out :=
  issue privForm x s fun _ s => settleWith s do
    demand (bits s.core.sys.cause 7 0 == 0x16) protCause
    let t := s.settleChain
    demandWait (t.core.mq.isEmpty && t.core.cqin.isEmpty && t.core.lanes.isEmpty && t.core.works.isEmpty && (List.range 4).all fun q => !t.linesInFlight q) .interlock
    pure (.exit (((t.holderOut t.core).retire.modC fun c => { c with run := .acked }).countAck))

/-- START (R297). -/
def execStart (x : Args) (m : BitVec 4) (s : State) : Out :=
  issue freeForm x s fun x s => finish s do
    let a := s.core.value x.a
    demandAt (peerOff a % 12 == 0) alignCause a
    match s.peer a with
    | none => stopAt protCause a
    | some tgt =>
      demandAt (decide (peerOff a < 0x30000)) protCause a
      demandRoute s tgt.die a
      s.retireStore { space := 5#3, addr := a, phys := 0, check := false, locked := false, sid := m.toNat
                      kind := .start (s.core.value x.b), hm := s.core.handler }

/-- ISFENCE (R298). -/
def execIsfence (x : Args) (s : State) : Out :=
  issue freeForm x s fun _ s => finish s do
    demandWait (s.core.stores.all fun t => t.space != 5#3) .interlock
    pure (s.modC fun c => { c with fetched := [] })

/-- HALTC. -/
def execHaltc (x : Args) (s : State) : Out :=
  issue privForm x s fun _ s =>
    if s.core.ganged || s.core.chunk.isSome then .trap (cause protCause) s
    else .exit (s.retire.modC fun c => { c with run := .halted })

/-! ## VINV (R299, spec/19 R334) -/

/-- VINV.page. -/
def execVinvPage (x : Args) (s : State) : Out :=
  issue privForm x s fun x s => finish s do
    demandWait s.core.settled .interlock
    pure (s.vinvPage (s.core.value x.a))

/-- VINV.all. -/
def execVinvAll (x : Args) (s : State) : Out :=
  issue privForm x s fun _ s => finish s do
    demandWait s.core.settled .interlock
    let t := s.settleField
    pure { t with tlb := t.tlb.filter fun e => !(t.inField e.die && e.ctx == t.core.ctx) }

/-! ## DFLUSH (R300) -/

/-- n lines of 1,024 bytes copied to CXL memory. -/
def State.flushLines (n : Nat) (src : Word) (dst : Nat) (s : State) : Chk State :=
  match n with
  | 0 => .ok s
  | k + 1 => do
    let (t, bs) ← s.readRun 0 src 1024
    State.flushLines k (src + 1024#64) (dst + 1024) { t with cxlMem := Mem.putBytes t.cxlMem dst bs }

/-- Every address of a range lies in an open window of persistent memory (spec/22 R388): judged at its start and wherever a window
begins or ends in it. -/
def State.persistent (s : State) (dst len : Nat) : Bool :=
  let edges := (List.range 16).flatMap fun i =>
    let w := lookupD (s.chip s.core.die).cwin i (0#64, 0#64)
    [w.1.toNat, w.1.toNat + 2 ^ bits w.2 49 44]
  (dst :: edges.filter fun a => decide (dst < a) && decide (a < dst + len)).all fun a => (s.window true a).any fun w => w.getLsbD 60

/-- Limits of a descriptor: its words 0 to 3. -/
def flushOk (s : State) (src len dst w3 : Nat) : Bool :=
  src % 1024 == 0 && len % 1024 == 0 && decide (1024 ≤ len ∧ len ≤ 100 * 2 ^ 30) && dst % 1024 == 0 && decide (w3 ≤ 1)
    && s.persistent dst len

/-- HUREC after a descriptor of `len` bytes, with its copy at the end of the flushed region. -/
def State.countDurable (s : State) (i dst len bytes : Nat) (ok gpf : Bool) : State :=
  let f := s.fieldAt i
  let v := setBits (setBits f.hurec 63 63 1) 47 0 (bits f.hurec 47 0 + bytes)
  let w := if ok then (if gpf then setBits v 53 48 (bits v 53 48 + 1) else v) else setBits v 62 61 2
  let t := s.setField i { f with hurec := w, huEnd := if ok then some (dst + len) else f.huEnd }
  if ok then { t with cxlMem := Mem.store t.cxlMem (dst + len) 8 w.toNat } else t

/-- The HOLDUP handler of a field flushes (spec/21 R376). -/
def Core.holdup (c : Core) : Bool := c.handler && bits c.sys.cause 7 0 == 0x17 && c.field.isSome

/-- DFLUSH: the lines made durable before a CXL error, if one comes, are free (log entry 15). -/
def execDflush (x : Args) (s : State) : Out :=
  issue privForm x s fun x s => finish s do
    let a := s.core.value x.a
    demandAt (a.toNat % 32 == 0) alignCause a
    demandAt (decide (a.toNat < 0x200000)) protCause a
    let (t, bs) ← s.readLocal a 32 true
    let w := fun (n : Nat) => ofBytes ((bs.drop (8 * n)).take 8)
    demand (flushOk t (w 0) (w 1) (w 2) (w 3)) reservedField
    let lines := w 1 / 1024
    let bad := Config.cxlError t.free
    let n := if bad then Config.durable t.free % (lines + 1) else lines
    let u ← State.flushLines n (BitVec.ofNat 64 (w 0)) (w 2) { t with free := t.free + 1 }
    let v := if u.core.holdup then u.countDurable (u.core.field.getD 16) (w 2) (w 1) (n * 1024) (!bad) (w 3 % 2 == 1) else u
    pure (v.modC fun c => c.writeD x.d (BitVec.ofNat 64 ((if bad then 2 ^ 56 else 0) + n * 1024 % 2 ^ 48)))

/-! ## Refused words (spec/07 R151, R152) -/

/-- A cause of checks 1 and 2, which every member of a gang raises for its copy. -/
def State.refuseWord (s : State) (code : BitVec 8) (h : Head) : State :=
  let t := (s.clock h).unmark s.core
  if s.core.ganged then
    let ms := (s.gang s.core).map fun c => (c.die, c.num)
    (gangTrap (ms.map fun _ => some (cause code)) (ms.map fun _ => false) ms (cause code) t).focus s.core.die s.core.num
  else t.raise (cause code) false false

/-- WORD_NOT_INSTRUCTION: ILLEGAL_OP at check 1. -/
def execWordNotInstruction (word : InstrWord) (s : State) : Out := .next (s.refuseWord illegalOp (headOf word))

/-! ## Pending causes (spec/21 R366) -/

/-- What a core has to serve at an instruction boundary. -/
inductive Service where
  /-- raised through containment -/
  | raise (e : Exc)
  /-- trapped at once -/
  | trap (e : Exc)
  deriving DecidableEq, Repr

def Cause.exc (d : Cause) : Exc := { causeAt d.code d.eva with other := d.other, deferred := true }

/-- The wait of a core that completes before any pending cause is served. -/
def Core.midway (c : Core) : Bool :=
  c.wake.isSome || (match c.wait with
    | .scTick _ => true
    | .collapse _ => true
    | _ => false)

/-- The cause a core serves first; a core that is idle or halted by HALTC is pre-empted too (R297, R376). -/
def Core.pending (c : Core) : Option Service :=
  if c.run = .halted ∨ c.run = .idle then (if c.preemptPend then some (.trap (cause preemptCause)) else none)
  else if c.run ≠ .running then none
  else if c.handler then (c.deferred.find? fun d => d.hm).map fun d => .raise d.exc
  else match c.deferred with
    | d :: _ => some (.raise d.exc)
    | [] =>
      if c.abortRaise then some (.raise (cause abortCause))
      else if c.abortPend then some (.trap (cause abortCause))
      else if c.preemptPend && !c.timed.active && c.wait != .release && c.wholeChunks then some (.trap (cause preemptCause))
      else none

/-- The served cause is no longer pending. -/
def Core.clearPending (c : Core) (e : Exc) : Core :=
  if e.deferred then
    let d? := if c.handler then c.deferred.find? fun d => d.hm else c.deferred.head?
    match d? with
    | some d => { c with deferred := c.deferred.erase d }
    | none => c
  else if e.code = abortCause then { c with abortPend := false, abortRaise := false }
  else { c with preemptPend := false }

def Core.paused (c : Core) : Bool :=
  match c.wait with
  | .pause _ => true
  | _ => false

/-- The members of the focused core's gang, or the core alone. -/
def State.unit (s : State) : List Core := if s.core.ganged then s.gang s.core else [s.core]

/-- YIELD's pause ends with the trap, after it, in every member of a gang (spec/10 R191). -/
def State.endPause (s : State) : State :=
  if s.unit.any Core.paused then s.unit.foldl (fun (s : State) (k : Core) => s.within k.die k.num State.advance) s else s

/-- A member's wait ends only by its event: a Tick edge, a collapse, a mutex that it already holds. -/
def Core.fixed (c : Core) : Bool :=
  match c.wait with
  | .scTick _ => true
  | .collapse _ => true
  | .mutex _ => c.wake.isSome
  | _ => false

/-- The wait of the focused core, or of its gang, completes before any pending cause is served. In a gang whose members have not
all been woken, a cause ends the wait of all (spec/01 R28). -/
def State.midway (s : State) : Bool :=
  s.unit.any Core.fixed || (s.unit.any fun c => c.wake.isSome) && s.unit.all fun c => c.midway || c.wait == .none

/-- Deferred causes first, then COLLECTIVE_ABORT, then PREEMPT (spec/21 R366). -/
def Service.rank (v : Service) : Nat :=
  match v with
  | .raise e => if e.deferred then 0 else 1
  | .trap e => if e.code = preemptCause then 2 else 1

/-- The first cause that the focused core, or its gang, has to serve, the leader's of one kind before the followers'; PREEMPT at a
chunk boundary of every member (spec/05 R116). -/
def State.pendingService (s : State) : Option (Core × Service) :=
  if s.midway then none
  else
    let found := (s.unit.filterMap fun c => c.pending.map fun v => (c, v)).filter fun p =>
      p.2.rank != 2 || s.unit.all Core.wholeChunks
    [0, 1, 2].findSome? fun k => found.find? fun p => p.2.rank == k

/-- Every member traps; one that has the cause pending itself is no sibling. -/
def State.trapUnit (s : State) (e : Exc) : State :=
  (s.unit.map fun c => (c.die, c.num, c.pending == some (.trap e))).foldl
    (fun (s : State) (k : Nat × Nat × Bool) => s.within k.1 k.2.1 fun t =>
      let u := if k.2.2 then t.modC fun c => { c.clearPending e with run := .running, idled := c.run == .idle } else t
      u.enter e (!k.2.2) false) s.endPause

/-- PENDING_CAUSE_SERVICE: one cause is taken at the boundary. -/
def execPendingCauseService (s : State) : Out :=
  match s.pendingService with
  | none => .next s
  | some (_, .trap e) => .next (s.trapUnit e)
  | some (c, .raise e) =>
    .next (s.endPause.within c.die c.num fun u => (u.modC fun k => k.clearPending e).raiseAll e)

end Sys2Proof.Machine
end

