-- ==== Sys2Proof/Machine/Dealing.lean ====
section
/-!
DEFINITION. Cards, queues, dealing and activation (spec/01 R14, R15, spec/15 R286 to R289, spec/20 R345 to R356, R404): END,
JPOST, JTAKE, JDONE, JCANCEL, JSTAT, and the steps of a field's dispatcher.
-/

namespace Sys2Proof.Machine

/-! ## The card (R345, R346) -/

def Card.w (c : Card) (n : Nat) : Word := c.words[n]?.getD 0#64
def Card.recSize (c : Card) : Nat := (bits (c.w 0) 56 48 + 1) * 8
def Card.minch (c : Card) : Nat := bits (c.w 0) 47 32
def Card.div (c : Card) : Nat := bits (c.w 0) 31 28
def Card.radius (c : Card) : Nat := bits (c.w 0) 25 24
def Card.prio (c : Card) : Nat := bits (c.w 0) 22 20
def Card.gang (c : Card) : Bool := (c.w 0).getLsbD 19
def Card.scope (c : Card) : Nat := bits (c.w 0) 18 16
def Card.entry (c : Card) : Nat := bits (c.w 0) 13 0
def Card.rbase (c : Card) : Word := c.w 1
def Card.rcount (c : Card) : Nat := bits (c.w 2) 29 0
def Card.abase (c : Card) : Word := c.w 3
def Card.height (c : Card) : Nat := bits (c.w 4) 31 16
def Card.width (c : Card) : Nat := bits (c.w 4) 15 0
def Card.depAddr (c : Card) : Word := c.w 5
def Card.depVal (c : Card) : Word := c.w 6
def Card.cplAddr (c : Card) : Word := c.w 7

/-- The checks of R346; `far`: the post names a field, or comes from a host. -/
def Card.ok (c : Card) (far : Bool) : Bool :=
  bits (c.w 0) 63 57 == 0 && bits (c.w 0) 27 26 == 0 && bits (c.w 0) 23 23 == 0 && bits (c.w 0) 15 14 == 0
    && bits (c.w 2) 63 30 == 0 && bits (c.w 4) 63 32 == 0
    && decide (1 ≤ c.scope ∧ c.scope ≤ 3) && decide (1 ≤ c.div ∧ c.div ≤ 8) && c.minch != 0 && c.radius != 3
    && c.rcount != 0 && c.rbase.toNat % 8 == 0 && c.depAddr.toNat % 8 == 0 && c.cplAddr.toNat % 8 == 0
    && (c.abase == 0#64 || (c.width * c.height == c.rcount && c.abase.toNat % 8 == 0))
    && (c.radius == 0 || c.abase != 0#64) && (!far || c.scope == 3)

/-- The words of a card's 64 bytes. -/
def cardWords (bs : List Byte) : Vector Word 8 :=
  Vector.ofFn fun (i : Fin 8) => BitVec.ofNat 64 (ofBytes ((bs.drop (8 * i.val)).take 8))

/-- A core lies in a card's instance (R347). -/
def Card.holds (c : Card) (field : Nat) (k : Core) : Bool :=
  k.field == some field && !k.memc && (match c.scope with
    | 1 => k.die == c.die && k.quad == c.quad
    | 2 => k.die == c.die
    | _ => true)

/-- The participant count P (R347). -/
def State.participants (s : State) (field : Nat) (c : Card) : Nat :=
  let ks := s.cores.filter (c.holds field)
  if c.gang then (ks.map Core.latch).eraseDups.length else ks.length

def Field.card (f : Field) (serial : Nat) : Option Card := f.cards.find? fun c => c.serial == serial

def Field.putCard (f : Field) (c : Card) : Field :=
  { f with cards := f.cards.map fun d => if d.serial == c.serial then c else d }

def Field.atLevel (f : Field) (level : Nat) : List Card := f.cards.filter fun c => c.inSlot && c.level == level

def Card.left (c : Card) : Nat := c.undealt.foldl (fun n r => n + r.2) 0

/-- A card that can be dealt. -/
def Card.dealable (c : Card) : Bool := c.inSlot && c.ready && c.undealt != []

/-- The handle of R286. -/
def Field.handle (f : Field) (serial : Nat) : Word := BitVec.ofNat 64 (f.anchor * 2 ^ 48 + serial % 2 ^ 48)

/-! ## Levels (R348, R352) -/

def Field.pointer (f : Field) (level : Nat) : Nat := f.rr[level]?.getD 0
def Field.setPointer (f : Field) (level n : Nat) : Field :=
  if h : level < 8 then { f with rr := f.rr.set level n h } else f

/-- A card leaves its slot; the round-robin pointer counts the slots up to the last one served. -/
def Field.leaveSlot (f : Field) (serial : Nat) : Field :=
  match f.card serial with
  | none => f
  | some c =>
    if !c.inSlot then f
    else
      let at' := (f.atLevel c.level).findIdx fun d => d.serial == serial
      let f1 := if at' < f.pointer c.level then f.setPointer c.level (f.pointer c.level - 1) else f
      f1.putCard { c with inSlot := false, due := none }

/-- A card moves to the tail of the next level up. -/
def Field.moveUp (f : Field) (c : Card) (cycle : Nat) : Field :=
  let f1 := f.leaveSlot c.serial
  { f1 with cards := (f1.cards.filter fun d => d.serial != c.serial) ++
      [{ c with level := c.level + 1, since := cycle, due := none, inSlot := true }] }

/-- The card whose promotion to `level + 1` fell due first, nearer the head among equals. -/
def Field.firstDue (f : Field) (level : Nat) : Option Card :=
  (f.atLevel level).foldl (fun (b : Option Card) c => match c.due, b with
    | none, _ => b
    | some _, none => some c
    | some t, some d => if t < d.due.getD 0 then some c else b) none

/-- Promotions that wait for a slot of `level` take those that are free, and so downward. -/
def Field.promote (level : Nat) (f : Field) (cycle : Nat) : Field :=
  match level with
  | 0 => f
  | k + 1 =>
    if (f.atLevel (k + 1)).length < 64 then
      (match f.firstDue k with
        | some c => Field.promote k (f.moveUp c cycle) cycle
        | none => f)
    else f

/-- A card leaves its slot for good, which lets a waiting promotion in. -/
def Field.retireCard (f : Field) (serial cycle : Nat) : Field :=
  match f.card serial with
  | none => f
  | some c => Field.promote c.level (f.leaveSlot serial) cycle

/-! ## The dispatcher's accesses (R349, R350, R355) -/

/-- An access of a die's controller in a context: translated in the tables of that die, performed at its home. -/
def State.asUnit {α : Type} (s : State) (die ctx field : Nat) (f : State → Chk (State × α)) : Except (BitVec 8) (State × α) :=
  let unit : Core := { Core.reset die 8 with
    field := some field, sys := { SysRegs.reset with ctxid := BitVec.ofNat 64 (ctx % 2 ^ 16) } }
  match f { s with core := unit, others := s.core :: s.others } with
  | .ok (t, v) => match t.others with
    | c :: rest => .ok ({ t with core := c, others := rest }, v)
    | [] => .ok ({ t with core := s.core }, v)
  | .error (.exc e) => .error e.code
  | .error _ => .error linkCause

/-- n bytes of a field's context, read by its dispatcher at their homes (R349, R355). -/
def State.dispatchRead (s : State) (i : Nat) (a : Word) (n : Nat) : Except (BitVec 8) (State × List Byte) :=
  let f := s.fieldAt i
  s.asUnit f.anchor f.ctx i fun s => (pieceRuns a.toNat n).foldlM (fun (acc : State × List Byte) (r : Nat × Nat) => do
    let (t, bs) ← acc.1.readHome (a + BitVec.ofNat 64 r.1) r.2
    pure (t, acc.2 ++ bs)) (s, [])

/-- The 8-byte atomic add of a completion count; a replicated page collapses first (spec/04 R73). -/
def State.dispatchAdd (s : State) (i : Nat) (a : Word) (n : Nat) : Except (BitVec 8) State :=
  let f := s.fieldAt i
  (s.asUnit f.anchor f.ctx i fun s => do
    let s := match s.translate a ⟨true, true, false, false⟩ with
      | .error (.wait (.collapse va)) => s.collapsePage va
      | _ => s
    let (t, p, _) ← s.translate a ⟨true, true, false, false⟩
    demandFrom (!t.poison.contains (p / 64)) eccCause a
    pure ({ t with mem := Mem.store t.mem p 8 (Mem.load t.mem p 8 + n) }, ())).map (·.1)

/-- CARDERR and its interrupt (R404). -/
def State.cardError (s : State) (i kind serial : Nat) (code : BitVec 8) : State :=
  let f := { s.fieldAt i with carderr := BitVec.ofNat 64 (2 ^ 63 + kind * 2 ^ 61 + code.toNat * 2 ^ 48 + serial % 2 ^ 48) }
  (s.setField i f).irqCreator f 9

/-- A card is cancelled by a fault of its own: it leaves its slot, nothing is dealt. -/
def State.failCard (s : State) (i kind serial : Nat) (code : BitVec 8) : State :=
  let f := s.fieldAt i
  let f1 := match f.card serial with
    | some c => (f.retireCard serial s.cyc).putCard { c with inSlot := false, due := none, undealt := [], state := .cancelled }
    | none => f
  (s.setField i f1).cardError i kind serial code

/-! ## Activation (R355, R356) -/

/-- The set bits of a map after one dilation. -/
def activeBits (bs : Array Byte) (w h radius n : Nat) : List Bool :=
  let on := fun (x y : Int) =>
    if 0 ≤ x ∧ x < (w : Int) ∧ 0 ≤ y ∧ y < (h : Int) then
      let r := y.toNat * w + x.toNat
      (bs.getD (r / 8) 0#8).getLsbD (r % 8)
    else false
  (List.range n).map fun r =>
    let x : Int := (r % w : Nat)
    let y : Int := (r / w : Nat)
    on x y || (radius != 0 && (on (x - 1) y || on (x + 1) y || on x (y - 1) || on x (y + 1)))
      || (radius == 2 && (on (x - 1) (y - 1) || on (x + 1) (y - 1) || on (x - 1) (y + 1) || on (x + 1) (y + 1)))

/-- The runs of active records from index i, ascending. -/
def activeRuns (i : Nat) (l : List Bool) : List (Nat × Nat) :=
  match l with
  | [] => []
  | false :: rest => activeRuns (i + 1) rest
  | true :: rest =>
    match activeRuns (i + 1) rest with
    | (a, n) :: more => if a = i + 1 then (i, n + 1) :: more else (i, 1) :: (a, n) :: more
    | [] => [(i, 1)]

/-- Records an activation map leaves out are counted at the anchor die (spec/23 R402). -/
def State.countStat (s : State) (die k n : Nat) : State :=
  let c := s.chip die
  s.setChip die { c with dstats := assign c.dstats k (lookupD c.dstats k 0#64 + BitVec.ofNat 64 n) }

/-- A card becomes dealable: its map, if it has one, is read once; `add` makes the add of its inactive records. -/
def State.activateWith (add : State → Nat → State) (s : State) (i serial : Nat) : State :=
  let f := s.fieldAt i
  match f.card serial with
  | none => s
  | some c =>
    if c.abase = 0#64 then
      s.setField i (f.putCard { c with depDone := true, ready := true, undealt := [(0, c.rcount)] })
    else match s.dispatchRead i c.abase ((c.rcount + 7) / 8) with
      | .error code => s.failCard i 1 serial code
      | .ok (t, bs) =>
        let runs := activeRuns 0 (activeBits bs.toArray c.width c.height c.radius c.rcount)
        let d : Card := { c with depDone := true, ready := true, undealt := runs }
        let f1 := (t.fieldAt i).putCard d
        let f2 := if runs = [] then
            (f1.retireCard serial t.cyc).putCard { d with inSlot := false, due := none, state := .finished } else f1
        add ((t.setField i f2).countStat f.anchor 4 (c.rcount - d.left)) (c.rcount - d.left)

/-! ## Dependences and completion counts (R349, R350) -/

/-- The condition of a dependence. -/
def depMet (count value : Word) : Bool := decide ((count - value).toNat < 2 ^ 63)

/-- A read of a dependence word after acceptance. -/
def State.dependWith (add : State → Nat → State) (s : State) (i serial : Nat) : State :=
  match (s.fieldAt i).card serial with
  | none => s
  | some c =>
    if !c.inSlot || c.depDone then s
    else match s.dispatchRead i c.depAddr 8 with
      | .error code => s.failCard i 0 serial code
      | .ok (t, bs) =>
        if depMet (BitVec.ofNat 64 (ofBytes bs)) c.depVal then State.activateWith add t i serial
        else t.setField i ((t.fieldAt i).putCard { c with depTick := t.tick })

/-- A completion add, and the reads of the dependences on its address; each read that is met readies one more card, so as
many rounds as there are cards suffice. -/
def State.completionAdd (fuel : Nat) (s : State) (i serial n : Nat) : State :=
  match fuel with
  | 0 => s
  | k + 1 =>
    match (s.fieldAt i).card serial with
    | none => s
    | some c =>
      if c.cplAddr = 0#64 ∨ n = 0 then s
      else match s.dispatchAdd i c.cplAddr n with
        | .error code => s.cardError i 2 serial code
        | .ok t =>
          let waiting := (t.fieldAt i).cards.filter fun d => d.inSlot && !d.depDone && d.depAddr == c.cplAddr
          waiting.foldl (fun (t : State) (d : Card) =>
            t.dependWith (fun u m => State.completionAdd k u i d.serial m) i d.serial) t

def State.complete (s : State) (i serial n : Nat) : State := s.completionAdd ((s.fieldAt i).cards.length + 2) i serial n

/-- The same as a function of the state, for a card's inactive records. -/
def State.completeFor (i serial : Nat) (s : State) (n : Nat) : State := s.complete i serial n

/-! ## Acceptance (R286, R346, R348, R349) -/

/-- What becomes of a post. -/
inductive Posted where
  | accepted (s : State) (handle : Word)
  | full
  | refused
  | fault (code : BitVec 8)
  deriving DecidableEq, Repr

/-- A card of 64 bytes is judged and takes its slot; the instance of scope 1 and 2 is that of the poster. -/
def State.acceptCard (s : State) (i : Nat) (bs : List Byte) (die quad : Nat) (far : Bool) : Posted :=
  let f := s.fieldAt i
  let c : Card :=
    { serial := f.serial, words := cardWords bs, level := 0, since := s.cyc, due := none, inSlot := true, depDone := false
      depTick := s.tick, ready := false, undealt := [], parts := 0, die := die, quad := quad, state := .queued }
  let c := { c with level := c.prio, parts := s.participants i c, undealt := [(0, c.rcount)] }
  if !c.ok far then .refused
  else if 64 ≤ (f.atLevel c.level).length then .full
  else
    let s1 := s.setField i { f with cards := f.cards ++ [c], serial := f.serial + 1 }
    if c.depAddr = 0#64 then .accepted (s1.activateWith (State.completeFor i c.serial) i c.serial) (f.handle c.serial)
    else match s.dispatchRead i c.depAddr 8 with
      | .error code => .fault code
      | .ok (_, ws) =>
        if depMet (BitVec.ofNat 64 (ofBytes ws)) c.depVal then
          .accepted (s1.activateWith (State.completeFor i c.serial) i c.serial) (f.handle c.serial)
        else .accepted s1 (f.handle c.serial)

/-- The field a core's handle or JPOST operand names: one of its context, by its anchor die. -/
def State.fieldOf (s : State) (anchor : Nat) : Option Nat :=
  (List.range 16).find? fun i =>
    let f := s.fieldAt i
    f.valid && f.anchor == anchor && f.ctx == s.core.ctx

/-- JPOST. -/
def execJpost (x : Args) (s : State) : Out :=
  issue freeForm x s fun x s => finish s do
    let a := s.core.value x.a
    let b := s.core.value x.b
    demandAt (a.toNat % 64 == 0) alignCause a
    match (if b = 0#64 then s.core.field else s.fieldOf b.toNat) with
    | none => stop protCause
    | some i => do
      demand ((s.fieldAt i).stat != .killed) protCause
      demandWait s.core.settled .interlock
      match s.dispatchRead i a 64 with
      | .error code => stopAt code a
      | .ok (t, bs) =>
        match t.acceptCard i bs t.core.die t.core.quad (b != 0#64) with
        | .accepted u h => pure (u.modC fun c => c.writeD x.d h)
        | .full => pure (t.modC fun c => c.writeD x.d 0#64)
        | .refused => stop reservedField
        | .fault code => stopAt code (BitVec.ofNat 64 (ofBytes ((bs.drop 40).take 8)))

/-! ## Dealing (R351, R352) -/

/-- The first dealable card after a level's pointer whose instance holds the core. -/
def Field.pick (f : Field) (i : Nat) (k : Core) (level : Nat) : Option Card :=
  let l := f.atLevel level
  let p := f.pointer level
  (l.drop p ++ l.take p).find? fun c => c.dealable && c.holds i k

/-- The card for an idle request: the highest level that holds one. -/
def Field.choose (f : Field) (i : Nat) (k : Core) : Option Card :=
  (List.range 8).reverse.findSome? fun level => f.pick i k level

/-- Size of the next chunk. -/
def Card.chunkSize (c : Card) : Nat :=
  let n := max c.minch (ceilDiv c.left (c.div * c.parts))
  min (min n c.left) ((c.undealt.head?.map (·.2)).getD 0)

/-- In replay a chunk goes only to the logged core (spec/23 R397). -/
def State.chunkGrantable (s : State) (k : Core) (c : Card) : Bool := s.grantable k 1 c.serial

/-- A chunk of a card is dealt to members of one quad, leader first; receiving it is an acquire (R286). -/
def State.deal (s : State) (i : Nat) (c : Card) (ms : List Core) : State :=
  let n := c.chunkSize
  match c.undealt, ms with
  | (first, len) :: rest, leader :: _ =>
    let left := if len ≤ n then rest else (first + n, len - n) :: rest
    let d : Card := { c with undealt := left, since := s.cyc, state := if left = [] then .finished else .dealing }
    let f := (s.fieldAt i).putCard d
    let f1 := if left = [] then (f.retireCard c.serial s.cyc) else f
    let ch : Chunk := { field := i, serial := c.serial, next := first, left := n, size := n, canc := false }
    let s1 := (s.setField i f1).mapCores fun k =>
      if ms.any fun m => k.is m.die m.num then
        { k with chunk := some ch, sys := { k.sys with racest := k.sys.racest ||| 1#64 } } else k
    let s2 := s1.recordFor leader 1 c.serial (BitVec.ofNat 64 first)
    (s2.countStat leader.die 0 1).countStat leader.die 1 n
  | _, _ => s

/-- What a section declares; the other banks and tiles hold their reset values (spec/09 R176). -/
def ShapeSection.banks (x : ShapeSection) : Vector (BitVec 32) 16 :=
  Vector.ofFn fun (i : Fin 16) => if x.bankMask.getLsbD i.val then x.bfmt.get i else 0x00001000#32

def ShapeSection.records (x : ShapeSection) : Vector Shape 32 :=
  Vector.ofFn fun (i : Fin 32) => if x.tileMask.getLsbD i.val then x.tiles.get i else 0#128

/-- The shape section a card's first record finds; an image without one declares nothing. -/
def Field.shapeOf (f : Field) (entry : Nat) : ShapeSection :=
  lookupD f.shapes entry ⟨Vector.replicate 16 0#32, Vector.replicate 32 0#128, 0#32, 0#16⟩

/-- Bound streams released, as SFREE would (R15). -/
def Core.freeStreams (c : Core) : Core := { c with streams := [], reuseA := none, reuseB := none }

/-- The state at entry to record `next` of the held chunk (R14). -/
def Core.enterRecord (c : Core) (f : Field) (d : Card) (ch : Chunk) : Core :=
  let first := !c.seen.contains (ch.field, ch.serial)
  let shape := f.shapeOf d.entry
  let regs := (((Vector.replicate 32 0#64).set 1 (d.rbase + BitVec.ofNat 64 (ch.next * d.recSize))).set 2
    (BitVec.ofNat 64 ch.next)).set 3 (BitVec.ofNat 64 c.fcn)
  { c.freeStreams with
    run := .running, pc := BitVec.ofNat 14 d.entry, regs := regs.set 4 (BitVec.ofNat 64 c.rank), preds := 1#8
    q := Vector.replicate 16 0#64, pushes := 0, owed := [], wait := .none, wake := none
    card := some (ch.field, ch.serial), heldCard := none
    seen := if first then (ch.field, ch.serial) :: c.seen else c.seen
    tiles := if first then shape.records else c.tiles, bfmt := if first then shape.banks else c.bfmt
    slots := if first then Vector.replicate 16 Slot.reset else c.slots
    timed := { c.timed with active := false }
    sys := { c.sys with mode := setBits c.sys.mode 0 0 0, prio := BitVec.ofNat 64 d.level } }

/-- Members begin the record NEXT of the chunk they hold. -/
def State.enterRecords (s : State) (ms : List Core) : State :=
  s.mapCores fun k =>
    if ms.any fun m => k.is m.die m.num then match k.chunk with
      | some ch => match (s.fieldAt ch.field).card ch.serial with
        | some d => k.enterRecord (s.fieldAt ch.field) d ch
        | none => k
      | none => k
    else k

/-- Members become separate idle cores; a memory core, which is dealt nothing, halts (spec/22 R391). `last`: the card has no
further chunk for the core, and its claimed slots are freed (R15). -/
def Core.toIdle (c : Core) (last : Bool) : Core :=
  { c.freeStreams with
    run := if c.memc then .halted else .idle, card := none, heldCard := none, chunk := none, wait := .none, wake := none, rank := 0
    slots := if last then Vector.replicate 16 Slot.reset else c.slots
    sys := { c.sys with mode := setBits c.sys.mode 2 2 0 } }

/-- Ranks and MODE.GANG of members that were dealt together. -/
def State.formGang (s : State) (ms : List Core) : State :=
  let gang := decide (2 ≤ ms.length)
  s.mapCores fun k => match (List.range ms.length).find? fun n => match ms[n]? with
      | some m => k.is m.die m.num
      | none => false with
    | some n => { k with rank := n, sys := { k.sys with mode := setBits k.sys.mode 2 2 (if gang then 1 else 0) } }
    | none => k

/-- Healthy compute cores of a quad of a field, ascending. -/
def State.quadCores (s : State) (i : Nat) (k : Core) : List Core :=
  (List.range 8).filterMap fun n => s.cores.find? fun c => c.is k.die n && c.field == some i && !c.memc && c.latch == k.latch

/-- An idle request of one core: served alone, held for its quad's gang, or served as the quad's once every member is idle; the
card that a held request waits for comes first then, and the pointer moves where a card is chosen (R351, R352). -/
def State.serveIdle (s : State) (i : Nat) (die num : Nat) : State :=
  match s.find die num with
  | none => s
  | some k =>
    if k.run ≠ .idle then s
    else
      let f := s.fieldAt i
      let quad := s.quadCores i k
      let formed := quad.all fun m => m.run == .idle
      let held := fun (m : Core) => m.heldCard.bind fun n => (f.card n).filter Card.dealable
      let waits := if formed then quad.findSome? held else held k
      match waits.or (f.choose i k) with
      | none => s
      | some c =>
        let gang := c.gang && decide (2 ≤ quad.length)
        let ms := if gang then quad else [k]
        let at' := (f.atLevel c.level).findIdx fun d => d.serial == c.serial
        let t := if waits.isSome then s else s.setField i (f.setPointer c.level (at' + 1))
        if gang && !formed then t.onCore die num fun m => { m with heldCard := some c.serial }
        else if !s.chunkGrantable (ms.headD k) c then s
        else ((t.formGang ms).deal i c ms).enterRecords ms

/-- DISPATCH_REQUEST: the pending idle requests of a field, in ascending field core number. -/
def execDispatchRequest (field : Nat) (s : State) : Out :=
  let f := s.fieldAt field
  if f.valid && f.stat == .running then
    let ks := s.cores.filter fun k => k.field == some field && k.run == .idle && !k.memc
    let count := ks.foldl (fun n k => max n (k.fcn + 1)) 0
    .next ((List.range count).foldl (fun (t : State) (n : Nat) => match ks.find? fun k => k.fcn == n with
      | some k => t.serveIdle field k.die k.num
      | none => t) s)
  else .next s

/-! ## Chunks (R287) -/

/-- The chunk word. -/
def chunkWord (c : Option Chunk) : Word :=
  match c with
  | none => 0x8000000000000000#64
  | some ch => BitVec.ofNat 64 ((if ch.canc then 2 ^ 62 else 0) + ch.left % 2 ^ 30 * 2 ^ 32 + ch.next % 2 ^ 32)

/-- Everything a record issued has completed and been performed (R15). -/
def Core.drained (c : Core) : Bool := c.enginesIdle && c.settled

/-- Cores that hold what the focused core holds. -/
def State.party (s : State) : List Core := if s.core.ganged then s.gang s.core else [s.core]

/-- The held chunk is retired: its whole count is added to the card's completion counter. -/
def State.retireChunk (s : State) : State :=
  match s.core.chunk with
  | none => s
  | some ch =>
    let ms := s.party
    let t := s.mapCores fun k => if ms.any fun m => k.is m.die m.num then { k with chunk := none } else k
    t.complete ch.field ch.serial ch.size

/-- Instructions in which a gang is one participant: the leader's decides (R285). -/
def partyForm : Form := { freeForm with leads := .both }

/-- The card of the core's current run, if it can be dealt. -/
def State.current (s : State) : Option (Nat × Card) :=
  match s.core.card with
  | some (i, n) => (((s.fieldAt i).card n).filter Card.dealable).map fun c => (i, c)
  | none => none

/-- JTAKE. -/
def execJtake (x : Args) (s : State) : Out :=
  issue partyForm x s fun x s =>
    let answer := fun (t : State) => Res.done (t.modC fun c => c.writeD x.d (chunkWord c.chunk))
    if s.follower then answer s
    else if s.core.chunk.isSome then .trap (cause protCause) s
    else match s.current with
      | none => answer s
      | some (i, c) => if s.chunkGrantable s.core c then answer (s.deal i c s.party) else .wait (.replay (logKey 1 c.serial)) s

/-- JDONE. -/
def execJdone (x : Args) (s : State) : Out :=
  issue partyForm x s fun _ s => finish s do
    if s.follower then
      demandWait s.core.drained .interlock
      pure s
    else
      demand s.core.chunk.isSome protCause
      demandWait s.core.drained .interlock
      pure s.retireChunk

/-- The next record of the held chunk. -/
def Chunk.advance (c : Chunk) : Chunk := { c with next := c.next + 1, left := c.left - 1 }

/-- The next chunk of the current card; `change`: a continuation, which gives way to a card of a higher level that fits the
core (R351). Without one the members turn idle. -/
def State.nextChunk (s : State) (ms : List Core) (change : Bool) : State :=
  let idle := fun (last : Bool) => s.mapCores fun k => if ms.any fun m => k.is m.die m.num then k.toIdle last else k
  match s.current with
  | none => idle true
  | some (i, c) =>
    let higher := match (s.fieldAt i).choose i s.core with
      | some d => decide (c.level < d.level)
      | none => false
    if change && higher || !s.chunkGrantable s.core c then idle false else (s.deal i c ms).enterRecords ms

/-- END of a record, at the leader or the core alone: next record, next chunk of the card unless a card of a higher level fits,
or an idle request (R14, R351); with no chunk held it takes one as JTAKE would (R287). -/
def State.endRecord (s : State) : State :=
  let ms := s.party
  let mine := fun (k : Core) => ms.any fun m => k.is m.die m.num
  match s.core.chunk with
  | some ch =>
    if 1 < ch.left then
      (s.mapCores fun k => if mine k then { k with chunk := k.chunk.map Chunk.advance } else k).enterRecords ms
    else s.retireChunk.nextChunk ms true
  | none => s.nextChunk ms false

/-- The focused core's copy is the last of its gang's. -/
def State.lastMember (s : State) : Bool :=
  !s.core.ganged || ((s.gang s.core).getLast?).all fun c => c.is s.core.die s.core.num

/-- END (spec/10 R193): in a gang the record ends with the last member's copy. -/
def execEnd (x : Args) (s : State) : Out :=
  issue { freeForm with leads := .leader, alone := true } x s fun _ s =>
    if !s.core.drained then .wait .interlock s
    else if s.lastMember then .exit ((s.focus s.leader.die s.leader.num).endRecord.focus s.core.die s.core.num)
    else .exit s

/-! ## JCANCEL and JSTAT (R288, R289, R354) -/

/-- The field a handle names. -/
def State.handleField (s : State) (h : Word) : Chk Nat :=
  match (if bits h 63 58 = 0 then s.fieldOf (bits h 57 48) else none) with
  | some i => .ok i
  | none => stop protCause

/-- A cancel: status and state. -/
def State.cancelCard (s : State) (i serial : Nat) : Nat × State :=
  let f := s.fieldAt i
  match f.card serial with
  | none => (2, s)
  | some c =>
    if c.state = .cancelled ∨ c.state = .finished then (2, s)
    else
      let f1 := (f.retireCard serial s.cyc).putCard { c with inSlot := false, due := none, undealt := [], state := .cancelled }
      let t := (s.setField i f1).mapCores fun k => { k with chunk := k.chunk.map fun ch =>
        if ch.field = i ∧ ch.serial = serial then { ch with canc := true } else ch }
      (if c.state = .queued then 0 else 1, t)

/-- JCANCEL. -/
def execJcancel (x : Args) (s : State) : Out :=
  issue freeForm x s fun x s => finish s do
    let h := s.core.value x.a
    let i ← s.handleField h
    let (v, t) := s.cancelCard i (bits h 47 0)
    pure (t.modC fun c => c.writeD x.d (BitVec.ofNat 64 v))

def CardState.code (c : CardState) : Nat :=
  match c with
  | .queued => 0
  | .dealing => 1
  | .finished => 2
  | .cancelled => 3

/-- The card word. -/
def cardWord (c : Option Card) : Word :=
  match c with
  | none => 0x8000000000000000#64
  | some c => BitVec.ofNat 64 (c.state.code * 2 ^ 62 + c.level % 8 * 2 ^ 59 + c.left % 2 ^ 32)

/-- JSTAT: of the held chunk with A = s0, of a handle's card otherwise. -/
def execJstat (x : Args) (s : State) : Out :=
  let held := x.a == .s 0#5
  issue { freeForm with leads := if held then .both else .own } x s fun x s => finish s do
    if held then pure (s.modC fun c => c.writeD x.d (chunkWord c.chunk))
    else
      let h := s.core.value x.a
      let i ← s.handleField h
      pure (s.modC fun c => c.writeD x.d (cardWord ((s.fieldAt i).card (bits h 47 0))))

/-! ## Steps of the dispatcher (R348, R349) -/

/-- CARD_PROMOTION: a card that has waited 2^20 cycles at its level moves up, or falls due while the level is full. -/
def execCardPromotion (field serial : Nat) (s : State) : Out :=
  let f := s.fieldAt field
  match f.card serial with
  | none => .next s
  | some c =>
    if f.valid && f.stat == .running && c.inSlot && decide (c.level < 7) && c.due.isNone && decide (c.since + 2 ^ 20 ≤ s.cyc) then
      .next (s.setField field (Field.promote (c.level + 1) (f.putCard { c with due := some (c.since + 2 ^ 20) }) s.cyc))
    else .next s

/-- DEPENDENCE_READ: once per Tick while the dependence does not hold. -/
def execDependenceRead (field serial : Nat) (s : State) : Out :=
  let f := s.fieldAt field
  match f.card serial with
  | none => .next s
  | some c =>
    .next (if f.valid && f.stat == .running && c.depAddr != 0#64 && decide (c.depTick < s.tick) then
      s.dependWith (State.completeFor field serial) field serial else s)

end Sys2Proof.Machine
end

