-- ==== Sys2Proof/Machine/Rings.lean ====
section
/-!
DEFINITION. Rings (spec/15 R290 to R292, spec/20 R357 to R359): RPUT, RGET, REOS, RSTAT; the Tumbler (spec/20 R360 to R362).
-/

namespace Sys2Proof.Machine

/-! ## The descriptor (R357) -/

/-- A ring's descriptor: its place and words. -/
structure Ring where
  va   : Nat
  phys : Nat
  w    : Vector Word 8
  deriving DecidableEq, Repr

def Ring.word (r : Ring) (n : Nat) : Word := r.w[n]?.getD 0#64
def Ring.base (r : Ring) : Word := r.word 0
def Ring.elemSize (r : Ring) : Nat := (bits (r.word 1) 41 32 + 1) * 8
def Ring.cap (r : Ring) : Nat := bits (r.word 1) 31 0
def Ring.cons (r : Ring) : Nat := bits (r.word 2) 39 32
def Ring.eos (r : Ring) : Nat := bits (r.word 2) 31 16
def Ring.pmask (r : Ring) : Nat := bits (r.word 2) 15 0
def Ring.tail (r : Ring) : Nat := bits (r.word 3) 63 32
def Ring.head (r : Ring) : Nat := bits (r.word 3) 31 0
def Ring.count (r : Ring) : Nat := (r.tail + 2 ^ 32 - r.head) % 2 ^ 32

/-- The limits of the table. -/
def Ring.ok (r : Ring) : Bool :=
  r.base.toNat % 8 == 0 && bits (r.word 1) 63 42 == 0 && decide (bits (r.word 1) 41 32 ≤ 511) && decide (1 ≤ r.cap ∧ r.cap ≤ 2 ^ 24) && bits (r.word 2) 63 40 == 0
    && decide (1 ≤ r.cons ∧ r.cons ≤ 4) && r.pmask != 0 && bits (r.word 7) 63 48 == 0

/-- The 192 bits of PBIND. -/
def Ring.pbind (r : Ring) : Nat := (r.word 4).toNat + (r.word 5).toNat * 2 ^ 64 + (r.word 6).toNat * 2 ^ 128

def Ring.producer (r : Ring) (n : Nat) : Nat := r.pbind / 2 ^ (12 * n) % 4096
def Ring.consumer (r : Ring) (n : Nat) : Nat := (r.word 7).toNat / 2 ^ (12 * n) % 4096

def Ring.put (r : Ring) (n : Nat) (v : Word) : Ring := if h : n < 8 then { r with w := r.w.set n v h } else r

/-- Producer index n bound to a core. -/
def Ring.bindProducer (r : Ring) (n lcn : Nat) : Ring :=
  let v := r.pbind - r.producer n * 2 ^ (12 * n) + lcn % 4096 * 2 ^ (12 * n)
  ((r.put 4 (BitVec.ofNat 64 v)).put 5 (BitVec.ofNat 64 (v / 2 ^ 64))).put 6 (BitVec.ofNat 64 (v / 2 ^ 128))

/-- Consumer place n bound to a core. -/
def Ring.bindConsumer (r : Ring) (n lcn : Nat) : Ring := r.put 7 (setBits (r.word 7) (12 * n + 11) (12 * n) lcn)

/-- The descriptor a ring instruction names, read at its home for the focused core. -/
def State.ringAt (s : State) (a : Word) (write : Bool) : Chk (State × Ring) := do
  demandAt (a.toNat % 64 == 0) alignCause a
  let (t, p, _) ← s.translate a ⟨true, write, false, false⟩
  let t := t.flushPiece (0, p / 64)
  demandFrom (!t.poison.contains (p / 64)) eccCause a
  pure (t, { va := a.toNat, phys := p, w := cardWords (Mem.getBytes t.mem p 64) })

/-- The home keeps a descriptor's words 2 to 7. -/
def State.keepRing (s : State) (r : Ring) : State :=
  { s with mem := (List.range 6).foldl (fun (m : Mem) k => Mem.store m (r.phys + 8 * (k + 2)) 8 (r.word (k + 2)).toNat) s.mem }

/-- Cores blocked on a ring in one direction, oldest first. -/
def State.ringWaiters (s : State) (phys : Nat) (put : Bool) : List Nat :=
  (s.rings.filter fun r => r.1 == phys && r.2.1 == put && s.cores.any fun c =>
    c.die * 8 + c.num == r.2.2 && (match c.wait with
      | .ringPut _ _ => put
      | .ringGet _ => !put
      | _ => false)).map fun r => r.2.2

/-- The focused core's place in that order: behind every waiter when it is none of them. -/
def State.ringPlace (s : State) (phys : Nat) (put : Bool) : Nat :=
  (s.ringWaiters phys put).findIdx fun k => k == s.core.die * 8 + s.core.num

/-- The focused core joins the end of the order, if it is not in it. -/
def State.joinRing (s : State) (phys : Nat) (put : Bool) : State :=
  let me := s.core.die * 8 + s.core.num
  if (s.ringWaiters phys put).contains me then s
  else { s with rings := (s.rings.filter fun r => r.2.2 != me) ++ [(phys, put, me)] }

def State.leaveRing (s : State) : State :=
  { s with rings := s.rings.filter fun r => r.2.2 != s.core.die * 8 + s.core.num }

/-! ## Elements -/

/-- The LOCAL place of an element: ALIGN, PROT, the waits of a local access; never race-checked (R290). -/
def State.elementAt (s : State) (b : Word) (n : Nat) (w : Bool) : Chk State := do
  demandAt (decide (b.toNat + n ≤ 0x200000)) protCause b
  (pieceRuns b.toNat n).foldlM (fun (s : State) (r : Nat × Nat) =>
    s.localAccess (b + BitVec.ofNat 64 r.1) r.2 w false) s

/-- Address of element n. -/
def Ring.element (r : Ring) (n : Nat) : Word := r.base + BitVec.ofNat 64 (n % r.cap * r.elemSize)

/-- Bytes written into ring storage, piece by piece at their homes. -/
def State.writeElement (s : State) (a : Word) (bs : List Byte) : Chk State :=
  (pieceRuns a.toNat bs.length).foldlM (fun (s : State) (r : Nat × Nat) => do
    let b := a + BitVec.ofNat 64 r.1
    let (t, p, _) ← s.translate b ⟨false, true, false, false⟩
    let t := t.flushPiece (0, p / 64)
    pure { t with mem := Mem.putBytes t.mem p ((bs.drop r.1).take r.2) }) s

/-- Bytes read from ring storage. -/
def State.readElement (s : State) (a : Word) (n : Nat) : Chk (State × List Byte) :=
  (pieceRuns a.toNat n).foldlM (fun (acc : State × List Byte) (r : Nat × Nat) => do
    let (t, bs) ← acc.1.readGlobal (a + BitVec.ofNat 64 r.1) r.2 false false
    pure (t, acc.2 ++ bs)) (s, [])

/-! ## Bindings (R358) -/

/-- A producer's use of an index: PROT outside PMASK or bound to another core. -/
def Ring.useProducer (r : Ring) (prod lcn : Nat) : Chk Ring :=
  if r.pmask / 2 ^ prod % 2 = 0 then stop protCause
  else if r.producer prod = 0xFFF then .ok (r.bindProducer prod lcn)
  else if r.producer prod = lcn % 4096 then .ok r
  else stop protCause

/-- A consumer's use: one of at most CONS distinct cores. -/
def Ring.useConsumer (r : Ring) (lcn : Nat) : Chk Ring :=
  let places := List.range r.cons
  if places.any fun n => r.consumer n == lcn % 4096 then .ok r
  else match places.find? fun n => r.consumer n == 0xFFF with
    | some n => .ok (r.bindConsumer n lcn)
    | none => stop protCause

def Ring.ended (r : Ring) (prod : Nat) : Bool := r.eos / 2 ^ prod % 2 == 1

/-- Every producer in use has ended. -/
def Ring.allEnded (r : Ring) : Bool := (List.range 16).all fun n => r.pmask / 2 ^ n % 2 == 0 || r.ended n

/-! ## The instructions (R291, R292) -/

/-- RPUT. -/
def execRput (x : Args) (m : BitVec 4) (s : State) : Out :=
  issue freeForm x s fun x s => settleWith s do
    let a := s.core.value x.a
    let b := s.core.value x.b
    let prod := m.toNat
    demandAt (a.toNat % 64 == 0) alignCause a
    demandAt (b.toNat % 8 == 0) alignCause b
    demandWait s.core.settled .interlock
    let (t, r0) ← s.ringAt a true
    demand r0.ok reservedField
    let t ← t.elementAt b r0.elemSize false
    let r ← r0.useProducer prod t.core.lcn
    demand (!r.ended prod) protCause
    if r.count < r.cap ∧ t.ringPlace r.phys true = 0 then
      match t.core.lsBadAt b.toNat r.elemSize with
      | some k => stopAt eccCause (BitVec.ofNat 64 k)
      | none => do
        let u ← t.writeElement (r.element r.tail) (t.core.lsBytes b.toNat r.elemSize)
        let tags := if r.count = 0 then [] else lookupD u.ringTags r.phys []
        let v := u.keepRing (r.put 3 (BitVec.ofNat 64 ((r.tail + 1) % 2 ^ 32 * 2 ^ 32 + r.head)))
        pure (.done { v.leaveRing with ringTags := assign u.ringTags r.phys (tags ++ [prod]) })
    else pure (.wait (.ringPut r.va prod) ((t.keepRing r).joinRing r.phys true))

/-- The status word of RGET. -/
def ringStatus (ended : Bool) (prod : Nat) : Word := BitVec.ofNat 64 (if ended then 2 ^ 63 else prod % 16 * 2 ^ 56)

/-- A core's turn at a ring's next element: it is the first that waits, or in replay the logged core, before which no other is granted
(spec/20 R359, spec/23 R397). -/
def State.getTurn (s : State) (r : Ring) : Bool :=
  (decide (s.ringPlace r.phys false = 0) || s.core.field.any fun i => (s.fieldAt i).replayMode == 2) && s.grantable s.core 3 r.va

/-- RGET. -/
def execRget (x : Args) (s : State) : Out :=
  issue freeForm x s fun x s => settleWith s do
    let a := s.core.value x.a
    let b := s.core.value x.b
    demandAt (a.toNat % 64 == 0) alignCause a
    demandAt (b.toNat % 8 == 0) alignCause b
    let (t, r0) ← s.ringAt a true
    demand r0.ok reservedField
    let t ← t.elementAt b r0.elemSize true
    let r ← r0.useConsumer t.core.lcn
    if r.count = 0 ∧ r.allEnded = true then
      pure (.done (((t.keepRing r).leaveRing.modC fun c => c.writeD x.d (ringStatus true 0)).acquire))
    else if 0 < r.count ∧ t.getTurn r = true then do
      let (u, bs) ← t.readElement (r.element r.head) r.elemSize
      let tags := lookupD u.ringTags r.phys []
      let prod := (tags[tags.length - r.count]?).getD ((Config.freeWord u.free).toNat % 16)
      let v := (u.keepRing (r.put 3 (BitVec.ofNat 64 (r.tail * 2 ^ 32 + (r.head + 1) % 2 ^ 32)))).leaveRing
      let w := { v with ringTags := assign v.ringTags r.phys (tags.drop (tags.length - r.count + 1)), free := v.free + 1 }
      let y := w.recordFor w.core 3 r.va (BitVec.ofNat 64 r.head)
      pure (.done ((y.modC fun c => (c.putLs b.toNat bs).writeD x.d (ringStatus false prod)).acquire))
    else pure (.wait (.ringGet r.va) ((t.keepRing r).joinRing r.phys false))

/-- REOS: a release. -/
def execReos (x : Args) (m : BitVec 4) (s : State) : Out :=
  issue freeForm x s fun x s => finish s do
    let a := s.core.value x.a
    let prod := m.toNat
    demandAt (a.toNat % 64 == 0) alignCause a
    demandWait s.core.settled .interlock
    let (t, r0) ← s.ringAt a true
    demand r0.ok reservedField
    let r ← r0.useProducer prod t.core.lcn
    pure (t.keepRing (r.put 2 (r.word 2 ||| (1#64 <<< (16 + prod)))))

/-- RSTAT. -/
def execRstat (x : Args) (s : State) : Out :=
  issue freeForm x s fun x s => finish s do
    let (t, r) ← s.ringAt (s.core.value x.a) false
    demand r.ok reservedField
    pure (t.modC fun c => c.writeD x.d (BitVec.ofNat 64 (r.eos * 2 ^ 48 + r.pmask * 2 ^ 32 + r.count)))

/-! ## The Tumbler (R360 to R362) -/

/-- The ring a blocked core names, as its home keeps it. -/
def State.blockedRing (s : State) (k : Core) (va : Nat) : Option Ring :=
  match s.asUnit k.die k.ctx (k.field.getD 0) fun t => t.ringAt (BitVec.ofNat 64 va) false with
  | .ok (_, r) => some r
  | .error _ => none

/-- The place of a core among those that wait for a ring. -/
def State.waiterPlace (s : State) (phys : Nat) (put : Bool) (k : Core) : Nat :=
  (s.ringWaiters phys put).findIdx fun n => n == k.die * 8 + k.num

/-- BLKST of a core (R360): one that has been woken, or whose turn at a ring has come, is not blocked. -/
def State.blkst (s : State) (k : Core) : Word :=
  if k.wake.isSome || k.run == .killed then 0#64
  else match k.wait with
    | .ringPut va prod =>
      if (s.blockedRing k va).any fun r => decide (r.count + s.waiterPlace r.phys true k < r.cap) then 0#64
      else BitVec.ofNat 64 (2 ^ 62 + prod % 16 * 2 ^ 58 + va % 2 ^ 48 / 64 * 64)
    | .ringGet va =>
      if (s.blockedRing k va).any fun r => decide (s.waiterPlace r.phys false k < r.count) || (r.count == 0 && r.allEnded) then 0#64
      else BitVec.ofNat 64 (2 * 2 ^ 62 + va % 2 ^ 48 / 64 * 64)
    | .mutex m => BitVec.ofNat 64 (3 * 2 ^ 62 + m % 16 * 64)
    | _ => 0#64

/-- The core waits for a ring or a mutex. -/
def Core.blocked (k : Core) : Bool :=
  k.wake.isNone && (match k.wait with
    | .ringPut _ _ => true
    | .ringGet _ => true
    | .mutex _ => true
    | _ => false)

/-- The unblockers of a blocked core, none when unknown is among them (R361). -/
def State.unblockers (s : State) (k : Core) : Option (List Nat) :=
  match k.wait with
  | .ringPut va _ => match s.blockedRing k va with
    | some r =>
      let cs := (List.range r.cons).map r.consumer
      if cs.contains 0xFFF then none else some cs
    | none => none
  | .ringGet va => match s.blockedRing k va with
    | some r =>
      let ps := ((List.range 16).filter fun n => r.pmask / 2 ^ n % 2 == 1 && !r.ended n).map r.producer
      if ps.contains 0xFFF then none else some ps
    | none => none
  | .mutex m => match ((s.latch k.latch).mutex m).holder with
    | some h => (s.coreAt k.latch h).map fun c => [c.lcn % 4096]
    | none => none
  | _ => none

/-- What a scan of a context reads. -/
def State.scan (s : State) (ctx : Nat) : List Blocked :=
  (s.cores.filter fun k => k.field.isSome && k.ctx == ctx && s.blkst k != 0#64).map fun k => ⟨k.lcn % 4096, s.blkst k, s.unblockers k⟩

/-- The members of a set that are not blocked only by the set leave it, round after round: what stays is the largest
deadlocked set. -/
def largestStuck (fuel : Nat) (l : List Blocked) : List Blocked :=
  match fuel with
  | 0 => l
  | k + 1 => largestStuck k (l.filter fun b => match b.by_ with
      | some us => us.all fun u => l.any fun d => d.lcn == u
      | none => false)

def stuckSet (l : List Blocked) : List Blocked := largestStuck l.length l

/-- The largest set deadlocked in two scans, every member's BLKST unchanged. -/
def stuckTwice (fuel : Nat) (old new : List Blocked) : List Blocked :=
  match fuel with
  | 0 => []
  | k + 1 =>
    let a := stuckSet (new.filter fun b => old.any fun o => o.lcn == b.lcn && o.blkst == b.blkst)
    let b := stuckSet (old.filter fun o => a.any fun n => n.lcn == o.lcn)
    if a.length = b.length then a else stuckTwice k b a

/-- A core of a deadlocked set takes DEADLOCK, with every member of its gang. -/
def State.deadlock (s : State) (ctx : Nat) (set : List Nat) (die num : Nat) : State :=
  s.within die num fun t =>
    let hit := fun (k : Core) => k.ctx == ctx && set.contains (k.lcn % 4096) && k.blocked
    if !hit t.core then t
    else if t.core.ganged then
      let ms := t.gang t.core
      (gangTrap (ms.map fun k => if hit k then some (cause deadlockCause) else none) (ms.map fun _ => false)
        (ms.map fun k => (k.die, k.num)) (cause deadlockCause) t).focus die num
    else t.raise (cause deadlockCause) false false

/-- TUMBLER_SCAN of a context, at every 16th Tick edge. -/
def execTumblerScan (ctx : Nat) (s : State) : Out :=
  let edge := s.tick / 16
  let last := s.tumbler.find? fun x => x.ctx == ctx
  if edge ≤ (last.map Scan.edge).getD 0 then .next s
  else
    let found := s.scan ctx
    let old := match last with
      | some x => if x.edge + 1 = edge then x.blocked else []
      | none => []
    let set := stuckTwice (old.length + 1) old found
    let lcns := set.map Blocked.lcn
    let kept := found.filter fun b => !lcns.contains b.lcn
    let t := { s with tumbler := ⟨ctx, edge, kept⟩ :: s.tumbler.filter fun x => x.ctx != ctx }
    let u := (t.cores.map fun k => (k.die, k.num)).foldl (fun (u : State) (k : Nat × Nat) => u.deadlock ctx lcns k.1 k.2) t
    let first := (List.range 16).find? fun i => (u.fieldAt i).valid && (u.fieldAt i).lead && (u.fieldAt i).ctx == ctx
    match first, lcns with
    | some i, l :: rest =>
      let die := (u.fieldAt i).anchor
      .next (u.setChip die { u.chip die with
        tumrec := BitVec.ofNat 64 (2 ^ 63 + lcns.length * 2 ^ 32 + rest.foldl min l) })
    | _, _ => .next u

end Sys2Proof.Machine
end

