-- ==== Sys2Proof/Machine/Package.lean ====
section
/-!
DEFINITION. The tables of the package: NSEL (spec/18 R309 to R311), static route entries (R312, R313), HARVEST, LPT and
CHAIN_MAP (R322 to R324, R327), the package description page (R325), homes (spec/19 R339), and the bring-up of its chiplets
(spec/18 R314 to R321), bonds that fail and chiplets that are fenced (R326, R327).
-/

namespace Sys2Proof.Machine

def State.modChip (s : State) (die : Nat) (f : Chip → Chip) : State := s.setChip die (f (s.chip die))

/-- A block that answers more than BUSTATE and LINKST (R307). -/
def State.answers (s : State) (die : Nat) : Bool :=
  (kindOf die).isSome && (match (s.chip die).bus with
    | .dark => false
    | .fenced => false
    | .isolated => false
    | _ => true)

def isCompute (die : Nat) : Bool := kindOf die == some 0

/-- A chiplet with cores. -/
def hasCores (die : Nat) : Bool := kindOf die == some 0 || kindOf die == some 2

/-- Both endpoints are interrupted. -/
def State.irqBoth (s : State) (bit : Nat) : State := (s.irq 0 bit).irq 1 bit

/-! ## NSEL (R309, R310) -/

/-- A two-leg path by way of w, its first leg on mesh B when `onB`. -/
def twoLegs (onB : Bool) (src w dst : Nat) : List Nat := meshPath onB src w ++ meshPath (!onB) w dst

/-- The best waypoint: hops, first mesh, waypoint, in that order. -/
def State.waypoint (s : State) (src dst : Nat) : Option (Nat × Bool × Nat) :=
  (([false, true].flatMap fun m => allDies.map fun w => (m, w)).filterMap fun p =>
      let path := twoLegs p.1 src p.2 dst
      if s.pathOpen src path then some (path.length, p.1, p.2) else none).foldl
    (fun (b : Option (Nat × Bool × Nat)) x => match b with
      | none => some x
      | some y => if x.1 < y.1 then some x else some y) none

/-- The NSEL entry the master writes for a source and a destination. -/
def State.nselFor (s : State) (src dst : Nat) : BitVec 16 :=
  match s.pathOpen src (meshPath false src dst), s.pathOpen src (meshPath true src dst) with
  | true, true => 0x8000#16
  | true, false => 0x0000#16
  | false, true => 0x4000#16
  | false, false => match s.waypoint src dst with
    | some (_, m, w) => BitVec.ofNat 16 ((if m then 2 ^ 14 else 0) + 2 ^ 13 + w)
    | none => 0xC000#16

/-- Every chiplet of a list gets its NSEL entries. -/
def State.writeNsel (s : State) (dies : List Nat) : State :=
  dies.foldl (fun (t : State) d => t.modChip d fun c => { c with nsel := allDies.map fun e => (e, s.nselFor d e) }) s

/-- The entry a write of NSEL leaves, or none where it is refused. -/
def nselValue (v : BitVec 16) : Option (BitVec 16) :=
  if (bits v 15 14 == 2 && v.getLsbD 13) || bits v 12 10 != 0 then none else some v

/-- NSEL_WRITE. -/
def execNselWrite (die dest : Nat) (value : BitVec 16) (s : State) : Out :=
  .next (match nselValue value with
    | some v => if s.answers die && decide (dest < 1024) then s.modChip die fun c => { c with nsel := assign c.nsel dest v } else s
    | none => s)

/-! ## Static route entries (R312, R313) -/

/-- A timed region of any field is active on a chiplet. -/
def State.timedOn (s : State) (die : Nat) : Bool := s.cores.any fun k => k.die == die && k.timed.active

def Chip.linkState (c : Chip) (port : Nat) : BitVec 2 := (c.links[port]?.map Link.state).getD 0#2

/-- An entry that a chiplet takes. -/
def State.rteOk (s : State) (die : Nat) (old v : BitVec 32) : Bool :=
  !(v != old && s.timedOn die) && (!rteValid v ||
    (decide (rteIn v ≤ 4) && decide (rteOut v ≤ 4) && !(rteIn v == rteOut v && decide (rteIn v < 4))
      && (hasCores die || (rteIn v != 4 && rteOut v != 4))
      && (rteOut v == 4 || ((s.chip die).linkState (rteOut v) != 0#2 && (s.chip die).linkState (rteOut v) != 3#2))))

/-- An entry that is taken; a valid one is a new route of its field, which the controller notes (R326, spec/08 R165). -/
def State.putRte (s : State) (die route : Nat) (v : BitVec 32) : State :=
  let t := s.modChip die fun c => { c with rte := assign c.rte route v }
  if rteValid v then (t.setField (rteField v) { t.fieldAt (rteField v) with noTimed := false }).noteRoute (rteField v) route else t

/-- RTE_WRITE; reserved bits read zero. -/
def execRteWrite (die route : Nat) (value : BitVec 32) (s : State) : Out :=
  let v := value &&& 0xFFFF8000#32
  if s.answers die && decide (route < 256) && s.rteOk die (s.rteAt die route) v then
    .next (s.putRte die route v)
  else .next s

/-- Entries of a chiplet for which `p` holds become invalid. -/
def Chip.dropRoutes (c : Chip) (p : Nat → BitVec 32 → Bool) : Chip :=
  { c with rte := c.rte.map fun e => if rteValid e.2 && p e.1 e.2 then (e.1, e.2 &&& 0x7FFFFFFF#32) else e }

def State.mapChips (s : State) (f : Nat → Chip → Chip) : State := { s with chips := s.chips.map fun c => (c.1, f c.1 c.2) }

/-- The firmware routes 252 to 255 at a chiplet with cores: out of port n from c0 of a compute chiplet, or, where no such route
starts, the end of the one from the compute chiplet opposite (log entry 17). -/
def State.firmwareRoutes (s : State) (die : Nat) : List (Nat × BitVec 32) :=
  (List.range 4).filterMap fun n =>
    let back := (n + 2) % 4
    let trained := fun (p : Nat) (far : Nat → Bool) => (s.chip die).linkState p == 2#2 && (neighbourChip die p).any far
    if isCompute die && trained n hasCores then some (252 + n, BitVec.ofNat 32 (2 ^ 31 + 4 * 2 ^ 28 + n * 2 ^ 25))
    else if hasCores die && trained back isCompute then some (252 + n, BitVec.ofNat 32 (2 ^ 31 + back * 2 ^ 28 + 4 * 2 ^ 25))
    else none

/-! ## Logical cores and the Chain (R322 to R324, R327) -/

def harvestCores (h : BitVec 8) : List Nat := (List.range 8).filter fun n => h.getLsbD n

/-- LPT over the chiplets of a list. -/
def State.lptOf (s : State) (dies : List Nat) : List (Nat × Nat × Bool) :=
  dies.flatMap fun d => (harvestCores (s.chip d).harvest).map fun n => (d, n, false)

/-- The logical number of a core. -/
def lptIndex (lpt : List (Nat × Nat × Bool)) (die num : Nat) : Nat := lpt.findIdx fun e => e.1 == die && e.2.1 == num

/-- Level-1 nodes: the quads with a healthy core. -/
def leafNodes (lpt : List (Nat × Nat × Bool)) : List ChainNode :=
  ((lpt.map fun e => (e.1, e.2.1 / 4)).eraseDups).map fun q =>
    let ns := lpt.filterMap fun e => if e.1 = q.1 ∧ e.2.1 / 4 = q.2 then some e.2.1 else none
    { level := 1, parent := 0xFFF, port := 0, pres := ns.map (· % 4), host := q.1, first := lptIndex lpt q.1 (ns.headD 0) }

/-- Levels until one node remains; `base` is the index of the first node of this level. -/
def chainLevels (fuel base : Nat) (cur : List ChainNode) : List ChainNode :=
  match fuel with
  | 0 => cur
  | k + 1 =>
    if cur.length ≤ 1 then cur
    else
      let here := cur.mapIdx fun i n => { n with parent := base + cur.length + i / 4, port := i % 4 }
      let above := (List.range (ceilDiv cur.length 4)).filterMap fun g =>
        ((cur.drop (4 * g)).head?).map fun c =>
          ({ level := c.level + 1, parent := 0xFFF, port := 0, pres := List.range (min 4 (cur.length - 4 * g)), host := c.host
             first := c.first } : ChainNode)
      here ++ chainLevels k (base + cur.length) above

def chainMap (lpt : List (Nat × Nat × Bool)) : List ChainNode := chainLevels 12 0 (leafNodes lpt)

/-- The node at port p of node i. -/
def childAt (l : List ChainNode) (i p : Nat) : Option ChainNode := l.find? fun n => n.parent == i && n.port == p

/-- CHAIN_MAP after a die is fenced: its quads lose their ports, and so upward; nodes it hosted move to the die of the first
core of their lowest present port. -/
def fenceChain (die : Nat) (l : List ChainNode) : List ChainNode :=
  (List.range l.length).foldl (fun (l : List ChainNode) i => match l[i]? with
    | none => l
    | some n =>
      let pres := if n.level = 1 then (if n.host = die then [] else n.pres)
        else n.pres.filter fun p => ((childAt l i p).map fun c => c.pres != []).getD false
      let host := if n.level ≠ 1 ∧ n.host = die then
          (match pres with
            | p :: _ => ((childAt l i p).map ChainNode.host).getD n.host
            | [] => n.host)
        else n.host
      l.set i { n with pres := pres, host := host }) l

/-! ## The package description page (R325) -/

def lptWord (e : Nat × Nat × Bool) : Nat := (if e.2.2 then 2 ^ 15 else 0) + e.1 * 8 + e.2.1

def chainWord (n : ChainNode) : Nat :=
  n.level * 2 ^ 49 + n.parent % 4096 * 2 ^ 37 + n.port * 2 ^ 35 + (n.pres.foldl (fun m p => m + 2 ^ p) 0) * 2 ^ 31
    + n.host * 2 ^ 21 + n.first % 4096 * 2 ^ 9

/-- ONLINE compute chiplets. -/
def State.onlineCompute (s : State) : List Nat := allDies.filter fun d => isCompute d && s.online d

/-- The page, at its offsets. -/
def State.packageBytes (s : State) : List (Nat × List Byte) :=
  let m := s.modState
  let dies := s.onlineCompute
  let cores := (dies.map fun d => (harvestCores (s.chip d).harvest).length).foldl (· + ·) 0
  let harvest := fun (d : Nat) => if hasCores d && s.online d then (s.chip d).harvest else 0#8
  [ (0, toBytes 8 (dies.length + cores * 2 ^ 16 + m.chain.length * 2 ^ 32 + m.bringups % 2 ^ 16 * 2 ^ 48))
  , (8, toBytes 8 (m.master.getD 0x3FF + m.go.getD 0 % 1024 * 2 ^ 10))
  , (0x40, (List.range 520).map harvest)
  , (0x400, (List.range 2304).flatMap fun n => toBytes 2 ((m.lpt[n]?.map lptWord).getD 0xFFFF))
  , (0x1800, m.chain.flatMap fun n => toBytes 8 (chainWord n)) ]

/-- The master writes the page of 64 KiB; bytes not listed read zero. -/
def State.writePage (s : State) : State :=
  let page := Config.packagePage
  let cleared := s.mem.filter fun (c : Host.Cell) => !decide (page ≤ c.1 ∧ c.1 < page + 65536)
  { s with mem := s.packageBytes.foldl (fun (m : Mem) p => Mem.putBytes m (page + p.1) p.2) cleared }

/-! ## Bring-up (R314 to R321) -/

/-- The image an I/O chiplet's slot holds; slots nothing has written hold the manufactured image (log entry 18). -/
def State.imageAt (s : State) (die : Nat) : Image := lookupD s.modState.images die Module.reset.running

/-- An I/O chiplet of the root set of its image. -/
def State.inRootSet (s : State) (die : Nat) : Bool := (s.imageAt die).rootSet.getLsbD (ioDies.findIdx fun d => d == die)

/-- Each endpoint has a PCIe port (spec/22 R384). -/
def portMapOk (p : BitVec 8) : Bool :=
  ([0, 2, 4, 6].any fun n => !p.getLsbD n) && ([1, 3, 5, 7].any fun n => !p.getLsbD n)

/-- The verdict on a copy (spec/22 R392): the version and port map are judged here, the rest by the caller. -/
def imageOk (i : Image) (verified : Bool) : Bool :=
  verified && decide (Config.minVersion ≤ i.version.toNat) && portMapOk i.portMap

/-- Ports behind which a chiplet stands. -/
def presentPorts (die : Nat) : List Nat := (List.range 4).filter fun p => (neighbourChip die p).isSome

/-- A chiplet reaches CLOCK_LOCKED: its present bonds are untrained from now on. -/
def Chip.lock (c : Chip) (die root cport ref : Nat) : Chip :=
  { c with
    bus := .clockLocked, croot := root, cport := cport, lockAt := some ref, arrivals := []
    links := Vector.ofFn fun (p : Fin 4) =>
      let l := c.links.get p
      if (presentPorts die).contains p.val && l.state == 0#2 then { l with state := 1#2 } else l }

/-- LINKS_TRAINED or ISOLATED once every present bond is trained or dead (R316). -/
def Chip.settleLinks (c : Chip) (die : Nat) : Chip :=
  let ends := (presentPorts die).map c.linkState
  if c.bus == .clockLocked && ends.all fun e => e == 2#2 || e == 3#2 then
    { c with bus := if ends.contains 2#2 then .linksTrained else .isolated }
  else c

/-- A chiplet locks; one whose present bonds are all dead already is ISOLATED (R316, R321). -/
def State.lockChip (s : State) (die root cport : Nat) : State :=
  let t := s.modChip die fun c => (c.lock die root cport s.ref).settleLinks die
  t.modMod fun m => { m with collectFrom := m.collectFrom.or (if root = die then some s.ref else none) }

/-- ROOT_VERIFY: the verdict of an I/O chiplet on its copy. A verified root locks; where every root of the set is refused,
or the set is empty, the module is in recovery, over the sideband clock of the I/O chiplets (spec/22 R392). No bring-up begins on stored energy (spec/00 R6). -/
def execRootVerify (die : Nat) (accepted : Bool) (s : State) : Out :=
  let c := s.chip die
  if !s.modState.powered || s.modState.holdup || !ioDies.contains die || c.verdict.isSome then .next s
  else
    let ok := imageOk (s.imageAt die) accepted
    let root := s.inRootSet die && c.bus == .dark
    let t := s.modChip die fun c =>
      { c with verdict := some ok, arrivals := if root then c.arrivals.map fun a => (a.1, a.2.1, s.ref) else c.arrivals }
    if root && ok then .next (t.lockChip die die 7)
    else if ioDies.all fun d => !(t.inRootSet d) || (t.chip d).verdict == some false then
      let u := t.modMod fun m => { m with recovery := true }
      .next (ioDies.foldl (fun (u : State) d => if (u.chip d).bus == .dark then u.lockChip d d 7 else u) u)
    else .next t

/-- A chiplet that opens a window on wavefronts: every DARK one but a root whose verdict is out. -/
def State.listens (s : State) (die : Nat) : Bool := !(s.inRootSet die && ioDies.contains die) || (s.chip die).verdict.isSome

/-- The first of the wavefronts recorded. -/
def Chip.firstArrival (c : Chip) : Option Nat := (c.arrivals.map fun a => a.2.2).min?

/-- The wavefronts that a DARK chiplet has yet to record, with the cycles on which they arrive: 2 ref after each neighbour's lock,
within the window where it is open (R315). -/
def State.wavefronts (s : State) (die : Nat) : List (Nat × Nat × Nat) :=
  let c := s.chip die
  if c.bus != .dark || c.croot != 0x3FF then []
  else (presentPorts die).filterMap fun p =>
    (neighbourChip die p).bind fun n => (s.chip n).lockAt.bind fun t =>
      let late := s.listens die && c.firstArrival.any fun f => decide (f + 7 < t + 2)
      if late || c.arrivals.any fun a => a.1 == p then none else some (p, (s.chip n).croot, t + 2)

/-- WAVEFRONT_ARRIVAL: a wavefront is recorded on the cycle on which it arrives. -/
def execWavefrontArrival (die port root : Nat) (s : State) : Out :=
  .next (if (kindOf die).isSome && (s.wavefronts die).contains (port, root, s.ref) then
    s.modChip die fun c => { c with arrivals := c.arrivals ++ [(port, root, s.ref)] } else s)

/-- CLOCK_ROOT_ADOPT: at t + 8, with every arrival up to t + 7 recorded, the lowest root that arrived from t to t + 7, by the lowest
port on which it arrived. -/
def execClockRootAdopt (die : Nat) (s : State) : Out :=
  let c := s.chip die
  match c.firstArrival with
  | none => .next s
  | some t =>
    let window := c.arrivals.filter fun x => decide (x.2.2 ≤ t + 7)
    let root := window.foldl (fun b x => min b x.2.1) 0x3FF
    let port := (window.filter fun x => x.2.1 == root).foldl (fun b x => min b x.1) 7
    if c.bus == .dark && c.croot == 0x3FF && s.listens die && t + 8 == s.ref && (s.wavefronts die).all fun w => decide (t + 7 < w.2.2) then
      .next (s.modChip die fun c => { c with croot := root, cport := port, lockAt := none, arrivals := [(port, root, t)] })
    else .next s

/-- CLOCK_LOCK: at t + 24. -/
def execClockLock (die : Nat) (s : State) : Out :=
  let c := s.chip die
  match c.arrivals with
  | [(_, _, t)] =>
    if c.bus == .dark && c.croot != 0x3FF && t + 24 == s.ref then .next (s.lockChip die c.croot c.cport) else .next s
  | _ => .next s

def Chip.setLink (c : Chip) (port : Nat) (v : BitVec 2) : Chip :=
  if h : port < 4 then { c with links := c.links.set port { c.links[port] with state := v } h } else c

/-- Both ends of a bond record a state on one reference cycle (R308). -/
def State.setBond (s : State) (die port : Nat) (v : BitVec 2) : State :=
  match neighbourChip die port with
  | none => s
  | some n => (s.modChip die fun c => (c.setLink port v).settleLinks die).modChip n fun c =>
      (c.setLink ((port + 2) % 4) v).settleLinks n

/-- The cycle on which the training of a bond ends: 40 ref after both of its ends have locked (R316). -/
def State.trainingEnd (s : State) (die port : Nat) : Option Nat :=
  (neighbourChip die port).bind fun n => match (s.chip die).lockAt, (s.chip n).lockAt with
    | some a, some b =>
      if (s.chip die).linkState port == 1#2 && (s.chip n).linkState ((port + 2) % 4) == 1#2 then some (max a b + 40) else none
    | _, _ => none

/-- The cycle on which a bond whose partner has not locked is marked dead. -/
def State.partnerEnd (s : State) (die port : Nat) : Option Nat :=
  match neighbourChip die port, (s.chip die).lockAt with
  | some n, some a => if (s.chip die).linkState port == 1#2 && (s.chip n).bus == .dark then some (a + 4096) else none
  | _, _ => none

/-- PARTNER_LOCK_TIMEOUT. -/
def execPartnerLockTimeout (die port : Nat) (s : State) : Out :=
  .next (if s.partnerEnd die port == some s.ref then s.setBond die port 3#2 else s)

/-- The dies at a trained hop from those of a list. -/
def State.trainedStep (s : State) (front : List Nat) : List Nat :=
  (front.flatMap fun d => (List.range 4).filterMap fun p =>
    if (s.chip d).linkState p == 2#2 then neighbourChip d p else none).eraseDups

/-- Trained hops from a root to a die. -/
def State.trainedHops (s : State) (fuel hops : Nat) (front seen : List Nat) (die : Nat) : Option Nat :=
  match fuel with
  | 0 => none
  | k + 1 =>
    if front.contains die then some hops
    else
      let next := (s.trainedStep front).filter fun d => !seen.contains d
      if next = [] then none else s.trainedHops k (hops + 1) next (seen ++ next) die

def State.hopsFrom (s : State) (root die : Nat) : Option Nat := s.trainedHops 520 0 [root] [root] die

/-- The clock roots, ascending. -/
def State.roots (s : State) : List Nat := ioDies.filter fun d => s.inRootSet d && (s.chip d).verdict == some true

/-- The nearest root, ties to the lower id, with its distance. -/
def State.nearestRoot (s : State) (die : Nat) : Option (Nat × Nat) :=
  s.roots.foldl (fun (b : Option (Nat × Nat)) r => match s.hopsFrom r die, b with
    | none, _ => b
    | some k, none => some (r, k)
    | some k, some (q, j) => if k < j then some (r, k) else some (q, j)) none

/-- The exploration parent: the lowest port whose neighbour lies one trained hop nearer to the root (R318). -/
def State.parentPort (s : State) (die root k : Nat) : Nat :=
  ((List.range 4).find? fun p => (s.chip die).linkState p == 2#2 && k != 0 && (neighbourChip die p).any fun n =>
    s.hopsFrom root n == some (k - 1)).getD 7

/-- A chiplet's root, distance and parent over the bonds trained by now. -/
def State.explored (s : State) (die : Nat) (c : Chip) : Chip :=
  match s.nearestRoot die with
  | some (root, k) => { c with root := root, dist := k, pport := s.parentPort die root k }
  | none => c

/-- The master is the lowest root with an IDENTIFIED chiplet, and known to those (R318). -/
def State.electMaster (s : State) : State :=
  match ((s.chips.filter fun p => p.2.bus == .identified).map fun p => p.2.root).min? with
  | none => s
  | some m => (s.modMod fun y => { y with master := some m }).mapChips fun _ c => if c.bus == .identified then { c with master := m } else c

/-- Until the collection ends, every chiplet that explores settles anew on its root whenever a bond has trained. -/
def State.explore (s : State) : State :=
  if s.modState.collected then s
  else (s.mapChips fun d c => if c.bus == .linksTrained || c.bus == .identified then s.explored d c else c).electMaster

/-- BOND_TRAINING_DONE. -/
def execBondTrainingDone (die port : Nat) (trained : Bool) (s : State) : Out :=
  .next (if s.trainingEnd die port == some s.ref then (s.setBond die port (if trained then 2#2 else 3#2)).explore else s)

/-- IDENT_RECORD: the record of a chiplet is acknowledged before the collection ends (R318). -/
def execIdentRecord (die : Nat) (selfTest : BitVec 8) (s : State) : Out :=
  if (s.chip die).bus != .linksTrained || s.modState.collected || (s.nearestRoot die).isNone then .next s
  else
    let test := match kindOf die with
      | some 0 => selfTest
      | some 2 => selfTest &&& 0xF#8
      | _ => 0#8
    .next (s.modChip die fun c => { s.explored die c with bus := .identified, harvest := test }).electMaster

/-- A chiplet that has yet to be identified. -/
def Chip.early (c : Chip) : Bool := c.bus == .dark || c.bus == .clockLocked || c.bus == .linksTrained

/-- MASTER_COLLECTION_END. -/
def execMasterCollectionEnd (s : State) : Out :=
  match s.modState.collectFrom with
  | none => .next s
  | some t =>
    if !s.modState.collected && s.modState.master.isSome
        && (t + 16384 == s.ref || allDies.all fun d => !(s.chip d).early) then
      .next ((s.modMod fun m => { m with collected := true }).mapChips fun _ c =>
        if c.bus == .linksTrained then { c with bus := .isolated } else c)
    else .next s

/-- The reference cycles at which something of the bring-up is due at a chiplet: a wavefront, an adoption, a lock, the end of a
bond's training. -/
def State.bringupDue (s : State) (die : Nat) : List Nat :=
  let c := s.chip die
  let clock := match c.firstArrival with
    | some t => if c.bus != .dark || !s.listens die then [] else if c.croot == 0x3FF then [t + 8] else [t + 24]
    | none => []
  (s.wavefronts die).map (fun w => w.2.2) ++ clock
    ++ (presentPorts die).filterMap (s.trainingEnd die) ++ (presentPorts die).filterMap (s.partnerEnd die)

/-- The reference cycle beyond which no time passes before what is due has happened (log entry 95). -/
def State.refLimit (s : State) : Option Nat :=
  let collection := match s.modState.collectFrom with
    | some t => if s.modState.collected || s.modState.master.isNone then [] else [t + 16384]
    | none => []
  (collection ++ allDies.flatMap s.bringupDue).min?

/-- Reference cycles pass. -/
def State.passRef (s : State) (n : Nat) : State :=
  if n = 0 then s
  else { s with ref := match s.refLimit with
    | some t => max s.ref (min (s.ref + n) t)
    | none => s.ref + n }

/-- Every copy was accepted and equals the master's, that of an I/O chiplet that was not reached too (spec/00 R5, spec/22
R392). -/
def State.copiesAgree (s : State) (master : Nat) : Bool :=
  ioDies.all fun d => (s.chip d).verdict == some true && (s.imageAt d).hash == (s.imageAt master).hash

/-- HOME[h] = S[h mod N] over memory chiplets (spec/19 R339). -/
def homeTable (slices : List Nat) : List (Nat × BitVec 16) :=
  (List.range 4096).map fun h => (h, BitVec.ofNat 16 ((slices[h % slices.length]?).getD 0))

/-- MASTER_TABLE_WRITE: `fence` are the chiplets firmware lists for fencing (R319, R321, R322). -/
def execMasterTableWrite (fence : List Nat) (s : State) : Out :=
  match s.modState.master with
  | none => .next s
  | some master =>
    if !s.modState.collected || s.modState.recovery || !(allDies.any fun d => (s.chip d).bus == .identified) then .next s
    else if !s.copiesAgree master then .next (s.modMod fun m => { m with recovery := true })
    else
      let s1 := s.mapChips fun d c =>
        if c.bus == .identified && (fence.contains d || (hasCores d && c.harvest == 0#8)) then { c with bus := .fenced } else c
      let ready := allDies.filter fun d => (s1.chip d).bus == .identified
      let lpt := s1.lptOf (ready.filter isCompute)
      let home := homeTable (ready.filter fun d => kindOf d == some 1)
      let s2 := (s1.writeNsel ready).mapChips fun d c =>
        if c.bus == .identified then
          { c with bus := .configured, home := if hasCores d then home else c.home
                   rte := if hasCores d then s1.firmwareRoutes d else c.rte } else c
      let short := decide ((ready.filter isCompute).length < 280) || decide (lpt.length < 2176)
      let s3 := s2.modMod fun m =>
        { m with lpt := lpt, chain := chainMap lpt, shortfall := short, running := s.imageAt master }
      .next (if short then s3.irqBoth 2 else s3)

/-- The cores a module has from G on: healthy compute cores and memory cores, held by no field. -/
def State.coresAtGo (s : State) : List Core :=
  let lpt := s.modState.lpt
  let mk := fun (d n : Nat) => (s.find d n).getD (Core.reset d n)
  (lpt.map fun e => { mk e.1 e.2.1 with lcn := lptIndex lpt e.1 e.2.1 }) ++
  (allDies.filter fun d => kindOf d == some 2 && s.online d).flatMap fun d =>
    ((harvestCores (s.chip d).harvest).filter (· < 4)).map fun n =>
      { mk d n with lcn := Config.memoryLcn (d * 8 + n), memc := true, run := .halted }

/-- GO (R320): the cycle G, once every chiplet that is not FENCED or ISOLATED is CONFIGURED; not on stored energy (spec/00 R6). -/
def execGo (s : State) : Out :=
  let waiting := allDies.any fun d => !((s.chip d).barred || (s.chip d).bus == .configured)
  if s.modState.go.isSome || s.modState.shortfall || s.modState.recovery || s.modState.holdup || waiting
      || !(allDies.any fun d => (s.chip d).bus == .configured) then .next s
  else
    let s1 := s.mapChips fun _ c => if c.bus == .configured then { c with bus := .online } else c
    let s2 := { s1 with cyc := 0 }.modMod fun m => { m with go := some s.ref, bringups := m.bringups + 1 }
    let s3 := match s2.coresAtGo with
      | c :: rest => { s2 with core := c, others := rest }
      | [] => s2
    .next ((s3.focus s.core.die s.core.num).writePage)

/-! ## Bonds and chiplets that fail in service (R326, R327) -/

/-- LINK_RETRY: RETRY and the counter of link flits saturate (R308, spec/23 R395). -/
def execLinkRetry (die port : Nat) (s : State) : Out :=
  if (s.chip die).linkState port == 2#2 then
    .next (s.modChip die fun c =>
      let n := lookupD c.sercnt 5 0#64
      let more := if bits n 63 32 + 1 < 2 ^ 32 then setBits n 63 32 (bits n 63 32 + 1) else n
      { c with
        links := c.links.mapIdx fun i l => if i = port ∧ l.retry ≠ 0xFF#8 then { l with retry := l.retry + 1#8 } else l
        sercnt := assign c.sercnt 5 more })
  else .next s

/-- A route entry that uses a port. -/
def usesPort (port : Nat) (e : BitVec 32) : Bool := rteIn e == port || rteOut e == port

/-- The routes that use a bond's end at a chiplet: id and field. -/
def State.routesOver (s : State) (die port : Nat) : List (Nat × Nat) :=
  ((s.chip die).rte.filter fun e => rteValid e.2 && usesPort port e.2).map fun e => (e.1, rteField e.2)

/-- BOND_DEATH: both ends are dead; every entry of the routes that used the bond is invalidated, those of the firmware at its ends,
and the fields that own them wait for new ones; the master has NSEL to recompute. -/
def execBondDeath (die port : Nat) (s : State) : Out :=
  match neighbourChip die port with
  | none => .next s
  | some n =>
    if (s.chip die).linkState port != 2#2 then .next s
    else
      let lost := s.routesOver die port ++ s.routesOver n ((port + 2) % 4)
      let owners := ((lost.filter fun r => r.1 < 252).map (·.2)).eraseDups
      let t := (s.setBond die port 3#2).mapChips fun d c =>
        c.dropRoutes fun r e => lost.contains (r, rteField e) && (decide (r < 252) || d == die || d == n)
      let u := owners.foldl (fun (t : State) i => t.setField i { t.fieldAt i with noTimed := true }) t
      .next ((u.modMod fun m => { m with nselDue := true }).dropFlits.irqBoth 3)

/-- Traffic of a chiplet is under way: stores, commands, streams and Chain chunks of its cores, host DMA. -/
def State.trafficFrom (s : State) (die : Nat) : Bool :=
  (s.cores.any fun c => c.die == die && (!c.stores.isEmpty || c.xq.any (!·.isEmpty) || c.gq.any (!·.isEmpty) || !c.cqin.isEmpty
    || c.streams.any fun (t : Stream) => t.fillable))
  || s.hosts.any fun h => !h.running.isEmpty

/-- The master writes the NSEL entries that a dead bond changes, at every chiplet from which no traffic is under way (R311,
R326). -/
def State.renewNsel (s : State) : State :=
  let stale := (allDies.filter s.online).filter fun d => allDies.any fun e => s.nselAt d e != s.nselFor d e
  let busy := stale.filter s.trafficFrom
  (s.writeNsel (stale.filter fun d => !s.trafficFrom d)).modMod fun m => { m with nselDue := !busy.isEmpty }

/-- A chiplet goes to FENCED in service: GONE, CHAIN_MAP, NSEL and the package page follow. -/
def State.fenceChip (s : State) (die : Nat) : State :=
  let s1 := s.modChip die fun c => { c with bus := .fenced }
  let s2 := if isCompute die then
      (s1.modMod fun m => { m with
        lpt := m.lpt.map fun e => if e.1 = die then (e.1, e.2.1, true) else e
        chain := fenceChain die m.chain })
    else s1
  let s3 := s2.mapCores fun k => if k.die = die then { k with run := .dark, field := none, stores := [], streams := [] } else k
  (s3.dropFlits.writeNsel (allDies.filter fun d => s3.online d)).writePage

/-- A field's rectangle holds a chiplet. -/
def Field.covers (f : Field) (die : Nat) : Bool :=
  decide (bits f.rect 52 48 ≤ dieX die ∧ dieX die ≤ bits f.rect 47 43) &&
  decide (bits f.rect 42 38 ≤ dieY die ∧ dieY die ≤ bits f.rect 37 33)

/-- Fields that exist and hold a chiplet in their rectangle. -/
def State.fieldsOver (s : State) (die : Nat) : List Nat :=
  (List.range 16).filter fun i => (s.fieldAt i).valid && (s.fieldAt i).covers die

/-- FENCE_COMMAND. -/
def execFenceCommand (die : Nat) (s : State) : Out :=
  .next (if s.online die && !(isCompute die && s.fieldsOver die != []) then s.fenceChip die else s)

/-- ROUTER_FAULT: the fields over the chiplet are killed, with CLASS 3 and CODE LINK. -/
def execRouterFault (die : Nat) (s : State) : Out :=
  if s.online die then
    let t := if isCompute die then
        (s.fieldsOver die).foldl (fun (t : State) i =>
          (t.kill (fun c => c.field == some i) 3 3 linkCause 0xFFF).setField i
            { (t.kill (fun c => c.field == some i) 3 3 linkCause 0xFFF).fieldAt i with stat := .killed }) s
      else s
    .next (t.fenceChip die)
  else .next s

end Sys2Proof.Machine
end

