-- ==== Sys2Proof/Machine/Preempt.lean ====
section
/-!
DEFINITION. Fields: creating and deleting them (spec/21 R373, R374), pre-emption, saving, restoring and killing (R375 to R380),
memory cores attached to them (spec/22 R391), translation roots (spec/19 R331).
-/

namespace Sys2Proof.Machine

/-! ## Rectangles (spec/01 R8, R9) -/

def rectX0 (w : Word) : Nat := bits w 52 48
def rectX1 (w : Word) : Nat := bits w 47 43
def rectY0 (w : Word) : Nat := bits w 42 38
def rectY1 (w : Word) : Nat := bits w 37 33

/-- Chiplet positions of a rectangle, ascending. -/
def rectDies (w : Word) : List Nat :=
  allDies.filter fun d => decide (rectX0 w ≤ dieX d ∧ dieX d ≤ rectX1 w ∧ rectY0 w ≤ dieY d ∧ dieY d ≤ rectY1 w)

def rectOk (w : Word) : Bool :=
  decide (1 ≤ rectX0 w ∧ rectX0 w ≤ rectX1 w ∧ rectX1 w ≤ 18 ∧ 1 ≤ rectY0 w ∧ rectY0 w ≤ rectY1 w ∧ rectY1 w ≤ 24)
    && (rectDies w).any isCompute

/-- Two rectangles share a position. -/
def rectsMeet (a b : Word) : Bool :=
  decide (rectX0 a ≤ rectX1 b ∧ rectX0 b ≤ rectX1 a ∧ rectY0 a ≤ rectY1 b ∧ rectY0 b ≤ rectY1 a)

/-! ## Race records of a field's cores (spec/19 R341) -/

/-- Records that name one of some cores, or lie in the record cache of one, are reset. -/
def State.dropRaces (s : State) (cs : List Core) : State :=
  let named := fun (b : BitVec 12) => b != 0xFFF#12 && cs.any fun c => BitVec.ofNat 12 c.lcn == b
  { s with race := s.race.filter fun r => !(named r.2.writer || named r.2.reader) }

/-! ## Create (R373) -/

/-- A core of a field that is created (step 3): system registers, shape records, bank formats and slots at reset, engines empty; the
local store and the instruction store keep their contents. -/
def Core.created (c : Core) (index fcn anchor ctx cyc : Nat) (restore : Bool) : Core :=
  { Core.reset c.die c.num with
    lcn := c.lcn, fcn := fcn, field := some index, run := if restore then .acked else .idle, fbase := BitVec.ofNat 64 cyc
    regs := c.regs, preds := c.preds, q := c.q, pushes := c.pushes, ls := c.ls, lsBad := c.lsBad, lsWeak := c.lsWeak, istore := c.istore
    fetched := c.fetched, atomSeq := c.atomSeq, pc := c.pc
    sys := { SysRegs.reset with ctxid := BitVec.ofNat 64 (anchor % 1024 * 2 ^ 20 + index % 16 * 2 ^ 16 + ctx % 2 ^ 16) } }

/-- The answer of a command: RES. -/
def State.fieldResult (s : State) (i : Nat) (res : BitVec 3) : State := s.setField i { s.fieldAt i with res := res }

/-- A write of word 0 sets its rectangle and context and starts the command, which is refused here. -/
def State.refuseField (s : State) (i : Nat) (word0 : Word) (res : BitVec 3) : State :=
  s.setField i { s.fieldAt i with res := res, word0 := word0 }

/-- Scope barriers of new cores: those of their dies and field start afresh, those of a context that has other fields expect
the new cores too (spec/05 R104; log entry 96). -/
def State.openScopeBars (s : State) (index ctx : Nat) (dies : List Nat) (n : Nat) : State :=
  { s with scopeBars := (s.scopeBars.filter fun b =>
      !(b.level == 2 && dies.contains b.key) && !(b.level == 3 && b.key == index)).map fun b =>
        if 4 ≤ b.level ∧ b.key = ctx then { b with bar := { b.bar with e := b.bar.e + n } } else b }

/-- A create command. -/
def State.createField (s : State) (i : Nat) (word0 : Word) (creator : Nat) (restore : Bool) : State :=
  let f := s.fieldAt i
  let ctx := bits word0 15 0
  let all := (rectDies word0).filter isCompute
  let dies := all.filter s.online
  if f.valid ∨ f.res = 1#3 then s.refuseField i word0 3#3
  else if !rectOk word0 || (List.range 16).any fun j => j != i && (s.fieldAt j).valid && rectsMeet word0 (s.fieldAt j).rect then
    s.refuseField i word0 2#3
  else match dies with
    | [] => s.refuseField i word0 4#3
    | anchor :: _ =>
      let mine := dies.flatMap fun d => (List.range 8).filterMap fun n => s.cores.find? fun c => c.is d n && !c.memc
      let s1 := all.foldl (fun (t : State) d => if t.answers d then
        t.modChip d fun c => { c with troot := f.w1 &&& 0x800FFFFFFFE00000#64, dstats := [] } else t) s
      let s2 := s1.dropRaces (mine ++ s.cores.filter fun c => c.memc && c.field == some i)
      let s3 := s2.mapCores fun c => match mine.findIdx? fun m => m.is c.die c.num with
        | some n => c.created i n anchor ctx s.cyc restore
        | none => if c.memc && c.field == some i then { c with sys := { c.sys with racest := 0#64 } } else c
      let s4 := (all.flatMap fun d => [2 * d, 2 * d + 1]).foldl (fun (t : State) k => t.setLatch k Latch.reset) s3
      let s5 := s4.openScopeBars i ctx dies mine.length
      let lead := !((List.range 16).any fun j => j != i && (s.fieldAt j).valid && (s.fieldAt j).ctx == ctx)
      let r := (s.chip anchor).anchor
      s5.setField i { Field.reset with
        valid := true, word0 := word0, w1 := f.w1, w2 := f.w2, rect := word0, ctx := ctx, anchor := anchor, creator := creator, lead := lead
        stat := if restore then .saved else .running, fcmd := r.fcmd, fsave := r.fsave, killrec := r.killrec
        carderr := r.carderr, rpctl := r.rpctl, dset := r.dset, hurec := r.hurec, shapes := f.shapes, routeEnds := f.routeEnds }

/-- Bits of word 0 that a command leaves in the register. -/
def rectMask : Word := 0x001FFFFE0000FFFF#64

/-- A module that has started takes a create; on stored energy it runs no field (spec/00 R6). -/
def State.createReady (s : State) (index : Nat) : Bool := decide (index < 16) && s.modState.go.isSome && !s.modState.holdup

/-- FDEF_CREATE: endpoint 0 or 1, or 2 for a Calush core, writes OP 1 to FDEF[index]. -/
def execFdefCreate (index : Nat) (word0 : Word) (creator : Nat) (s : State) : Out :=
  .next (if s.createReady index then s.createField index (word0 &&& rectMask) creator false else s)

/-- FDEF_CREATE_RESTORE: OP 2; every core is halted, the field SAVED. -/
def execFdefCreateRestore (index : Nat) (word0 : Word) (creator : Nat) (s : State) : Out :=
  .next (if s.createReady index then s.createField index (word0 &&& rectMask) creator true else s)

/-! ## Delete (R374) -/

/-- A core whose field is deleted. -/
def Core.released (c : Core) : Core :=
  { c with
    field := none, run := if c.memc then .halted else .dark, xq := Vector.replicate 4 [], gq := Vector.replicate 4 [], mq := []
    joins := Vector.replicate 9 [], streams := [], chunk := none, card := none, heldCard := none, wait := .none, wake := none
    deferred := [], abortPend := false, abortRaise := false, preemptPend := false, colls := [], cqin := [], lanes := [], rxbuf := []
    timed := { c.timed with active := false } }

/-- Every store of a core that is under way is performed: writes already made stand. -/
def State.performAll (s : State) (cs : List Core) : State :=
  cs.foldl (fun (s : State) (c : Core) => s.within c.die c.num fun t => State.performFirst t.core.stores.length t) s

def Field.regs (f : Field) : AnchorRegs :=
  { fcmd := f.fcmd, fsave := f.fsave, killrec := f.killrec, carderr := f.carderr, rpctl := f.rpctl, dset := f.dset, hurec := f.hurec }

/-- A barrier that no longer counts some cores: their arrivals, joins and drops of the phase go, and they leave E (log entry 96). -/
def Bar.without (b : Bar) (gone : List Core) (waits : Core → Bool) : Bar :=
  let came := gone.filter fun c => b.came.contains (c.die * 8 + c.num)
  let joined := gone.filter fun c => waits c && c.wait == .barrier && !b.came.contains (c.die * 8 + c.num)
  { b with
    e := b.e - gone.length, a := b.a - came.length, joins := b.joins - joined.length
    drops := b.drops - (came.filter fun c => !waits c).length
    came := b.came.filter fun n => !gone.any fun c => c.die * 8 + c.num == n }

/-- Scope barriers of a field that is deleted go with it; those of a context with other fields count its cores no more. -/
def State.closeScopeBars (s : State) (i : Nat) (mine : List Core) (others : Bool) : State :=
  let f := s.fieldAt i
  let gone := mine.filter fun c => !c.memc && c.run != .killed
  let kept := s.scopeBars.filter fun b => !((b.level == 2 && f.covers b.key) || (b.level == 3 && b.key == i)
    || (decide (4 ≤ b.level) && b.key == f.ctx && !others))
  { s with scopeBars := kept.map fun b =>
      if 4 ≤ b.level ∧ b.key = f.ctx then { b with bar := b.bar.without gone fun c => awaitsScope c b.level b.num } else b }

/-- A phase of a context's barriers that only deleted cores kept open flips. -/
def State.flipScopes (s : State) (ctx : Nat) : State :=
  (s.scopeBars.filter fun b => decide (4 ≤ b.level) && b.key == ctx && b.bar.a != 0).foldl (fun (s : State) (b : ScopeBar) =>
    match s.cores.find? fun c => c.ctx == ctx && c.field.isSome && !c.memc with
    | some x => s.tryFlip x (.scope b.level b.num)
    | none => s) s

/-- A collective that some cores have left for good. -/
def Coll.leave (k : Coll) (gone : List Nat) : Coll :=
  { k with members := k.members.filter (!gone.contains ·), opened := k.opened.filter (!gone.contains ·)
           closed := k.closed.filter (!gone.contains ·) }

/-- Every member has opened a collective and closed it. -/
def Coll.over (k : Coll) : Bool := k.opened.all k.closed.contains && k.members.all k.opened.contains

/-- The open collectives of a field are aborted, and hold nothing of its cores any more (R374, spec/05 R116). -/
def State.closeColls (s : State) (i : Nat) (mine : List Core) : State :=
  let t := s.abortColls fun c => c.field == some i
  let ctx := (s.fieldAt i).ctx
  let gone := mine.map (·.lcn)
  { t with colls := (t.colls.map fun k => if k.ctx = ctx then k.leave gone else k).filter fun k => k.ctx != ctx || !k.over }

/-- A field may be deleted. -/
def State.deletable (s : State) (i : Nat) : Bool :=
  match (s.fieldAt i).stat with
  | .saved => true
  | .killed => true
  | .running => (s.fieldAt i).cards.all (fun c => !c.inSlot) && s.cores.all fun c => c.field != some i || c.chunk.isNone
  | _ => false

/-- An accepted delete. -/
def State.deleteField (s : State) (i : Nat) : State :=
  let f := s.fieldAt i
  let mine := s.cores.filter fun c => c.field == some i
  let s1 := (s.performAll mine).closeColls i mine
  let s2 := s1.mapChips fun d c =>
    let c1 := c.dropRoutes fun _ e => rteField e == i
    let c2 := if mine.any fun k => k.memc && k.die == d then { c1 with mcatt := setBits c1.mcatt 63 63 0 } else c1
    if isCompute d && f.covers d then { c2 with troot := setBits c2.troot 63 63 0 } else c2
  let others := (List.range 16).any fun j => j != i && (s.fieldAt j).valid && (s.fieldAt j).ctx == f.ctx
  let s3 := if others then s2 else { s2 with leases := s2.leases.filter fun l => l.ctx != f.ctx }
  let s4 := ((s3.dropRaces mine).closeScopeBars i mine others).mapCores fun c => if c.field = some i then c.released else c
  let s5 := (s4.flipScopes f.ctx).modChip f.anchor fun c => { c with anchor := f.regs }
  s5.setField i { Field.reset with word0 := f.word0, w1 := f.w1, w2 := f.w2 }

/-- What a delete command makes. -/
def State.deleteCommand (s : State) (i : Nat) : State :=
  if 16 ≤ i then s
  else if !(s.fieldAt i).valid then s.fieldResult i 3#3
  else if !s.deletable i then s.fieldResult i 5#3
  else s.deleteField i

/-- FDEF_DELETE: OP 3. -/
def execFdefDelete (index : Nat) (s : State) : Out := .next (s.deleteCommand index)

/-- A write of word 0 of a descriptor: OP 1 and 2 as a Calush core's; OP 0 and 3 write the rectangle and the context too. -/
def State.fdefWrite (s : State) (i : Nat) (v : Word) : State :=
  let w := v &&& rectMask
  match bits v 62 61 with
  | 1 => if s.createReady i then s.createField i w 2 false else s
  | 2 => if s.createReady i then s.createField i w 2 true else s
  | 3 => (s.setField i { s.fieldAt i with word0 := w }).deleteCommand i
  | _ => s.setField i { s.fieldAt i with word0 := w }

/-! ## What the loader brings to a new field (R373) -/

/-- The entry of a route record, with the field's index, and the chiplet it goes to (spec/18 R313). -/
def routeAt (f : Field) (i : Nat) (r : Nat × Nat × Nat × BitVec 32) : Nat × Nat × BitVec 32 :=
  ((rectY0 f.rect + r.2.2.1) * 20 + rectX0 f.rect + r.2.1, r.1, setBits (r.2.2.2 &&& 0xFFFF8000#32) 18 15 i)

/-- A record that makes the creation of its field fail. -/
def State.routeBad (s : State) (f : Field) (i : Nat) (r : Nat × Nat × Nat × BitVec 32) : Bool :=
  let (die, route, v) := routeAt f i r
  let old := s.rteAt die route
  decide (252 ≤ route) || decide (20 ≤ rectX0 f.rect + r.2.1) || !s.answers die || (rteValid old && rteField old != i)
    || !s.rteOk die old v

/-- The loader writes the route section of an image, at the creation of a field that has taken no card yet; where one record fails,
none is written, and the field is not created (spec/18 R313; log entry 97). -/
def State.loadRoutes (s : State) (i : Nat) (records : List (Nat × Nat × Nat × BitVec 32)) : State :=
  let f := s.fieldAt i
  if !f.valid || f.serial != 1 || !s.deletable i then s
  else if records.any (s.routeBad f i) then s.deleteField i
  else records.foldl (fun (t : State) r =>
    let (die, route, v) := routeAt f i r
    t.putRte die route v) s

/-- The loader places bytes in the local store of a core that will run a card (spec/09 R176). -/
def State.placeBytes (s : State) (die num offset : Nat) (bytes : List Byte) : State :=
  if offset + bytes.length ≤ 0x200000 then s.onCore die num fun c => c.putLs offset bytes else s

/-! ## Pre-emption (R375, R376) -/

def ptmo (w : Word) : Nat := bits w 15 0
def cmdBanks (w : Word) : Nat := bits w 47 32
def cmdMask : Word := 0x0000FFFF0000FFFF#64

/-- PREEMPT is sent to every core of a field. -/
def State.preemptField (s : State) (i : Nat) (hold : Bool) : State :=
  let dead := (s.cores.filter fun c => c.field == some i && c.run == .killed).length
  let t := s.setField i { s.fieldAt i with stat := .preempting, acks := dead, since := s.tick, hold := hold }
  t.mapCores fun c =>
    if c.field = some i ∧ c.run ≠ .killed then { c with preemptPend := true, preemptAt := s.cyc, hold := hold } else c

/-- FCMD_PREEMPT. -/
def execFcmdPreempt (field : Nat) (word : Word) (s : State) : Out :=
  let f := s.fieldAt field
  if f.valid && f.stat == .running then
    .next ((s.setField field { f with fcmd := word &&& cmdMask }).preemptField field false)
  else .next s

/-- Every core has acknowledged; a killed one counts. -/
def State.allAcked (s : State) (i : Nat) : Bool :=
  s.cores.all fun c => c.field != some i || c.run == .acked || c.run == .killed

/-- The order of the blocks: the field's cores by number, then attached memory cores (R379). -/
def State.blockOrder (s : State) (i : Nat) : List Core :=
  let mine := s.cores.filter fun c => c.field == some i
  let count := mine.foldl (fun n c => max n (c.fcn + 1)) 0
  (List.range count).filterMap fun n => mine.find? fun c => c.fcn == n

/-- S of R379. -/
def blockStride (banks : Nat) : Nat := 0x4000 + 0x20000 * ((List.range 16).filter fun n => banks / 2 ^ n % 2 == 1).length

def savedBanks (banks : Nat) : List Nat := (List.range 16).filter fun n => banks / 2 ^ n % 2 == 1

/-- The field block and a core block, whose layout is not architectural (log entry 8). -/
def blockBytes (seed n len : Nat) : List Byte := (List.range len).map fun k => Config.freeByte (seed + n) k

/-- The blocks and banks as they lie in the save area: address and bytes. -/
def State.areaBytes (pa seed banks : Nat) (cs : List Core) : List (Nat × List Byte) :=
  (pa, blockBytes seed 0 0x10000) :: (List.range cs.length).flatMap fun n =>
    let base := pa + 0x10000 + n * blockStride banks
    (base, blockBytes seed (n + 1) 0x4000) :: (List.range (savedBanks banks).length).filterMap fun k =>
      match cs[n]?, (savedBanks banks)[k]? with
      | some c, some b => some (base + 0x4000 + k * 0x20000, c.lsBytes (b * 0x20000) 0x20000)
      | _, _ => none

def fsavePa (w : Word) : Nat := bits w 51 16 * 2 ^ 16

/-- Scope barriers a save keeps: those of the field's dies and of the field, and in a context's first field those of package
and pod. -/
def State.fieldBars (s : State) (i : Nat) : List ScopeBar :=
  let f := s.fieldAt i
  s.scopeBars.filter fun b => (b.level == 2 && f.covers b.key) || (b.level == 3 && b.key == i)
    || (f.lead && decide (4 ≤ b.level) && b.key == f.ctx)

/-- The copy into the save area is done: SAVED, and the creator is interrupted. -/
def State.saveField (s : State) (i : Nat) : State :=
  let f := s.fieldAt i
  let cs := s.blockOrder i
  let pa := fsavePa f.fsave
  let banks := cmdBanks f.fcmd
  let area : Saved :=
    { seed := s.free, cores := cs, latches := s.latches.filter fun l => cs.any fun c => c.latch == l.1
      bars := s.fieldBars i, field := f, fcyc := (cs.head?.map s.fcyc).getD 0#64, cyc := s.cyc }
  let t := { s with
    mem := (State.areaBytes pa s.free banks cs).foldl (fun (m : Mem) (p : Nat × List Byte) => Mem.putBytes m p.1 p.2) s.mem
    areas := area :: s.areas, free := s.free + cs.length + 1 }
  (t.setField i { f with stat := .saved, statTimed := cs.any fun c => c.savedTimed }).irqCreator f 1

/-- Field core 0 restarts in handler mode to flush (R376): ungang, at TVEC, with CODE HOLDUP. -/
def State.startHoldup (s : State) (i : Nat) : State :=
  s.mapCores fun c =>
    if c.field = some i ∧ c.fcn = 0 ∧ c.memc = false ∧ c.run = .acked then
      { c with
        run := .running, pc := c.sys.tvec.truncate 14, rank := 0, wait := .none, wake := none
        sys := { c.sys with
          cause := setBits (setBits c.sys.cause 7 0 holdupCause.toNat) 14 14 1
          mode := setBits (setBits c.sys.mode 0 0 1) 2 2 0 } }
    else c

/-! ## The durable set (spec/15 R300, spec/23 R398, R399) -/

def dsetAddr (w : Word) : Word := w &&& 0x000FFFFFFFFFFFE0#64
def dsetCount (w : Word) : Nat := bits w 4 0 + 1

/-- A field's descriptors, read by its controller. -/
def State.durableSet (s : State) (i : Nat) (dset : Word) : Option (List (List Nat)) :=
  (List.range (dsetCount dset)).mapM fun k =>
    match s.dispatchRead i (dsetAddr dset + BitVec.ofNat 64 (32 * k)) 32 with
    | .ok (_, bs) => some ((List.range 4).map fun n => ofBytes ((bs.drop (8 * n)).take 8))
    | .error _ => none

/-- A SAVED field is flushed by the host DMA engine of the serving I/O chiplet. -/
def State.flushSaved (s : State) (i : Nat) : State :=
  let f := s.fieldAt i
  if !f.dset.getLsbD 63 then s
  else match s.durableSet i f.dset with
    | none => s
    | some ds => ds.foldl (fun (t : State) d => match d with
      | [src, len, dst, w3] => match t.dispatchRead i (BitVec.ofNat 64 src) len with
        | .ok (u, bs) => { u with cxlMem := Mem.putBytes u.cxlMem dst bs }.countDurable i dst len len true (w3 % 2 == 1)
        | .error _ => t
      | _ => t) s

/-- PREEMPT_COPY: with every acknowledgement in, the controller enters COPYING. -/
def execPreemptCopy (field : Nat) (s : State) : Out :=
  let f := s.fieldAt field
  .next (if f.valid && f.stat == .preempting && s.allAcked field then s.setField field { f with stat := .copying } else s)

/-- The end of COPYING: the field is SAVED; under hold-up its field core 0 flushes, or, where the pre-emption was no HOLD, the
serving I/O chiplet does. -/
def State.finishCopy (s : State) (i : Nat) : State :=
  let f := s.fieldAt i
  if f.stat != .copying then s
  else
    let t := s.saveField i
    if f.hold then t.startHoldup i else if s.modState.holdup then t.flushSaved i else t

/-- PREEMPT_TIMEOUT. -/
def execPreemptTimeout (field : Nat) (s : State) : Out :=
  let f := s.fieldAt field
  if f.valid && f.stat == .preempting && ptmo f.fcmd != 0 && decide (f.since + ptmo f.fcmd ≤ s.tick) && !s.allAcked field then
    let t := s.kill (fun c => c.field == some field) 3 0 preemptCause 0xFFF
    .next (t.setField field { t.fieldAt field with stat := .killed })
  else .next s

/-! ## Restore (R380) -/

/-- A core enters at TVEC with its saved hardware block; CTXID is the new field's. -/
def Core.restored (c k : Core) (index cyc : Nat) (fcyc : Word) (ls : Mem) : Core :=
  { c with
    rank := k.rank, run := .running, pc := k.sys.tvec.truncate 14, fbase := BitVec.ofNat 64 cyc - fcyc
    tiles := Vector.replicate 32 0#128, streams := [], hwImage := k.hwImage, ls := ls, xq := k.xq, xnext := k.xnext, gq := k.gq
    gnext := k.gnext, gt := k.gt, xstop := k.xstop, joins := k.joins, mqIssued := k.mqIssued, mqDone := k.mqDone
    deferred := k.deferred, abortPend := k.abortPend, abortRaise := k.abortRaise, preemptPend := false, hold := false
    wait := .none, wake := none, atomSeq := k.atomSeq, colls := k.colls, owed := k.owed, pushes := k.pushes
    chunk := k.chunk.map (fun ch => { ch with field := index }), card := k.card.map fun x => (index, x.2)
    heldCard := none, seen := k.seen.map (fun x => (index, x.2)), idled := k.idled, timed := k.timed, nextComm := k.nextComm
    mark := k.mark, pmark := k.pmark, rbTarget := k.rbTarget, savedTimed := k.savedTimed, reuseA := none, reuseB := none
    sys := { k.sys with
      ctxid := c.sys.ctxid, scr := c.sys.scr, cause := setBits k.sys.cause 15 15 1, mode := setBits k.sys.mode 0 0 1 } }

/-- The banks of a core's block, copied back over its local store. -/
def bankMem (m : Mem) (base banks : Nat) (ls : Mem) : Mem :=
  ((savedBanks banks).zip (List.range 16)).foldl (fun (l : Mem) (p : Nat × Nat) =>
    Mem.putBytes l (p.1 * 0x20000) (Mem.getBytes m (base + 0x4000 + p.2 * 0x20000) 0x20000)) ls

/-- The blocks at an address of memory are those a context was saved in, with the check words they end with. -/
def State.areaHere (s : State) (pa banks : Nat) (a : Saved) : Bool :=
  Mem.getBytes s.mem pa 0x10000 == blockBytes a.seed 0 0x10000 && (List.range a.cores.length).all fun n =>
    Mem.getBytes s.mem (pa + 0x10000 + n * blockStride banks) 0x4000 == blockBytes a.seed (n + 1) 0x4000

/-- The context that the blocks at FSAVE's address hold (log entry 8). -/
def State.areaAt (s : State) (f : Field) : Option Saved := s.areas.find? (s.areaHere (fsavePa f.fsave) (cmdBanks f.fcmd))

/-- Words of a local store that the copy of some banks leaves as they are. -/
def keptWords (banks : Nat) (ws : List Nat) : List Nat := ws.filter fun w => banks / 2 ^ (w / 0x4000) % 2 == 0

/-- Collectives that restored cores hold open, and the Chain no longer has: they were aborted when their field was deleted (R374). -/
def State.orphans (s : State) (cs : List Core) : State :=
  cs.foldl (fun (s : State) (c : Core) => c.colls.foldl (fun (s : State) (o : OpenColl) =>
    if (s.openOf c o.id).isSome then s
    else { s with colls := s.colls ++ [{ ctx := c.ctx, id := o.id, desc := o.desc, members := [c.lcn], opened := [c.lcn], closed := []
                                         parts := [], results := [], sat := false, aborted := true }] }) s) s

/-- A card whose ages count on from where they stopped. -/
def Card.shift (c : Card) (n : Nat) : Card := { c with since := c.since + n, due := c.due.map (· + n) }

/-- The copy back; the field returns to RUNNING. -/
def State.loadField (s : State) (i : Nat) (a : Saved) : State :=
  let f := s.fieldAt i
  let now := s.blockOrder i
  let pa := fsavePa f.fsave
  let banks := cmdBanks f.fcmd
  let t := s.mapCores fun c => match now.findIdx? fun k => k.is c.die c.num with
    | some n => match a.cores[n]? with
      | some k => { c.restored k i s.cyc a.fcyc (bankMem s.mem (pa + 0x10000 + n * blockStride banks) banks c.ls) with
          lsBad := keptWords banks c.lsBad, lsWeak := keptWords banks c.lsWeak }
      | none => c
    | none => c
  let u := a.latches.foldl (fun (t : State) l => t.setLatch l.1 l.2) t
  let bars := a.bars.map fun b => if b.level = 3 then { b with key := i } else b
  let kept := u.scopeBars.filter fun b => !(bars.any fun x => x.level == b.level && x.key == b.key && x.num == b.num)
  let v := { u with scopeBars := bars ++ kept }
  (v.orphans (v.cores.filter fun c => c.field == some i)).setField i { f with
    stat := .running, cards := a.field.cards.map (fun (c : Card) => c.shift (s.cyc - a.cyc)), serial := a.field.serial, rr := a.field.rr
    logPos := if f.replayAt.isEmpty then a.field.logPos else f.logPos
    replay := if f.replayAt.isEmpty then a.field.replay else f.replay, replayAt := [(0, s.cyc)], hold := false }

/-- FCMD_RESTORE: the controller enters RESTORING; not on stored energy (spec/00 R6). -/
def execFcmdRestore (field : Nat) (word : Word) (s : State) : Out :=
  let f := s.fieldAt field
  .next (if f.valid && f.stat == .saved && !s.modState.holdup then
    s.setField field { f with fcmd := word &&& cmdMask, stat := .restoring } else s)

/-- The end of RESTORING: copied back, or KILLED where a block is invalid or does not check; where power has failed meanwhile, the
HOLD pre-emption of a RUNNING field begins (spec/23 R399). -/
def State.finishRestore (s : State) (i : Nat) : State :=
  let f := s.fieldAt i
  if f.stat != .restoring then s
  else match s.areaAt f with
    | none => s.setField i { f with stat := .killed }
    | some a =>
      let same := (s.blockOrder i).map (fun c => (c.die, c.num)) == a.cores.map fun c => (c.die, c.num)
      if same && a.cores.all fun c => c.run != .killed then
        let t := s.loadField i a
        if s.modState.holdup then t.preemptField i true else t
      else s.setField i { f with stat := .killed }

/-- FCMD_KILL; a kill that finds every core halted already changes nothing (R372). The CODE and CLASS of KILLREC are stated by no
rule and free among those R368 records. -/
def execFcmdKill (field : Nat) (word : Word) (s : State) : Out :=
  let f := s.fieldAt field
  if f.valid && f.stat != .killed && s.cores.any fun c => c.field == some field && c.run != .killed then
    let w := Config.freeWord s.free
    let s1 := { s with free := s.free + 1 }.setField field { f with fcmd := word &&& cmdMask }
    .next (s1.kill (fun c => c.field == some field) 3 (bits w 9 8) (BitVec.ofNat 8 (1 + bits w 7 0 % 25)) 0xFFF)
  else .next s

/-! ## Memory cores and translation roots -/

/-- Attached memory cores are numbered after the field's cores, in ascending die id and core number (spec/15 R297). -/
def State.numberMemoryCores (s : State) (i : Nat) : State :=
  let count := (s.cores.filter fun c => c.field == some i && !c.memc).length
  let ms := (allDies.filter fun d => kindOf d == some 2).flatMap fun d => (List.range 4).filterMap fun n =>
    s.cores.find? fun c => c.is d n && c.memc && c.field == some i
  s.mapCores fun c => match ms.findIdx? fun m => m.is c.die c.num with
    | some n => { c with fcn := count + n }
    | none => c

/-- MCATT_WRITE: attaches or detaches the memory cores of a channel chiplet, all of them halted; as at the creation of a field,
OPEN is at its reset value and no race record names them (spec/04 R90, spec/19 R341). The chiplet's Latch keeps its objects (log
entry 104). -/
def execMcattWrite (die : Nat) (value : Word) (s : State) : Out :=
  let v := value &&& 0x800F00000000FFFF#64
  let mine := s.cores.filter fun c => c.die == die && c.memc
  if kindOf die == some 2 && s.answers die && mine.all fun c => c.run == .halted then
    let i := bits v 51 48
    let f := s.fieldAt i
    let base := ((s.cores.find? fun c => c.field == some i && !c.memc).map Core.fbase).getD (BitVec.ofNat 64 s.cyc)
    let t := (s.modChip die fun c => { c with mcatt := v }).mapCores fun c =>
      if c.die = die ∧ c.memc = true then
        { c with
          field := if v.getLsbD 63 then some i else none, fbase := base
          sys := { c.sys with racest := 0#64, ctxid := BitVec.ofNat 64 (f.anchor % 1024 * 2 ^ 20 + i * 2 ^ 16 + bits v 15 0) } }
      else c
    .next ((t.dropRaces mine).numberMemoryCores i)
  else .next s

/-- TROOT_WRITE. -/
def execTrootWrite (die : Nat) (value : Word) (s : State) : Out :=
  .next (if hasCores die && s.answers die then s.modChip die fun c => { c with troot := value &&& 0x800FFFFFFFE00000#64 } else s)

end Sys2Proof.Machine
end

