-- ==== Sys2Proof/Machine/Host.lean ====
section
/-!
DEFINITION. The two host endpoints (spec/22 R384 to R388, R392, R393): semaphores, card posts, host DMA, windows, BAR4,
attestation and firmware images.
-/

namespace Sys2Proof.Machine

/-- An endpoint that is up and shows its BARs: in recovery it shows a recovery BAR0 alone (R392). -/
def State.exposed (s : State) (e : Nat) : Bool := decide (e < 2) && (s.hostAt e).up && s.modState.powered && !s.modState.recovery

/-- An endpoint of a module that runs on input power: the stored energy serves the checkpoint alone (spec/00 R6). -/
def State.serves (s : State) (e : Nat) : Bool := s.exposed e && !s.modState.holdup

/-! ## Card posts (R384, R386) -/

/-- HPRES. -/
def hpres (status : Nat) (handle : Word) : Word := BitVec.ofNat 64 (status * 2 ^ 60 + handle.toNat % 2 ^ 58)

/-- The field of a context with an anchor die. -/
def State.fieldNamed (s : State) (anchor ctx : Nat) : Option Nat :=
  (List.range 16).find? fun i => (s.fieldAt i).valid && (s.fieldAt i).anchor == anchor && (s.fieldAt i).ctx == ctx

/-- What a post answers, and the state after it; an accepted one is an external input (spec/23 R396). -/
def State.hostPost (s : State) (hpaddr hpctx : Word) : Word × State :=
  match s.fieldNamed (bits hpctx 25 16) (bits hpctx 15 0) with
  | none => (hpres 4 0#64, s)
  | some i =>
    if (s.fieldAt i).stat = .killed then (hpres 5 0#64, s)
    else if hpaddr.toNat % 64 ≠ 0 then (hpres 2 0#64, s)
    else match s.dispatchRead i hpaddr 64 with
      | .error _ => (hpres 3 0#64, s)
      | .ok (t, bs) => match t.acceptCard i bs 0 0 true with
        | .accepted u h => (hpres 0 h, u.record i 4 0xFFF hpaddr.toNat h)
        | .full => (hpres 1 0#64, t)
        | .refused => (hpres 2 0#64, t)
        | .fault _ => (hpres 3 0#64, t)

/-- HPCTX_POST. -/
def execHpctxPost (endpoint : Nat) (hpaddr hpctx : Word) (s : State) : Out :=
  if s.serves endpoint then
    let (w, t) := s.hostPost hpaddr hpctx
    .next (t.setHost endpoint { t.hostAt endpoint with hpaddr := hpaddr, hpres := w })
  else .next s

/-! ## Semaphores (R385) -/

def State.sem (s : State) (n : Nat) : BitVec 2 := s.sems[n]?.getD 0#2
def State.setSem (s : State) (n : Nat) (v : BitVec 2) : State :=
  if h : n < 8 then { s with sems := s.sems.set n v h } else s

/-- SEM_ACQUIRE: a read of SEMn. `tie`: the other endpoint reads it in the same cycle; the winner is the endpoint that lost
the previous tie. -/
def execSemAcquire (endpoint sem : Nat) (tie : Bool) (s : State) : Out :=
  if s.exposed endpoint = false ∨ 8 ≤ sem ∨ s.sem sem ≠ 0#2 then .next s
  else if tie then
    let winner := 1 - s.semTie
    .next ({ s with semTie := winner }.setSem sem (BitVec.ofNat 2 (winner + 1)))
  else .next (s.setSem sem (BitVec.ofNat 2 (endpoint + 1)))

/-- SEM_RELEASE: a write of 0 by the owner. -/
def execSemRelease (endpoint sem : Nat) (value : Word) (s : State) : Out :=
  if s.exposed endpoint = true ∧ value = 0#64 ∧ s.sem sem = BitVec.ofNat 2 (endpoint + 1) then .next (s.setSem sem 0#2) else .next s

/-! ## Host DMA (R387) -/

def Endpoint.enabled (h : Endpoint) : Bool := h.dqctl.getLsbD 32

/-- Where descriptor `index` of the ring lies in host memory. -/
def Endpoint.descAddr (h : Endpoint) (index : Nat) : Nat :=
  bits h.dqbase 63 12 * 4096 + index % 2 ^ bits h.dqbase 4 0 * 32

def descWord (bs : List Byte) (n : Nat) : Nat := ofBytes ((bs.drop (8 * n)).take 8)

/-- DQTAIL_WRITE. -/
def execDqtailWrite (endpoint : Nat) (value : Word) (s : State) : Out :=
  .next (if s.exposed endpoint then s.setHost endpoint { s.hostAt endpoint with dqtail := value.truncate 32 } else s)

/-- DQCTL_WRITE: EN is RW, ERR W1C; setting EN while DQBASE is zero is refused. -/
def execDqctlWrite (endpoint : Nat) (value : Word) (s : State) : Out :=
  let h := s.hostAt endpoint
  let on := value.getLsbD 32
  if s.exposed endpoint = false ∨ (on = true ∧ h.dqbase = 0#64) then .next s
  else
    let v := setBits h.dqctl 32 32 (if on then 1 else 0)
    .next (s.setHost endpoint { h with dqctl := if value.getLsbD 63 then setBits v 63 63 0 else v })

/-- HOST_DMA_DESCRIPTOR_START: the next descriptor of the ring is read and started; one with FENCE waits for all before. -/
def execHostDmaDescriptorStart (endpoint : Nat) (s : State) : Out :=
  let h := s.hostAt endpoint
  let bs := Mem.getBytes s.hostMem (h.descAddr h.dqhead.toNat) 32
  let fence := descWord bs 3 / 4 % 2 == 1
  if s.serves endpoint = true ∧ h.enabled = true ∧ h.dqhead ≠ h.dqtail ∧ (fence = false ∨ h.running = []) then
    .next (s.setHost endpoint { h with dqhead := h.dqhead + 1#32, running := h.running ++ [(h.dqhead.toNat, bs)] })
  else .next s

/-- The descriptor's limits. -/
def descOkDma (bs : List Byte) : Bool :=
  descWord bs 0 % 64 == 0 && descWord bs 1 % 64 == 0 && decide (descWord bs 2 < 2 ^ 32) && descWord bs 2 % 64 == 0
    && descWord bs 2 != 0 && descWord bs 3 % 2 ^ 56 / 8 == 0

/-- Bytes of HBM (spec/00: 36 stacks of 48 GB). -/
def hbmBytes : Nat := 1728 * 10 ^ 9

/-- The status of a copy, and what it wrote. -/
def State.dmaCopy (s : State) (bs : List Byte) (busError : Bool) : Nat × State :=
  let gpa := descWord bs 0
  let hba := descWord bs 1
  let len := descWord bs 2
  if !descOkDma bs then (5, s)
  else if hbmBytes < gpa + len then (3, s)
  else if s.poison.any fun p => decide (gpa / 64 ≤ p) && decide (p < (gpa + len) / 64) then (2, s)
  else if busError then (4, s)
  else if descWord bs 3 % 2 = 0 then (1, { s with mem := Mem.putBytes s.mem gpa (Mem.getBytes s.hostMem hba len) })
  else (1, { s with hostMem := Mem.putBytes s.hostMem hba (Mem.getBytes s.mem gpa len) })

/-- DQDONE passes the descriptors that have their STAT, in ring order. -/
def passDone (fuel : Nat) (done : BitVec 32) (finished : List Nat) : BitVec 32 × List Nat :=
  match fuel with
  | 0 => (done, finished)
  | k + 1 => if finished.contains done.toNat then passDone k (done + 1#32) (finished.filter (· != done.toNat)) else (done, finished)

/-- A descriptor completes with a status: STAT, DQDONE, IRQST bit 7, ERR. -/
def State.finishDescriptor (s : State) (endpoint index : Nat) (bs : List Byte) (status : Nat) : State :=
  let h := s.hostAt endpoint
  let (done, rest) := passDone (h.finished.length + 1) h.dqdone (h.finished ++ [index])
  let h1 : Endpoint := { h with
    running := h.running.filter fun r => r.1 != index, finished := rest, dqdone := done
    dqctl := if status = 1 then h.dqctl else setBits (setBits h.dqctl 63 63 1) 31 0 index }
  let t := { s with hostMem := Mem.put s.hostMem (h.descAddr index + 31) (BitVec.ofNat 8 status) }.setHost endpoint h1
  if descWord bs 3 / 2 % 2 = 1 then t.irq endpoint 7 else t

/-- HOST_DMA_DESCRIPTOR_DONE: one of the running descriptors completes; the rule orders none before another. -/
def execHostDmaDescriptorDone (endpoint : Nat) (busError : Bool) (s : State) : Out :=
  let h := s.hostAt endpoint
  if !s.serves endpoint then .next s
  else match h.running with
  | [] => .next s
  | [r] =>
    let (status, t) := s.dmaCopy r.2 busError
    .next (t.finishDescriptor endpoint r.1 r.2 status)
  | r0 :: _ =>
    let r := (h.running[Config.turn s.free % h.running.length]?).getD r0
    let (status, t) := { s with free := s.free + 1 }.dmaCopy r.2 busError
    .next (t.finishDescriptor endpoint r.1 r.2 status)

/-- Every descriptor of the ring that has not completed ends with STAT 0x04. -/
def State.failDescriptors (s : State) (endpoint : Nat) : State :=
  let h := s.hostAt endpoint
  let waiting := (List.range (h.dqtail - h.dqhead).toNat).map fun k =>
    let i := (h.dqhead + BitVec.ofNat 32 k).toNat
    (i, Mem.getBytes s.hostMem (h.descAddr i) 32)
  let t := s.setHost endpoint { h with dqhead := h.dqtail }
  (h.running ++ waiting).foldl (fun (t : State) (r : Nat × List Byte) => t.finishDescriptor endpoint r.1 r.2 4) t

/-- ENDPOINT_LINK_DOWN: its semaphores are freed, its DMA engine stops, the other endpoint is told (R385, R387). -/
def execEndpointLinkDown (endpoint : Nat) (s : State) : Out :=
  let h := s.hostAt endpoint
  if endpoint < 2 ∧ h.up = true then
    let t := { s with sems := s.sems.map fun o => if o = BitVec.ofNat 2 (endpoint + 1) then 0#2 else o }
    let u := t.setHost endpoint { h with up := false, dqctl := setBits h.dqctl 32 32 0 }
    .next ((u.failDescriptors endpoint).irq (1 - endpoint) 4)
  else .next s

/-- HOST_BAR4_ACCESS: a host access to a GLOBAL physical address, at its home; a piece written whole is sound again. -/
def execHostBar4Access (endpoint address : Nat) (write : Bool) (bytes : List (BitVec 8)) (s : State) : Out :=
  if s.serves endpoint = true ∧ write = true ∧ address + bytes.length ≤ hbmBytes then
    .next { s with
      mem := Mem.putBytes s.mem address bytes
      poison := s.poison.filter fun p => !(decide (address ≤ p * 64) && decide (p * 64 + 64 ≤ address + bytes.length)) }
  else .next s

/-! ## Windows (R388) -/

/-- WINDOW_WRITE: word 0 or 1 of HWIN or CWIN; a base that is no multiple of the size makes the write refused. -/
def execWindowWrite (die : Nat) (cxl : Bool) (index word : Nat) (value : Word) (s : State) : Out :=
  let c := s.chip die
  let old := lookupD (if cxl then c.cwin else c.hwin) index (0#64, 0#64)
  let v := if word = 0 then (value &&& 0xFFFFFFFFFFFF0000#64, old.2)
    else (old.1, value &&& (if cxl then 0xFFFFF000FFFF0000#64 else 0xEFFFF000FFFF0000#64))
  if !hasCores die || !s.answers die || decide (16 ≤ index) || v.1.toNat % 2 ^ bits v.2 49 44 != 0 then .next s
  else .next (s.modChip die fun c =>
    if cxl then { c with cwin := assign c.cwin index v } else { c with hwin := assign c.hwin index v })

/-! ## Attestation (R393) -/

/-- ATTEST_START. -/
def execAttestStart (endpoint : Nat) (address : Word) (s : State) : Out :=
  .next (if s.serves endpoint then
    s.setHost endpoint { s.hostAt endpoint with attAddr := address, attBusy := true, atst := 0#64 } else s)

/-- The report on the running image and on the package description page, under a host's nonce; its layout is free (log entry 8). -/
def State.report (s : State) (endpoint : Nat) : List Byte :=
  let i := s.modState.running
  Config.report (s.hostAt endpoint).nonce i.hash i.version (Mem.getBytes s.mem Config.packagePage 0x1800) s.free

/-- ATTEST_REPORT_DONE: the report is written to the host. -/
def execAttestReportDone (endpoint : Nat) (busError : Bool) (s : State) : Out :=
  let h := s.hostAt endpoint
  if s.serves endpoint = true ∧ h.attBusy = true then
    let t := if busError then s
      else { s with hostMem := Mem.putBytes s.hostMem h.attAddr.toNat (s.report endpoint), free := s.free + 1 }
    .next ((t.setHost endpoint { h with attBusy := false, atst := if busError then 0xC000000000000000#64 else
      0x8000000000000000#64 }).irq endpoint 8)
  else .next s

/-! ## Reset, power-on and firmware (spec/18 R314, R321, spec/22 R392) -/

/-- The module after its chiplets go DARK: boot flash, the memories outside it, the counter of bring-ups, the state of its power
supply and the model's own fields stay; GLOBAL memory stays only where power did (log entry 19). -/
def State.restart (s : State) (powered : Bool) : State :=
  { State.reset with
    mem := if powered then s.mem else [], poison := if powered then s.poison else []
    podMem := s.podMem, hostMem := s.hostMem, cxlMem := s.cxlMem, areas := s.areas, free := s.free, agenda := s.agenda
    modState :=
      let m := s.modState
      let r : Module := { Module.reset with images := m.images }
      if powered then { r with bringups := m.bringups, mains := m.mains, holdup := m.holdup, clock := if m.holdup then m.clock else r.clock }
      else r }

/-- MODULE_RESET. -/
def execModuleReset (s : State) : Out := .next (if s.modState.powered then s.restart true else s)

/-- POWER_ON: input power of a module without power comes. -/
def execPowerOn (s : State) : Out := .next (if s.modState.powered then s else s.restart false)

/-- The eight slots hold an image. -/
def State.writeSlots (s : State) (image : Image) : State :=
  s.modMod fun m => { m with images := ioDies.map fun d => (d, image) }

/-- FIRMWARE_UPDATE: the master verifies the image and writes the slots one at a time, in ascending die id; the running image stays
in use. -/
def execFirmwareUpdate (image : Image) (verified : Bool) (s : State) : Out :=
  .next (if s.modState.powered && !s.modState.holdup && !s.modState.recovery && s.modState.master.isSome && s.modState.update.isNone
      && imageOk image verified then s.modMod fun m => { m with update := some (image, ioDies) } else s)

/-- The next slot of an image that is being written. -/
def State.writeNextSlot (s : State) : State :=
  s.modMod fun m => match m.update with
    | some (image, die :: rest) => { m with images := assign m.images die image, update := if rest.isEmpty then none else some (image, rest) }
    | _ => { m with update := none }

/-- RECOVERY_IMAGE_WRITE: verified, spread to every slot, then a module reset. -/
def execRecoveryImageWrite (image : Image) (verified : Bool) (s : State) : Out :=
  .next (if s.modState.powered && !s.modState.holdup && s.modState.recovery && imageOk image verified then (s.writeSlots image).restart true else s)

end Sys2Proof.Machine
end

