-- ==== Sys2Proof/Machine/Hold.lean ====
section
/-!
DEFINITION. Fleet operation: replay control (spec/23 R396, R397), hold-up (R398, R399), evacuation (R400, R401), the power
governor (R403), and writes of the other configuration registers (spec/18 R307).
-/

namespace Sys2Proof.Machine

/-! ## Replay control (R396, R397) -/

/-- RPCTL_WRITE: MODE only in SAVED or before a first card, 3 refused; OVF and DIV are W1C. -/
def execRpctlWrite (field : Nat) (value : Word) (s : State) : Out :=
  let f := s.fieldAt field
  let fresh := f.stat == .saved || (f.stat == .running && f.serial == 1)
  if !f.valid || bits value 63 62 == 3 then .next s
  else
    let mode := if fresh then bits value 63 62 else bits f.rpctl 63 62
    let kept := blend 0x000FFFFFFFFFFF00#64 f.rpctl value
    let w := setBits (kept &&& ~~~(value &&& 0x3000000000000000#64)) 63 62 mode
    let g : Field := { f with rpctl := w }
    .next (s.setField field (if fresh then { g with logPos := 0, replay := [], replayAt := [(0, s.cyc)] } else g))

/-- A free mutex of a field's Latches goes to its oldest waiter, which replay had held back. -/
def State.grantFree (s : State) (field : Nat) : State :=
  ((s.cores.filter fun c => c.field == some field).map Core.latch).eraseDups.foldl (fun (s : State) (k : Nat) =>
    (List.range 16).foldl (fun (s : State) (n : Nat) =>
      let m := (s.latch k).mutex n
      if m.holder.isNone && !m.waiters.isEmpty then s.freeMutex k n else s) s) s

/-- The requests that replay holds in a field, by kind and object: a free mutex that others wait for, the next element of a ring, a
chunk, and what a core says it waits for. -/
def State.heldRequests (s : State) (field : Nat) : List Nat :=
  let cs := s.cores.filter fun c => c.field == some field && c.run != .killed
  let latches := (cs.map Core.latch).eraseDups
  (latches.flatMap fun k => (List.range 16).filterMap fun n =>
      let m := (s.latch k).mutex n
      if m.holder.isNone && !m.waiters.isEmpty && (s.nextWaiter k n m.waiters).isNone then some (logKey 2 (mutexAddress k n)) else none)
    ++ cs.filterMap fun c => match c.run, c.wait with
      | .idle, _ => ((s.fieldAt field).choose field c).bind fun d => if s.chunkGrantable c d then none else some (logKey 1 d.serial)
      | .running, .replay key => some key
      | .running, .ringGet va => if s.grantable c 3 va || (s.blockedRing c va).all (fun r => r.count == 0) then none else some (logKey 3 va)
      | _, _ => none

/-- A field in replay has diverged: a request is held, and its object's next logged grant has not been asked for within 2^20 cycles
of the one before (R397; log entry 98). -/
def State.diverges (s : State) (field : Nat) : Bool :=
  let f := s.fieldAt field
  f.valid && f.replayMode == 2 && (s.heldRequests field).any fun key =>
    decide (lookupD f.replayAt key (lookupD f.replayAt 0 0) + 2 ^ 20 ≤ s.cyc)

/-- REPLAY_DIVERGENCE: DIV, MODE := 0, IRQST bit 5; held requests go on under the ordinary rules. -/
def execReplayDivergence (field : Nat) (s : State) : Out :=
  let f := s.fieldAt field
  if s.diverges field then
    .next ((s.setField field { f with rpctl := setBits (setBits f.rpctl 60 60 1) 63 62 0, replay := [], replayAt := [] }).grantFree field |>.irqBoth 5)
  else .next s

/-! ## Hold-up (R398, R399) -/

/-- The sum of LEN over a set, if every descriptor can be read and one asks for GPF. -/
def dsetSum (ds : List (List Nat)) : Option Nat :=
  if ds.any fun d => d[3]?.getD 0 % 2 == 1 then some (ds.foldl (fun n d => n + d[1]?.getD 0) 0) else none

/-- DSET_WRITE. -/
def execDsetWrite (field : Nat) (value : Word) (s : State) : Out :=
  let f := s.fieldAt field
  let v := value &&& 0x800FFFFFFFFFFFFF#64
  if !f.valid then .next s
  else if !v.getLsbD 63 then .next (s.setField field { f with dset := v, dsetLen := 0 })
  else match (s.durableSet field v).bind dsetSum with
    | none => .next s
    | some n =>
      let others := ((List.range 16).filter fun i => i != field).foldl (fun m i => m + (s.fieldAt i).dsetLen) 0
      if 100 * 2 ^ 30 < n + others then .next s else .next (s.setField field { f with dset := v, dsetLen := n })

/-- What hold-up begins in a field. -/
def State.holdField (s : State) (i : Nat) : State :=
  let f := s.fieldAt i
  if !f.valid then s
  else match f.stat with
    | .running => (s.setField i { f with hurec := 0x8000000000000000#64, huEnd := none }).preemptField i true
    | .saved => (s.setField i { f with hurec := 0x8000000000000000#64, huEnd := none }).flushSaved i
    | .killed => s.setField i { f with hurec := 0xE000000000000000#64 }
    | _ => s.setField i { f with hurec := 0x8000000000000000#64, huEnd := none }

/-- POWER_FAIL: the core clock falls to 1.5 GHz and every field is saved and flushed. -/
def execPowerFail (s : State) : Out :=
  if s.modState.powered && s.modState.mains then
    let t := s.modMod fun m => { m with mains := false, holdup := true, clock := 1500 }
    .next ((List.range 16).foldl State.holdField t)
  else .next s

/-- The hold-up sequence has nothing left to do. -/
def State.holdupOver (s : State) : Bool :=
  (List.range 16).all (fun i => !([FieldState.preempting, .copying, .restoring].contains (s.fieldAt i).stat)) && s.cores.all fun c => !(c.holdup && c.run == .running)

/-- POWER_RETURN: the sequence still runs to its end. -/
def execPowerReturn (s : State) : Out :=
  if s.modState.powered && s.modState.holdup then
    let t := s.modMod fun m => { m with mains := true }
    .next (if s.holdupOver then t.modMod fun m => { m with holdup := false, clock := 3000 } else t)
  else .next s

/-- HOLDUP_ENERGY_EXHAUSTED: the field's record says so, at the end of what it made durable; every other state is lost
(spec/00 R6). -/
def execHoldupEnergyExhausted (field : Nat) (s : State) : Out :=
  if s.modState.powered && s.modState.holdup && !s.modState.mains then
    let f := s.fieldAt field
    let w := setBits f.hurec 62 61 1
    let t := match f.huEnd with
      | some a => { s with cxlMem := Mem.store s.cxlMem a 8 w.toNat }
      | none => s
    .next ((t.restart false).modMod fun m => { m with powered := false, mains := false })
  else .next s

/-- POWER_THROTTLE: one step of 100 MHz; counts of core cycles are unchanged (R403). -/
def execPowerThrottle (s : State) : Out := .next (s.modMod fun m => { m with clock := m.clock - 100 })

/-! ## Evacuation (R400, R401) -/

/-- A physical address lies on a channel chiplet's stack. -/
def onStack (die phys : Nat) : Bool := kindOf die == some 2 && decide (phys < hbmBytes) && stackDie phys == die

/-- The leaves of a context's tables: the entry's address, its SIZE, its word, the page's virtual address. -/
def State.leaves (s : State) (root : Word) : List (Nat × Nat × Word × Nat) :=
  let word := fun (a : Nat) => BitVec.ofNat 64 (Mem.load s.mem a 8)
  let base := bits root 51 21 * 2 ^ 21
  if !root.getLsbD 63 then []
  else (List.range 262144).flatMap fun i =>
    let e := word (base + 8 * i)
    if !e.getLsbD 0 then []
    else if bits e 7 6 = 3 then [(base + 8 * i, 3, e, i * 2 ^ 30)]
    else if bits e 7 6 ≠ 0 then []
    else (List.range 512).flatMap fun j =>
      let a2 := bits e 51 8 * 256 + 8 * j
      let e2 := word a2
      if !e2.getLsbD 0 then []
      else if bits e2 7 6 = 2 then [(a2, 2, e2, i * 2 ^ 30 + j * 2 ^ 21)]
      else if bits e2 7 6 ≠ 0 then []
      else (List.range 32).filterMap fun k =>
        let a3 := bits e2 51 8 * 256 + 8 * k
        let e3 := word a3
        if e3.getLsbD 0 && bits e3 7 6 == 1 then some (a3, 1, e3, i * 2 ^ 30 + j * 2 ^ 21 + k * 2 ^ 16) else none

/-- A page to move: context, entry, SIZE, word, virtual address. -/
structure Leaf where
  ctx  : Nat
  at_  : Nat
  size : Nat
  pte  : Word
  va   : Nat
  deriving DecidableEq, Repr

def Leaf.phys (l : Leaf) : Nat := bits l.pte 51 8 * 256

/-- The contexts of existing fields, with a translation root each. -/
def State.contexts (s : State) : List (Nat × Word) :=
  ((List.range 16).filterMap fun i =>
    let f := s.fieldAt i
    if f.valid && f.lead then some (f.ctx, (s.chip f.anchor).troot) else none)

/-- The pages of every context. -/
def State.allPages (s : State) : List Leaf :=
  s.contexts.flatMap fun c => (s.leaves c.2).map fun l => ⟨c.1, l.1, l.2.1, l.2.2.1, l.2.2.2⟩

/-- Pages of a stack that a context maps and that are not lost yet. -/
def State.stackPages (s : State) (die : Nat) : List Leaf :=
  s.allPages.filter fun p => onStack die p.phys && !p.pte.getLsbD 5 && !remotePhys p.phys

/-- Insertion in ascending physical address. -/
def insertLeaf (l : Leaf) (ls : List Leaf) : List Leaf :=
  match ls with
  | [] => [l]
  | x :: rest => if l.phys < x.phys then l :: x :: rest else x :: insertLeaf l rest

/-- The entries of the list EVLIST names; a list that cannot be read counts as empty (R400): one with an uncorrectable
error, with another module's address, or on the unreadable stack itself. -/
def State.priorityList (s : State) (die : Nat) (readable : Bool) : List (Nat × Nat × Nat) :=
  let w := s.modState.evlist
  let base := bits w 51 4 * 16
  let n := bits w 62 52 + 1
  let lost := (s.poison.any fun p => decide (base / 64 ≤ p) && decide (p ≤ (base + 16 * n - 1) / 64)) || remotePhys base
    || (!readable && onStack die base)
  if !w.getLsbD 63 || lost then []
  else (List.range n).map fun k =>
    let a := base + 16 * k
    let w0 := Mem.load s.mem a 8
    (w0 / 2 ^ 48, w0 % 2 ^ 48, Mem.load s.mem (a + 8) 8)

/-- Pages in the order they move: those of the priority list, entry by entry, then ascending physical address. -/
def evacuationOrder (list : List (Nat × Nat × Nat)) (pages : List Leaf) : List Leaf :=
  let sorted := pages.foldr insertLeaf []
  let named := list.flatMap fun e => sorted.filter fun p => p.ctx == e.1 && decide (e.2.1 ≤ p.va) && decide (p.va < e.2.1 + e.2.2)
  (named ++ sorted).eraseDups

/-- The bytes of a page copied to a frame. -/
def Mem.copyPage (m : Mem) (src dst n : Nat) : Mem :=
  let cells := m.filter fun (c : Host.Cell) => decide (src ≤ c.1 ∧ c.1 < src + n)
  let cleared := m.filter fun (c : Host.Cell) => !decide (dst ≤ c.1 ∧ c.1 < dst + n)
  cells.foldl (fun (t : Mem) (c : Host.Cell) => Mem.put t (c.1 - src + dst) c.2) cleared

/-- A page that has been dealt with: where it was, its size, its new frame, in HBM or in the CXL pool, or none where it is lost. -/
structure Moved where
  phys  : Nat
  size  : Nat
  frame : Option Nat
  cxl   : Bool
  deriving DecidableEq, Repr

def Moved.holds (m : Moved) (phys : Nat) : Bool := decide (m.phys ≤ phys) && decide (phys < m.phys + m.size)

/-- Two ranges of n and k bytes meet. -/
def meets (a n b k : Nat) : Bool := decide (a < b + k) && decide (b < a + n)

/-- The free frame of n bytes that a page is copied to: in HBM on no failing stack, or in the CXL pool; none where it fits nowhere
(R400, R401; log entry 16). -/
def State.newFrame (s : State) (die : Nat) (pages : List Leaf) (done : List Moved) (n : Nat) : Option (Nat × Bool) :=
  let frame := Config.frame s.free / n * n
  let free := !(pages.any fun p => meets frame n p.phys (pageBytes p.size)) && !(done.any fun m => m.frame.any fun f => meets frame n f m.size)
  if Config.placement s.free = 0 then
    (if free && decide (frame + n ≤ hbmBytes) && (List.range (n / 2048)).all fun k => !onStack die (frame + 2048 * k) then some (frame, false)
     else none)
  else if Config.placement s.free = 1 && free && decide (hbmBytes ≤ frame) && decide (frame + n ≤ 2 ^ 44) then some (frame, true)
  else none

/-- A page that one PTE maps: copied to its new frame, or lost; an entry that maps the same page follows it. -/
def State.movePage (die : Nat) (readable : Bool) (pages : List Leaf) (acc : State × List Moved) (l : Leaf) : State × List Moved :=
  let (s, done) := acc
  let n := pageBytes l.size
  let rewrite := fun (t : State) (pte : Word) => { t with mem := Mem.store t.mem l.at_ 8 pte.toNat }
  let moved := fun (frame : Nat) => setBits l.pte 51 8 (frame / 256)
  match done.find? fun m => m.holds l.phys with
  | some m => (match m.frame with
    | some f => (rewrite s (moved (f + (l.phys - m.phys))), done)
    | none => (rewrite s (l.pte ||| 0x20#64), done))
  | none =>
    let bad := s.poison.any fun p => decide (l.phys / 64 ≤ p) && decide (p < (l.phys + n) / 64)
    let t := { s with free := s.free + 1 }
    match if !readable || bad then none else s.newFrame die pages done n with
    | none => (rewrite t (l.pte ||| 0x20#64), ⟨l.phys, n, none, false⟩ :: done)
    | some (frame, cxl) => (rewrite { t with mem := Mem.copyPage t.mem l.phys frame n } (moved frame), ⟨l.phys, n, some frame, cxl⟩ :: done)

/-- Pages to HBM, to the CXL pool, and lost. -/
def evacuationRecord (done : List Moved) : Word :=
  let count := fun (p : Moved → Bool) => (done.filter p).length
  BitVec.ofNat 64 (count (fun m => m.frame.isSome && !m.cxl) * 2 ^ 43 + count (fun m => m.frame.isSome && m.cxl) * 2 ^ 22
    + count (fun m => m.frame.isNone) * 2 + 1)

/-- The HOME entries of the moved pages' granules name other ONLINE slices, in every copy (R339). -/
def State.redirectHome (s : State) (pages : List Leaf) : State :=
  let slices := allDies.filter fun d => kindOf d == some 1 && s.online d
  let hs := (pages.flatMap fun p => (List.range (pageBytes p.size / 2048)).map fun k => homeIndex (p.phys + 2048 * k)).eraseDups
  let entry := fun (h : Nat) => BitVec.ofNat 16 ((slices[Config.redirect s.free h % slices.length]?).getD 0)
  if slices.isEmpty then s
  else { s with free := s.free + 1 }.mapChips fun d c =>
    if hasCores d then { c with home := hs.foldl (fun t h => assign t h (entry h)) c.home } else c

/-- EVACUATION of a fenced channel chiplet's stack: the fields that map its pages are pre-empted first (R400). -/
def execEvacuation (die : Nat) (readable : Bool) (s : State) : Out :=
  if kindOf die != some 2 || (s.chip die).bus != .fenced then .next s
  else
    let pages := s.stackPages die
    let ready := (List.range 16).all fun i =>
      let f := s.fieldAt i
      !f.valid || f.stat == .saved || f.stat == .killed || !(pages.any fun p => p.ctx == f.ctx)
    if !ready then
      .next ((List.range 16).foldl (fun (t : State) (i : Nat) =>
        let f := s.fieldAt i
        if f.valid && f.stat == .running && pages.any (fun p => p.ctx == f.ctx) then t.preemptField i false else t) s)
    else
      let (t, done) := (evacuationOrder (s.priorityList die readable) pages).foldl (State.movePage die readable s.allPages) (s, [])
      let u := ({ t with tlb := t.tlb.filter fun e => !(pages.any fun p => p.ctx == e.ctx) }.redirectHome pages).modMod fun m =>
        { m with evrec := evacuationRecord done }
      let touched := fun (r : Nat × List Byte) => pages.any fun p =>
        decide (p.phys < descWord r.2 0 + descWord r.2 2) && decide (descWord r.2 0 < p.phys + pageBytes p.size)
      let v := [0, 1].foldl (fun (v : State) e =>
        ((v.hostAt e).running.filter touched).foldl (fun (v : State) r => v.finishDescriptor e r.1 r.2 2) v) u
      .next (if done.any fun m => m.frame.isNone then v.irqBoth 6 else v)

/-! ## Configuration registers (spec/18 R307) -/

/-- A write-one-to-clear of bit 63. -/
def clearV (old value : Word) : Word := if value.getLsbD 63 then setBits old 63 63 0 else old

/-- The field whose anchor registers a chiplet holds. -/
def State.fieldAnchored (s : State) (die : Nat) : Option Nat :=
  (List.range 16).find? fun i => (s.fieldAt i).valid && (s.fieldAt i).anchor == die

/-- A write of an anchor register, while a field has its anchor here or not. -/
def State.anchorWrite (s : State) (die : Nat) (f : Field → Field) (g : AnchorRegs → AnchorRegs) : State :=
  match s.fieldAnchored die with
  | some i => s.setField i (f (s.fieldAt i))
  | none => s.modChip die fun c => { c with anchor := g c.anchor }

/-- The anchor registers of a chiplet. -/
def State.anchorRegs (s : State) (die : Nat) : AnchorRegs :=
  match s.fieldAnchored die with
  | some i => (s.fieldAt i).regs
  | none => (s.chip die).anchor

/-- The state after an event that always answers one. -/
def Out.state (o : Out) (s : State) : State :=
  match o with
  | .next t => t
  | _ => s

/-- STATE of BUSTATE (R317). -/
def BusState.code (b : BusState) : Nat :=
  match b with
  | .dark => 0
  | .clockLocked => 1
  | .linksTrained => 2
  | .identified => 3
  | .configured => 4
  | .online => 5
  | .fenced => 6
  | .isolated => 7

/-- BUSTATE (R317). -/
def busWord (die : Nat) (c : Chip) : Word :=
  BitVec.ofNat 64 (c.croot % 1024 * 2 ^ 42 + c.root % 1024 * 2 ^ 32 + c.master % 1024 * 2 ^ 22 + min c.dist 63 * 2 ^ 16
    + c.pport % 8 * 2 ^ 13 + c.cport % 8 * 2 ^ 10 + (kindOf die).getD 0 * 2 ^ 8 + c.bus.code)

/-- LINKST (R308). -/
def linkWord (c : Chip) : Word :=
  BitVec.ofNat 64 ((List.range 4).foldl (fun n p => match c.links[p]? with
    | some l => n + (l.state.toNat * 2 ^ 14 + l.retry.toNat) * 2 ^ (16 * p)
    | none => n) 0)

/-- STATE of FSTAT (spec/21 R375). -/
def FieldState.code (f : FieldState) : Nat :=
  match f with
  | .running => 0
  | .preempting => 1
  | .copying => 2
  | .saved => 3
  | .restoring => 4
  | .killed => 5

/-- FSTAT (spec/21 R375). -/
def fstatWord (f : Field) : Word :=
  BitVec.ofNat 64 (f.stat.code * 2 ^ 61 + (if f.statTimed then 2 ^ 60 else 0) + f.acks % 2 ^ 12 * 2 ^ 36)

/-- Word 0 of a field's descriptor (spec/21 R373). -/
def fdefWord (f : Field) : Word :=
  setBits (setBits (f.word0 &&& rectMask) 63 63 (if f.valid then 1 else 0)) 60 58 f.res.toNat

/-- The width of the register of a block that an offset is the first byte of. -/
def State.registerAt (s : State) (die o : Nat) : Option Nat :=
  let compute := isCompute die
  let master := s.modState.master == some die
  if 0x1000 ≤ o ∧ o < 0x1800 then (if o % 2 = 0 then some 2 else none)
  else if 0x2000 ≤ o ∧ o < 0x2400 then (if o % 4 = 0 then some 4 else none)
  else if 0x4000 ≤ o ∧ o < 0x6000 ∧ hasCores die = true then (if o % 2 = 0 then some 2 else none)
  else if o % 8 ≠ 0 then none
  else if o < 0x10 then some 8
  else if (o = 0x10 ∨ o = 0x3000 ∨ (0x6000 ≤ o ∧ o < 0x6200)) ∧ hasCores die = true then some 8
  else if o = 0x18 ∧ kindOf die = some 2 then some 8
  else if o = 0x20 ∧ kindOf die = some 3 then some 8
  else if 0x100 ≤ o ∧ ((o < 0x140 ∧ compute = true) ∨ (o < 0x120 ∧ kindOf die = some 2)) then some 8
  else if (o = 0x200 ∨ (0x400 ≤ o ∧ o ≤ 0x428) ∨ o = 0x438 ∨ o = 0x440 ∨ (0x7100 ≤ o ∧ o < 0x7128)) ∧ compute = true then some 8
  else if (o = 0x448 ∨ o = 0x450 ∨ (0x800 ≤ o ∧ o < 0xA00)) ∧ master = true then some 8
  else if 0x7000 ≤ o ∧ o < 0x7040 then some 8
  else none

/-- An access matches a register of a block that answers it. -/
def State.matchesReg (s : State) (die o width : Nat) : Bool :=
  s.registerAt die o == some width && (s.answers die || (decide (o < 0x10) && (kindOf die).isSome))

/-- What a register holds; WO fields read zero. -/
def State.blockRead (s : State) (die o : Nat) : Word :=
  let c := s.chip die
  let r := s.anchorRegs die
  let f := s.fieldAt ((o - 0x800) / 32)
  if 0x1000 ≤ o ∧ o < 0x1800 then (s.nselAt die ((o - 0x1000) / 2)).zeroExtend 64
  else if 0x2000 ≤ o ∧ o < 0x2400 then (s.rteAt die ((o - 0x2000) / 4)).zeroExtend 64
  else if 0x4000 ≤ o ∧ o < 0x6000 then (lookupD c.home ((o - 0x4000) / 2) 0#16).zeroExtend 64
  else if 0x100 ≤ o ∧ o < 0x140 then
    (match s.find die ((o - 0x100) / 8) with
      | some k => s.blkst k
      | none => 0#64)
  else if 0x800 ≤ o ∧ o < 0xA00 then
    (if o % 32 = 0 then fdefWord f else if o % 32 = 8 then f.w1 else if o % 32 = 16 then f.w2 else 0#64)
  else if 0x6000 ≤ o ∧ o < 0x6200 then
    (let w := lookupD (if 0x6100 ≤ o then c.cwin else c.hwin) (o % 0x100 / 16) (0#64, 0#64)
     if o % 16 = 0 then w.1 else w.2)
  else if 0x7000 ≤ o ∧ o < 0x7040 then lookupD c.sercnt ((o - 0x7000) / 8) 0#64
  else if 0x7100 ≤ o ∧ o < 0x7128 then lookupD c.dstats ((o - 0x7100) / 8) 0#64
  else match o with
    | 0x00 => busWord die c
    | 0x08 => linkWord c
    | 0x10 => c.harvest.zeroExtend 64
    | 0x18 => c.mcatt
    | 0x20 => c.modid
    | 0x200 => c.tumrec
    | 0x400 => r.fcmd
    | 0x408 => r.fsave
    | 0x410 => (s.fieldAnchored die).elim 0#64 fun i => fstatWord (s.fieldAt i)
    | 0x418 => r.killrec
    | 0x420 => r.rpctl
    | 0x428 => r.carderr
    | 0x438 => r.dset
    | 0x440 => r.hurec
    | 0x448 => s.modState.evlist
    | 0x450 => s.modState.evrec
    | 0x3000 => c.troot
    | _ => 0#64

/-- A write of an anchor die's registers; those of the field controller act on the field that has its anchor there. -/
def State.anchorBlock (s : State) (die o : Nat) (v : Word) : State :=
  match o with
  | 0x200 => s.modChip die fun c => { c with tumrec := clearV c.tumrec v }
  | 0x400 => (match s.fieldAnchored die with
    | none => s.modChip die fun c => { c with anchor := { c.anchor with fcmd := v &&& cmdMask } }
    | some i => (match bits v 63 62 with
      | 1 => (execFcmdPreempt i v s).state s
      | 2 => (execFcmdRestore i v s).state s
      | 3 => (execFcmdKill i v s).state s
      | _ => s.setField i { s.fieldAt i with fcmd := v &&& cmdMask }))
  | 0x408 =>
    let w := v &&& 0x000FFFFFFFFF0000#64
    s.anchorWrite die (fun f => if f.stat = .running ∨ f.stat = .saved then { f with fsave := w } else f)
      fun r => { r with fsave := w }
  | 0x418 => s.anchorWrite die (fun f => { f with killrec := clearV f.killrec v }) fun r => { r with killrec := clearV r.killrec v }
  | 0x420 => (s.fieldAnchored die).elim s fun i => (execRpctlWrite i v s).state s
  | 0x428 => s.anchorWrite die (fun f => { f with carderr := clearV f.carderr v }) fun r => { r with carderr := clearV r.carderr v }
  | 0x438 => (s.fieldAnchored die).elim s fun i => (execDsetWrite i v s).state s
  | 0x440 => s.anchorWrite die (fun f => { f with hurec := clearV f.hurec v }) fun r => { r with hurec := clearV r.hurec v }
  | _ => s

/-- A write of a register that matches; one its register refuses, or that is RO, changes nothing. -/
def State.blockWrite (s : State) (die o : Nat) (v : Word) : State :=
  if 0x1000 ≤ o ∧ o < 0x1800 then (execNselWrite die ((o - 0x1000) / 2) (v.truncate 16) s).state s
  else if 0x2000 ≤ o ∧ o < 0x2400 then (execRteWrite die ((o - 0x2000) / 4) (v.truncate 32) s).state s
  else if 0x800 ≤ o ∧ o < 0xA00 then
    (let i := (o - 0x800) / 32
     let f := s.fieldAt i
     if o % 32 = 0 then s.fdefWrite i v
     else if o % 32 = 8 then s.setField i { f with w1 := v }
     else if o % 32 = 16 then s.setField i { f with w2 := v &&& 0x800000000000000F#64 } else s)
  else if 0x6000 ≤ o ∧ o < 0x6200 then
    (execWindowWrite die (decide (0x6100 ≤ o)) (o % 0x100 / 16) (o % 16 / 8) v s).state s
  else if 0x7000 ≤ o ∧ o < 0x7040 then
    (if hasStructure (kindOf die) ((o - 0x7000) / 8) then s.modChip die fun c => { c with sercnt := assign c.sercnt ((o - 0x7000) / 8) v } else s)
  else match o with
    | 0x10 => if (s.chip die).bus = .identified then s.modChip die fun c => { c with harvest := c.harvest &&& v.truncate 8 } else s
    | 0x18 => (execMcattWrite die v s).state s
    | 0x20 => s.modChip die fun c => { c with modid := v &&& 0x3F#64 }
    | 0x448 => s.modMod fun m => { m with evlist := v &&& 0xFFFFFFFFFFFFFFF0#64 }
    | 0x450 => s.modMod fun m => { m with evrec := if v.getLsbD 0 then setBits m.evrec 0 0 0 else m.evrec }
    | 0x3000 => (execTrootWrite die v s).state s
    | _ => s.anchorBlock die o v

/-! ## The control page of an endpoint (spec/22 R384) -/

/-- A register of the page that an offset is the first byte of. -/
def pageRegister (o : Nat) : Bool :=
  o % 8 == 0 && (decide (o < 0x58) || o == 0x80 || (decide (0x100 ≤ o) && decide (o ≤ 0x128))
    || (decide (0x200 ≤ o) && decide (o ≤ 0x220)))

/-- A register that can only be written. -/
def pageWriteOnly (o : Nat) : Bool := o == 0x40 || o == 0x48

/-- What a register of the page holds. -/
def Endpoint.pageRead (h : Endpoint) (o : Nat) : Word :=
  if 0x100 ≤ o ∧ o < 0x120 then BitVec.ofNat 64 (ofBytes ((h.nonce.drop (o - 0x100)).take 8))
  else match o with
    | 0x50 => h.hpres
    | 0x80 => h.irqst
    | 0x120 => h.attAddr
    | 0x128 => h.atst
    | 0x200 => h.dqbase
    | 0x208 => h.dqtail.zeroExtend 64
    | 0x210 => h.dqhead.zeroExtend 64
    | 0x218 => h.dqdone.zeroExtend 64
    | 0x220 => h.dqctl
    | _ => 0#64

/-- A register of an endpoint's control page. -/
def State.pageWrite (s : State) (e o : Nat) (v : Word) : State :=
  let h := s.hostAt e
  let bytes := toBytes 8 v.toNat
  if o < 0x40 then (execSemRelease e (o / 8) v s).state s
  else if 0x100 ≤ o ∧ o < 0x120 then
    (let k := o - 0x100
     let old := h.nonce ++ List.replicate (32 - h.nonce.length) 0#8
     s.setHost e { h with nonce := old.take k ++ bytes ++ old.drop (k + 8) })
  else match o with
    | 0x40 => s.setHost e { h with hpaddr := v }
    | 0x48 => (execHpctxPost e h.hpaddr v s).state s
    | 0x80 => s.setHost e { h with irqst := h.irqst &&& ~~~v }
    | 0x120 => (execAttestStart e v s).state s
    | 0x200 => if h.enabled = false ∧ 4 ≤ bits v 4 0 ∧ bits v 4 0 ≤ 16 then s.setHost e { h with dqbase := v &&& 0xFFFFFFFFFFFFF01F#64 } else s
    | 0x208 => (execDqtailWrite e v s).state s
    | 0x220 => (execDqctlWrite e v s).state s
    | _ => s

/-! ## Accesses of a host (R307) -/

def State.answer (s : State) (a : CfgAnswer) : State := s.modMod fun m => { m with cfg := a }

/-- CONFIG_REGISTER_WRITE: an access that matches no register, that a block does not answer, or a host's write of HOME (spec/19
R339), completes with a negative acknowledgement and changes nothing. -/
def execConfigRegisterWrite (target : CfgTarget) (offset width : Nat) (value : Word) (s : State) : Out :=
  match target with
  | .page e =>
    if s.exposed e = false then .next s
    else if width = 8 ∧ pageRegister offset = true then .next ((s.pageWrite e offset value).answer .done)
    else .next (s.answer .nak)
  | .block die =>
    if s.matchesReg die offset width && !(decide (0x4000 ≤ offset) && decide (offset < 0x6000)) then
      .next ((s.blockWrite die offset value).answer .done)
    else .next (s.answer .nak)

/-- A host's read (R307, spec/22 R384): the register, or a negative acknowledgement; the read of a semaphore acquires it (spec/22
R385). -/
def State.configRead (s : State) (target : CfgTarget) (offset width : Nat) : State :=
  match target with
  | .page e =>
    if s.exposed e = false then s
    else if width = 8 ∧ pageRegister offset = true ∧ pageWriteOnly offset = false then
      (if offset < 0x40 then
        let t := (execSemAcquire e (offset / 8) false s).state s
        let got := s.sem (offset / 8) == 0#2 && t.sem (offset / 8) != 0#2
        t.answer (.data (setBits ((t.sem (offset / 8)).zeroExtend 64) 63 63 (if got then 1 else 0)))
      else s.answer (.data ((s.hostAt e).pageRead offset)))
    else s.answer .nak
  | .block die => if s.matchesReg die offset width then s.answer (.data (s.blockRead die offset)) else s.answer .nak

end Sys2Proof.Machine
end

