-- ==== Sys2Proof/Machine/Dispatch.lean ====
section
/-!
DEFINITION. The dispatch: one arm per constructor of Instr, each one direct call of its meaning.
-/

namespace Sys2Proof.Machine

def exec (i : Instr) (s : State) : Host.Outcome State Fault Refusal :=
  match i with
  | .add_ x => Sys2Proof.Machine.execAdd x s
  | .sub_ x => Sys2Proof.Machine.execSub x s
  | .mul_ x => Sys2Proof.Machine.execMul x s
  | .mulh x => Sys2Proof.Machine.execMulh x s
  | .mulhn x => Sys2Proof.Machine.execMulhn x s
  | .div_ x => Sys2Proof.Machine.execDiv x s
  | .divn x => Sys2Proof.Machine.execDivn x s
  | .mod_ x => Sys2Proof.Machine.execMod x s
  | .modn x => Sys2Proof.Machine.execModn x s
  | .and_ x => Sys2Proof.Machine.execAnd x s
  | .or_ x => Sys2Proof.Machine.execOr x s
  | .xor_ x => Sys2Proof.Machine.execXor x s
  | .andn x => Sys2Proof.Machine.execAndn x s
  | .orn x => Sys2Proof.Machine.execOrn x s
  | .shl x => Sys2Proof.Machine.execShl x s
  | .shr x => Sys2Proof.Machine.execShr x s
  | .sha x => Sys2Proof.Machine.execSha x s
  | .rol x => Sys2Proof.Machine.execRol x s
  | .min_ x => Sys2Proof.Machine.execMin x s
  | .max_ x => Sys2Proof.Machine.execMax x s
  | .minn x => Sys2Proof.Machine.execMinn x s
  | .maxn x => Sys2Proof.Machine.execMaxn x s
  | .clz x => Sys2Proof.Machine.execClz x s
  | .ctz x => Sys2Proof.Machine.execCtz x s
  | .popc x => Sys2Proof.Machine.execPopc x s
  | .sext x m => Sys2Proof.Machine.execSext x m s
  | .zext x m => Sys2Proof.Machine.execZext x m s
  | .bfx x m => Sys2Proof.Machine.execBfx x m s
  | .bfi x m => Sys2Proof.Machine.execBfi x m s
  | .mov x => Sys2Proof.Machine.execMov x s
  | .liw head d value => Sys2Proof.Machine.execLiw head d value s
  | .lea x m => Sys2Proof.Machine.execLea x m s
  | .cmp x m => Sys2Proof.Machine.execCmp x m s
  | .sel x => Sys2Proof.Machine.execSel x s
  | .fadd x m => Sys2Proof.Machine.execFadd x m s
  | .fsub x m => Sys2Proof.Machine.execFsub x m s
  | .fmul x m => Sys2Proof.Machine.execFmul x m s
  | .ffma x m => Sys2Proof.Machine.execFfma x m s
  | .fmin x => Sys2Proof.Machine.execFmin x s
  | .fmax x => Sys2Proof.Machine.execFmax x s
  | .fcmp x m => Sys2Proof.Machine.execFcmp x m s
  | .fcvti x m => Sys2Proof.Machine.execFcvti x m s
  | .fcvtf x m => Sys2Proof.Machine.execFcvtf x m s
  | .frsqs x => Sys2Proof.Machine.execFrsqs x s
  | .frcps x => Sys2Proof.Machine.execFrcps x s
  | .nop x => Sys2Proof.Machine.execNop x s
  | .pand x => Sys2Proof.Machine.execPand x s
  | .por x => Sys2Proof.Machine.execPor x s
  | .pxor x => Sys2Proof.Machine.execPxor x s
  | .pnot x => Sys2Proof.Machine.execPnot x s
  | .bra x => Sys2Proof.Machine.execBra x s
  | .brx x => Sys2Proof.Machine.execBrx x s
  | .call x => Sys2Proof.Machine.execCall x s
  | .ret x => Sys2Proof.Machine.execRet x s
  | .loop x => Sys2Proof.Machine.execLoop x s
  | .rep x m => Sys2Proof.Machine.execRep x m s
  | .waitc x m => Sys2Proof.Machine.execWaitc x m s
  | .yield x => Sys2Proof.Machine.execYield x s
  | .end_ x => Sys2Proof.Machine.execEnd x s
  | .ld x m => Sys2Proof.Machine.execLd x m s
  | .st x m => Sys2Proof.Machine.execSt x m s
  | .ldp x m => Sys2Proof.Machine.execLdp x m s
  | .aadd x m => Sys2Proof.Machine.execAadd x m s
  | .amin x m => Sys2Proof.Machine.execAmin x m s
  | .amax x m => Sys2Proof.Machine.execAmax x m s
  | .aand x m => Sys2Proof.Machine.execAand x m s
  | .aor x m => Sys2Proof.Machine.execAor x m s
  | .axor x m => Sys2Proof.Machine.execAxor x m s
  | .aswp x m => Sys2Proof.Machine.execAswp x m s
  | .acas x m => Sys2Proof.Machine.execAcas x m s
  | .afadd x m => Sys2Proof.Machine.execAfadd x m s
  | .afmin x m => Sys2Proof.Machine.execAfmin x m s
  | .afmax x m => Sys2Proof.Machine.execAfmax x m s
  | .tred x m => Sys2Proof.Machine.execTred x m s
  | .fence x m => Sys2Proof.Machine.execFence x m s
  | .fencesc x => Sys2Proof.Machine.execFencesc x s
  | .lflush x m => Sys2Proof.Machine.execLflush x m s
  | .linv x m => Sys2Proof.Machine.execLinv x m s
  | .sbind x => Sys2Proof.Machine.execSbind x s
  | .sfree x => Sys2Proof.Machine.execSfree x s
  | .sskip x => Sys2Proof.Machine.execSskip x s
  | .sstat x => Sys2Proof.Machine.execSstat x s
  | .tdef x => Sys2Proof.Machine.execTdef x s
  | .tview x m => Sys2Proof.Machine.execTview x m s
  | .tviewOrigin x => Sys2Proof.Machine.execTviewOrigin x s
  | .tedge x m => Sys2Proof.Machine.execTedge x m s
  | .tinfo x m => Sys2Proof.Machine.execTinfo x m s
  | .bfset x m => Sys2Proof.Machine.execBfset x m s
  | .bfget x m => Sys2Proof.Machine.execBfget x m s
  | .tmov x m => Sys2Proof.Machine.execTmov x m s
  | .tcvt x m => Sys2Proof.Machine.execTcvt x m s
  | .tfill x m => Sys2Proof.Machine.execTfill x m s
  | .tiota x m => Sys2Proof.Machine.execTiota x m s
  | .tadd x m => Sys2Proof.Machine.execTadd x m s
  | .tsub x m => Sys2Proof.Machine.execTsub x m s
  | .tmul x m => Sys2Proof.Machine.execTmul x m s
  | .tfma x m => Sys2Proof.Machine.execTfma x m s
  | .tdiv x m => Sys2Proof.Machine.execTdiv x m s
  | .tmin x m => Sys2Proof.Machine.execTmin x m s
  | .tmax x m => Sys2Proof.Machine.execTmax x m s
  | .tabs x m => Sys2Proof.Machine.execTabs x m s
  | .tclamp x m => Sys2Proof.Machine.execTclamp x m s
  | .tand x m => Sys2Proof.Machine.execTand x m s
  | .tor x m => Sys2Proof.Machine.execTor x m s
  | .txor x m => Sys2Proof.Machine.execTxor x m s
  | .tnot x m => Sys2Proof.Machine.execTnot x m s
  | .tshl x m => Sys2Proof.Machine.execTshl x m s
  | .tshr x m => Sys2Proof.Machine.execTshr x m s
  | .tcmp x m => Sys2Proof.Machine.execTcmp x m s
  | .tsel x m => Sys2Proof.Machine.execTsel x m s
  | .tany x m => Sys2Proof.Machine.execTany x m s
  | .tall x m => Sys2Proof.Machine.execTall x m s
  | .tcnt x m => Sys2Proof.Machine.execTcnt x m s
  | .trsqs x m => Sys2Proof.Machine.execTrsqs x m s
  | .trcps x m => Sys2Proof.Machine.execTrcps x m s
  | .texp2 x m => Sys2Proof.Machine.execTexp2 x m s
  | .tlog2 x m => Sys2Proof.Machine.execTlog2 x m s
  | .trsum x m => Sys2Proof.Machine.execTrsum x m s
  | .tcsum x m => Sys2Proof.Machine.execTcsum x m s
  | .trmax x m => Sys2Proof.Machine.execTrmax x m s
  | .tcmax x m => Sys2Proof.Machine.execTcmax x m s
  | .ttrn x m => Sys2Proof.Machine.execTtrn x m s
  | .tshf x m => Sys2Proof.Machine.execTshf x m s
  | .tbcr x m => Sys2Proof.Machine.execTbcr x m s
  | .tbcc x m => Sys2Proof.Machine.execTbcc x m s
  | .tgath x m => Sys2Proof.Machine.execTgath x m s
  | .tscat x m => Sys2Proof.Machine.execTscat x m s
  | .text x m => Sys2Proof.Machine.execText x m s
  | .tins x m => Sys2Proof.Machine.execTins x m s
  | .tsten x m => Sys2Proof.Machine.execTsten x m s
  | .tquant x m => Sys2Proof.Machine.execTquant x m s
  | .tnrm2 x m => Sys2Proof.Machine.execTnrm2 x m s
  | .trowp x m => Sys2Proof.Machine.execTrowp x m s
  | .oclaim x => Sys2Proof.Machine.execOclaim x s
  | .orel x => Sys2Proof.Machine.execOrel x s
  | .oload x => Sys2Proof.Machine.execOload x s
  | .oloadUnload x => Sys2Proof.Machine.execOloadUnload x s
  | .oinfo x => Sys2Proof.Machine.execOinfo x s
  | .mma x m => Sys2Proof.Machine.execMma x m s
  | .azero x => Sys2Proof.Machine.execAzero x s
  | .acvt x m => Sys2Proof.Machine.execAcvt x m s
  | .aaddt x m => Sys2Proof.Machine.execAaddt x m s
  | .ascl x m => Sys2Proof.Machine.execAscl x m s
  | .xcopy x m => Sys2Proof.Machine.execXcopy x m s
  | .xcopyViewToTile x m => Sys2Proof.Machine.execXcopyViewToTile x m s
  | .xcast x m => Sys2Proof.Machine.execXcast x m s
  | .xlease x m => Sys2Proof.Machine.execXlease x m s
  | .xfree x m => Sys2Proof.Machine.execXfree x m s
  | .xfence x m => Sys2Proof.Machine.execXfence x m s
  | .xwait x => Sys2Proof.Machine.execXwait x s
  | .xstat x => Sys2Proof.Machine.execXstat x s
  | .gtab x m => Sys2Proof.Machine.execGtab x m s
  | .grest x m => Sys2Proof.Machine.execGrest x m s
  | .gprol x m => Sys2Proof.Machine.execGprol x m s
  | .gconv x m => Sys2Proof.Machine.execGconv x m s
  | .gstat x => Sys2Proof.Machine.execGstat x s
  | .ewait x m => Sys2Proof.Machine.execEwait x m s
  | .esig x => Sys2Proof.Machine.execEsig x s
  | .eclr x => Sys2Proof.Machine.execEclr x s
  | .earm x m => Sys2Proof.Machine.execEarm x m s
  | .epost x => Sys2Proof.Machine.execEpost x s
  | .barv x => Sys2Proof.Machine.execBarv x s
  | .barvNb x => Sys2Proof.Machine.execBarvNb x s
  | .barvDrop x => Sys2Proof.Machine.execBarvDrop x s
  | .barvJoin x => Sys2Proof.Machine.execBarvJoin x s
  | .barvTimed x => Sys2Proof.Machine.execBarvTimed x s
  | .bwait x => Sys2Proof.Machine.execBwait x s
  | .mlock x m => Sys2Proof.Machine.execMlock x m s
  | .mtry x => Sys2Proof.Machine.execMtry x s
  | .munl x => Sys2Proof.Machine.execMunl x s
  | .copen x => Sys2Proof.Machine.execCopen x s
  | .cinj x => Sys2Proof.Machine.execCinj x s
  | .cext x => Sys2Proof.Machine.execCext x s
  | .cclose x => Sys2Proof.Machine.execCclose x s
  | .phaseFree x => Sys2Proof.Machine.execPhaseFree x s
  | .phaseTimed x => Sys2Proof.Machine.execPhaseTimed x s
  | .phaseComm x => Sys2Proof.Machine.execPhaseComm x s
  | .send x m => Sys2Proof.Machine.execSend x m s
  | .recv x m => Sys2Proof.Machine.execRecv x m s
  | .cyc x m => Sys2Proof.Machine.execCyc x m s
  | .jpost x => Sys2Proof.Machine.execJpost x s
  | .jtake x => Sys2Proof.Machine.execJtake x s
  | .jdone x => Sys2Proof.Machine.execJdone x s
  | .jcancel x => Sys2Proof.Machine.execJcancel x s
  | .jstat x => Sys2Proof.Machine.execJstat x s
  | .rput x m => Sys2Proof.Machine.execRput x m s
  | .rget x => Sys2Proof.Machine.execRget x s
  | .reos x m => Sys2Proof.Machine.execReos x m s
  | .rstat x => Sys2Proof.Machine.execRstat x s
  | .trap x => Sys2Proof.Machine.execTrap x s
  | .eret x => Sys2Proof.Machine.execEret x s
  | .sysrd x m => Sys2Proof.Machine.execSysrd x m s
  | .aechoRead x => Sys2Proof.Machine.execAechoRead x s
  | .syswr x m => Sys2Proof.Machine.execSyswr x m s
  | .aechoWrite x => Sys2Proof.Machine.execAechoWrite x s
  | .ackpre x => Sys2Proof.Machine.execAckpre x s
  | .start x m => Sys2Proof.Machine.execStart x m s
  | .isfence x => Sys2Proof.Machine.execIsfence x s
  | .bkpt x => Sys2Proof.Machine.execBkpt x s
  | .haltc x => Sys2Proof.Machine.execHaltc x s
  | .vinvPage x => Sys2Proof.Machine.execVinvPage x s
  | .vinvAll x => Sys2Proof.Machine.execVinvAll x s
  | .dflush x => Sys2Proof.Machine.execDflush x s
  | .wordNotInstruction word => Sys2Proof.Machine.execWordNotInstruction word s
  | .atomicEchoReply => Sys2Proof.Machine.execAtomicEchoReply s
  | .pendingCauseService => Sys2Proof.Machine.execPendingCauseService s
  | .timingRollback cond => Sys2Proof.Machine.execTimingRollback cond s
  | .timedRerelease => Sys2Proof.Machine.execTimedRerelease s
  | .timedRegionBase => Sys2Proof.Machine.execTimedRegionBase s
  | .preemptAtRestartPoint => Sys2Proof.Machine.execPreemptAtRestartPoint s
  | .transferCommandStart queue rows => Sys2Proof.Machine.execTransferCommandStart queue rows s
  | .transferCommandCompletion queue => Sys2Proof.Machine.execTransferCommandCompletion queue s
  | .roodCommandStart rows => Sys2Proof.Machine.execRoodCommandStart rows s
  | .roodCommandCompletion queue => Sys2Proof.Machine.execRoodCommandCompletion queue s
  | .streamFill tile => Sys2Proof.Machine.execStreamFill tile s
  | .matrixQueuePerform => Sys2Proof.Machine.execMatrixQueuePerform s
  | .leaseExpiry index => Sys2Proof.Machine.execLeaseExpiry index s
  | .peerWriteArrival k => Sys2Proof.Machine.execPeerWriteArrival k s
  | .accessAtHome k => Sys2Proof.Machine.execAccessAtHome k s
  | .accessResponseArrival k => Sys2Proof.Machine.execAccessResponseArrival k s
  | .atomicResponseLost => Sys2Proof.Machine.execAtomicResponseLost s
  | .scTickCompletion => Sys2Proof.Machine.execScTickCompletion s
  | .pageWalk va => Sys2Proof.Machine.execPageWalk va s
  | .collapseSequence va => Sys2Proof.Machine.execCollapseSequence va s
  | .raceRecordSweep => Sys2Proof.Machine.execRaceRecordSweep s
  | .chainNodeCombine node id chunk => Sys2Proof.Machine.execChainNodeCombine node id chunk s
  | .staticFlitArrival discarded => Sys2Proof.Machine.execStaticFlitArrival discarded s
  | .linkRetry die port => Sys2Proof.Machine.execLinkRetry die port s
  | .bondDeath die port => Sys2Proof.Machine.execBondDeath die port s
  | .startDelivery k => Sys2Proof.Machine.execStartDelivery k s
  | .dispatchRequest field => Sys2Proof.Machine.execDispatchRequest field s
  | .cardPromotion field serial => Sys2Proof.Machine.execCardPromotion field serial s
  | .dependenceRead field serial => Sys2Proof.Machine.execDependenceRead field serial s
  | .tumblerScan ctx => Sys2Proof.Machine.execTumblerScan ctx s
  | .fdefCreate index word0 creator => Sys2Proof.Machine.execFdefCreate index word0 creator s
  | .fdefCreateRestore index word0 creator => Sys2Proof.Machine.execFdefCreateRestore index word0 creator s
  | .fdefDelete index => Sys2Proof.Machine.execFdefDelete index s
  | .fcmdPreempt field word => Sys2Proof.Machine.execFcmdPreempt field word s
  | .preemptCopy field => Sys2Proof.Machine.execPreemptCopy field s
  | .preemptTimeout field => Sys2Proof.Machine.execPreemptTimeout field s
  | .fcmdRestore field word => Sys2Proof.Machine.execFcmdRestore field word s
  | .fcmdKill field word => Sys2Proof.Machine.execFcmdKill field word s
  | .powerFail => Sys2Proof.Machine.execPowerFail s
  | .powerReturn => Sys2Proof.Machine.execPowerReturn s
  | .powerOn => Sys2Proof.Machine.execPowerOn s
  | .moduleReset => Sys2Proof.Machine.execModuleReset s
  | .rootVerify die accepted => Sys2Proof.Machine.execRootVerify die accepted s
  | .wavefrontArrival die port root => Sys2Proof.Machine.execWavefrontArrival die port root s
  | .clockRootAdopt die => Sys2Proof.Machine.execClockRootAdopt die s
  | .clockLock die => Sys2Proof.Machine.execClockLock die s
  | .bondTrainingDone die port trained => Sys2Proof.Machine.execBondTrainingDone die port trained s
  | .partnerLockTimeout die port => Sys2Proof.Machine.execPartnerLockTimeout die port s
  | .identRecord die selfTest => Sys2Proof.Machine.execIdentRecord die selfTest s
  | .masterCollectionEnd => Sys2Proof.Machine.execMasterCollectionEnd s
  | .masterTableWrite fence => Sys2Proof.Machine.execMasterTableWrite fence s
  | .go => Sys2Proof.Machine.execGo s
  | .fenceCommand die => Sys2Proof.Machine.execFenceCommand die s
  | .routerFault die => Sys2Proof.Machine.execRouterFault die s
  | .evacuation die readable => Sys2Proof.Machine.execEvacuation die readable s
  | .hpctxPost endpoint hpaddr hpctx => Sys2Proof.Machine.execHpctxPost endpoint hpaddr hpctx s
  | .semAcquire endpoint sem tie => Sys2Proof.Machine.execSemAcquire endpoint sem tie s
  | .semRelease endpoint sem value => Sys2Proof.Machine.execSemRelease endpoint sem value s
  | .dqtailWrite endpoint value => Sys2Proof.Machine.execDqtailWrite endpoint value s
  | .dqctlWrite endpoint value => Sys2Proof.Machine.execDqctlWrite endpoint value s
  | .hostDmaDescriptorStart endpoint => Sys2Proof.Machine.execHostDmaDescriptorStart endpoint s
  | .hostDmaDescriptorDone endpoint busError => Sys2Proof.Machine.execHostDmaDescriptorDone endpoint busError s
  | .hostBar4Access endpoint address write bytes => Sys2Proof.Machine.execHostBar4Access endpoint address write bytes s
  | .endpointLinkDown endpoint => Sys2Proof.Machine.execEndpointLinkDown endpoint s
  | .attestStart endpoint address => Sys2Proof.Machine.execAttestStart endpoint address s
  | .attestReportDone endpoint busError => Sys2Proof.Machine.execAttestReportDone endpoint busError s
  | .nselWrite die dest value => Sys2Proof.Machine.execNselWrite die dest value s
  | .rteWrite die route value => Sys2Proof.Machine.execRteWrite die route value s
  | .trootWrite die value => Sys2Proof.Machine.execTrootWrite die value s
  | .windowWrite die cxl index word value => Sys2Proof.Machine.execWindowWrite die cxl index word value s
  | .mcattWrite die value => Sys2Proof.Machine.execMcattWrite die value s
  | .dsetWrite field value => Sys2Proof.Machine.execDsetWrite field value s
  | .rpctlWrite field value => Sys2Proof.Machine.execRpctlWrite field value s
  | .replayDivergence field => Sys2Proof.Machine.execReplayDivergence field s
  | .configRegisterWrite target offset width value => Sys2Proof.Machine.execConfigRegisterWrite target offset width value s
  | .firmwareUpdate image verified => Sys2Proof.Machine.execFirmwareUpdate image verified s
  | .recoveryImageWrite image verified => Sys2Proof.Machine.execRecoveryImageWrite image verified s
  | .powerThrottle => Sys2Proof.Machine.execPowerThrottle s
  | .holdupEnergyExhausted field => Sys2Proof.Machine.execHoldupEnergyExhausted field s

end Sys2Proof.Machine
end

