-- ==== Sys2Proof/Machine/Policy.lean ====
section
/-!
DEFINITION. Which agent moves next (log entries 2 and 9): the agenda first; in a timed region of the focused core whatever
its field does earliest (spec/01 R17, spec/08 R154); otherwise one of the things that can happen, by a free choice. The focus
comes round to every core (spec/01 R23, R26).
-/

namespace Sys2Proof.Machine

/-- What the next step does: an instruction or event at a state, a settled state, or a fault. -/
inductive Plan where
  | run (i : Instr) (s : State)
  | settle (s : State)
  | stop (f : Fault)
  deriving DecidableEq, Repr

/-- The constructors that are events, not instruction words. -/
def Instr.isEvent (i : Instr) : Bool :=
  match i with
  | .atomicEchoReply => true
  | .pendingCauseService => true
  | .timingRollback _ => true
  | .timedRerelease => true
  | .timedRegionBase => true
  | .preemptAtRestartPoint => true
  | .transferCommandStart _ _ => true
  | .transferCommandCompletion _ => true
  | .roodCommandStart _ => true
  | .roodCommandCompletion _ => true
  | .streamFill _ => true
  | .matrixQueuePerform => true
  | .leaseExpiry _ => true
  | .peerWriteArrival _ => true
  | .accessAtHome _ => true
  | .accessResponseArrival _ => true
  | .atomicResponseLost => true
  | .scTickCompletion => true
  | .pageWalk _ => true
  | .collapseSequence _ => true
  | .raceRecordSweep => true
  | .chainNodeCombine _ _ _ => true
  | .staticFlitArrival _ => true
  | .linkRetry _ _ => true
  | .bondDeath _ _ => true
  | .startDelivery _ => true
  | .dispatchRequest _ => true
  | .cardPromotion _ _ => true
  | .dependenceRead _ _ => true
  | .tumblerScan _ => true
  | .fdefCreate _ _ _ => true
  | .fdefCreateRestore _ _ _ => true
  | .fdefDelete _ => true
  | .fcmdPreempt _ _ => true
  | .preemptCopy _ => true
  | .preemptTimeout _ => true
  | .fcmdRestore _ _ => true
  | .fcmdKill _ _ => true
  | .powerFail => true
  | .powerReturn => true
  | .powerOn => true
  | .moduleReset => true
  | .rootVerify _ _ => true
  | .wavefrontArrival _ _ _ => true
  | .clockRootAdopt _ => true
  | .clockLock _ => true
  | .bondTrainingDone _ _ _ => true
  | .partnerLockTimeout _ _ => true
  | .identRecord _ _ => true
  | .masterCollectionEnd => true
  | .masterTableWrite _ => true
  | .go => true
  | .fenceCommand _ => true
  | .routerFault _ => true
  | .evacuation _ _ => true
  | .hpctxPost _ _ _ => true
  | .semAcquire _ _ _ => true
  | .semRelease _ _ _ => true
  | .dqtailWrite _ _ => true
  | .dqctlWrite _ _ => true
  | .hostDmaDescriptorStart _ => true
  | .hostDmaDescriptorDone _ _ => true
  | .hostBar4Access _ _ _ _ => true
  | .endpointLinkDown _ => true
  | .attestStart _ _ => true
  | .attestReportDone _ _ => true
  | .nselWrite _ _ _ => true
  | .rteWrite _ _ _ => true
  | .trootWrite _ _ => true
  | .windowWrite _ _ _ _ _ => true
  | .mcattWrite _ _ => true
  | .dsetWrite _ _ => true
  | .rpctlWrite _ _ => true
  | .replayDivergence _ => true
  | .configRegisterWrite _ _ _ _ => true
  | .firmwareUpdate _ _ => true
  | .recoveryImageWrite _ _ => true
  | .powerThrottle => true
  | .holdupEnergyExhausted _ => true
  | _ => false

/-! ## Issue -/

/-- OP values that are no instructions on a memory core (spec/06 R137). -/
def matrixOp (w : InstrWord) : Bool :=
  let n := (w.extractLsb' 86 10).toNat
  decide (0x300 ≤ n ∧ n ≤ 0x308) || decide (0x347 ≤ n ∧ n ≤ 0x34B)

/-- Where the instructions of the focused core's gang, or of the core, stop for a PREEMPT that arrives within them. -/
def State.limitRows (s : State) (n : Option Nat) : State :=
  s.unit.foldl (fun (s : State) (k : Core) => s.onCore k.die k.num fun c => { c with rowLimit := n }) s

/-- The focused core fetches and issues (spec/07 R140, R152). -/
def State.issueWithin (s : State) (rows : Option Nat) : Plan :=
  let (t, w) := (s.limitRows rows).fetch
  match decode w with
  | .ok i => .run i t
  | .error _ => .settle (t.refuseWord (if t.core.memc && matrixOp w then illegalOp else reservedField) (headOf w))

def State.issuePlan (s : State) : Plan := s.issueWithin none

/-- The wait leaves nothing to issue before its event. -/
def Wait.held (w : Wait) : Bool :=
  match w with
  | .collapse _ => true
  | .scTick _ => true
  | .release => true
  | _ => false

/-! ## A gang in a timed region (spec/01 R12) -/

/-- The word a follower copies next: its leader's, at its own place in the stream. -/
def State.followWord (s : State) : InstrWord :=
  wordOfBytes (Mem.getBytes s.leader.istore (12 * s.core.pc.toNat) 12)

/-- The focused core, a follower, makes the next of the copies it owes, on its own cycle. -/
def State.copyPlan (s : State) : Plan :=
  match decode s.followWord with
  | .ok i => .run i (s.modC fun c => { c with solo := true })
  | .error _ => .settle (s.modC fun c => { c with lag := c.lag.tail })

/-- Some member has still to copy what its leader has issued. -/
def State.lagging (s : State) : Bool := s.unit.any fun c => !c.lag.isEmpty

/-- All such copies, made at once, to judge an instruction before its cycle. -/
def State.catchUp (fuel : Nat) (s : State) : State :=
  match fuel with
  | 0 => s
  | n + 1 => match s.unit.find? fun c => !c.lag.isEmpty with
    | none => s
    | some c => match (s.focus c.die c.num).copyPlan with
      | .run i t => match exec i t with
        | .next u => State.catchUp n (u.focus s.core.die s.core.num)
        | _ => s
      | .settle t => State.catchUp n (t.focus s.core.die s.core.num)
      | .stop _ => s

/-- Some member of the focused core's gang has trapped or been killed in the state after. -/
def State.trapsIn (s t : State) : Bool :=
  s.unit.any fun c => (t.find c.die c.num).any fun k => (k.handler && !c.handler) || k.run != c.run

/-- What the leader of a gang, in focus, does on its cycle: its own copy; or, where any member would trap, the whole gang's, once
every member stands before it (R13). None while some do not. -/
def State.leadPlan (s : State) : Option Plan :=
  match s.issuePlan with
  | .run i t =>
    let u := t.catchUp 64
    let trap := match exec i u with
      | .next v => u.trapsIn v
      | _ => true
    if trap then (if s.lagging then none else some (.run i t)) else some (.run i (t.modC fun c => { c with solo := true }))
  | p => if s.lagging then none else some p

/-- The focused core may issue: it runs, leads its gang if it has one, is in no timed region, has no cause to serve and no
wait that an event must end first. -/
def State.canIssue (s : State) : Bool :=
  s.modState.powered && !s.follower && s.core.run == .running && !s.core.timed.active && s.pendingService.isNone
    && !s.unit.any fun c => c.wait.held

/-! ## The agenda -/

/-- An entry of the agenda, taken off it. -/
def State.take (s : State) (t : Turn) : Plan :=
  match t with
  | .focus die num => .settle (s.focus die num)
  | .issue => if s.canIssue then s.issuePlan else .settle s
  | .event i => if Instr.isEvent i then .run i s else .settle s
  | .pass c r => .settle ({ s with cyc := s.cyc + c }.passRef r)
  | .loadLost => .settle { s with lossLoad := true }
  | .podArrival ctx num => .settle (s.podArrive ctx num)
  | .upset piece => .settle ({ s with poison := if s.poison.contains piece then s.poison else piece :: s.poison }.countError
      (stackDie (piece * 64)) 6 false)
  | .upsetLocal die num word => .settle ((s.onCore die num fun c =>
      { c with lsBad := if c.lsBad.contains word then c.lsBad else word :: c.lsBad }).countError die 0 false)
  | .flipLocal die num word => .settle ((s.onCore die num fun c =>
      { c with lsWeak := if c.lsWeak.contains word || c.lsBad.contains word then c.lsWeak else word :: c.lsWeak }).countError die 0 true)
  | .shape field entry sec => .settle (s.setField field
      { s.fieldAt field with shapes := assign (s.fieldAt field).shapes entry sec })
  | .place die num offset bytes => .settle (s.placeBytes die num offset bytes)
  | .routes field records => .settle (s.loadRoutes field records)
  | .nsel => .settle (if s.modState.nselDue then s.renewNsel else s)
  | .configRead target offset width => .settle (s.configRead target offset width)

/-! ## What can happen at a core -/

/-- The event that performs store k. -/
def storeEvent (t : Store) (k : Nat) : Instr :=
  if t.kind.isStart then .startDelivery k
  else if t.space == 2#3 || t.space == 3#3 || t.space == 5#3 then .peerWriteArrival k
  else .accessAtHome k

/-- Queues whose head, a command of a free phase, may move. -/
def Core.looseQueues (c : Core) : List Nat :=
  (List.range 4).filter fun q => match c.readyHead q with
    | some t => !t.timed
    | none => false

/-- The steps without a cycle of their own that the engines, the stores and the responses of the focused core are ready for. -/
def State.coreEvents (s : State) : List Instr :=
  let c := s.core
  (if c.matrixReady then [.matrixQueuePerform] else [])
    ++ ((List.range c.stores.length).filter s.storeReady).filterMap (fun k => (c.stores[k]?).map fun t => storeEvent t k)
    ++ (List.range c.acks.length).map (fun k => Instr.accessResponseArrival k)
    ++ (if echoStat c.sys.alost == 1 then [.atomicEchoReply] else [])
    ++ (c.streams.filter fun (t : Stream) => c.fills && t.fillable && !c.timed.active).map (fun (t : Stream) => Instr.streamFill t.tile)
    ++ c.looseQueues.map (fun q => Instr.transferCommandStart (BitVec.ofNat 2 q) 1)
    ++ ((List.range 4).filter fun q => (s.completable q).any fun t => !t.timed).map (fun q => Instr.transferCommandCompletion (BitVec.ofNat 2 q))
    ++ ((List.range 4).filter fun q => match (c.gq[q]?.getD []).head? with
        | some t => t.done && !t.timed
        | none => false).map (fun q => Instr.roodCommandCompletion (BitVec.ofNat 2 q))

/-- Chunks that a node of the focused core's context may combine. -/
def State.chainEvents (s : State) : List Instr :=
  let s := s.settleChain
  (s.colls.filter fun k => k.ctx == s.core.ctx).flatMap fun k =>
    (((k.parts.map fun x => (x.node, x.chunk)).eraseDups).filter fun x => s.combinable k x.1 x.2).map
      fun x => Instr.chainNodeCombine x.1 k.id x.2

/-- The command the engine of a die serves next. -/
def State.roodTurn (s : State) (die : Nat) : Option Rood :=
  (s.roodNext die).bind fun p => (s.find die p.1).bind fun k => k.roodHead p.2

/-- The engine of the focused core's die may serve a command of a free phase. -/
def State.roodEvents (s : State) : List Instr :=
  match s.roodTurn s.core.die with
  | some t => if t.timed then [] else [.roodCommandStart 0]
  | none => []

/-- What the anchor die of the focused core's field, and the Tumbler of its context, are ready for. -/
def State.fieldEvents (s : State) : List Instr :=
  match s.core.field with
  | none => []
  | some i =>
    let f := s.fieldAt i
    let c := s.core
    (if f.stat == .preempting && s.allAcked i then [.preemptCopy i] else [])
      ++ (if f.stat == .preempting && ptmo f.fcmd != 0 && decide (f.since + ptmo f.fcmd ≤ s.tick) then [.preemptTimeout i] else [])
      ++ (if f.stat == .running then
            ((f.cards.filter fun d => d.inSlot && decide (d.level < 7) && d.due.isNone && decide (d.since + 2 ^ 20 ≤ s.cyc)).map
                fun d => Instr.cardPromotion i d.serial)
              ++ ((f.cards.filter fun d => d.depAddr != 0#64 && !d.depDone && decide (d.depTick < s.tick)).map
                fun d => Instr.dependenceRead i d.serial)
          else [])
      ++ (if decide (((s.tumbler.find? fun x => x.ctx == c.ctx).map Scan.edge).getD 0 < s.tick / 16) then [.tumblerScan c.ctx] else [])

/-- What the controllers of the package end by themselves: a copy of a field's blocks, the renewal of NSEL, the writing of an image
slot by slot. -/
def State.packagePlans (s : State) : List Plan :=
  ((List.range 16).filterMap fun i => match (s.fieldAt i).stat with
    | .copying => some (.settle (s.finishCopy i))
    | .restoring => some (.settle (s.finishRestore i))
    | _ => none)
  ++ (if s.modState.nselDue then [.settle s.renewNsel] else [])
  ++ (if s.modState.update.isSome && s.modState.powered && !s.modState.holdup then [.settle s.writeNextSlot] else [])

/-- The end of the wait that the focused core is in, where an event ends it. -/
def State.waitEvents (s : State) : List Instr :=
  match s.core.wait with
  | .collapse va => [.collapseSequence va]
  | .scTick _ => if s.tickDue.isSome then [.scTickCompletion] else []
  | .release =>
    (if s.releaseReady true && !(s.fieldAt (s.core.field.getD 16)).noTimed then [.timedRegionBase] else [])
      ++ (if s.releaseReady false then [.timedRerelease] else [])
  | _ => []

/-- The members of the focused core's gang, or the core, each with what can happen at it. -/
def State.unitEvents (s : State) : List Plan :=
  s.unit.flatMap fun c =>
    let t := s.focus c.die c.num
    (t.waitEvents ++ t.coreEvents).map fun i => Plan.run i t

/-- What can happen around the focused core. -/
def State.aroundEvents (s : State) : List Plan :=
  ((s.chainEvents ++ s.roodEvents ++ s.fieldEvents).map fun i => Plan.run i s) ++ s.packagePlans

/-- A GLOBAL race record may be lost with its tags (spec/04 R87). -/
def State.evictions (s : State) : List Plan :=
  match s.race.filter fun r => match r.1 with
      | .global _ => true
      | .localStore _ _ => false with
  | [] => []
  | rs => match rs[Config.turn s.free % rs.length]? with
    | some r => [.settle { s with race := s.race.erase r, free := s.free + 1 }]
    | none => []

/-! ## What is due on a cycle (spec/08 R154 to R167) -/

/-- A thing due at a cycle: the cycle, the order within it, the plan. -/
abbrev Due := Nat × Nat × Plan

/-- The earlier of two. -/
def Due.first (b : Option Due) (d : Due) : Option Due :=
  match b with
  | none => some d
  | some e => if d.1 < e.1 ∨ (d.1 = e.1 ∧ d.2.1 < e.2.1) then some d else some e

/-! ## Beats of tile instructions (spec/08 R156) -/

/-- A core with nothing but a tile instruction as it issued and the bytes that its beats have read. -/
def Core.bare (c : Core) (w : Work) : Core :=
  { c with
    regs := w.regs, preds := w.preds, q := w.q, tiles := w.tiles, bfmt := w.bfmt, streams := [], mq := [], xq := Vector.replicate 4 []
    gq := Vector.replicate 4 [], owed := [], lsBad := [], lsWeak := [], stores := [], works := [], lag := [], solo := false, skip := false
    rowLimit := none, run := .running, wait := .none, wake := none, holdUntil := 0, preemptPend := false, board := Board.reset
    timed := { c.timed with active := false, leaving := false }
    sys := { c.sys with repst := w.repst, tprog := w.tprog, mode := setBits c.sys.mode 2 2 0 } }.withRead w.got

/-- What the instruction makes of them, all at once. -/
def State.outcome (s : State) (w : Work) : Core :=
  match exec w.instr { s with core := s.core.bare w, others := [], race := [], free := w.free } with
  | .next t => t.core
  | _ => s.core.bare w

/-- The instruction leaves elements of D as they are. -/
def Work.keeps (w : Work) : Bool :=
  match w.instr with
  | .tsel _ _ => true
  | .tscat _ _ => true
  | _ => false

/-- One beat of a destination is written, with what `u` holds there; `v` is what stood before. -/
def Core.writeBeat (c : Core) (w : Work) (v u : Core) (t : Touch) : Core :=
  let d := t.view
  let at' := fun (k : Core) (p : Nat × Nat) => k.code d.fmt (recBase d.shape) (d.index p.1 p.2)
  (t.cells.filter fun p => d.valid p.1 p.2 && !(w.keeps && at' u p == at' v p)).foldl
    (fun (c : Core) p => c.putElem d p.1 p.2 (at' u p)) c

/-- SATS, and the SCALE that TQUANT sets, after the last beat. -/
def Core.takeBanks (c : Core) (w : Work) (u : Core) : Core :=
  (List.range 16).foldl (fun (c : Core) (b : Nat) =>
    let old := w.bfmt[b]?.getD 0#32
    let new := u.bank b
    if old = new then c else c.setBank b ((c.bank b &&& ~~~(new ^^^ old)) ||| (new &&& (new ^^^ old)))) c

/-- The reads of one cycle: a word that must be corrected is condition 3 in the region; an uncorrectable one ends the instruction
there, with a deferred ECC_UNCORR (log entry 88). -/
def State.readBeats (s : State) (n cycle : Nat) (w : Work) : State :=
  let now := w.reads.filter fun t => t.cycle == cycle
  let later := w.reads.filter fun t => t.cycle != cycle
  let spans := now.flatMap Touch.spans
  let put := fun (s : State) (w : Work) => s.modC fun c => { c with works := c.works.set n w }
  match spans.findSome? fun p => s.core.lsBadAt p.1 p.2 with
  | some a => (put s { w with reads := [], writes := w.writes.filter fun t => decide (t.cycle < cycle + 6), result := none }).modC fun c =>
      c.deferEcc c.handler a
  | none =>
    let t := put s { w with reads := later, got := w.got ++ now.flatMap s.core.fetchBeat }
    match spans.find? fun p => s.core.weakAt p.1 p.2 with
    | some _ =>
      let u := t.modC fun c => spans.foldl (fun (c : Core) p => c.correct p.1 p.2) c
      if s.core.timed.active then u.rollback 3 else u
    | none => t

/-- The next beat, or the scalar result, of a tile instruction of the focused core. -/
def State.workStep (s : State) (n : Nat) : State :=
  match s.core.works[n]? with
  | none => s
  | some w => match w.next with
    | none => s.modC fun c => { c with works := c.works.eraseIdx n }
    | some (cycle, order) =>
      let s := s.reachCycle cycle
      let t := if order = 2 then s.readBeats n cycle w
        else
          let u := s.outcome w
          let left := if order = 4 then { w with writes := w.writes.filter fun t => t.cycle != cycle } else { w with result := none }
          s.modC fun c =>
            let c := { c with works := c.works.set n left }
            if order = 4 then
              let c := (w.writes.filter fun t => t.cycle == cycle).foldl (fun (c : Core) t => c.writeBeat w (s.core.bare w) u t) c
              if left.writes.isEmpty then c.takeBanks w u else c
            else match w.result with
              | some (p, at') => c.deliverResult p at' u
              | none => c
      t.modC fun c => { c with works := c.works.filter fun w => w.next.isSome }

/-- What the units of a core do on cycles of their own: a condition of R161 that an access meets, lines of SEND, RECV and of
timed commands, ends of timed Rood commands, a receive buffer that overflows. -/
def State.unitDues (s : State) (c : Core) : List Due :=
  let t := s.focus c.die c.num
  (match c.board.doom with
    | some (cycle, code) => if c.timed.active then [(cycle, 1, Plan.settle ((t.reachCycle cycle).rollback code))] else []
    | none => [])
    ++ ((List.range 4).filterMap fun q => (c.timedNext q).map fun h =>
        (h.start + h.rows, 2, .run (.transferCommandStart (BitVec.ofNat 2 q) 1) t))
    ++ ((List.range 4).filterMap fun q => match (c.gq[q]?.getD []).head? with
        | some h => if h.done && h.timed then some (h.finish, 1, .run (.roodCommandCompletion (BitVec.ofNat 2 q)) t) else none
        | none => none)
    ++ ((List.range c.works.length).filterMap fun n => (c.works[n]?.bind Work.next).map fun e => (e.1, e.2, .settle (t.workStep n)))
    ++ (match c.matrixNext with
      | some (_, e) => [(e.time.1, e.time.2, .run .matrixQueuePerform t)]
      | none => [])
    ++ ((List.range 4).filterMap fun q => match t.completable q with
        | some h => if h.timed then some (h.finish, 1, .run (.transferCommandCompletion (BitVec.ofNat 2 q)) t) else none
        | none => none)
    ++ (match c.nextLane with
      | some l => [(l.time.1, l.time.2, .settle (t.laneStep l))]
      | none => [])
    ++ (match c.overflow with
      | some f => [(f.due, 5, .settle (t.overflowStep f))]
      | none => [])

/-- What a core in a timed region issues next, and when: itself, as the leader of a gang, or a copy that it owes; a core that
leaves the region issues nothing. -/
def State.regionDues (s : State) (c : Core) : List Due :=
  let t := s.focus c.die c.num
  let here := c.is s.core.die s.core.num
  let at' := fun (w : InstrWord) (p : Plan) => ((c.issueCycle (headOf w) + c.fbase).toNat, 3, if here then p else .settle t)
  if c.timed.leaving then [(c.holdUntil, 1, .settle ((t.reachCycle c.holdUntil).modC Core.leaveRegion))]
  else if c.ganged && c.rank != 0 then (if c.lag.isEmpty then [] else [at' t.followWord t.copyPlan])
  else
    let w := wordOfBytes (Mem.getBytes c.istore (12 * c.pc.toNat) 12)
    if !c.ganged then [at' w t.issuePlan]
    else if t.pendingService.isSome then []
    else match t.leadPlan with
      | some p => [at' w p]
      | none => []

/-- The core takes part in a running timed region. -/
def Core.inRegion (c : Core) : Bool := c.timed.active && c.wait != .release

/-- What the focused core's field does earliest: arrivals before what issues in a cycle, copies written on the cycle after they
arrive (R165, spec/14 R270). -/
def State.nextDue (s : State) : Option Due :=
  let cs := s.cores.filter fun c => c.field == s.core.field && !c.memc && c.run != .killed
  let rood := ((cs.map Core.die).eraseDups).filterMap fun die => (s.roodTurn die).bind fun h =>
    if h.timed then (cs.find? fun c => c.die == die).map fun c =>
      (h.start, 2, Plan.run (.roodCommandStart 0) (s.focus c.die c.num)) else none
  let flit := match s.nextFlit with
    | some f => [(f.time.1, f.time.2, Plan.run (.staticFlitArrival false) s)]
    | none => []
  (flit ++ rood ++ cs.flatMap fun c => s.unitDues c ++ if c.inRegion then s.regionDues c else []).foldl Due.first none

/-- Something with a cycle of its own is left at a core that has left its region. -/
def State.entangled (s : State) (c : Core) : Bool :=
  decide (s.cyc < c.holdUntil) || !c.works.isEmpty || (c.mq.any fun e => e.due != 0) || !c.lanes.isEmpty || c.overflow.isSome || c.xq.any (fun q => q.any fun t => t.timed)
    || c.gq.any (fun q => q.any fun t => t.timed)
    || s.flits.any fun f => f.src == c.die * 8 + c.num || (f.die == c.die && f.core == c.num)

/-- Such a thing, where it is due before the core can go on; what a gang's members owe comes first. -/
def State.dueFirst (s : State) : Option Plan :=
  if s.lagging then s.nextDue.map fun d => d.2.2
  else if s.unit.any s.entangled then
    s.nextDue.bind fun d => if d.1 ≤ s.unit.foldl (fun (n : Nat) (c : Core) => max n c.holdUntil) s.cyc then some d.2.2 else none
  else none

/-! ## The core's own move -/

/-- Nothing but the passing of time ends a wait for a cycle. -/
def State.awaitCycle (s : State) : State :=
  match s.core.wait with
  | .cycle t => s.reachCycle (t + s.core.fbase.toNat - 1)
  | .pause t => s.reachCycle (t + s.core.fbase.toNat - 1)
  | _ => s

/-- A PREEMPT may have arrived within the next instruction: one that is row-resumable then stops between two rows (spec/02
R49, log entry 22). -/
def State.withinRows (s : State) : List Plan :=
  if s.core.run == .running && s.unit.all fun c => c.preemptPend && c.wait == .none && c.rowLimit.isNone && !c.handler then
    match s.pendingService with
    | some (_, .trap e) =>
      if e.code == preemptCause then
        [State.issueWithin { s with free := s.free + 1 } (some (Config.turn s.free + 1))] else []
    | _ => []
  else []

/-- The core's own next move: a pending cause, an idle request, or the next instruction. -/
def State.ownMove (s : State) : List Plan :=
  if s.pendingService.isSome then .run .pendingCauseService s :: s.withinRows
  else match s.core.run with
    | .running => if s.follower || s.unit.any fun c => c.wait.held then [] else [s.issuePlan]
    | .idle => (match s.core.field with
        | some i => [.run (.dispatchRequest i) { s with cyc := s.cyc + 1 }]
        | none => [])
    | _ => []

/-- Another core takes the focus while this one waits or does not run. -/
def State.yieldFocus (s : State) : List Plan :=
  if s.core.run == .running && s.core.wait == .none then []
  else match s.others[Config.turn s.free % s.others.length]? with
    | some c => [.settle { s.focus c.die c.num with free := s.free + 1 }]
    | none => []

/-- A free choice among plans; one alone needs none; with none, time passes. -/
def State.choose (s : State) (ps : List Plan) : Plan :=
  match ps with
  | [] => .settle { s with cyc := s.cyc + 1 }
  | [p] => p
  | _ => match ps[Config.turn s.free % ps.length]? with
    | some (.run i t) => .run i { t with free := t.free + 1 }
    | some p => p
    | none => .settle s

/-- The steps of a round at one core: the focus comes, its own moves have their turn, and free choices follow. -/
def roundLength : Nat := Config.patience + 6

/-- One of a list, another at each visit of the core. -/
def State.inTurn (s : State) (ps : List Plan) : Option Plan :=
  ps[s.stint / roundLength / s.cores.length % ps.length]?

/-- Each way of going on has its turn at every core, whatever is chosen elsewhere (spec/01 R23, R26). -/
def State.turnOf (s : State) (k : Nat) : Option Plan :=
  match k with
  | 1 => s.ownMove.head?
  | 2 => s.inTurn s.unitEvents
  | 3 => s.inTurn s.aroundEvents
  | 4 => s.inTurn ((s.fieldEvents.map fun i => Plan.run i s) ++ s.packagePlans)
  | _ => none

/-- The focused core in a free phase, at step k of its round. -/
def State.freePlan (s : State) (k : Nat) : Plan :=
  match s.leases.find? fun l => l.ctx == s.core.ctx && decide (l.endTick ≤ s.tick) with
  | some l => .run (.leaseExpiry l.index) s
  | none => match s.dueFirst with
    | some p => p
    | none => match s.turnOf k with
      | some p => p
      | none =>
        let events := s.unitEvents ++ s.aroundEvents
        let s' := if events.isEmpty then s.awaitCycle else s
        s.choose (events ++ s'.ownMove ++ s.evictions ++ s.yieldFocus)

/-! ## Timed regions -/

/-- What the engines and the stores of the region's cores are ready for, with no cycle of its own. -/
def State.looseEvents (s : State) : List Plan :=
  (s.regionCores.filter Core.inRegion).flatMap fun c =>
    let t := s.focus c.die c.num
    (t.coreEvents ++ t.roodEvents).map fun i => Plan.run i t

/-- What the field of the focused core does earliest, or something that no cycle is fixed for: each in turn, else by a free
choice. -/
def State.timedPlan (s : State) (k : Nat) : Plan :=
  let t := { s with free := s.free + 1 }
  let due := match t.nextDue with
    | some d => d.2.2
    | none => .settle { t with cyc := t.cyc + 1 }
  let loose := t.looseEvents
  if loose.isEmpty || k = 1 then due
  else if k = 2 then (t.inTurn loose).getD due
  else if Config.turn s.free % 2 = 0 then t.choose loose else due

/-! ## Statistics (spec/23 R402) -/

/-- A core that is clock-gated: halted, acknowledged, or in one of the waits of spec/01 R23, in a gang also for the other members. -/
def Core.gated (c : Core) : Bool :=
  match c.run with
  | .halted => true
  | .acked => true
  | .running => (c.wake.isNone || c.ganged) && (match c.wait with
    | .line _ _ => true
    | .barrier => true
    | .mutex _ => true
    | .engine => true
    | .chain _ => true
    | .ringPut _ _ => true
    | .ringGet _ => true
    | _ => false)
  | _ => false

/-- The cycles that a step took, counted at the dies of a field's cores that were clock-gated, or idle and waiting for a chunk (log
entry 46). -/
def State.countWaits (s t : State) : State :=
  let n := t.cyc - s.cyc
  if n = 0 then t
  else s.cores.foldl (fun (t : State) (c : Core) =>
    if c.field.isNone || c.memc then t
    else if c.gated then t.countStat c.die 2 n
    else if c.run == .idle then t.countStat c.die 3 n
    else t) t

/-- What a step answers, with its cycles counted. -/
def State.counted (s : State) (o : Out) : Out :=
  match o with
  | .next t => .next (s.countWaits t)
  | o => o

/-! ## The next step -/

/-- The core with so many others before it in the order of dies and numbers. -/
def State.nthCore (s : State) (n : Nat) : Option Core :=
  s.cores.find? fun c => (s.cores.filter fun k => k.die * 8 + k.num < c.die * 8 + c.num).length == n

/-- What the focused core, its gang or its region does, at step k of its round. -/
def State.corePlan (s : State) (k : Nat) : Plan :=
  if s.core.run == .running && s.core.inRegion && (s.lagging || s.pendingService.isNone) then s.timedPlan k
  else if s.follower then (match (s.gang s.core).head? with
    | some c => if c.is s.core.die s.core.num then s.freePlan k else .settle (s.focus c.die c.num)
    | none => s.freePlan k)
  else s.freePlan k

/-- The plan of the next step; every round the focus goes to the next core. -/
def State.plan (s : State) : Plan :=
  match s.agenda with
  | t :: rest => if s.modState.powered || t == .event .powerOn then State.take { s with agenda := rest } t
    else .settle { s with agenda := rest }
  | [] =>
    if !s.modState.powered then .stop .unpowered
    else
      let k := s.stint % roundLength
      let t := { s with stint := s.stint + 1 }
      if k = 0 then
        match s.nthCore (s.stint / roundLength % s.cores.length) with
        | some c => .settle (t.focus c.die c.num)
        | none => .settle t
      else t.corePlan k

end Sys2Proof.Machine
end

