-- ==== Sys2Proof/Machine/Step.lean ====
section
/-!
DEFINITION. One step of the machine, and how a word comes to stand where the next step fetches (log entry 2).
-/

namespace Sys2Proof.Machine

/-- One step: what `State.plan` says comes next; the cycles it takes are counted. -/
def step (s : State) : Host.Outcome State Fault Refusal :=
  match s.plan with
  | .run i t => s.counted (exec i t)
  | .settle t => .next (s.countWaits t)
  | .stop f => .fault f

/-- The focused core about to issue: it runs, alone, waits for nothing, has no cause to serve, is in no timed region, skips
nothing and has not fetched the word at its program counter yet. -/
def Core.ready (c : Core) : Core :=
  { c with
    run := .running, rank := 0, wait := .none, wake := none, deferred := [], abortPend := false, abortRaise := false
    preemptPend := false, skip := false, arrived := false, solo := false, lag := [], fetched := c.fetched.filter fun f => f.1 != c.pc.toNat
    timed := { c.timed with active := false, leaving := false }, sys := { c.sys with mode := setBits c.sys.mode 2 2 0 } }

/-- The state with an instruction of `nbits` bits `w` stored where `step` fetches next, and its issue the next thing to
happen: this stands for the load of a program and the start of its core (spec/01 R14, spec/15 R297). -/
def State.withFetchWord (s : State) (nbits w : Nat) : State :=
  let c := s.core.ready
  { s with
    core := { c with istore := Mem.putBytes c.istore (12 * c.pc.toNat) (wordBytes (BitVec.ofNat 96 (w % 2 ^ nbits))) }
    agenda := [.issue], modState := { s.modState with powered := true } }

end Sys2Proof.Machine
end

