-- ==== Sys2Proof/Safety.lean ====
section
/-!
DEFINITION. The terms in which statements speak of the machine: what an instruction must find to issue, what it leaves
alone, and the invariant of the memories.
-/

namespace Sys2Proof.Machine

/-- The memories outside the cores are in canonical form (log entry 4). -/
def State.memWf (s : State) : Bool := Mem.wf s.mem && Mem.wf s.podMem && Mem.wf s.hostMem && Mem.wf s.cxlMem

/-- The state in which an instruction of form `f` acts once it issues: its issue time has come, and in a timed phase its scalar
result is under way (spec/08 R155). -/
def State.begun (s : State) (f : Form) (x : Args) : State :=
  (s.clock x.head).modC fun c => if c.timed.active then c.book f x else c

/-- Every scalar source and the guard are there: in a free phase no XLEASE owes one, in a timed phase each producer's latency
has elapsed and the divider is free (spec/01 R16, spec/08 R161). -/
def State.supplied (s : State) (f : Form) (x : Args) : Bool :=
  let c := (s.clock x.head).core
  if c.timed.active then !c.earlyScalar (.p x.head.gp false) && (c.early f x).isNone
  else !s.core.owes (x.a :: x.b :: f.reads)

/-- The focused core, in no gang, issues an instruction of form `f`: no PREEMPT is due before it, nothing skips it, its guard
is true, checks 3 and 4 of spec/07 R152 pass, and its scalar sources are there. -/
def State.issues (s : State) (f : Form) (x : Args) : Bool :=
  !s.core.ganged && !s.preemptDue x.head && !s.core.skip && s.core.guard x.head && (s.core.check f x.head).isNone
    && s.supplied f x

/-- The same in a free phase outside a repetition, where the operands are those of the word. -/
def State.issuesFree (s : State) (f : Form) (x : Args) : Bool :=
  s.issues f x && !s.core.timed.active && !repAct s.core.sys.repst

/-- Only the focused core, the clock and the counter of free values differ: every memory, every other core, Latch, field,
chiplet and host page is as before. -/
def State.onlyCore (s t : State) : Prop := t = { s with core := t.core, cyc := t.cyc, free := t.free }

/-- What the issue and the retirement of any instruction may change in a core: the program counter, the wait with an arrival of its gang, the repetition
state, and in a timed region the issue time, the timetable and the restart points. -/
def Core.issueOnly (c d : Core) : Prop :=
  d = { c with
    pc := d.pc, wait := d.wait, wake := d.wake, arrived := d.arrived, timed := d.timed, board := d.board, mark := d.mark, pmark := d.pmark
    sys := { c.sys with repst := d.sys.repst, markpc := d.sys.markpc, markcyc := d.sys.markcyc, pmarkpc := d.sys.pmarkpc
                        pmarkcyc := d.sys.pmarkcyc } }

/-- The same, and registers, queue and predicates. -/
def Core.scalarOnly (c d : Core) : Prop :=
  Core.issueOnly { c with regs := d.regs, q := d.q, pushes := d.pushes, owed := d.owed, preds := d.preds } d

/-- The core goes on in sequence after an instruction with the head `h` that found state `s` (spec/02 R47, R48, spec/07
R140). -/
def State.continues (s t : State) (h : Head) : Prop :=
  t.core.pc = (s.clock h).advance.core.pc ∧ t.core.sys.repst = (s.clock h).advance.core.sys.repst
    ∧ t.core.wait = .none ∧ t.core.wake = none

/-- An instruction with the head `h` takes its issue time, changes the core by `f`, and the next one follows: a whole next
state, so that all the rest is as before. -/
def State.completes (s : State) (h : Head) (f : Core → Core) : State := ((s.clock h).modC f).retire

/-- The same of an instruction whose scalar result is under way in a timed phase. -/
def State.finishes (s : State) (f : Form) (x : Args) (g : Core → Core) : State := ((s.begun f x).modC g).retire

/-- The same, with a transfer to instruction `target`. -/
def State.branches (s : State) (f : Form) (x : Args) (target : Nat) (g : Core → Core) : State :=
  ((s.begun f x).modC g).transfer target

/-- The state in which the focused core, in no gang, has taken a cause of the checks at an instruction with the head `h`: no
restart point is recorded (spec/07 R152). -/
def State.takes (s : State) (h : Head) (e : Exc) : State := ((s.clock h).unmark s.core).raise e false false

/-- The same, of a cause that the instruction finds once it issues. -/
def State.stops (s : State) (f : Form) (x : Args) (e : Exc) : State := ((s.begun f x).unmark s.core).raise e false false

/-- An instruction has a next state, of which a property holds. -/
def Yields (i : Instr) (s : State) (p : State → Prop) : Prop := ∃ t, exec i s = .next t ∧ p t

end Sys2Proof.Machine
end

