-- ==== Sys2Proof/Certificates/Slice0/Obligations.lean ====
section
/-!
DEFINITION. The statements for the provers. The tables at their head say, instruction by instruction, what the rows of the
spec's own tables give; a statement then says that `exec` answers exactly that.
-/

namespace Sys2Proof.Claims

open Sys2Proof.Machine

/-- The LEN field: 0 means 64 (R180). -/
def len (m : BitVec 6) : Nat := if m.toNat = 0 then 64 else m.toNat

/-- divide(a, b, signed) of R181: quotient and remainder. -/
def divide (a b : Word) (signed : Bool) : Word × Word :=
  if b = 0#64 then (0xFFFFFFFFFFFFFFFF#64, a)
  else if signed ∧ a = 0x8000000000000000#64 ∧ b = 0xFFFFFFFFFFFFFFFF#64 then (0x8000000000000000#64, 0#64)
  else if signed then
    (BitVec.ofInt 64 (a.toInt.tdiv b.toInt), BitVec.ofInt 64 (a.toInt - a.toInt.tdiv b.toInt * b.toInt))
  else (BitVec.ofNat 64 (a.toNat / b.toNat), BitVec.ofNat 64 (a.toNat - a.toNat / b.toNat * b.toNat))

/-- The mask m of BFI (R180). -/
def fieldMask (m : PosLen) : Word := BitVec.ofNat 64 ((2 ^ len m.len - 1) * 2 ^ m.pos.toNat)

/-- A form whose scalar result takes `lat` cycles in a timed phase (spec/08 R155). -/
def takesCycles (lat : Nat) : Form := { plainForm with lat := lat }

/-- Table "Scalar integer instructions" of R180, CMP and SEL apart: the form with its latency, the operands, and the result
from a and b. -/
def integerRow (i : Instr) : Option (Form × Args × (Word → Word → Word)) :=
  match i with
  | .add_ x => some (plainForm, x, fun a b => a + b)
  | .sub_ x => some (plainForm, x, fun a b => a - b)
  | .mul_ x => some (takesCycles 3, x, fun a b => a * b)
  | .mulh x => some (takesCycles 3, x, fun a b => (a.signExtend 128 * b.signExtend 128).extractLsb' 64 64)
  | .mulhn x => some (takesCycles 3, x, fun a b => (a.zeroExtend 128 * b.zeroExtend 128).extractLsb' 64 64)
  | .div_ x => some ({ takesCycles 20 with divides := true }, x, fun a b => (divide a b true).1)
  | .divn x => some ({ takesCycles 20 with divides := true }, x, fun a b => (divide a b false).1)
  | .mod_ x => some ({ takesCycles 20 with divides := true }, x, fun a b => (divide a b true).2)
  | .modn x => some ({ takesCycles 20 with divides := true }, x, fun a b => (divide a b false).2)
  | .and_ x => some (plainForm, x, fun a b => a &&& b)
  | .or_ x => some (plainForm, x, fun a b => a ||| b)
  | .xor_ x => some (plainForm, x, fun a b => a ^^^ b)
  | .andn x => some (plainForm, x, fun a b => a &&& ~~~b)
  | .orn x => some (plainForm, x, fun a b => a ||| ~~~b)
  | .shl x => some (plainForm, x, fun a b => a <<< (b.toNat % 64))
  | .shr x => some (plainForm, x, fun a b => a >>> (b.toNat % 64))
  | .sha x => some (plainForm, x, fun a b => BitVec.ofInt 64 (a.toInt / 2 ^ (b.toNat % 64)))
  | .rol x => some (plainForm, x, fun a b => (a <<< (b.toNat % 64)) ||| (a >>> (64 - b.toNat % 64)))
  | .min_ x => some (plainForm, x, fun a b => if a.toInt ≤ b.toInt then a else b)
  | .max_ x => some (plainForm, x, fun a b => if a.toInt ≤ b.toInt then b else a)
  | .minn x => some (plainForm, x, fun a b => if a.toNat ≤ b.toNat then a else b)
  | .maxn x => some (plainForm, x, fun a b => if a.toNat ≤ b.toNat then b else a)
  | .clz x => some (plainForm, x, fun a _ => BitVec.ofNat 64 ((List.range 64).takeWhile fun k => !a.getLsbD (63 - k)).length)
  | .ctz x => some (plainForm, x, fun a _ => BitVec.ofNat 64 ((List.range 64).takeWhile fun k => !a.getLsbD k).length)
  | .popc x => some (plainForm, x, fun a _ => BitVec.ofNat 64 ((List.range 64).countP fun k => a.getLsbD k))
  | .sext x m => some (plainForm, x, fun a _ => (a.setWidth (len m)).signExtend 64)
  | .zext x m => some (plainForm, x, fun a _ => (a.setWidth (len m)).setWidth 64)
  | .bfx x m => some (plainForm, x, fun a _ => ((a >>> m.pos.toNat).setWidth (len m.len)).setWidth 64)
  | .bfi x m => some (plainForm, x, fun a b => (b &&& ~~~fieldMask m) ||| ((a <<< m.pos.toNat) &&& fieldMask m))
  | .mov x => some (plainForm, x, fun a _ => a)
  | .liw h d v => some (plainForm, ⟨h, d, .s 0#5, .s 0#5⟩, fun _ _ => v.signExtend 64)
  | .lea x m => some (plainForm, x, fun a b => a + (b <<< m.toNat))
  | _ => none

/-- A comparison of codes 0 to 9 (R182, spec/07 R149). -/
def holds (cond : Nat) (a b : Word) : Bool :=
  match cond with
  | 0 => decide (a = b)
  | 1 => decide (a ≠ b)
  | 2 => decide (a.toInt < b.toInt)
  | 3 => decide (a.toInt ≤ b.toInt)
  | 4 => decide (b.toInt < a.toInt)
  | 5 => decide (b.toInt ≤ a.toInt)
  | 6 => decide (a.toNat < b.toNat)
  | 7 => decide (a.toNat ≤ b.toNat)
  | 8 => decide (b.toNat < a.toNat)
  | _ => decide (b.toNat ≤ a.toNat)

/-- Tables of R182 and R187: the operands, and the truth value from a and b. -/
def predicateRow (i : Instr) : Option (Args × (Word → Word → Bool)) :=
  match i with
  | .cmp x m => if m.toNat ≤ 9 then some (x, holds m.toNat) else none
  | .pand x => some (x, fun a b => decide (a = 1#64 ∧ b = 1#64))
  | .por x => some (x, fun a b => decide (a = 1#64 ∨ b = 1#64))
  | .pxor x => some (x, fun a b => decide (a ≠ b))
  | .pnot x => some (x, fun a _ => decide (a = 0#64))
  | _ => none

/-- The binary32 value of an operand (R178). -/
def f32 (c : Core) (o : Operand) : Val := f32Value o (c.value o)

/-- The ordering condition of FCMP (R184, spec/07 R149): none is unordered. -/
def floatHolds (cond : Nat) (o : Option Ordering) : Bool :=
  match cond with
  | 0 => o == some .eq
  | 1 => o != some .eq
  | 2 => o == some .lt
  | 3 => o == some .lt || o == some .eq
  | 4 => o == some .gt
  | 5 => o == some .gt || o == some .eq
  | 10 => o == none
  | _ => o != none

/-- Table "Scalar FP32 instructions" of R184 with the conversions of R186: the operands, and the result from the core. -/
def floatRow (i : Instr) : Option (Args × (Core → Word)) :=
  match i with
  | .fadd x m => some (x, fun c => toF32 (roundingOf m) ((f32 c x.a).add (roundingOf m) (f32 c x.b)))
  | .fsub x m => some (x, fun c => toF32 (roundingOf m) ((f32 c x.a).add (roundingOf m) (f32 c x.b).neg))
  | .fmul x m => some (x, fun c => toF32 (roundingOf m) ((f32 c x.a).mul (f32 c x.b)))
  | .fmin x => some (x, fun c => toF32 .rne ((f32 c x.a).minimum (f32 c x.b)))
  | .fmax x => some (x, fun c => toF32 .rne ((f32 c x.a).maximum (f32 c x.b)))
  | .fcmp x m => if m.toNat ≤ 5 ∨ m.toNat = 10 ∨ m.toNat = 11 then
      some (x, fun c => if floatHolds m.toNat ((f32 c x.a).cmp (f32 c x.b)) then 1#64 else 0#64) else none
  | .fcvti x m => some (x, fun c =>
      let lo : Int := if m.u then 0 else -(2 ^ 63)
      let hi : Int := if m.u then 2 ^ 64 - 1 else 2 ^ 63 - 1
      match f32 c x.a with
      | .nan => 0#64
      | .inf true => BitVec.ofInt 64 lo
      | .inf false => BitVec.ofInt 64 hi
      | v =>
        let n := v.toInt (roundingOf m.rm)
        BitVec.ofInt 64 (if n < lo then lo else if hi < n then hi else n))
  | .fcvtf x m => some (x, fun c =>
      toF32 (roundingOf m.rm) (Val.ofInt (if m.u then ((c.value x.a).toNat : Int) else (c.value x.a).toInt)))
  | .frsqs x => some (x, fun c => toF32 .rne (rsqrtSeed (f32 c x.a)))
  | .frcps x => some (x, fun c => toF32 .rne (rcpSeed (f32 c x.a)))
  | _ => none

/-- The form of SEL and FFMA, which read their destination (R183, R185). -/
def readsBack (x : Args) (lat : Nat) : Form := { takesCycles lat with reads := [if x.d.isPush then .q 0#4 else x.d] }

/-- The instructions that are words, not events. -/
def isWord (i : Instr) : Bool := (encode i).isSome

/-- The target of a transfer and what it does to the core besides: BRA, BRX, CALL, RET. -/
def transferRow (i : Instr) : Option (Args × (Core → Word) × (Core → Core)) :=
  match i with
  | .bra x => some (x, fun c => c.value x.a, id)
  | .brx x => some (x, fun c => c.value x.a + c.value x.b, id)
  | .call x => some (x, fun c => c.value x.a, fun c => c.writeD x.d (c.pc.zeroExtend 64 + 1#64))
  | .ret x => some (x, fun c => c.value x.a, id)
  | _ => none

end Sys2Proof.Claims

open Sys2Proof Sys2Proof.Machine Sys2Proof.Claims

/-- PRIO: the level of the running card now (spec/20 R348), and as latched at entry where the core runs none. -/
def Sys2Proof.Claims.prioOf (s : State) : Word :=
  match s.core.card with
  | some k => match (s.fieldAt k.1).cards.find? fun d => d.serial == k.2 with
    | some d => BitVec.ofNat 64 d.level
    | none => s.core.sys.prio
  | none => s.core.sys.prio

/-- The value of the register that each number of R295's table names; FCYC is the field cycle at issue. -/
def Sys2Proof.Claims.registerRow (n : Nat) (fcyc prio : Word) (c : Core) : Option Word :=
  let y := c.sys
  match n with
  | 0x000 => some y.cause
  | 0x001 => some y.epc
  | 0x002 => some y.eva
  | 0x003 => some y.tvec
  | 0x004 => some c.modeWord
  | 0x008 => some (y.scr.get 0)
  | 0x009 => some (y.scr.get 1)
  | 0x00A => some (y.scr.get 2)
  | 0x00B => some (y.scr.get 3)
  | 0x010 => some y.tprog
  | 0x011 => some y.repst
  | 0x012 => some y.erepst
  | 0x013 => some y.barst
  | 0x014 => some y.racest
  | 0x015 => some y.collctl
  | 0x016 => some y.xfault
  | 0x017 => some y.alost
  | 0x019 => some y.tflt
  | 0x01A => some y.xprog
  | 0x020 => some fcyc
  | 0x021 => some y.markpc
  | 0x022 => some y.markcyc
  | 0x023 => some y.pmarkpc
  | 0x024 => some y.pmarkcyc
  | 0x030 => some (y.xdone.get 0)
  | 0x031 => some (y.xdone.get 1)
  | 0x032 => some (y.xdone.get 2)
  | 0x033 => some (y.xdone.get 3)
  | 0x034 => some (y.gdone.get 0)
  | 0x035 => some (y.gdone.get 1)
  | 0x036 => some (y.gdone.get 2)
  | 0x037 => some (y.gdone.get 3)
  | 0x040 => some y.ctxid
  | 0x041 => some c.coreId
  | 0x042 => some prio
  | 0x043 => some y.contain
  | 0x050 => some (y.hasp.get 0)
  | 0x051 => some (y.hasp.get 1)
  | 0x052 => some (y.hasp.get 2)
  | 0x053 => some (y.hasp.get 3)
  | _ => none

/-- The registers whose column "User" reads R. -/
def Sys2Proof.Claims.userRegisters : List Nat :=
  [0x004, 0x010, 0x014, 0x015, 0x019, 0x020, 0x021, 0x022, 0x023, 0x024, 0x030, 0x031, 0x032, 0x033, 0x034, 0x035, 0x036,
    0x037, 0x040, 0x041, 0x042]

/-- The bits that the maps mark RW, for every register with one (R295 and the maps it names). -/
def Sys2Proof.Claims.writableRow (n : Nat) : Option Word :=
  match n with
  | 0x000 => some 0x00000FFF0000CFFF#64
  | 0x001 => some 0x3FFF#64
  | 0x002 => some 0xFFFFFFFFFFFFFFFF#64
  | 0x003 => some 0x3FFF#64
  | 0x004 => some 0x8#64
  | 0x008 => some 0xFFFFFFFFFFFFFFFF#64
  | 0x009 => some 0xFFFFFFFFFFFFFFFF#64
  | 0x00A => some 0xFFFFFFFFFFFFFFFF#64
  | 0x00B => some 0xFFFFFFFFFFFFFFFF#64
  | 0x043 => some 0x0000FFFFFFFFFFFF#64
  | _ => none

/-- The fields TVIEW writes (R201): the bits of the record, the lowest and highest b, and what is stored for the lowest. -/
def Sys2Proof.Claims.viewRow (fsel : Nat) : Option (Nat × Nat × Nat × Nat × Nat) :=
  match fsel with
  | 0 => some (20, 0, 0, 0x1FFFFF, 0)
  | 1 => some (26, 21, 1, 64, 0)
  | 2 => some (32, 27, 1, 64, 0)
  | 3 => some (48, 33, 0, 65535, 0)
  | 4 => some (52, 49, 1, 16, 0)
  | 5 => some (59, 53, 0, 64, 0)
  | 6 => some (66, 60, 0, 64, 0)
  | 7 => some (74, 67, 0, 255, 0)
  | 8 => some (79, 75, 0, 31, 0)
  | _ => none

/-- The record TEDGE gives a record for a and b (R203). -/
def Sys2Proof.Claims.edgeRow (fsel : Nat) (r : Shape) (b : Nat) : Nat × Nat :=
  match fsel with
  | 0 => (b / 256, b % 256)
  | 1 => (min (recVrows r) (b / 256), min (recVcols r) (b % 256))
  | _ => (recRows r, recCols r)

/-- The field TINFO returns (R201), from the record, the bank's format register and ALT. -/
def Sys2Proof.Claims.infoRow (fsel : Nat) (r : Shape) (bank : BitVec 32) (alt : Bool) : Option Nat :=
  match fsel with
  | 0 => some (bits r 20 0)
  | 1 => some (bits r 26 21 + 1)
  | 2 => some (bits r 32 27 + 1)
  | 3 => some (bits r 48 33)
  | 4 => some (bits r 52 49 + 1)
  | 5 => some (bits r 59 53)
  | 6 => some (bits r 66 60)
  | 7 => some (bits r 74 67)
  | 8 => some (bits r 79 75)
  | 10 => some (bits r 80 80)
  | 11 => some bank.toNat
  | 12 => some (extentHi (fmtOf (bits bank 11 8)) r alt - extentLo (fmtOf (bits bank 11 8)) r alt + 1)
  | 13 => some (bits r 63 0)
  | 14 => some (bits r 127 64)
  | _ => none

/-- Causes for which EVA holds an address or the n of TRAP and BKPT (spec/21 R365). -/
def Sys2Proof.Claims.addressCauses : List Nat := [0x04, 0x05, 0x06, 0x07, 0x08, 0x0A, 0x10, 0x11, 0x14, 0x15, 0x18, 0x19]

/-- A translation of a GLOBAL address in the focused core's L1 TLB that may be used for an access of the given rights, the root of
its die being valid: its physical address (spec/13 R242, spec/19 R331). -/
def Sys2Proof.Claims.mapped (u : State) (a : Word) (write : Bool) : Option (Nat × Word) :=
  match u.cached u.core.die u.core.num u.core.ctx a with
  | some e =>
    let p := physOf e.size e.pte a
    if u.rootOk u.core.die a = true ∧ e.pte.getLsbD (if write then 2 else 1) = true ∧ e.pte.getLsbD 5 = false ∧ e.pte.getLsbD 3 = false ∧
        remotePhys p = false ∧ u.reach u.core.die (u.homeOf u.core.die p) p = none ∧ u.poison.contains (p / 64) = false then
      some (p, e.pte)
    else none
  | none => none

/-- The window of a HOST or CXL access with the right it needs, whose I/O chiplet is reached (spec/22 R388). -/
def Sys2Proof.Claims.windowed (u : State) (cxl : Bool) (a : Word) (write : Bool) : Bool :=
  match u.window cxl a.toNat with
  | some w => w.getLsbD (if write then 61 else 62) && (u.reach u.core.die (bits w 59 50) a.toNat).isNone
  | none => false

/-- The I/O chiplet of such an access. -/
def Sys2Proof.Claims.windowDie (u : State) (cxl : Bool) (a : Word) (write : Bool) : Option Nat :=
  if windowed u cxl a write then (u.window cxl a.toNat).map fun w => bits w 59 50 else none

/-- What an aligned load of n bytes reads where nothing stops it: the value of the bytes, little-endian (R243), or the word of an
EVENT object of the own Latch (spec/05 R96); `quiet`: the access is not race-checked. -/
def Sys2Proof.Claims.loaded (u : State) (space : BitVec 3) (a : Word) (n : Nat) (quiet : Bool) : Option Nat :=
  match space.toNat with
  | 0 => match mapped u a false with
    | some (p, e) => if quiet = true ∨ u.core.timed.active = true ∨ e.getLsbD 4 = false then some (Mem.load u.mem p n) else none
    | none => none
  | 1 => if a.toNat < 0x200000 then some (ofBytes (u.core.lsBytes a.toNat n)) else none
  | 2 => match u.peer a with
    | some k => if (quiet = true ∨ u.core.timed.active = true) ∧ u.reach u.core.die k.die a.toNat = none ∧
        haspOk u.core k (peerOff a) true false false = true ∧ k.lsBad = [] then some (ofBytes (k.lsBytes (peerOff a) n)) else none
    | none => none
  | 3 => match u.eventAddr a with
    | some e => if e.latch ≠ u.core.latch then none else
      let l := u.latch e.latch
      match e.cls, e.word with
      | 0, 1 => some (l.line e.index).target.toNat
      | 1, 0 => some (barWord (u.bar u.core (.object e.latch e.index))).toNat
      | 2, 0 => some (mutexWord (l.mutex e.index)).toNat
      | 3, 0 => some ((l.count e.index).expect.toNat * 2 ^ 32 + (l.count e.index).arrived.toNat)
      | _, _ => none
    | none => none
  | 6 => if windowed u false a false = true ∧ (u.fieldAt (u.core.field.getD 16)).replayMode = 0 then
      some (Mem.load u.hostMem a.toNat n) else none
  | 7 => if windowed u true a false = true then some (Mem.load u.cxlMem a.toNat n) else none
  | _ => none

/-- Every piece of n bytes of GLOBAL memory is mapped. -/
def Sys2Proof.Claims.elementMapped (u : State) (a : Word) (n : Nat) (write : Bool) : Prop :=
  ∀ k ∈ pieceRuns a.toNat n, (mapped u (a + BitVec.ofNat 64 k.1) write).isSome = true

/-- The n bytes that such pieces hold. -/
def Sys2Proof.Claims.elementBytes (u : State) (a : Word) (n : Nat) : List Byte :=
  (pieceRuns a.toNat n).flatMap fun k => match mapped u (a + BitVec.ofNat 64 k.1) false with
    | some (p, _) => Mem.getBytes u.mem p k.2
    | none => []

/-- The GLOBAL memory once bytes are stored to such pieces. -/
def Sys2Proof.Claims.elementStored (u : State) (a : Word) (bs : List Byte) : Mem :=
  (pieceRuns a.toNat bs.length).foldl (fun (mem : Mem) k => match mapped u (a + BitVec.ofNat 64 k.1) true with
    | some (p, _) => Mem.putBytes mem p ((bs.drop k.1).take k.2)
    | none => mem) u.mem

/-- The instructions and forms that load: LD and LDP (R243). -/
def Sys2Proof.Claims.loadRow (i : Instr) : Option (Args × LdMod × Form) :=
  match i with
  | .ld x m => some (x, m, memForm m.space m.ord)
  | .ldp x m => some (x, { m with sx := false }, freeForm)
  | _ => none

/-- Nothing of the core is under way that an access must wait for, and its local store has no bad word. -/
def Sys2Proof.Claims.quietCore (c : Core) : Prop := c.mq = [] ∧ c.stores = [] ∧ c.lsBad = []

/-- The store that ST leaves under way, for the spaces where it is performed at another place; PEER, INSTR, HOST and CXL stores
are not translated, and INSTR, HOST and CXL ones are not race-checked (R242, R245). -/
def Sys2Proof.Claims.stored (u : State) (m : StMod) (a v : Word) : Option Store :=
  let st : Store := { space := m.space, addr := a, phys := 0, check := m.ord == 0#2 && !u.core.timed.active
                      locked := u.holdsMutex u.core, sid := m.sid.toNat
                      kind := .bytes (toBytes (2 ^ m.w.toNat) v.toNat), hm := u.core.handler }
  match m.space.toNat with
  | 0 => match u.cached u.core.die u.core.num u.core.ctx a with
    | some e =>
      let p := physOf e.size e.pte a
      if u.rootOk u.core.die a = true ∧ e.pte.getLsbD 2 = true ∧ e.pte.getLsbD 5 = false ∧ e.pte.getLsbD 3 = false ∧ remotePhys p = false ∧
          (u.reach u.core.die (u.homeOf u.core.die p) p = none ∨ u.reach u.core.die (u.homeOf u.core.die p) p = some 0x15#8) then
        some { st with phys := p, check := st.check && e.pte.getLsbD 4 }
      else none
    | none => none
  | 2 => match u.peer a with
    | some k => if u.reach u.core.die k.die a.toNat ≠ some 0x06#8 then some st else none
    | none => none
  | 3 => match u.eventAddr a with
    | some e => if e.cls = 0 ∧ e.word = 0 ∧ e.latch ≠ u.core.latch ∧ m.w = 3#2 ∧ u.core.settled = true ∧
        u.reach u.core.die (e.latch / 2) a.toNat ≠ some 0x06#8 then
        some { st with check := false, locked := false, sid := 0, kind := .add (v.setWidth 32) } else none
    | none => none
  | 5 => match u.peer a with
    | some k => if u.reach u.core.die k.die a.toNat ≠ some 0x06#8 ∧ peerOff a < 0x30000 then some { st with check := false } else none
    | none => none
  | 6 => (windowDie u false a true).map fun die => { st with check := false, phys := die }
  | 7 => (windowDie u true a true).map fun die => { st with check := false, phys := die }
  | _ => none

/-- Table of R246 and R248: the operands, the extra source, and the new value of n bytes from the old value, b, c and n; the
floating rows take b's binary32 value. -/
def Sys2Proof.Claims.atomicRow (i : Instr) : Option (Args × AtMod × List Operand × (Nat → Nat → Nat → Nat → Val → Nat)) :=
  let two (n v : Nat) : Int := if v < 2 ^ (8 * n - 1) then v else (v : Int) - 2 ^ (8 * n)
  let fl (n : Nat) : Binary := if n = 2 then binary16 else binary32
  match i with
  | .aadd x m => some (x, m, [], fun old b _ n _ => (old + b % 2 ^ (8 * n)) % 2 ^ (8 * n))
  | .amin x m => some (x, m, [], fun old b _ n _ =>
      let b := b % 2 ^ (8 * n)
      if m.u then (if b < old then b else old) else (if two n b < two n old then b else old))
  | .amax x m => some (x, m, [], fun old b _ n _ =>
      let b := b % 2 ^ (8 * n)
      if m.u then (if old < b then b else old) else (if two n old < two n b then b else old))
  | .aand x m => some (x, m, [], fun old b _ n _ => old &&& b % 2 ^ (8 * n))
  | .aor x m => some (x, m, [], fun old b _ n _ => old ||| b % 2 ^ (8 * n))
  | .axor x m => some (x, m, [], fun old b _ n _ => old ^^^ b % 2 ^ (8 * n))
  | .aswp x m => some (x, m, [], fun _ b _ n _ => b % 2 ^ (8 * n))
  | .acas x m => some (x, m, [if x.d.isPush then .q 0#4 else x.d], fun old b c n _ =>
      if old = c % 2 ^ (8 * n) then b % 2 ^ (8 * n) else old)
  | .afadd x m => some (x, m, [], fun old _ _ n v => ((fl n).encode .rne false (((fl n).decode old).add .rne v)).1)
  | .afmin x m => some (x, m, [], fun old _ _ n v => ((fl n).encode .rne false (((fl n).decode old).minimum v)).1)
  | .afmax x m => some (x, m, [], fun old _ _ n v => ((fl n).encode .rne false (((fl n).decode old).maximum v)).1)
  | _ => none

/-- What a tile instruction with a tile destination D does: its operands, D and the tile sources as views,
whether it is row-resumable, its own conditions (agreement of shapes, formats, operand values), the code it gives element (0,0)
of D, none to leave it, the scale TQUANT sets, what it takes of the vector unit and the bank ports, and the local-store address of
its table (R194, R199, R220). -/
structure Sys2Proof.Claims.TileCase where
  args   : Args
  fovr   : BitVec 4
  d      : View
  srcs   : List View
  inRows : Bool
  shape  : Bool
  fmt    : Bool
  last   : Bool
  code   : Option (Nat × Bool)
  scale  : Option Int
  matrix : Bool
  use    : VectorUse
  table  : Option Nat := none

/-- A value in D's format, rounded and saturated as MOD says (R196, spec/07 R147). -/
def Sys2Proof.Claims.enc (d : View) (rm satm : BitVec 2) (v : Val) : Nat × Bool :=
  encodeVal d.fmt v d.scale (roundingOf rm) (satChoice satm d.sat)

/-- An elementwise row of R207: `op` from the values of A, B and D; scalars are binary32 in float mode, integers else (R196). -/
def Sys2Proof.Claims.arithmetic (c : Core) (z : Args) (m : TMod) (op : Rounding → Val → Val → Val → Val) (beat : Nat := 1)
    (third : Bool := false) : TileCase :=
  let x := passArgs z c.sys.repst
  let d := destView c x m.fovr
  let srcs := sourceViews c x
  let fl := d.fmt.isFloat || srcs.any fun v => v.fmt.isFloat
  let val := fun (o : Operand) => if o.isTsrc then c.elem (c.view o) 0 0
    else if fl then f32 c o else Val.ofInt (c.value o).toInt
  { args := z, fovr := m.fovr, d := d, srcs := srcs, inRows := true, shape := sameShape d srcs
    fmt := (d :: srcs).all fun v => v.code != 0, last := true
    code := some (enc d m.rm m.satm (op (roundingOf m.rm) (val x.a) (val x.b) (c.elem d 0 0))), scale := none, matrix := false
    use := rowUse beat third d srcs }

/-- TMIN and TMAX: the lesser or greater of A and B under spec/03 R55, a NaN only where both are; a stored element is moved. -/
def Sys2Proof.Claims.selectRow (c : Core) (z : Args) (m : TMod) (low : Bool) : TileCase :=
  let x := passArgs z c.sys.repst
  let d := destView c x m.fovr
  let srcs := sourceViews c x
  let fl := d.fmt.isFloat || srcs.any fun v => v.fmt.isFloat
  let a := c.elem (c.view x.a) 0 0
  let b := if x.b.isTsrc then c.elem (c.view x.b) 0 0 else if fl then f32 c x.b else Val.ofInt (c.value x.b).toInt
  let moved := fun (v : View) => moveCode v d (roundingOf m.rm) (satChoice m.satm d.sat) (c.rawElem v 0 0)
  let second := decide (a = .nan) || decide (b ≠ .nan) && (if low then b.below a else a.below b)
  { args := z, fovr := m.fovr, d := d, srcs := srcs, inRows := true, shape := sameShape d srcs
    fmt := (d :: srcs).all fun v => v.code != 0, last := true
    code := some (if !second then moved (c.view x.a) else if b = .nan ∨ x.b.isTsrc = false then enc d m.rm m.satm b
      else moved (c.view x.b))
    scale := none, matrix := false, use := rowUse 1 false d srcs }

/-- A bitwise row of R208 on stored codes of D's width; a scalar is truncated to it, but for the count of a shift. -/
def Sys2Proof.Claims.bitRow (c : Core) (z : Args) (m : TMod) (shift : Bool) (op : Nat → Nat → Nat → Nat) : TileCase :=
  let x := passArgs z c.sys.repst
  let d := destView c x m.fovr
  let srcs := sourceViews c x
  let w := d.fmt.width
  let b := if x.b.isTsrc then c.rawElem (c.view x.b) 0 0
    else if shift then (c.value x.b).toNat else (c.value x.b).toNat % 2 ^ w
  { args := z, fovr := m.fovr, d := d, srcs := srcs, inRows := true, shape := sameShape d srcs
    fmt := srcs.all fun v => v.fmt.width == w, last := true
    code := some (op w (c.rawElem (c.view x.a) 0 0) b % 2 ^ w, false), scale := none, matrix := false
    use := rowUse 1 false d srcs }

/-- A move of spec/02 R38: element `pick` of A, or zero. -/
def Sys2Proof.Claims.moveRow (c : Core) (z : Args) (m : TMod) (inRows : Bool) (shape : View → View → Bool)
    (pick : View → Option (Nat × Nat)) : TileCase :=
  let x := passArgs z c.sys.repst
  let p := movePair (c.view x.a) (destView c x m.fovr)
  let k := match pick p.1 with
    | some q => c.rawElem p.1 q.1 q.2
    | none => 0
  { args := z, fovr := m.fovr, d := p.2, srcs := [p.1], inRows := inRows, shape := shape p.2 p.1, fmt := true, last := true
    code := some (moveCode p.1 p.2 (roundingOf m.rm) (satChoice m.satm p.2.sat) k), scale := none, matrix := false
    use := if inRows then rowUse 1 false p.2 [p.1] else wholeUse p.2 [p.1] }

/-- A move by an index tile B of format I8 or I32 (R216). -/
def Sys2Proof.Claims.indexRow (c : Core) (z : Args) (m : TMod) (shape : View → View → View → Bool)
    (pick : View → View → Option (Nat × Nat)) : TileCase :=
  let b := c.view (passArgs z c.sys.repst).b
  let t := moveRow c z m false (fun d a => shape d a b) (fun a => pick a b)
  { t with srcs := t.srcs ++ [b], fmt := b.code == 5 || b.code == 6, use := wholeUse t.d (t.srcs ++ [b]) }

/-- A reduction of row 0 or column 0 of A (R212). -/
def Sys2Proof.Claims.reduceRow (c : Core) (z : Args) (m : TMod) (rows : Bool)
    (f : Core → View → View → List (Nat × Nat) → Nat × Bool) : TileCase :=
  let x := passArgs z c.sys.repst
  let d := destView c x m.fovr
  let a := c.view x.a
  let cells := if rows then (if 0 < a.vrows then (List.range a.vcols).map fun j => (0, j) else [])
    else (if 0 < a.vcols then (List.range a.vrows).map fun i => (i, 0) else [])
  { args := z, fovr := m.fovr, d := d, srcs := [a], inRows := rows, shape := if rows then d.rows == a.rows else d.cols == a.cols
    fmt := a.code != 0 && d.code != 0, last := true, code := some (f c d a cells), scale := none, matrix := false
    use := if rows then reduceUse d a d.rows (recCols d.shape) else reduceUse d a d.cols 1 }

/-- An accumulator instruction of spec/12 on D, with or without the tile A. -/
def Sys2Proof.Claims.accRow (c : Core) (z : Args) (tile third : Bool) (ok : View → View → Bool × Bool × Bool)
    (code : View → View → Nat × Bool) : TileCase :=
  let x := passArgs z c.sys.repst
  let d := c.view x.d
  let a := c.view x.a
  { args := z, fovr := 0#4, d := d, srcs := if tile then [a] else [], inRows := true, shape := (ok d a).1
    fmt := (ok d a).2.1, last := (ok d a).2.2, code := some (code d a), scale := none, matrix := true
    use := rowUse 1 third d (if tile then [a] else []) }

/-- Every tile instruction with a tile destination but TINS, on the operands of the current pass. -/
def Sys2Proof.Claims.tileCase (i : Instr) (c : Core) : Option TileCase :=
  let p := fun (x : Args) => passArgs x c.sys.repst
  let acc := fun (v : View) => v.fmt == .af56 || v.fmt == .ai56
  let plain := fun (v : View) => recEstr v.shape == 1 && !v.alt
  match i with
  | .tmov x m => some (moveRow c x m true (fun d a => sameShape d [a]) fun _ => some (0, 0))
  | .tcvt z m =>
    let x := p z
    let a := c.viewAs x.a (if m.aux.toNat ≤ 9 then m.aux.toNat else 0)
    let d := destView c x m.fovr
    some { args := z, fovr := m.fovr, d := d, srcs := [a], inRows := true, shape := sameShape d [a]
           fmt := decide (m.aux.toNat ≤ 9) && a.code != 0 && d.code != 0, last := true
           code := some (enc d m.rm m.satm (c.elem a 0 0)), scale := none, matrix := false, use := rowUse 1 false d [a] }
  | .tfill z m =>
    let x := p z
    let d := destView c x m.fovr
    some { args := z, fovr := m.fovr, d := d, srcs := [], inRows := true, shape := true, fmt := true, last := true
           code := some (if d.code = 0 then ((c.value x.a).toNat % 256, false) else enc d m.rm m.satm
             (if d.fmt.isFloat then f32 c x.a else Val.ofInt (c.value x.a).toInt)), scale := none, matrix := false
           use := rowUse 1 false d [] }
  | .tiota z m =>
    let x := p z
    let d := destView c x m.fovr
    some { args := z, fovr := m.fovr, d := d, srcs := [], inRows := true, shape := true, fmt := d.code != 0, last := true
           code := some (enc d m.rm m.satm (Val.ofInt (c.value x.a).toInt)), scale := none, matrix := false
           use := rowUse 1 false d [] }
  | .tadd x m => some (arithmetic c x m fun r a b _ => a.add r b)
  | .tsub x m => some (arithmetic c x m fun r a b _ => a.add r b.neg)
  | .tmul x m => some (arithmetic c x m fun _ a b _ => a.mul b)
  | .tfma x m => some (arithmetic c x m (fun r a b z => (a.mul b).add r z) (third := true))
  | .tdiv x m => some (arithmetic c x m (fun _ a b _ => a.div b) 4)
  | .tmin x m => some (selectRow c x m true)
  | .tmax x m => some (selectRow c x m false)
  | .tabs x m => some (arithmetic c x m fun _ a _ _ => a.abs)
  | .tclamp x m => some (arithmetic c x m fun _ a _ _ =>
      (a.maximum (binary32.decode ((c.value (p x).b).toNat % 2 ^ 32))).minimum
        (binary32.decode ((c.value (p x).b).toNat / 2 ^ 32)))
  | .trsqs x m => some (arithmetic c x m fun _ a _ _ => rsqrtSeed a)
  | .trcps x m => some (arithmetic c x m fun _ a _ _ => rcpSeed a)
  | .tand x m => some (bitRow c x m false fun _ a b => a &&& b)
  | .tor x m => some (bitRow c x m false fun _ a b => a ||| b)
  | .txor x m => some (bitRow c x m false fun _ a b => a ^^^ b)
  | .tnot x m => some (bitRow c x m false fun w a _ => 2 ^ w - 1 - a)
  | .tshl x m => some (bitRow c x m true fun w a b => if w ≤ b then 0 else a * 2 ^ b)
  | .tshr x m => some (bitRow c x m true fun w a b =>
      let ones := m.aux.getLsbD 0 && decide (a / 2 ^ (w - 1) % 2 = 1)
      if w ≤ b then (if ones then 2 ^ w - 1 else 0) else a / 2 ^ b + (if ones then 2 ^ w - 2 ^ (w - b) else 0))
  | .tcmp z m =>
    let x := p z
    let d := destView c x m.fovr
    let srcs := sourceViews c x
    let fl := d.fmt.isFloat || srcs.any fun v => v.fmt.isFloat
    let k := m.aux.toNat
    let val := fun (o : Operand) =>
      if !fl && decide (6 ≤ k) then unsignedVal c o 0 0
      else if o.isTsrc then c.elem (c.view o) 0 0 else if fl then f32 c o else Val.ofInt (c.value o).toInt
    some { args := z, fovr := m.fovr, d := d, srcs := srcs, inRows := true, shape := sameShape d srcs
           fmt := d.code == 9 && srcs.all fun v => v.code != 0
           last := if fl then decide (k ≤ 5 ∨ k = 10 ∨ k = 11) else decide (k ≤ 9)
           code := some (if ordCond k ((val x.a).cmp (val x.b)) then 1 else 0, false), scale := none, matrix := false
           use := rowUse 1 false d srcs }
  | .tsel z m =>
    let x := p z
    let d := destView c x m.fovr
    let srcs := sourceViews c x
    let fl := d.fmt.isFloat || srcs.any fun v => v.fmt.isFloat
    let b := c.view x.b
    some { args := z, fovr := m.fovr, d := d, srcs := srcs, inRows := true, shape := sameShape d srcs
           fmt := (c.view x.a).code == 9 && (d :: srcs).all fun v => v.code != 0, last := true
           code := if c.rawElem (c.view x.a) 0 0 = 1 then
               some (if x.b.isTsrc then moveCode b d (roundingOf m.rm) (satChoice m.satm d.sat) (c.rawElem b 0 0)
                 else enc d m.rm m.satm (if fl then f32 c x.b else Val.ofInt (c.value x.b).toInt))
             else none
           scale := none, matrix := false, use := rowUse 1 true d srcs }
  | .trsum x m => some (reduceRow c x m true (reduceSum false m))
  | .tnrm2 x m => some (reduceRow c x m true (reduceSum true m))
  | .trmax x m => some (reduceRow c x m true (reduceMax m))
  | .tcsum x m => some (reduceRow c x m false (reduceSum false m))
  | .tcmax x m => some (reduceRow c x m false (reduceMax m))
  | .ttrn x m => some (moveRow c x m false (fun d a => d.rows == a.cols && d.cols == a.rows) fun _ => some (0, 0))
  | .tshf x m =>
    let b := c.value (p x).b
    let dy := signed (bits b 15 8) 8
    let dx := signed (bits b 7 0) 8
    let at' := fun (k : Int) (n : Nat) =>
      if m.aux.getLsbD 0 then (if n = 0 then none else some ((-k) % n).toNat)
      else if 0 ≤ -k ∧ -k < n then some (-k).toNat else none
    some (moveRow c x m false (fun d a => sameShape d [a] && decide (-64 ≤ dy ∧ dy ≤ 64 ∧ -64 ≤ dx ∧ dx ≤ 64)) fun a =>
      match at' dy a.vrows, at' dx a.vcols with
      | some i, some j => some (i, j)
      | _, _ => none)
  | .tbcr x m =>
    let k := (c.value (p x).b).toNat
    some (moveRow c x m false (fun d a => d.cols == a.cols && decide (k < a.rows)) fun _ => some (k, 0))
  | .tbcc x m =>
    let k := (c.value (p x).b).toNat
    some (moveRow c x m true (fun d a => d.rows == a.rows && decide (k < a.cols)) fun _ => some (0, k))
  | .tgath x m => some (indexRow c x m (fun d _ b => sameShape d [b]) fun a b =>
      let k := storedInt c b 0 0
      if 0 ≤ k ∧ k < a.rows * a.cols then some (k.toNat / a.cols, k.toNat % a.cols) else none)
  | .trowp x m => some (indexRow c x m (fun d a b => b.rows == d.rows && d.cols == a.cols) fun a b =>
      let k := storedInt c b 0 0
      if 0 ≤ k ∧ k < a.vrows then some (k.toNat, 0) else none)
  | .tsten z m =>
    let x := p z
    let d := destView c x m.fovr
    let a := c.view x.a
    let h := m.aux.toNat
    let b := (c.value x.b).toNat
    let table := (parseTable (c.lsBytes b 128)).filter fun t => !t.dim3 && t.entries.all fun e => e.par == 0
    let t := table.getD ⟨0, false, []⟩
    let val := fun (e : StencilEntry) =>
      if 0 ≤ (h : Int) + e.dy ∧ 0 ≤ (h : Int) + e.dx then c.elem a ((h : Int) + e.dy).toNat ((h : Int) + e.dx).toNat
      else if a.neg then negVal a.fmt a.scale 0 else decodeVal a.fmt 0 a.scale
    some { args := z, fovr := m.fovr, d := d, srcs := [a], inRows := false
           shape := decide (d.rows + 2 * h ≤ a.rows ∧ d.cols + 2 * h ≤ a.cols), fmt := a.code != 0 && d.code != 0
           last := b % 128 == 0 && decide (b < 0x200000) && table.isSome
           code := some (enc d m.rm m.satm ((stencilSum t.shift (t.entries.map fun e => (e, val e))).getD .zero))
           scale := none, matrix := false, use := stencilUse d a ((table.map fun t => t.entries.length).getD 1), table := some b }
  | .tquant z m =>
    let x := p z
    let d := c.view x.d
    let a := c.view x.a
    let k := quantScale (largestMag c a) ((quantMax d.code).getD 1)
    some { args := z, fovr := 0#4, d := d, srcs := [a], inRows := false, shape := sameShape d [a]
           fmt := (d.code == 2 || d.code == 3 || d.code == 4 || d.code == 5) && a.code != 0
           last := !c.bankBusy (recBank d.shape) && !(recMv d.shape && c.bankBusy (recMbank d.shape))
           code := some (moveCode a { d with scale := k } (roundingOf m.rm) (satChoice m.satm d.sat) (c.rawElem a 0 0))
           scale := some k, matrix := false, use := wholeUse d [a] }
  | .azero x => some (accRow c x false false (fun d _ => (plain d, acc d, true)) fun _ _ => (0, false))
  | .acvt x m =>
    let k := (c.value (p x).b).toInt
    some (accRow c x true false
      (fun d a => (sameShape d [a] && plain a, acc a && d.code != 0, decide (-128 ≤ k ∧ k ≤ 127)))
      fun d a => enc d m.rm m.satm ((c.elem a 0 0).scale k))
  | .aaddt x m => some (accRow c x true true
      (fun d a => (sameShape d [a] && plain d,
        acc d && (if d.fmt = .ai56 then a.fmt == .i8 || a.fmt == .i32 || a.fmt == .ai56 else a.code != 0), true))
      fun d a => enc d m.rm m.satm (if d.fmt = .ai56 then Val.ofInt (storedInt c d 0 0 + storedInt c a 0 0)
        else (c.elem d 0 0).add (roundingOf m.rm) (c.elem a 0 0)))
  | .ascl x m => some (accRow c x false true (fun d _ => (plain d, acc d, true))
      fun d _ => enc d m.rm m.satm (if d.fmt = .ai56 then Val.ofInt (storedInt c d 0 0 * (c.value (p x).a).toInt)
        else if (p x).a = .imm 0#15 then .fin (!((c.elem d 0 0).cmp .zero == some .gt || (c.elem d 0 0).cmp .zero == some .eq)) 0 1 0
        else (c.elem d 0 0).mul (f32 c (p x).a)))
  | _ => none

/-- Nothing stops a tile instruction: no stream, no queued matrix operation, no race record, no bad word, TPROG 0; shapes and
formats as spec/02 R32 to R35 ask; no PREEMPT comes between its rows. -/
def Sys2Proof.Claims.tileReady (s : State) (k : TileCase) : Prop :=
  s.core.streams = [] ∧ s.core.mq = [] ∧ s.race = [] ∧ s.core.lsBad = [] ∧ bits s.core.sys.tprog 6 0 = 0 ∧ s.core.rowLimit = none ∧
  (k.d :: k.srcs).all View.shapeOk = true ∧ k.shape = true ∧ (k.inRows = true → overlapOk k.d k.srcs = true) ∧
  k.fovr.toNat ≤ 9 ∧ (k.d :: k.srcs).all s.core.mirrorOk = true ∧ k.fmt = true ∧ k.last = true ∧
  (k.matrix = true → s.core.memc = false)

/-- What the instruction takes of the timetable, its operands being those of the pass: the read port of its table, the vector unit
and the ports of its operands (spec/08 R155 to R157). -/
def Sys2Proof.Claims.TileCase.taken (k : TileCase) (c : Core) (y : Args) : Chk Core :=
  match k.table with
  | some b => (c.lineAccess [bytesExtent b 128] 0 false 0).bind fun d => d.vector y k.use
  | none => c.vector y k.use

/-- What it reads at issue besides. -/
def Sys2Proof.Claims.TileCase.also (k : TileCase) : List Touch := k.table.toList.map fun b => bytesTouch b 128

/-- A byte that the write of D's valid elements may change, in the tile or its mirror (spec/02 R31, R35). -/
def Sys2Proof.Claims.tileByte (d : View) (b : Nat) : Prop :=
  ∃ i j, i < d.vrows ∧ j < d.vcols ∧ ∃ base, (base = recBase d.shape ∨
    (recMv d.shape = true ∧ base = recMbank d.shape * 0x20000 + recBase d.shape % 0x20000)) ∧
    elemByte d.fmt base (d.index i j) ≤ b ∧ b < elemByte d.fmt base (d.index i j) + elemSpan d.fmt

/-- The state in which an instruction on single elements takes a cause of its checks: TPROG is 0 (spec/02 R49). -/
def Sys2Proof.Claims.elementStops (s : State) (f : Form) (x : Args) (e : Exc) : State :=
  (((s.begun f x).modC fun c => c.setTprog 0).unmark s.core).raise e false false

/-- What every tile operand of an engine command needs (R263). -/
def Sys2Proof.Claims.engineTile (c : Core) (v : View) : Prop := c.streams = [] ∧ v.shapeOk = true ∧ c.mirrorOk v = true

/-- A queue with its next command behind the joins in force and what still writes its source, as an instruction with SOFF `soff`
leaves it; a timed one completes on cycle `finish` (R263, spec/06 R126, spec/14 R270). -/
def Sys2Proof.Claims.queued (c : Core) (q : BitVec 2) (k : TransferKind) (soff : BitVec 8) (finish : Nat := 0) : Core :=
  { c with xq := c.xq.set q.toNat (c.xq.get q.toFin ++ [{ id := c.xnext.get q.toFin, kind := k, rows := 0, begun := false, done := false
                                                          skipped := none, timed := c.timed.active
                                                          start := if c.timed.active then c.now + soff.toNat else 0, issued := c.now
                                                          finish := finish
                                                          need := c.joins[q.toNat]?.getD [] ++ c.writersOf (k.source c)
                                                          hm := c.handler }]) q.isLt
           xnext := c.xnext.set q.toNat ((c.xnext.get q.toFin + 1) % 2 ^ 48) q.isLt }

/-- The card that a post of 64 bytes makes in field i, once it is dealable. -/
def Sys2Proof.Claims.postedCard (s : State) (i : Nat) (bs : List Byte) (die quad : Nat) : Card :=
  let c : Card :=
    { serial := (s.fieldAt i).serial, words := cardWords bs, level := 0, since := s.cyc, due := none, inSlot := true, depDone := true
      depTick := s.tick, ready := true, undealt := [], parts := 0, die := die, quad := quad, state := .queued }
  { c with level := c.prio, parts := s.participants i c, undealt := [(0, c.rcount)] }

/-- What a core finds at entry to record n of a card of its field. -/
def Sys2Proof.Claims.entered (d : Card) (n fcn rank : Nat) (c : Core) : Prop :=
  c.run = .running ∧ c.pc = BitVec.ofNat 14 d.entry ∧ c.readS 1#5 = d.rbase + BitVec.ofNat 64 (n * d.recSize) ∧
  c.readS 2#5 = BitVec.ofNat 64 n ∧ c.readS 3#5 = BitVec.ofNat 64 fcn ∧ c.readS 4#5 = BitVec.ofNat 64 rank ∧
  (∀ k : BitVec 5, 5 ≤ k.toNat → c.readS k = 0#64) ∧ (∀ k : BitVec 3, c.readP k = decide (k = 0#3)) ∧ (∀ k, c.readQ k = 0#64) ∧
  c.handler = false ∧ c.streams = [] ∧ c.wait = .none

/-- The size of the next chunk: the larger of MINCH and the undealt records over DIV times P, rounded up, no more than the first run
of undealt records (R352). -/
def Sys2Proof.Claims.nextSize (c : Card) (len : Nat) : Nat :=
  min (min (max c.minch ((c.left + c.div * c.parts - 1) / (c.div * c.parts))) c.left) len

/-- Words that the spec writes out: NOP (R192), the REP of R189's example, LIW (spec/07), SYSRD s9, EPC (R295), the TADD of
spec/07 under its guard, and MMA.na (spec/16). -/
def Obligations.SpecWordsDecode : Prop :=
  decode 0x300000000000000000000100#96 = .ok (.nop ⟨⟨false, 0#3, 1#8, false, false, false⟩, .s 0#5, .s 0#5, .s 0#5⟩) ∧
  decode 0x328000008000C00002200100#96 =
    .ok (.rep ⟨⟨false, 0#3, 1#8, false, false, false⟩, .s 0#5, .imm 3#15, .s 0#5⟩ ⟨1#3, 2#5⟩) ∧
  decode 0x07801C00123456789ABC0000#96 = .ok (.liw ⟨false, 0#3, 0#8, false, false, false⟩ (.s 7#5) 0x123456789ABC#48) ∧
  decode 0xF88024000000000000010100#96 =
    .ok (.sysrd ⟨⟨false, 0#3, 1#8, false, false, false⟩, .s 9#5, .s 0#5, .s 0#5⟩ 1#12) ∧
  decode 0x81091000420010E000000180#96 =
    .ok (.tadd ⟨⟨false, 2#3, 1#8, true, false, false⟩, .t 4#5 false false false, .t 2#5 false false false,
      .t 3#5 true false false⟩ ⟨0#2, 0#4, 0#2, 0#4⟩) ∧
  decode 0xC1012000A10028C002000100#96 =
    .ok (.mma ⟨⟨false, 0#3, 1#8, false, false, false⟩, .t 8#5 false false false, .o 1#4, .o 3#4⟩
      ⟨true, false, false, false, false⟩) ∧
  decode 0#96 = .ok (.wordNotInstruction 0#96)

/-- Decoding what was encoded gives the instruction back, every operand and MOD field at every value. -/
def Obligations.DecodeOfEncode : Prop :=
  ∀ (i : Instr) (w : InstrWord), WellFormed i = true → encode i = some w → decode w = .ok i

/-- A word is accepted only when it is exactly the encoding of the instruction, which is well-formed. The twelve bytes of a
word hold it (R140). -/
def Obligations.AcceptedWordIsItsEncoding : Prop :=
  (
    ∀ (i : Instr) (w : InstrWord), decode w = .ok i → WellFormed i = true ∧ encode i = some w
  ) ∧
  (
    ∀ w : InstrWord, (wordBytes w).length = 12 ∧ wordOfBytes (wordBytes w) = w ∧
      ∀ k < 12, (wordBytes w)[k]? = some (w.extractLsb' (8 * k) 8)
  )

/-- A step runs the decoded instruction: where the schedule lets the focused core issue and its word is not stale, the step is
`exec` of the instruction that the word at the program counter decodes to. The same where the agenda is empty, the round of
the focus does not end here, nothing is due and nothing else can happen. A word that breaks the encoding checks raises
RESERVED_FIELD (check 2 of R152); on a memory core one with an OP value of the matrix unit or the Rood engine ILLEGAL_OP
(check 1, spec/06 R137). An agenda entry that is an event runs it, without power only POWER_ON. Around the instruction or event
the step counts the cycles of clock-gated and idle cores in DSTATS (spec/23 R402), which changes registers of chiplets and
nothing else. The schedule that names who acts next is the model's (log entry 2). -/
def Obligations.StepRunsTheDecodedInstruction : Prop :=
  (
    ∀ (s : State) (rest : List Turn) (i : Instr),
      s.agenda = .issue :: rest → { s with agenda := rest }.canIssue = true →
      (s.core.fetched.find? fun f => f.1 == s.core.pc.toNat) = none →
      decode (wordOfBytes (Mem.getBytes s.core.istore (12 * s.core.pc.toNat) 12)) = .ok i →
      step s = s.counted (exec i ({ s with agenda := rest }.limitRows none))
  ) ∧
  (
    ∀ (s : State) (i : Instr),
      s.agenda = [] → s.canIssue = true → s.core.ganged = false → s.core.wait = .none → s.leases = [] → s.race = [] →
      s.stint % roundLength ≠ 0 →
      let t := { s with stint := s.stint + 1 }
      t.dueFirst = none → t.unitEvents = [] → t.aroundEvents = [] →
      (s.core.fetched.find? fun f => f.1 == s.core.pc.toNat) = none →
      decode (wordOfBytes (Mem.getBytes s.core.istore (12 * s.core.pc.toNat) 12)) = .ok i →
      step s = s.counted (exec i (t.limitRows none))
  ) ∧
  (
    ∀ (s : State) (rest : List Turn) (r : Reject) (w : InstrWord),
      s.agenda = .issue :: rest → { s with agenda := rest }.canIssue = true → s.core.ganged = false →
      (s.core.fetched.find? fun f => f.1 == s.core.pc.toNat) = none →
      w = wordOfBytes (Mem.getBytes s.core.istore (12 * s.core.pc.toNat) 12) → decode w = .error r →
      step s = .next (s.countWaits (({ s with agenda := rest }.limitRows none).takes (headOf w)
        (cause (if s.core.memc = true ∧ matrixOp w = true then 0x01#8 else 0x02#8))))
  ) ∧
  (
    ∀ (s : State) (rest : List Turn) (i : Instr),
      s.agenda = .event i :: rest → isWord i = false → (s.modState.powered = true ∨ i = .powerOn) →
        step s = s.counted (exec i { s with agenda := rest })
  ) ∧
  (
    ∀ (s : State) (o : Host.Outcome State Fault Refusal), ∃ chips, s.counted o = (match o with
      | .next t => .next { t with chips := chips }
      | o => o)
  )

/-- No instruction and no event stops the machine: `exec` always answers a next state. The one fault: nothing is scheduled and
the module has no power (R6). That an unpowered machine with nothing scheduled stops is the model's (log entry 2). -/
def Obligations.EveryInstructionAnswersANextState : Prop :=
  (
    ∀ (i : Instr) (s : State), ∃ t, exec i s = .next t
  ) ∧
  (
    ∀ s : State, (∃ t, step s = .next t) ∨ (step s = .fault .unpowered ∧ s.agenda = [] ∧ s.modState.powered = false)
  )

/-- What the register maps and bring-up give for reset: the core's special registers, the format registers, the operand slots, a
chiplet, a field's block. The scalar registers, queue entries, predicates p1 to p7, tile registers, CTXID and PRIO hold 0, and
the memories list nothing and are in canonical form: the spec gives them no reset value, and both are the model's choice (log
entries 3 and 4). -/
def Obligations.ResetState : Prop :=
  (
    State.reset.chips = [] ∧ Chip.reset.bus = .dark ∧ State.reset.core.run = .dark ∧
    State.reset.core.sys.contain = 0x00000000AA000055#64 ∧ State.reset.core.sys.mode = 0x8#64 ∧
    State.reset.core.sys.tvec = 0#64 ∧ State.reset.core.sys.epc = 0#64 ∧ State.reset.core.sys.eva = 0#64 ∧
    bits State.reset.core.sys.cause 43 32 = 0xFFF ∧ bits State.reset.core.sys.cause 31 0 = 0 ∧
    State.reset.core.sys.repst = 0#64 ∧ State.reset.core.sys.erepst = 0#64 ∧ State.reset.core.timed.active = false ∧
    (∀ n : Fin 4, State.reset.core.sys.scr.get n = 0#64) ∧ State.reset.agenda = []
  ) ∧
  (
    let y := State.reset.core.sys
    [y.erepst, y.tprog, y.barst, y.racest, y.collctl, y.xfault, y.alost, y.aecho, y.tflt, y.xprog, y.markpc, y.markcyc, y.pmarkpc,
      y.pmarkcyc] = List.replicate 14 0#64 ∧
    (∀ n : Fin 4, y.xdone.get n = 1#64 ∧ y.gdone.get n = 1#64 ∧ y.hasp.get n = 0#64) ∧
    (∀ b : Fin 16, State.reset.core.bfmt.get b = 0x1000#32) ∧
    (∀ n : Fin 16, (State.reset.core.slots.get n).issue = .free ∧ (State.reset.core.slots.get n).perf = .free) ∧
    Chip.reset.croot = 0x3FF ∧ Chip.reset.root = 0x3FF ∧ Chip.reset.master = 0x3FF ∧ Chip.reset.pport = 7 ∧ Chip.reset.cport = 7 ∧
    Chip.reset.troot = 0#64 ∧ (∀ i : Fin 16, (State.reset.fields.get i).valid = false ∧ (State.reset.fields.get i).killrec = 0xFFF#64)
  ) ∧
  (
    (∀ n : BitVec 5, State.reset.core.readS n = 0#64) ∧ (∀ n : BitVec 4, State.reset.core.readQ n = 0#64) ∧
    (∀ n : BitVec 3, State.reset.core.readP n = decide (n = 0#3)) ∧ (∀ n : BitVec 5, State.reset.core.tile n = 0#128) ∧
    State.reset.core.sys.ctxid = 0#64 ∧ State.reset.core.sys.prio = 0#64
  ) ∧
  (
    State.reset.memWf = true ∧ State.reset.mem = [] ∧ State.reset.core.ls = [] ∧ State.reset.core.istore = []
  )

/-- Every step keeps the canonical form of the memories (log entry 4). That a listed byte differs from 0 is the model's form
(log entry 4). -/
def Obligations.StepKeepsMemoriesCanonical : Prop :=
  ∀ s t : State, s.memWf = true → step s = .next t → t.memWf = true

/-- A byte that is written reads as written, every other byte as before. -/
def Obligations.ByteReadsAsWritten : Prop :=
  ∀ (m : Mem) (a : Nat) (bs : List Byte), Mem.wf m = true →
    (∀ k (h : k < bs.length), Mem.get (Mem.putBytes m a bs) (a + k) = bs[k]) ∧
    (∀ b, (b < a ∨ a + bs.length ≤ b) → Mem.get (Mem.putBytes m a bs) b = Mem.get m b)

/-- What issuing and retiring an instruction leave: everything but the focused core, the clock and the counter of free values;
of the core, everything but what `issueOnly` names; and in a free phase outside a repetition the next instruction is at the
next index. A word whose guard is false, its predicate being there, occupies its issue slot and has no other effect (R141).
The counter of free values is the model's own field (log entries 5 and 6). -/
def Obligations.IssueFrame : Prop :=
  (
    ∀ (s : State) (h : Head),
      let t := s.completes h id
      s.onlyCore t ∧ s.core.issueOnly t.core ∧ s.continues t h ∧
      (s.core.timed.active = false → repAct s.core.sys.repst = false → s.core.pc ≠ 16383#14 →
        t.core.pc = s.core.pc + 1#14 ∧ t.core.sys = s.core.sys ∧ t.core.timed = s.core.timed)
  ) ∧
  (
    ∀ (i : Instr) (w : InstrWord) (s : State),
      WellFormed i = true → encode i = some w → notAnInstruction w = false → s.core.ganged = false → s.core.memc = false →
      s.preemptDue (headOf w) = false → s.core.skip = false → s.core.guard (headOf w) = false →
      (s.core.timed.active = false ∨ (s.clock (headOf w)).core.earlyScalar (.p (headOf w).gp false) = false) →
      Yields i s fun t => s.onlyCore t ∧ t.core = (s.completes (headOf w) id).core
  )

/-- A privileged instruction in user mode raises PRIV and changes nothing else (R283). A word that is no instruction raises
ILLEGAL_OP (R151, check 1 of R152). Completion (exec answers a next state, under conditions on the state and operands alone)
is stated for: wordNotInstruction. -/
def Obligations.IllegalAndPrivilegedWords : Prop :=
  (
    ∀ (i : Instr) (s : State) (m : BitVec 12) (x : Args),
      (i = .eret x ∨ i = .ackpre x ∨ i = .haltc x ∨ i = .vinvPage x ∨ i = .vinvAll x ∨ i = .dflush x ∨ i = .syswr x m ∨
        i = .aechoRead x ∨ i = .aechoWrite x ∨ (i = .sysrd x m ∧ userReadable m.toNat = false)) →
      s.core.ganged = false → s.preemptDue x.head = false → s.core.skip = false →
      s.core.guard x.head = true → s.core.handler = false → s.core.timed.active = false → repAct s.core.sys.repst = false →
      exec i s = .next (s.takes x.head (cause 0x03#8))
  ) ∧
  (
    ∀ (w : InstrWord) (s : State), s.core.ganged = false →
      exec (.wordNotInstruction w) s = .next (s.takes (headOf w) (cause 0x01#8))
  )

/-- s0 and p0 read as 0 and true and discard writes; a written register or predicate reads as written, the others as before
(R45). A push makes its value Q(0) and deepens every other by one; the sixteenth is lost (R46). A scalar write leaves
everything of the core but registers, queue and predicates. -/
def Obligations.RegistersReadAsWritten : Prop :=
  (
    ∀ (c : Core) (v : Word) (b : Bool),
      (∀ n m : BitVec 5, (c.writeS n v).readS m = if m = 0#5 then 0#64 else if m = n then v else c.readS m) ∧
      (∀ n m : BitVec 3, (c.writeP n b).readP m = if m = 0#3 then true else if m = n then b else c.readP m) ∧
      c.writeS 0#5 v = c ∧ c.writeP 0#3 b = c
  ) ∧
  (
    ∀ (c : Core) (v : Word), (c.push v).readQ 0#4 = v ∧
      (∀ n : BitVec 4, n ≠ 15#4 → (c.push v).readQ (n + 1#4) = c.readQ n) ∧ (c.push v).pushes = c.pushes + 1 ∧
      (∀ n, (c.push v).readS n = c.readS n) ∧ (∀ n, (c.push v).readP n = c.readP n)
  ) ∧
  (
    ∀ (s : State) (h : Head) (d : Operand) (v : Word),
      let t := s.completes h fun c => c.writeD d v
      s.onlyCore t ∧ s.core.scalarOnly t.core ∧ s.continues t h ∧ (∀ a, Mem.get t.mem a = Mem.get s.mem a) ∧
      (∀ a, Mem.get t.core.ls a = Mem.get s.core.ls a) ∧
      (∀ n, d ≠ .s n → t.core.readS n = s.core.readS n) ∧ (∀ n, (∀ inv, d ≠ .p n inv) → t.core.readP n = s.core.readP n) ∧
      ((∀ age, d ≠ .q age) → t.core.q = s.core.q)
  )

/-- Every row of R180's table but CMP and SEL, with the divisions of R181: the result of the operands' values goes to D, and
the next instruction follows. Completion (exec answers a next state, under conditions on the state and operands alone) is
stated for: add_, sub_, mul_, mulh, mulhn, div_, divn, mod_, modn, and_, or_, xor_, andn, orn, shl, shr, sha, rol, min_, max_,
minn, maxn, clz, ctz, popc, sext, zext, bfx, bfi, mov, liw, lea. -/
def Obligations.IntegerResults : Prop :=
  ∀ (i : Instr) (s : State) (form : Form) (x : Args) (f : Word → Word → Word),
    integerRow i = some (form, x, f) → s.issues form x = true →
    exec i s = .next (s.finishes form x fun c => c.writeD x.d (f (s.core.value x.a) (s.core.value x.b)))

/-- CMP (R182) and the predicate instructions (R187) write their truth value to the predicate D. Completion (exec answers a
next state, under conditions on the state and operands alone) is stated for: cmp, pand, por, pxor, pnot. -/
def Obligations.PredicateResults : Prop :=
  ∀ (i : Instr) (s : State) (x : Args) (f : Word → Word → Bool) (n : BitVec 3),
    predicateRow i = some (x, f) → x.d = .p n false →
    (∃ m, i = .cmp x m) ∨ ((∃ k inv, x.a = .p k inv) ∧ ((∃ k inv, x.b = .p k inv) ∨ i = .pnot x)) →
    s.issues plainForm x = true →
    exec i s = .next (s.finishes plainForm x fun c => c.writeP n (f (s.core.value x.a) (s.core.value x.b)))

/-- SEL writes or pushes b where the predicate A holds, else the alternative: D as it stands, Q(0) for a queue destination
(R183). FFMA rounds a × b + c once, c being bits 31..0 of the same alternative (R185). Completion (exec answers a next state,
under conditions on the state and operands alone) is stated for: sel, ffma. -/
def Obligations.SelectAndFusedResults : Prop :=
  (∀ (c : Core) (v : Word), c.writeD (.q 0#4) v = c.push v ∧ (c.push v).readQ 0#4 = v ∧ (c.push v).readQ 1#4 = c.readQ 0#4) ∧
  ∀ (s : State) (x : Args),
    ((∃ n, x.d = .s n) ∨ x.d = .q 0#4) → s.issues (readsBack x 1) x = true →
    let alt := match x.d with
      | .s n => s.core.readS n
      | _ => s.core.readQ 0#4
    (∀ n inv, x.a = .p n inv → exec (.sel x) s = .next (s.finishes (readsBack x 1) x fun c =>
      c.writeD x.d (if s.core.readP n != inv then s.core.value x.b else alt))) ∧
    (∀ m, s.issues (readsBack x 4) x = true → exec (.ffma x m) s = .next (s.finishes (readsBack x 4) x fun c =>
      c.writeD x.d (toF32 (roundingOf m) (((f32 s.core x.a).mul (f32 s.core x.b)).add (roundingOf m)
        (binary32.decode (alt.toNat % 2 ^ 32))))))

/-- The rows of R184's table but FFMA, with the clamps of R186. Completion (exec answers a next state, under conditions on the
state and operands alone) is stated for: fadd, fsub, fmul, fmin, fmax, fcmp, fcvti, fcvtf, frsqs, frcps. -/
def Obligations.FloatResults : Prop :=
  ∀ (i : Instr) (s : State) (x : Args) (f : Core → Word),
    floatRow i = some (x, f) → s.issues (takesCycles 4) x = true →
    exec i s = .next (s.finishes (takesCycles 4) x fun c => c.writeD x.d (f s.core))

/-- BRA, BRX, CALL and RET go to their target index; one outside 0 to 16,383 raises PROT and changes nothing else (R188). LOOP
decrements its counter and branches while it is not 0; an untaken LOOP does not check its target (R188). WAITC and YIELD
complete at once where their cycle has come, and else wait for it: the target of WAITC is FCYC + w, under `.abs` w itself;
YIELD pauses for y cycles (R190, R191). Completion (exec answers a next state, under conditions on the state and operands
alone) is stated for: loop, waitc, yield, bra, brx, call, ret. -/
def Obligations.ControlTransfers : Prop :=
  (
    ∀ (i : Instr) (s : State) (x : Args) (target : Core → Word) (f : Core → Core),
      transferRow i = some (x, target, f) → s.issues controlForm x = true →
      ((target s.core).toNat < 16384 → exec i s = .next (s.branches controlForm x (target s.core).toNat f)) ∧
        (16384 ≤ (target s.core).toNat → exec i s = .next (s.stops controlForm x (cause 0x06#8)))
  ) ∧
  (
    ∀ (s : State) (x : Args) (n : BitVec 5) (k : BitVec 15),
      x.d = .s n → x.a = .imm k → n ≠ 0#5 → s.issues { controlForm with reads := [x.d] } x = true →
      let f : Form := { controlForm with reads := [x.d] }
      let v := s.core.readS n - 1#64
      (v = 0#64 → exec (.loop x) s = .next (s.finishes f x fun c => c.writeS n v)) ∧
      (v ≠ 0#64 → k.toNat < 16384 → exec (.loop x) s = .next (s.branches f x k.toNat fun c => c.writeS n v)) ∧
      (v ≠ 0#64 → 16384 ≤ k.toNat → exec (.loop x) s = .next (s.stops f x (cause 0x06#8)))
  ) ∧
  (
    ∀ (s : State) (x : Args), s.issues freeForm x = true → s.core.rank = 0 → s.core.wait = .none →
      let now := ((s.clock x.head).fcyc s.core).toNat
      let w := (s.core.value x.a).toNat
      let until_ := fun (target : Nat) (wait : Wait) => Host.Outcome.next (if target ≤ now then s.completes x.head id
        else (s.clock x.head).modC fun c => { c with wait := wait })
      (∀ abs : Bool, let target := if abs then w else now + w
        exec (.waitc x abs) s = until_ target (.cycle target)) ∧
      exec (.yield x) s = until_ (now + w) (.pause (now + w))
  )

/-- NOP has no effect but its issue slot; it is OP 0x0C0 with D, A, B and MOD zero, with DELTA 1 the word below; the all-zero
word is not a NOP (R192). Completion (exec answers a next state, under conditions on the state and operands alone) is stated
for: nop. -/
def Obligations.NopHasNoEffect : Prop :=
  (∀ (s : State) (x : Args), s.issues plainForm x = true → exec (.nop x) s = .next (s.finishes plainForm x id)) ∧
  (∀ (w : InstrWord) (x : Args), decode w = .ok (.nop x) → w.extractLsb' 86 10 = 0x0C0#10 ∧ w.extractLsb' 16 66 = 0#66) ∧
  decode 0x300000000000000000000100#96 = .ok (.nop ⟨⟨false, 0#3, 1#8, false, false, false⟩, .s 0#5, .s 0#5, .s 0#5⟩) ∧
  (∀ x, decode 0#96 ≠ .ok (.nop x))

/-- REP with n from 1 to 65,535 starts a repetition of its body; n = 0 skips the body; a greater n raises RESERVED_FIELD, and
a body past index 16,383 PROT (R189). A repetition counts: within the body the next position follows, at its end the next pass
from the first instruction, after the last pass ACT is cleared (R47, R48, R189). In pass p of a repetition with stride k, tile
n is tile n + p × k mod 32 and slot n is slot n + p × k mod 16; the other kinds keep their numbers (R47). Completion (exec
answers a next state, under conditions on the state and operands alone) is stated for: rep. -/
def Obligations.Repetition : Prop :=
  (
    ∀ (s : State) (x : Args) (m : RepM), s.issues controlForm x = true →
      let n := (s.core.value x.a).toNat
      let k := m.k1.toNat + 1
      (65535 < n → exec (.rep x m) s = .next (s.stops controlForm x (cause 0x02#8))) ∧
      (n ≤ 65535 → 16383 < s.core.pc.toNat + k → exec (.rep x m) s = .next (s.stops controlForm x (cause 0x06#8))) ∧
      (n = 0 → s.core.pc.toNat + k + 1 ≤ 16383 →
        exec (.rep x m) s = .next (s.branches controlForm x (s.core.pc.toNat + k + 1) id)) ∧
      (1 ≤ n → n ≤ 65535 → s.core.pc.toNat + k ≤ 16383 → Yields (.rep x m) s fun t =>
        s.onlyCore t ∧ t.core.pc = s.core.pc + 1#14 ∧ bits t.core.sys.repst 0 0 = 1 ∧ bits t.core.sys.repst 6 4 = 0 ∧
        bits t.core.sys.repst 10 7 = k ∧ bits t.core.sys.repst 15 11 = m.stride.toNat ∧ bits t.core.sys.repst 31 16 = n ∧
        bits t.core.sys.repst 47 32 = 0)
  ) ∧
  (
    ∀ s : State, repAct s.core.sys.repst = true → s.core.pc ≠ 16383#14 →
      let r := s.core.sys.repst
      let t := s.advance
      let r' := t.core.sys.repst
      (bits r 6 4 + 1 < bits r 10 7 → t.core.pc = s.core.pc + 1#14 ∧ bits r' 6 4 = bits r 6 4 + 1 ∧ bits r' 47 32 = bits r 47 32 ∧
        repAct r' = true) ∧
      (bits r 6 4 + 1 = bits r 10 7 → bits r 47 32 + 1 < bits r 31 16 →
        t.core.pc = s.core.pc - BitVec.ofNat 14 (bits r 10 7 - 1) ∧ bits r' 6 4 = 0 ∧ bits r' 47 32 = bits r 47 32 + 1 ∧
        repAct r' = true) ∧
      (bits r 6 4 + 1 = bits r 10 7 → bits r 47 32 + 1 = bits r 31 16 → t.core.pc = s.core.pc + 1#14 ∧ repAct r' = false)
  ) ∧
  (
    ∀ (x : Args) (r : Word), repAct r = true →
      (∀ n neg trn alt, x.d = .t n neg trn alt →
        (passArgs x r).d = .t (BitVec.ofNat 5 ((n.toNat + bits r 47 32 * bits r 15 11) % 32)) neg trn alt) ∧
      (∀ n, x.a = .o n → (passArgs x r).a = .o (BitVec.ofNat 4 ((n.toNat + bits r 47 32 * bits r 15 11) % 16))) ∧
      (∀ n, x.a = .s n → (passArgs x r).a = .s n) ∧ (∀ n, x.b = .q n → (passArgs x r).b = .q n) ∧
      (∀ n inv, x.b = .p n inv → (passArgs x r).b = .p n inv) ∧ (passArgs x r).head = x.head
  )

/-- Taking a trap saves EPC, EVA, CAUSE and REPST, clears REPST and the reuse buffers, enters handler mode and fetches at
TVEC.INDEX (R364, R365); EVA is 0 for a cause without an address; a return that was to skip its instruction stays so in DONE;
every entry but PREEMPT keeps the rest of the core but the wait and the timed region with its timetable, whose accesses end
before the handler issues. PREEMPT entry moves the shape records and stream bindings out: every tile register holds the zero
record (R377). An arrival that a gang's member has made at a barrier counts as performed (log entry 92). -/
def Obligations.TrapEntry : Prop :=
  (
    ∀ (c : Core) (e : Exc) (sibling done : Bool),
      let d := c.trapEntry e sibling done
      d.pc = c.sys.tvec.truncate 14 ∧ d.sys.epc = c.pc.zeroExtend 64 ∧
      d.sys.eva = (if e.deferred = true ∨ e.code.toNat ∈ addressCauses then e.eva else 0#64) ∧ d.sys.erepst = c.sys.repst ∧
      d.sys.repst = 0#64 ∧ d.sys.mode.getLsbD 0 = true ∧ (∀ k, 1 ≤ k → d.sys.mode.getLsbD k = c.sys.mode.getLsbD k) ∧
      d.reuseA = none ∧ d.reuseB = none ∧
      bits d.sys.cause 7 0 = e.code.toNat ∧ d.sys.cause.getLsbD 8 = e.deferred ∧ d.sys.cause.getLsbD 9 = sibling ∧
      d.sys.cause.getLsbD 10 = (done || c.skip || c.arrived) ∧ d.sys.cause.getLsbD 11 = c.timed.active ∧
      bits d.sys.cause 13 12 = (causeClass e.code).getD 0 ∧ bits d.sys.cause 43 32 = e.other.toNat ∧
      (e.code ≠ 0x16#8 → d = { c with
        pc := d.pc, reuseA := none, reuseB := none, wait := .none, wake := none, arrived := false
        timed := { c.timed with active := false, leaving := false }, board := { Board.reset with made := c.board.made }
        skip := false, rowLimit := none, lag := [], solo := false, holdUntil := max c.holdUntil c.unitsEnd
        sys := { c.sys with epc := d.sys.epc, eva := d.sys.eva, cause := d.sys.cause, erepst := d.sys.erepst, repst := 0#64
                            mode := d.sys.mode } })
  ) ∧
  (
    ∀ (c : Core) (sibling done : Bool),
      let d := c.trapEntry (cause 0x16#8) sibling done
      (∀ n, d.tile n = 0#128) ∧ d.streams = [] ∧ d.hwImage = some (c.tiles, c.streams) ∧ d.preemptPend = false ∧
      d.regs = c.regs ∧ d.q = c.q ∧ d.preds = c.preds ∧ d.slots = c.slots ∧ d.bfmt = c.bfmt ∧ d.ls = c.ls
  )

/-- With CONTAIN at its reset value, a cause of any class traps a user-mode core outside a timed region, alone (R369, R370).
With CONTAIN at its reset value, a cause raised in handler mode kills the core's field, level 3 (R367, R370). A killed core
stops with its engine, matrix and static work cancelled and its state frozen (R371); no cause reaches it any more. -/
def Obligations.Containment : Prop :=
  (
    ∀ (s : State) (e : Exc), s.core.sys.contain = 0x00000000AA000055#64 → s.core.handler = false →
      s.core.timed.active = false → s.core.run ≠ .killed → s.raise e false false = s.enter e false false
  ) ∧
  (
    ∀ (s : State) (e : Exc) (cls : Nat), s.core.sys.contain = 0x00000000AA000055#64 → s.core.handler = true →
      s.core.run ≠ .killed → causeClass e.code = some cls →
      s.raise e false false = s.kill (inScope 3 s.core) 3 cls e.code s.core.lcn
  ) ∧
  (
    ∀ c : Core,
      let d := c.killed
      d.run = .killed ∧ d.mq = [] ∧ d.works = [] ∧ d.lanes = [] ∧ d.chunk = none ∧ d.timed.active = false ∧
      (∀ n : Fin 4, d.xq.get n = [] ∧ d.gq.get n = []) ∧
      d.regs = c.regs ∧ d.q = c.q ∧ d.pc = c.pc ∧ d.sys = c.sys ∧ d.ls = c.ls ∧ d.tiles = c.tiles ∧ d.slots = c.slots
  ) ∧
  (
    ∀ (s : State) (e : Exc) (sibling done : Bool), s.core.run = .killed → s.raise e sibling done = s
  )

/-- TRAP in user mode takes cause 0x18 and BKPT, while MODE.BRKEN is 1, cause 0x19: EPC at the instruction, EVA := n, a
repetition in EREPST, fetch at TVEC. With BRKEN 0, and in handler mode, BKPT only takes its slot; TRAP in handler mode
consults containment for class n mod 4 with the cause being handled (R293, spec/21 R367). Completion (exec answers a next
state, under conditions on the state and operands alone) is stated for: trap, bkpt. -/
def Obligations.TrapAndBkpt : Prop :=
  ∀ (s : State) (x : Args), s.core.wait = .none → s.core.run ≠ .killed →
    let n := s.core.value x.a
    let u := s.clock x.head
    let takes := fun (i : Instr) (code : BitVec 8) => Yields i s fun t => t = u.modC (fun c => c.trapEntry (causeAt code n) false false) ∧
      bits t.core.sys.cause 7 0 = code.toNat ∧ t.core.sys.cause.getLsbD 8 = false ∧ t.core.sys.epc = s.core.pc.zeroExtend 64 ∧
      t.core.sys.eva = n ∧ t.core.sys.erepst = s.core.sys.repst ∧ t.core.handler = true ∧ t.core.pc = s.core.sys.tvec.truncate 14
    (s.issues { freeForm with alone := true } x = true →
      (s.core.handler = false → takes (.trap x) 0x18#8) ∧
      (s.core.handler = true → exec (.trap x) s =
        .next (u.contain (cause (BitVec.ofNat 8 (bits s.core.sys.cause 7 0))) (n.toNat % 4) false false))) ∧
    (s.issues freeForm x = true →
      (s.core.handler = false → s.core.brken = true → takes (.bkpt x) 0x19#8) ∧
      (s.core.handler = true ∨ s.core.brken = false → exec (.bkpt x) s = .next (s.completes x.head id)))

/-- ERET in handler mode: user mode at EPC, REPST from EREPST, XFAULT.VALID, ALOST.VALID and ESTAT cleared, CAUSE.DONE
cleared; in a gang the instruction at EPC is skipped where it was set (R294). Registers and queue stay, but for the handle of
a dropped XLEASE (spec/06 R125, R127); other cores but for the release of a restored timed region (spec/08 R167). The
instruction a returning gang member had performed issues without effect and without a push (R294 step 5, R13). A core that
waits for nothing serves, in a free phase in user mode, deferred causes first, oldest first, then COLLECTIVE_ABORT, then
PREEMPT (R366), this one only while no chunk is half stored to CQIN (spec/05 R116) and never in a timed region; handler mode
holds them all; an idle or halted core is pre-empted too (R297, spec/21 R376). Completion (exec answers a next state, under conditions on the state and operands alone) is
stated for: eret, pendingCauseService. -/
def Obligations.ReturnAndPendingCauses : Prop :=
  (
    (∀ c : Core, c.eret.skip = (c.ganged && c.sys.cause.getLsbD 10)) ∧
    ∀ (s : State) (x : Args), s.issuesFree { privForm with alone := true } x = true →
      let u := s.clock x.head
      exec (.eret x) s = .next ((u.modC Core.eret).rearrive (s.core.sys.cause.getLsbD 15) (u.fcyc s.core)) ∧
      Yields (.eret x) s fun t =>
        t.core.pc = BitVec.ofNat 14 (bits s.core.sys.epc 13 0) ∧ t.core.handler = false ∧ t.core.sys.repst = s.core.sys.erepst ∧
        t.core.sys.xfault.getLsbD 63 = false ∧ bits t.core.sys.alost 63 61 = 0 ∧ t.core.sys.cause.getLsbD 10 = false ∧
        t.core.skip = false ∧ t.core.xstop = none ∧
        (s.core.sys.xfault.getLsbD 62 = false → t.core.regs = s.core.regs ∧ t.core.q = s.core.q) ∧ t.core.preds = s.core.preds ∧ t.core.ls = s.core.ls ∧ t.core.sys.tprog = s.core.sys.tprog ∧
        (s.core.sys.cause.getLsbD 15 = false → t.core.tiles = s.core.tiles ∧ s.onlyCore t)
  ) ∧
  (
    ∀ (s : State) (f : Form) (x : Args) (body : Args → State → Res),
      s.core.ganged = false → s.preemptDue x.head = false → s.core.skip = true →
      issue f x s body = .next (((s.clock x.head).modC fun c => { c with skip := false }).retire)
  ) ∧
  (
    ∀ (s : State), s.core.ganged = false → s.core.run = .running → s.core.handler = false → s.core.timed.active = false →
      s.core.wait = .none → s.core.wake = none → s.core.sys.contain = 0x00000000AA000055#64 →
      (∀ d rest, s.core.deferred = d :: rest →
        exec .pendingCauseService s = .next (s.modC fun c => { c with deferred := c.deferred.erase d }.trapEntry d.exc false false)) ∧
      (s.core.deferred = [] → s.core.abortRaise = true →
        exec .pendingCauseService s =
          .next (s.modC fun c => { c with abortPend := false, abortRaise := false }.trapEntry (cause 0x12#8) false false)) ∧
      (s.core.deferred = [] → s.core.abortRaise = false → s.core.abortPend = true →
        exec .pendingCauseService s =
          .next (s.modC fun c => { c with abortPend := false, abortRaise := false, run := .running, idled := false }.trapEntry
            (cause 0x12#8) false false)) ∧
      (s.core.deferred = [] → s.core.abortRaise = false → s.core.abortPend = false → s.core.preemptPend = true →
        s.core.wholeChunks = true → exec .pendingCauseService s = .next (s.modC fun c =>
          { c with preemptPend := false, run := .running, idled := false }.trapEntry (cause 0x16#8) false false)) ∧
      (s.core.deferred = [] → s.core.abortRaise = false → s.core.abortPend = false →
        s.core.preemptPend = false ∨ s.core.wholeChunks = false → exec .pendingCauseService s = .next s)
  ) ∧
  (
    ∀ (s : State), s.core.ganged = false → s.core.wait = .none → s.core.wake = none →
      (s.core.run = .running → s.core.handler = true → (∀ d ∈ s.core.deferred, d.hm = false) →
        exec .pendingCauseService s = .next s) ∧
      (s.core.run = .running → s.core.handler = false → s.core.timed.active = true → s.core.deferred = [] →
        s.core.abortRaise = false → s.core.abortPend = false → exec .pendingCauseService s = .next s) ∧
      (s.core.run = .idle ∨ s.core.run = .halted → s.core.preemptPend = true → s.core.wholeChunks = true →
        exec .pendingCauseService s = .next (s.modC fun c =>
          { c with preemptPend := false, run := .running, idled := c.run == RunState.idle }.trapEntry (cause 0x16#8) false false))
  )

/-- SYSRD writes the register to D: a register of the table's user column in either mode, every other one in handler mode; in
user mode those raise PRIV (R283, R295). SYSWR in handler mode: the RW fields of CAUSE, EPC, EVA, TVEC, MODE, SCR0 to SCR3 and
CONTAIN take the value's bits, their other bits and every other register stay (R295). AECHO: a write while ALOST.VALID is set
requests the echo, the reply of the place that performed the atomic fills AECHO with the atomic's old value or reports it
gone, and a read waits for the reply (R250). Completion (exec answers a next state, under conditions on the state and operands
alone) is stated for: sysrd, syswr, aechoWrite, aechoRead, atomicEchoReply. -/
def Obligations.SystemRegisters : Prop :=
  (
    ∀ (s : State) (x : Args) (m : BitVec 12) (v : Word),
      registerRow m.toNat ((s.clock x.head).fcyc s.core) (prioOf s) s.core = some v →
      (userRegisters.contains m.toNat = true → s.issuesFree freeForm x = true →
        exec (.sysrd x m) s = .next (s.completes x.head fun c => c.writeD x.d v)) ∧
      (s.issuesFree privForm x = true →
        exec (.sysrd x m) s = .next (s.completes x.head fun c => c.writeD x.d v)) ∧
      (userRegisters.contains m.toNat = false → s.core.handler = false → s.issuesFree freeForm x = true →
        exec (.sysrd x m) s = .next (s.takes x.head (cause 0x03#8)))
  ) ∧
  (
    ∀ (s : State) (x : Args) (m : BitVec 12) (mask : Word), writableRow m.toNat = some mask → s.issuesFree privForm x = true →
      Yields (.syswr x m) s fun t =>
        let old := if m = 0x004#12 then s.core.sys.mode else s.sysRead m.toNat
        let new := if m = 0x004#12 then t.core.sys.mode else t.sysRead m.toNat
        new = (old &&& ~~~mask) ||| (s.core.value x.a &&& mask) ∧ s.continues t x.head ∧ s.onlyCore t ∧
        (∀ k : Nat, k ≠ m.toNat → k ≠ 0x020 → (registerRow k 0#64 0#64 s.core).isSome = true →
          registerRow k 0#64 (prioOf t) t.core = registerRow k 0#64 (prioOf s) s.core) ∧
        t.core.regs = s.core.regs ∧ t.core.q = s.core.q ∧ t.core.preds = s.core.preds
  ) ∧
  (
    ∀ (s : State) (x : Args),
      (s.issuesFree privForm x = true → s.core.sys.alost.getLsbD 63 = true →
        Yields (.aechoWrite x) s fun t => bits t.core.sys.alost 62 61 = 1 ∧ s.continues t x.head ∧ s.onlyCore t) ∧
      (s.issuesFree privForm x = true → s.core.sys.alost.getLsbD 63 = false → exec (.aechoWrite x) s = .next (s.completes x.head id)) ∧
      (s.issuesFree privForm x = true → bits s.core.sys.alost 62 61 = 2 →
        exec (.aechoRead x) s = .next (s.completes x.head fun c => c.writeD x.d s.core.sys.aecho)) ∧
      (s.issuesFree privForm x = true → bits s.core.sys.alost 62 61 = 1 →
        exec (.aechoRead x) s = .next ((s.clock x.head).modC fun c => { c with wait := .interlock })) ∧
      (bits s.core.sys.alost 62 61 = 1 → Yields .atomicEchoReply s fun t =>
        (∀ e, (s.echo.find? fun e => some e.place == s.core.lostPlace && e.lcn == s.core.lcn && e.seq.toNat == bits s.core.sys.alost 7 0) = some e →
          bits t.core.sys.alost 62 61 = 2 ∧ t.core.sys.aecho = e.old) ∧
        ((s.echo.find? fun e => some e.place == s.core.lostPlace && e.lcn == s.core.lcn && e.seq.toNat == bits s.core.sys.alost 7 0) = none →
          bits t.core.sys.alost 62 61 = 3) ∧ s.onlyCore t)
  )

/-- ACKPRE while PREEMPT is handled, with the matrix queue, CQIN, SEND and RECV and the static writes drained: the core halts
acknowledged and its field counts it; outside PREEMPT it raises PROT (R296). HALTC halts a core that holds no chunk and is in
no gang; with a chunk it raises PROT (R297). START sends its store to a core of the field; delivered at a halted core whose
windows admit it, it begins that core in user mode at the entry instruction with s1 := b, s3 := its field core number and
everything else of the scalar side 0; at a core that is not halted it is refused with NACK (R297). Completion (exec answers a
next state, under conditions on the state and operands alone) is stated for: ackpre, haltc, start, startDelivery. -/
def Obligations.HaltingAndStarting : Prop :=
  (
    ∀ (s : State) (x : Args), s.issuesFree privForm x = true →
      (bits s.core.sys.cause 7 0 ≠ 0x16 → exec (.ackpre x) s = .next (s.takes x.head (cause 0x06#8))) ∧
      (∀ i, bits s.core.sys.cause 7 0 = 0x16 → s.core.mq = [] → s.core.cqin = [] → s.core.lanes = [] → s.core.field = some i → i < 16 → s.colls = [] →
        s.core.works = [] → s.flits = [] →
        Yields (.ackpre x) s fun t => t.core.run = .acked ∧ (t.fieldAt i).acks = (s.fieldAt i).acks + 1 ∧
          (∀ j, j ≠ i → t.fieldAt j = s.fieldAt j) ∧ (∀ a, Mem.get t.mem a = Mem.get s.mem a))
  ) ∧
  (
    ∀ (s : State) (x : Args), s.issuesFree privForm x = true →
      (s.core.chunk = none → exec (.haltc x) s = .next ((s.completes x.head id).modC fun c => { c with run := .halted })) ∧
      (s.core.chunk ≠ none → exec (.haltc x) s = .next (s.takes x.head (cause 0x06#8)))
  ) ∧
  (
    ∀ (s : State) (x : Args) (m : BitVec 4) (tgt : Core),
      let a := s.core.value x.a
      let st : Store := { space := 5#3, addr := a, phys := 0, check := false, locked := false, sid := m.toNat
                          kind := .start (s.core.value x.b), hm := s.core.handler }
      (s.issuesFree freeForm x = true → peerOff a % 12 = 0 → peerOff a < 0x30000 → s.peer a = some tgt →
        s.reach s.core.die tgt.die a.toNat ≠ some 0x06#8 → s.core.stores.length + s.core.acks.length < 64 →
        exec (.start x m) s = .next (s.completes x.head fun c => { c with stores := c.stores ++ [st] })) ∧
      (s.issuesFree freeForm x = true → peerOff a % 12 ≠ 0 →
        exec (.start x m) s = .next (s.takes x.head (causeAt 0x04#8 a))) ∧
      (∀ arg, s.core.stores = [{ st with kind := .start arg }] → s.find (peerDie a) (peerNum a) = some tgt →
        s.reach s.core.die tgt.die a.toNat = none → haspOk s.core tgt (peerOff a) false false true = true →
        tgt.is s.core.die s.core.num = false →
        Yields (.startDelivery 0) s fun t => t.core.stores = [] ∧
          (tgt.run = .halted → t.core.acks = s.core.acks ++ [⟨0#8, a, 0xFFF#12, s.core.handler⟩] ∧
            ∃ k, t.find tgt.die tgt.num = some k ∧ k.run = .running ∧ k.pc = BitVec.ofNat 14 (peerOff a / 12) ∧
              k.readS 1#5 = arg ∧ k.readS 3#5 = BitVec.ofNat 64 tgt.fcn ∧ k.handler = false ∧
              (∀ n, n ≠ 1#5 → n ≠ 3#5 → k.readS n = 0#64) ∧ (∀ n, k.readQ n = 0#64) ∧ (∀ n, k.readP n = decide (n = 0#3)) ∧
              k.tiles = tgt.tiles ∧ k.bfmt = tgt.bfmt ∧ k.slots = tgt.slots ∧ k.chunk = none) ∧
          (tgt.run ≠ .halted → t.core.acks = s.core.acks ++ [⟨0x0A#8, a, 0xFFF#12, s.core.handler⟩] ∧
            t.find tgt.die tgt.num = some tgt))
  )

/-- ISFENCE waits until every earlier INSTR store of the core has been performed, then discards every fetched word (R298).
Completion (exec answers a next state, under conditions on the state and operands alone) is stated for: isfence. -/
def Obligations.IsfenceDiscardsFetchedWords : Prop :=
  ∀ (s : State) (x : Args), s.issues freeForm x = true →
    ((∃ t ∈ s.core.stores, t.space = 5#3) →
      exec (.isfence x) s = .next ((s.clock x.head).modC fun c => { c with wait := .interlock })) ∧
    ((∀ t ∈ s.core.stores, t.space ≠ 5#3) → exec (.isfence x) s = .next (s.completes x.head fun c => { c with fetched := [] }) ∧
      (s.completes x.head fun c => { c with fetched := [] }).core.fetched = [])

/-- VINV.all, with the core's accesses performed, leaves no translation of the context in the field's dies, and VINV.page none
that holds the address (R299). DFLUSH of one line: with a descriptor within the limits the line's bytes stand at DST and the
status is OK with 1,024 bytes; an error of the CXL memory (log entry 15) leaves the line written or not, as the count in the
status says (R300). Whether the CXL memory reports an error is a free value (log entry 15). Completion (exec answers a next
state, under conditions on the state and operands alone) is stated for: vinvAll, vinvPage, dflush. -/
def Obligations.InvalidationAndFlush : Prop :=
  (
    ∀ (s : State) (x : Args),
      (s.issuesFree privForm x = true → s.core.stores = [] → s.core.acks = [] → (∀ c ∈ s.others, c.stores = []) →
        Yields (.vinvAll x) s (fun t => s.continues t x.head ∧
          ∀ e ∈ t.tlb, e ∈ s.tlb ∧ ¬(s.inField e.die = true ∧ e.ctx = s.core.ctx)) ∧
        Yields (.vinvPage x) s (fun t => s.continues t x.head ∧
          ∀ e ∈ t.tlb, e ∈ s.tlb ∧ ¬(s.inField e.die = true ∧ e.ctx = s.core.ctx ∧ e.va ≤ (s.core.value x.a).toNat ∧
            (s.core.value x.a).toNat < e.va + pageBytes e.size)))
  ) ∧
  (
    ∀ (s : State) (x : Args) (src dst : Nat) (u : State) (bs : List Byte),
      let a := s.core.value x.a
      let v := { s.clock x.head with free := (s.clock x.head).free + 1 }
      let bad := Config.cxlError (s.clock x.head).free
      let n := if bad then Config.durable (s.clock x.head).free % 2 else 1
      s.issuesFree privForm x = true → a.toNat % 32 = 0 → a.toNat < 0x200000 → s.core.mq = [] → s.core.stores = [] →
      s.race = [] → s.core.lsBad = [] → s.core.holdup = false → Mem.wf s.cxlMem = true → src < 2 ^ 64 → dst < 2 ^ 64 →
      s.core.lsBytes a.toNat 32 = toBytes 8 src ++ toBytes 8 1024 ++ toBytes 8 dst ++ toBytes 8 0 →
      flushOk (s.clock x.head) src 1024 dst 0 = true →
      v.readRun 0 (BitVec.ofNat 64 src) 1024 = .ok (u, bs) → bs.length = 1024 → u = { v with tlb := u.tlb } →
      s.core.pc ≠ 16383#14 →
      Yields (.dflush x) s fun t =>
        (n = 1 → ∀ k (h : k < bs.length), Mem.get t.cxlMem (dst + k) = bs[k]) ∧ (n = 0 → t.cxlMem = s.cxlMem) ∧
        (∀ k, (k < dst ∨ dst + 1024 ≤ k) → Mem.get t.cxlMem k = Mem.get s.cxlMem k) ∧
        t.core = (s.completes x.head fun c => c.writeD x.d (BitVec.ofNat 64 ((if bad then 2 ^ 56 else 0) + n * 1024))).core ∧
        (∀ k, Mem.get t.mem k = Mem.get s.mem k)
  )

/-- TVIEW writes one field of a's record, TEDGE the valid region; a value out of its field's range raises SHAPE, a register in
stream mode STREAM, a reuse hint on such an operand RESERVED_FIELD; TINFO returns a field, and under `.strm` whether the
register is in stream mode (R201, R203, spec/02 R44). TVIEW.origin moves the origin to element (i,j) of the tile, with the
rest of its valid region, where the element lies in the tile, starts a group or byte and lies in the tile's bank; else it
raises SHAPE (R202). A written shape record reads as written, the others and the rest of the core but the reuse buffers as
before. BFSET writes SAT, FMT and SCALE of a bank's format register, clears SATS where bit 13 is 1 and leaves the other banks;
a format out of the table or a scale with a format without one raises BANK_FMT; while an operation still uses the bank it
waits, and in a timed phase raises TIMING condition 5. BFGET reads the register (R204, spec/02 R36, R37). Completion (exec
answers a next state, under conditions on the state and operands alone) is stated for: tview, tedge, tinfo, tviewOrigin,
bfset, bfget. -/
def Obligations.ShapeAndBankInstructions : Prop :=
  (
    ∀ (s : State) (x : Args), s.issues plainForm x = true →
      let y := passArgs x s.core.sys.repst
      let b := s.core.value y.b
      let r := s.core.tileOf y.a
      (s.core.hintOk y = true → inStream s.core y.d = false → inStream s.core y.a = false →
        (∀ (m : BitVec 4) (hi lo least top z : Nat), viewRow m.toNat = some (hi, lo, least, top, z) →
          (least ≤ b.toNat → b.toNat ≤ top →
            exec (.tview x m) s = .next (s.finishes plainForm x fun c => c.writeShape (regOf y.d) (setBits r hi lo (b.toNat - least)))) ∧
          (b.toNat < least ∨ top < b.toNat → exec (.tview x m) s = .next (s.stops plainForm x (cause 0x0B#8)))) ∧
        (∀ m : BitVec 4, m.toNat ≤ 2 →
          (m = 2#4 ∨ (b.toNat < 65536 ∧ b.toNat / 256 ≤ 64 ∧ b.toNat % 256 ≤ 64) →
            exec (.tedge x m) s = .next (s.finishes plainForm x fun c => c.writeShape (regOf y.d)
              (setBits (setBits r 59 53 (edgeRow m.toNat r b.toNat).1) 66 60 (edgeRow m.toNat r b.toNat).2))) ∧
          (m ≠ 2#4 → 65536 ≤ b.toNat ∨ 64 < b.toNat / 256 ∨ 64 < b.toNat % 256 →
            exec (.tedge x m) s = .next (s.stops plainForm x (cause 0x0B#8))))) ∧
      (∀ (m : BitVec 4) (n : BitVec 5) (neg trn alt : Bool) (v : Nat), y.a = .t n neg trn alt → s.core.stream n = none →
        infoRow m.toNat (s.core.tile n) (s.core.bank (bits (s.core.tile n) 20 17)) alt = some v →
        exec (.tinfo x m) s = .next (s.finishes plainForm x fun c => c.writeD y.d (BitVec.ofNat 64 v))) ∧
      (∀ n neg trn alt, y.a = .t n neg trn alt → (s.core.stream n).isSome = true → s.core.hintOk y = true →
        exec (.tinfo x 10#4) s = .next (s.finishes plainForm x fun c => c.writeD y.d 1#64)) ∧
      (∀ m : BitVec 4, s.core.hintOk y = false →
        exec (.tview x m) s = .next (s.stops plainForm x (cause 0x02#8)) ∧
        exec (.tedge x m) s = .next (s.stops plainForm x (cause 0x02#8)) ∧
        exec (.tinfo x m) s = .next (s.stops plainForm x (cause 0x02#8))) ∧
      (∀ m : BitVec 4, s.core.hintOk y = true → inStream s.core y.d = true ∨ inStream s.core y.a = true →
        exec (.tview x m) s = .next (s.stops plainForm x (cause 0x13#8)) ∧
        exec (.tedge x m) s = .next (s.stops plainForm x (cause 0x13#8)))
  ) ∧
  (
    ∀ (s : State) (x : Args), s.issues plainForm x = true →
      let y := passArgs x s.core.sys.repst
      let b := (s.core.value y.b).toNat
      let i := b / 256
      let j := b % 256
      let r := s.core.tileOf y.a
      let f := fmtOf (bits (s.core.bank (recBank r)) 11 8)
      let e := i * recRstr r + j * recEstr r
      let a := elemByte f (recBase r) e
      let group := match f with
        | .t6 => 4
        | .m1 => 8
        | _ => 1
      s.core.hintOk y = true → inStream s.core y.d = false → inStream s.core y.a = false →
      (b < 65536 ∧ i < recRows r ∧ j < recCols r ∧ e % group = 0 ∧ a / 0x20000 = recBank r →
        exec (.tviewOrigin x) s = .next (s.finishes plainForm x fun c => c.writeShape (regOf y.d)
          (setBits (setBits (setBits r 20 0 a) 59 53 (recVrows r - i)) 66 60 (recVcols r - j)))) ∧
      (¬(b < 65536 ∧ i < recRows r ∧ j < recCols r ∧ e % group = 0 ∧ a / 0x20000 = recBank r) →
        exec (.tviewOrigin x) s = .next (s.stops plainForm x (cause 0x0B#8)))
  ) ∧
  (
    ∀ (s : State) (h : Head) (n : BitVec 5) (r : Shape),
      let t := s.completes h fun c => c.writeShape n r
      s.onlyCore t ∧ s.continues t h ∧ (∀ m, t.core.tile m = if m = n then r else s.core.tile m) ∧
      t.core.regs = s.core.regs ∧ t.core.q = s.core.q ∧ t.core.preds = s.core.preds ∧ t.core.bfmt = s.core.bfmt ∧
      t.core.slots = s.core.slots ∧ (∀ a, Mem.get t.core.ls a = Mem.get s.core.ls a) ∧
      (∀ a, Mem.get t.mem a = Mem.get s.mem a)
  ) ∧
  (
    ∀ (s : State) (x : Args) (m : BitVec 4), s.issues plainForm x = true →
      let a := s.core.value x.a
      let f := bits a 11 8
      let ok := f ≤ 9 ∧ (bits a 7 0 = 0 ∨ (f ≠ 0 ∧ f ≠ 7 ∧ f ≠ 8 ∧ f ≠ 9))
      (bits a 63 14 = 0 → ok → (s.begun plainForm x).core.bankBusy m.toNat = false → Yields (.bfset x m) s fun t =>
        bits (t.core.bank m.toNat) 12 0 = bits a 12 0 ∧
        (t.core.bank m.toNat).getLsbD 13 = ((s.core.bank m.toNat).getLsbD 13 && !a.getLsbD 13) ∧
        (∀ k, k ≠ m.toNat → t.core.bank k = s.core.bank k) ∧
        t = (s.finishes plainForm x fun c => { c with bfmt := t.core.bfmt })) ∧
      (bits a 63 14 = 0 → ok → (s.begun plainForm x).core.bankBusy m.toNat = true →
        exec (.bfset x m) s = .next (if s.core.timed.active then (s.begun plainForm x).rollback 5
          else (s.begun plainForm x).modC fun c => { c with wait := .interlock })) ∧
      (bits a 63 14 = 0 → ¬ok → exec (.bfset x m) s = .next (s.stops plainForm x (cause 0x0C#8))) ∧
      (bits a 63 14 ≠ 0 → exec (.bfset x m) s = .next (s.stops plainForm x (cause 0x02#8))) ∧
      exec (.bfget x m) s = .next (s.finishes plainForm x fun c => c.writeD x.d ((s.core.bank m.toNat).zeroExtend 64))
  )

/-- LD and LDP write or push the n bytes at a + b, zero-extended, sign-extended under `.sx`, in every space; an acquire
follows an ordered load; a misaligned address raises ALIGN with EVA; a load whose response is lost twice raises LINK. In a
timed phase a LOCAL load takes its port of the bank, and one that must correct a word is condition 3 (R240, R243, R244, spec/08
R156, R161). Completion (exec answers a next state,
under conditions on the state and operands alone) is stated for: ld, ldp. -/
def Obligations.LoadsReadTheirBytes : Prop :=
  ∀ (i : Instr) (s : State) (x : Args) (m : LdMod) (f : Form), loadRow i = some (x, m, f) → s.issues f x = true →
    let u := s.begun f x
    let a := s.core.value x.a + s.core.value x.b
    let n := 2 ^ m.w.toNat
    let value := fun (v : Nat) => if m.sx then (BitVec.ofNat (8 * n) v).signExtend 64 else BitVec.ofNat 64 v
    let far := m.space ≠ 1#3 ∧ m.space ≠ 3#3
    (∀ v, s.core.timed.active = false → quietCore s.core → s.race = [] → a.toNat % n = 0 → (m.space = 3#3 → n = 8) →
      loaded u m.space a n (m.ord != 0#2) = some v →
      (far → s.lossLoad = false) →
      exec i s = .next (acquireIf (m.ord != 0#2) (u.modC fun c => c.writeD x.d (value v))).retire) ∧
    (∀ c, s.core.timed.active = true → m.space = 1#3 → s.core.lsBad = [] → s.core.weakAt a.toNat n = false → s.core.stores = [] →
      a.toNat % n = 0 → a.toNat < 0x200000 → u.core.lineAccess [bytesExtent a.toNat n] 0 false 0 = .ok c →
      exec i s = .next ({ u with core := c.writeD x.d (value (ofBytes (s.core.lsBytes a.toNat n))) } : State).retire) ∧
    (∀ c, s.core.timed.active = true → m.space = 1#3 → s.core.lsBad = [] → s.core.weakAt a.toNat n = true → s.core.stores = [] →
      a.toNat % n = 0 → a.toNat < 0x200000 → u.core.lineAccess [bytesExtent a.toNat n] 0 false 0 = .ok c →
      exec i s = .next ((u.modC fun c => c.correct a.toNat n).rollback 3)) ∧
    (∀ v, quietCore s.core → s.race = [] → a.toNat % n = 0 → loaded u m.space a n (m.ord != 0#2) = some v → far → s.lossLoad = true →
      exec i s = .next ({ u with lossLoad := false }.raise (causeFrom 0x15#8 a) false false)) ∧
    (a.toNat % n ≠ 0 → exec i s = .next (s.stops f x (causeAt 0x04#8 a)))

/-- ST: a LOCAL store changes the n bytes at a + b of the own local store and nothing else; a store to another place retires
and is under way to it; an add to an event line of the own Latch is made at once; a misaligned address raises ALIGN with EVA.
In a timed phase a LOCAL store takes its port of the bank (R245, spec/05 R96, spec/08 R156). The first store under way is
performed: a GLOBAL, HOST or CXL store writes its bytes in its memory, a PEER store those of the target's local store where a
window admits it, an INSTR store those of the instruction store; over a broken path LINK comes back (spec/18 R326); the
response then comes back, and a cause in it becomes pending (R242, R245, spec/19 R343). Completion (exec answers a next state,
under conditions on the state and operands alone) is stated for: st, accessAtHome, peerWriteArrival, accessResponseArrival. -/
def Obligations.StoresWriteTheirBytes : Prop :=
  (
    ∀ (s : State) (x : Args) (m : StMod), s.issues { memForm m.space m.ord with reads := [x.d], lat := 0 } x = true →
      let u := s.begun { memForm m.space m.ord with reads := [x.d], lat := 0 } x
      let a := s.core.value x.a + s.core.value x.b
      let n := 2 ^ m.w.toNat
      let bs := toBytes n (s.core.value x.d).toNat
      (m.space = 1#3 → s.core.timed.active = false → quietCore s.core → s.race = [] → (m.ord = 0#2 ∨ s.core.settled = true) → a.toNat % n = 0 →
        a.toNat < 0x200000 → (s.core.wideBank a.toNat = false ∨ n = 8) →
        exec (.st x m) s = .next (u.modC fun c => c.storeLs a.toNat bs).retire ∧
        (Mem.wf s.core.ls = true → ∀ b, (b < a.toNat ∨ a.toNat + n ≤ b) →
          Mem.get (s.core.storeLs a.toNat bs).ls b = Mem.get s.core.ls b) ∧
        (Mem.wf s.core.ls = true → s.core.wideBank a.toNat = false → ∀ k (h : k < bs.length),
          Mem.get (s.core.storeLs a.toNat bs).ls (a.toNat + k) = bs[k])) ∧
      (∀ c, m.space = 1#3 → s.core.timed.active = true → s.core.stores = [] → a.toNat % n = 0 → a.toNat < 0x200000 →
        (s.core.wideBank a.toNat = false ∨ n = 8) →
        (u.core.storeLs a.toNat bs).lineAccess [bytesExtent a.toNat n] 0 true 1 = .ok c →
        exec (.st x m) s = .next ({ u with core := c } : State).retire) ∧
      (∀ st, a.toNat % n = 0 → (m.ord = 0#2 ∨ s.core.settled = true) → s.core.stores.length + s.core.acks.length < 64 →
        stored u m a (s.core.value x.d) = some st →
        exec (.st x m) s = .next (u.modC fun c => { c with stores := c.stores ++ [st] }).retire) ∧
      (∀ e, m.space = 3#3 → n = 8 → a.toNat % 8 = 0 → s.core.settled = true → u.eventAddr a = some e → e.latch = s.core.latch →
        e.cls = 0 → e.word = 0 →
        exec (.st x m) s = .next (u.addLine e.latch e.index ((s.core.value x.d).setWidth 32)).retire) ∧
      (a.toNat % n ≠ 0 → exec (.st x m) s = .next (s.stops { memForm m.space m.ord with reads := [x.d], lat := 0 } x (causeAt 0x04#8 a)))
  ) ∧
  (
    ∀ (s : State) (st : Store) (rest : List Store) (bs : List Byte), s.core.stores = st :: rest → st.kind = .bytes bs →
      let v := s.modC fun c => { c with stores := rest, acks := c.acks ++ [⟨0#8, st.addr, 0xFFF#12, st.hm⟩] }
      (st.space = 0#3 → st.check = false → s.reach s.core.die (s.homeOf s.core.die st.phys) st.phys = none →
        exec (.accessAtHome 0) s = .next { v with mem := Mem.putBytes s.mem st.phys bs }) ∧
      (st.space = 6#3 → s.reach s.core.die st.phys st.addr.toNat = none → exec (.accessAtHome 0) s = .next { v with hostMem := Mem.putBytes s.hostMem st.addr.toNat bs }) ∧
      (st.space = 7#3 → s.reach s.core.die st.phys st.addr.toNat = none → exec (.accessAtHome 0) s = .next { v with cxlMem := Mem.putBytes s.cxlMem st.addr.toNat bs }) ∧
      (st.space = 0#3 ∧ (s.reach s.core.die (s.homeOf s.core.die st.phys) st.phys).isSome = true ∨
        (st.space = 6#3 ∨ st.space = 7#3) ∧ (s.reach s.core.die st.phys st.addr.toNat).isSome = true →
        exec (.accessAtHome 0) s = .next (s.modC fun c => { c with stores := rest, acks := c.acks ++ [⟨0x15#8, st.addr, 0xFFF#12, st.hm⟩] })) ∧
      (∀ k, (st.space = 2#3 ∨ st.space = 5#3) → st.check = false → s.find (peerDie st.addr) (peerNum st.addr) = some k →
        k.is s.core.die s.core.num = false → s.reach s.core.die k.die st.addr.toNat = none →
        let off := peerOff st.addr
        let instr := st.space == 5#3
        (haspOk s.core k off false (!instr) instr = true → (instr = true ∨ k.wideBank off = false ∨ bs.length = 8) →
          exec (.peerWriteArrival 0) s =
            .next (v.onCore k.die k.num fun c => if instr then c.storeInstr off bs else c.storeLs off bs)) ∧
        (haspOk s.core k off false (!instr) instr = false → exec (.peerWriteArrival 0) s =
          .next (s.modC fun c => { c with stores := rest, acks := c.acks ++ [⟨0x0A#8, st.addr, 0xFFF#12, st.hm⟩] }))) ∧
      (∀ (a : Ack) (as : List Ack), s.core.acks = a :: as → exec (.accessResponseArrival 0) s = .next (s.modC fun c =>
        { c with acks := as, deferred := if a.code = 0#8 then c.deferred else c.deferred ++ [⟨a.code, a.addr, a.other, a.hm⟩] }))
  )

/-- An atomic replaces the n bytes at a by its row's value in one step and returns the old value to D, in LOCAL and GLOBAL
space; under `.sc` it then waits for the next Tick edge, which completes it; a misaligned address raises ALIGN (R246 to R249,
spec/04 R81). A lost response to an atomic: the next atomic outside LOCAL space is performed and raises ATOMIC_LOST with its
number in ALOST (R250). Completion (exec answers a next state, under conditions on the state and operands alone) is stated
for: atomicResponseLost, aswp, aadd, amin, amax, aand, aor, axor, acas, afadd, afmin, afmax. -/
def Obligations.Atomics : Prop :=
  (
    ∀ (i : Instr) (s : State) (x : Args) (m : AtMod) (reads : List Operand) (g : Nat → Nat → Nat → Nat → Val → Nat),
      atomicRow i = some (x, m, reads, g) → s.issuesFree { freeForm with reads := reads } x = true → s.core.wait = .none →
      let u := s.clock x.head
      let a := s.core.value x.a
      let n := 2 ^ m.w.toNat
      let c := (match x.d with
        | .s k => s.core.readS k
        | .q _ => s.core.readQ 0#4
        | _ => 0#64).toNat
      let new := fun (old : Nat) => g old (s.core.value x.b).toNat c n (f32 s.core x.b)
      let after := fun (t : State) => if m.ord = 3#2 then t.modC fun k => { k with wait := .scTick (u.cyc / 4096 + 1) } else t.retire
      (m.space = 1#3 → quietCore s.core → s.core.acks = [] → s.race = [] → a.toNat % n = 0 → a.toNat < 0x200000 →
        s.core.wideBank a.toNat = false →
        let old := ofBytes (s.core.lsBytes a.toNat n)
        exec i s = .next (after (acquireIf (m.ord == 1#2 || m.ord == 3#2) (u.modC fun k =>
          (k.putLs a.toNat (toBytes n (new old))).writeD x.d (BitVec.ofNat 64 old))))) ∧
      (∀ p e, m.space = 0#3 → quietCore s.core → s.core.acks = [] → s.lossNext = false → a.toNat % n = 0 → mapped u a true = some (p, e) →
        e.getLsbD 1 = true → (m.ord ≠ 0#2 ∨ e.getLsbD 4 = false) →
        let old := Mem.load s.mem p n
        Yields i s fun t => t.mem = Mem.store s.mem p n (new old) ∧ t.core.regs = (s.core.writeD x.d (BitVec.ofNat 64 old)).regs ∧
          t.core.q = (s.core.writeD x.d (BitVec.ofNat 64 old)).q ∧ t.core.ls = s.core.ls ∧ t.core.tiles = s.core.tiles ∧
          t.core.atomSeq = s.core.atomSeq + 1#8 ∧ (m.ord = 3#2 → t.core.wait = .scTick (u.cyc / 4096 + 1) ∧ t.core.pc = s.core.pc) ∧
          (m.ord ≠ 3#2 → s.continues t x.head)) ∧
      (a.toNat % n ≠ 0 → exec i s = .next (s.takes x.head (causeAt 0x04#8 a)))
  ) ∧
  (
    ∀ (s : State),
      exec .atomicResponseLost s = .next { s with lossNext := true } ∧
      (∀ (x : Args) (m : AtMod) (p : Nat) (e : Word), s.lossNext = true → s.issuesFree freeForm x = true → s.core.wait = .none →
        m.space = 0#3 → m.ord = 1#2 → quietCore s.core → s.core.acks = [] → s.core.handler = false → s.core.run ≠ .killed →
        s.core.sys.contain = 0x00000000AA000055#64 → (s.core.value x.a).toNat % 2 ^ m.w.toNat = 0 →
        mapped (s.clock x.head) (s.core.value x.a) true = some (p, e) → e.getLsbD 1 = true →
        Yields (.aswp x m) s fun t => bits t.core.sys.cause 7 0 = 0x10 ∧ t.core.sys.eva = s.core.value x.a ∧
          t.core.sys.alost = BitVec.ofNat 64 (2 ^ 63 + s.core.atomSeq.toNat) ∧ t.core.regs = s.core.regs ∧ t.lossNext = false ∧
          t.mem = Mem.store s.mem p (2 ^ m.w.toNat) ((s.core.value x.b).toNat % 2 ^ (8 * 2 ^ m.w.toNat)))
  )

/-- TRED: one valid element is one atomic at the address; TRED then completes with TPROG 0 and the result unreturned (R251).
FENCE completes, as an acquire, once every earlier store is acknowledged, and waits before; FENCESC then waits for the next
Tick edge, which completes it (R253, spec/04 R76, R81). LFLUSH of a translated line leaves everything a program can see; LINV
drops the line's race records and NOREP mark (R254, spec/19 R338). Completion (exec answers a next state, under conditions on
the state and operands alone) is stated for: tred, fence, fencesc, scTickCompletion, lflush, linv. -/
def Obligations.TredFencesAndLines : Prop :=
  (
    ∀ (s : State) (x : Args) (m : TrMod) (w : Performed), s.issuesFree freeForm x = true → s.core.wait = .none →
      let u := s.clock x.head
      let v := s.core.view x.d
      let a := s.core.value x.a
      let n := v.fmt.bytes
      s.core.streams = [] → v.shapeOk = true → s.core.mirrorOk v = true → tredFmtOk v m.aop = true → a.toNat % n = 0 →
      (s.core.value x.b).toNat % n = 0 → quietCore s.core → s.core.acks = [] → s.race = [] → s.core.tprog = 0 → s.core.tredCause = none → s.core.rowLimit = none → v.vrows = 1 → v.vcols = 1 →
      m.ord ≠ 3#2 →
      u.atomicAt m.space a n (m.ord != 0#2) (fun old => atomicNew (aopOf m.aop) n old
        (if v.fmt.isFloat then 0 else (wrapInt 32 (storedInt s.core v 0 0)).toNat) 0
        (if v.fmt.isFloat then s.core.elem v 0 0 else .zero)) = .ok w →
      exec (.tred x m) s =
        .next (acquireIf (m.ord == 1#2) ((w.state.countAtomic m.space).modC fun c => (c.consume [v]).setTprog 0)).retire
  ) ∧
  (
    ∀ (s : State) (x : Args), s.issuesFree freeForm x = true →
      let u := s.clock x.head
      (∀ m, (s.core.settled = true → exec (.fence x m) s = .next u.acquire.retire) ∧
        (s.core.settled = false → exec (.fence x m) s = .next (u.modC fun c => { c with wait := .interlock }))) ∧
      (s.core.wait = .none → s.core.settled = true →
        exec (.fencesc x) s = .next (u.acquire.modC fun c => { c with wait := .scTick (u.cyc / 4096 + 1) })) ∧
      (∀ (v : State) (e : Nat), v.core.ganged = false → v.core.wait = .scTick e → (∀ k ∈ v.others, scEdge k = none) →
        exec .scTickCompletion v = .next ({ v with cyc := max v.cyc (e * 4096) }).retire)
  ) ∧
  (
    ∀ (s : State) (x : Args) (m : BitVec 3), s.issuesFree freeForm x = true → s.core.stores = [] →
      let u := s.clock x.head
      let a := s.core.value x.a + s.core.value x.b
      (∀ p e, m = 0#3 → mapped u a false = some (p, e) → exec (.lflush x m) s = .next (s.completes x.head id)) ∧
      (m ≠ 0#3 → windowed u true a false = true → exec (.lflush x m) s = .next (s.completes x.head id)) ∧
      (∀ p e, mapped u a false = some (p, e) → s.leased p = false → Yields (.linv x m) s fun t =>
        (∀ r ∈ t.race, r ∈ s.race ∧ ∀ k, r.1 = .global k → k / 16 ≠ p / 1024) ∧ t.noReplica (p / 2048) = false ∧
        t.mem = s.mem ∧ s.continues t x.head ∧ t.core = (s.completes x.head id).core)
  )

/-- An access that conflicts with a recorded one of another core, with no generation between them, no common mutex and
RACEST.OPEN clear, is a RACE with that core; an access to an unrecorded piece opens its record; a record of the core itself
never conflicts (spec/04 R87 to R91). A page walk ends with the leaf of its address in the core's L1 TLB; the collapse a store
waits for clears REP in the page's entry and counts; the sweep drops only records 2^15 generations old (spec/19 R333, R337,
spec/04 R73, R93). Completion (exec answers a next state, under conditions on the state and operands alone) is stated for:
pageWalk, collapseSequence, raceRecordSweep. -/
def Obligations.RaceDetection : Prop :=
  (
    ∀ (s : State) (x k : Core) (p : Place) (r : Race) (w locked : Bool),
      (findRace s.race p = none → ∃ t, s.raceAccess x p w locked = .ok t ∧ ∃ q, findRace t.race p = some q ∧
        q.writer = (if w then BitVec.ofNat 12 x.lcn else 0xFFF#12) ∧ q.reader = (if w then 0xFFF#12 else BitVec.ofNat 12 x.lcn) ∧
        q.fgen = s.fgen x ∧ q.dgen = s.dgen x ∧ q.qgen = s.qgen x ∧ q.locked = locked) ∧
      (findRace s.race p = some r → r.writer ≠ 0xFFF#12 → r.writer ≠ BitVec.ofNat 12 x.lcn →
        s.coreOf r.writer = some k → k.field = x.field →
        s.fgen x = r.fgen → s.dgen x = r.dgen → s.qgen x = r.qgen → (r.locked && locked) = false →
        x.sys.racest.getLsbD 0 = false → s.raceAccess x p w locked = .error r.writer)
  ) ∧
  (
    ∀ (s : State) (va : Word),
      (∀ w, s.cached s.core.die s.core.num s.core.ctx va = none → s.cached s.core.die 8 s.core.ctx va = none →
        s.walk s.core.die s.core.ctx va = .ok w →
        Yields (.pageWalk va) s fun t => t = { s with tlb := t.tlb, free := t.free } ∧
          ∃ e, t.cached s.core.die s.core.num s.core.ctx va = some e ∧ e.size = w.size ∧ e.pte = w.pte) ∧
      (∀ w, s.core.ganged = false → s.core.wait = .collapse va → s.walk s.core.die s.core.ctx va = .ok w →
        s.core.sys.collctl.getLsbD 63 = false → s.core.stores = [] → (∀ c ∈ s.others, c.stores = []) →
        Yields (.collapseSequence va) s fun t => t.core.wait = .none ∧ t.mem = Mem.store s.mem w.addr 8 (w.pte &&& ~~~8#64).toNat ∧
          bits t.core.sys.collctl 47 0 = (bits s.core.sys.collctl 47 0 + 1) % 2 ^ 48 ∧
          t.noReplica (bits w.pte 51 8 * 256 / 2048) = true ∧ t.core.pc = s.core.pc ∧
          (∀ c ∈ t.tlb, c ∈ s.tlb ∧ ¬(s.inField c.die = true ∧ c.ctx = s.core.ctx ∧ c.va ≤ va.toNat ∧ va.toNat < c.va + pageBytes c.size))) ∧
      (Yields .raceRecordSweep s fun t => t.mem = s.mem ∧ t.core = s.core ∧ ∀ r ∈ s.race, r ∈ t.race ∨
        ∃ c, s.coreOf r.2.owner = some c ∧ 2 ^ 15 ≤ (s.fgen c - r.2.fgen).toNat)
  )

/-- The frame of every tile instruction with a tile destination, D of any size: it completes, and changes nothing but bytes of
D's valid elements, bits of the format registers, TPROG, which is 0, and the reuse buffers; in a timed phase it issues where
the vector unit and the ports are free and its sources written, and is TIMING else; there it writes nothing at issue: its
beats are then under way, the writes on the cycles of its row (spec/08 R155 to R157). TEXP2 and TLOG2 are elementwise and
complete likewise; their values are free within the bound of spec/03 R63. TEXP2 and TLOG2 values are free
within their bound (log entry 7). Completion (exec answers a next state, under conditions on the state and operands alone) is
stated for: tmov, tcvt, tfill, tiota, tadd, tsub, tmul, tfma, tdiv, tmin, tmax, tabs, tclamp, tand, tor, txor, tnot, tshl,
tshr, tcmp, tsel, trsqs, trcps, trsum, tcsum, trmax, tcmax, ttrn, tshf, tbcr, tbcc, tgath, tsten, tquant, tnrm2, trowp, azero,
acvt, aaddt, ascl, texp2, tlog2. -/
def Obligations.TileInstructionsCompleteWithinD : Prop :=
  ∀ (i : Instr) (s : State) (x : Args) (k : TileCase),
    let u := s.begun plainForm x
    (tileCase i u.core = some k ∨ ∃ m, (i = .texp2 x m ∨ i = .tlog2 x m) ∧ k = arithmetic u.core x m (fun _ a _ _ => a) 2) →
    x = k.args → s.issues plainForm x = true → tileReady s k →
    let timetable := k.taken u.core (passArgs x s.core.sys.repst)
    (s.core.timed.active = false → timetable = .ok u.core) ∧
    (∀ n, timetable = .error (.timing n) → Yields i s fun t => t = { u.rollback n with free := t.free }) ∧
    (∀ c0, timetable = .ok c0 → Yields i s fun t => s.continues t x.head ∧ s.onlyCore t ∧ t.core.sys.tprog = 0#64 ∧
      t.core.regs = s.core.regs ∧ t.core.q = s.core.q ∧ t.core.preds = s.core.preds ∧ t.core.tiles = s.core.tiles ∧
      t.core.slots = s.core.slots ∧ t.core.stores = s.core.stores ∧ (∀ a, Mem.get t.mem a = Mem.get s.mem a) ∧
      (∀ b, bits (t.core.bank b) 12 8 = bits (s.core.bank b) 12 8 ∧
        (k.scale = none → bits (t.core.bank b) 7 0 = bits (s.core.bank b) 7 0)) ∧
      (s.core.timed.active = false → t.core.works = s.core.works) ∧
      (s.core.timed.active = true → t.core.ls = s.core.ls ∧ t.core.bfmt = s.core.bfmt ∧ ∃ w, t.core.works = s.core.works ++ [w] ∧
        w.instr = i ∧ w.writes = k.use.writes.flatMap fun b => b.touches u.core.now) ∧
      (Mem.wf s.core.ls = true → ∀ b, ¬tileByte k.d b → Mem.get t.core.ls b = Mem.get s.core.ls b))

/-- The result, for a D of one valid element, in a free phase: the code of the instruction's row goes into element (0,0), TQUANT's
scale first into the format registers of D's banks, a clamp into SATS, and nothing else changes (R205 to R221, R235 to R238).
In a timed phase, once the vector unit has taken it and is `c0`, its beats are under way, for a D of any size. Completion (exec answers a next
state, under conditions on the state and operands alone) is stated for: tmov, tcvt, tfill, tiota, tadd, tsub, tmul, tfma,
tdiv, tmin, tmax, tabs, tclamp, tand, tor, txor, tnot, tshl, tshr, tcmp, tsel, trsqs, trcps, trsum, tcsum, trmax, tcmax, ttrn,
tshf, tbcr, tbcc, tgath, tsten, tquant, tnrm2, trowp, azero, acvt, aaddt, ascl. -/
def Obligations.TileInstructionsGiveTheirElement : Prop :=
  ∀ (i : Instr) (s : State) (x : Args) (k : TileCase),
    let u := s.begun plainForm x
    let y := passArgs x s.core.sys.repst
    tileCase i u.core = some k → x = k.args → s.issues plainForm x = true → tileReady s k →
    (s.core.timed.active = false → k.d.vrows = 1 → k.d.vcols = 1 →
      exec i s = .next (u.modC fun c =>
        let put := fun (c : Core) (b : Nat) => match k.scale with
          | some v => c.setBank b (setBits (c.bank b) 7 0 (v % 256).toNat)
          | none => c
        let c1 := put (c.reuse y) (recBank k.d.shape)
        let c2 := if recMv k.d.shape = true then put c1 (recMbank k.d.shape) else c1
        let c3 := match k.code with
          | some v => c2.putVal k.d 0 0 v
          | none => c2
        c3.setTprog 0).retire) ∧
    (∀ c0, s.core.timed.active = true → k.taken u.core y = .ok c0 →
      exec i s = .next (({ u with core := c0 } : State).modC fun c => (c.startBeats i y u.free k.use k.also).setTprog 0).retire)

/-- TSCAT, TINS and TEXT move single elements: TSCAT puts element (0,0) of a one-element A where B's index names a valid
element of D and drops it elsewhere; TINS stores b's element of D, TEXT delivers b's element of A, and an element outside the
tile raises SHAPE (R217 to R219). TANY, TALL and TCNT examine the valid elements of A: the number of nonzero ones decides
(R211). In a timed phase, `c0` being the core once its unit and ports are taken, the accesses of TSCAT, TINS and TEXT and the
reads of TANY, TALL and TCNT are then under way, and the scalar may be read from its cycle on. Completion (exec answers a next state, under conditions on
the state and operands alone) is stated for: tscat, tins, text, tany, tall, tcnt. -/
def Obligations.ElementMovesAndMasks : Prop :=
  (
    ∀ (s : State) (x : Args) (m : TMod),
      let u := s.begun plainForm x
      let v := s.begun elemForm x
      let c := s.core
      let timed := c.timed.active
      let y := passArgs x c.sys.repst
      let d := destView c y m.fovr
      let a := c.view y.a
      let w := c.value y.b
      let i := bits w 15 8
      let j := bits w 7 0
      let raw := m.aux.getLsbD 0
      let done := fun (u : State) (c0 : Core) (f : Core → Core) =>
        Host.Outcome.next (({ u with core := c0 } : State).modC fun c => (f c).setTprog 0).retire
      c.streams = [] → c.mq = [] → s.race = [] → c.lsBad = [] →
      (∀ b e, s.issues plainForm x = true → b = c.view y.b → e = movePair a d → [e.1, e.2, b].all View.shapeOk = true →
        [e.1, e.2, b].all c.mirrorOk = true → m.fovr.toNat ≤ 9 → (b.code = 5 ∨ b.code = 6) → sameShape e.1 [b] = true →
        let n := storedInt c b 0 0
        let use := wholeUse e.2 [e.1, b]
        (timed = false → e.1.vrows = 1 → e.1.vcols = 1 → b.vrows = 1 → b.vcols = 1 →
          exec (.tscat x m) s = done u u.core fun c0 =>
            let p := (n.toNat / e.2.cols, n.toNat % e.2.cols)
            if 0 ≤ n ∧ n < e.2.rows * e.2.cols ∧ e.2.valid p.1 p.2 = true then
              (c0.reuse y).putVal e.2 p.1 p.2 (moveCode e.1 e.2 (roundingOf m.rm) (satChoice m.satm e.2.sat) (c.rawElem e.1 0 0))
            else c0.reuse y) ∧
        (∀ c0, timed = true → u.core.vector y use = .ok c0 →
          exec (.tscat x m) s = done u c0 fun c0 => c0.startBeats (.tscat x m) y u.free use [])) ∧
      (s.issues plainForm x = true → d.shapeOk = true → c.mirrorOk d = true → m.fovr.toNat ≤ 9 → (raw = true ∨ d.code ≠ 0) →
        bits w 63 16 = 0 →
        (timed = false → i < d.rows → j < d.cols → exec (.tins x m) s = done u u.core fun c0 =>
          if d.valid i j = true then c0.putVal d i j
            (if raw then ((c.value y.a).toNat % 2 ^ d.fmt.width, false)
             else enc d m.rm m.satm (if d.fmt.isFloat then f32 c y.a else Val.ofInt (c.value y.a).toInt)) else c0) ∧
        (∀ c0, timed = true → i < d.rows → j < d.cols → u.core.lineAccess d.extents 5 true 6 = .ok c0 →
          exec (.tins x m) s = done u c0 fun c0 =>
            c0.startWork (.tins x m) u.free [] [] [d.elemTouch (c0.now + 5) (i, j)] y.d 6) ∧
        (d.rows ≤ i ∨ d.cols ≤ j → exec (.tins x m) s = .next (elementStops s plainForm x (cause 0x0B#8)))) ∧
      (s.issues elemForm x = true → a.shapeOk = true → c.mirrorOk a = true → (raw = true ∨ a.code ≠ 0) → bits w 63 16 = 0 →
        let result := if raw then BitVec.ofNat 64 (c.rawElem a i j)
          else if a.fmt.isFloat then toF32 (roundingOf m.rm) (c.elem a i j)
          else f32ToInt (roundingOf m.rm) false (c.elem a i j)
        let served := (c.unserved y [Beats.lines a 0 1]).isEmpty
        let line := [a.elemTouch (v.core.now + 5) (i, j)]
        (timed = false → i < a.rows → j < a.cols →
          exec (.text x m) s = done v v.core fun c0 => (c0.reuse y).writeD y.d result) ∧
        (∀ c0, timed = true → i < a.rows → j < a.cols → v.core.lineAccess a.extents 5 false 0 served = .ok c0 →
          exec (.text x m) s = done v c0 fun c0 => ((c0.reuse y).startWork (.text x m) v.free (if served then line else [])
            (if served then [] else line) [] y.d 6).writeD y.d result) ∧
        (a.rows ≤ i ∨ a.cols ≤ j → exec (.text x m) s = .next (elementStops s elemForm x (cause 0x0B#8))))
  ) ∧
  (
    ∀ (s : State) (x : Args) (m : TMod), s.issues plainForm x = true →
      let u := s.begun plainForm x
      let c := s.core
      let y := passArgs x c.sys.repst
      let a := c.view y.a
      let cells := (List.range a.vrows).flatMap fun i => (List.range a.vcols).map fun j => (i, j)
      let n := cells.countP fun p => if a.code = 0 then c.rawElem a p.1 p.2 != 0
        else !(decodeVal a.fmt (c.rawElem a p.1 p.2) a.scale).isZero
      let put := fun (v : Nat) (c : Core) => (((c.deliverIn y.d (a.beats + 6)).writeD y.d (BitVec.ofNat 64 v)).setTprog 0)
      let result := fun (v : Nat) => Host.Outcome.next (u.modC fun c => put v (c.reuse y)).retire
      let timed := fun (i : Instr) (c0 : Core) (v : Nat) => Host.Outcome.next (({ u with core := c0 } : State).modC fun c =>
        put v (c.startBeats i y u.free (testUse a) [])).retire
      let any := if 0 < n then 1 else 0
      let all := if n = cells.length then 1 else 0
      c.streams = [] → c.mq = [] → s.race = [] → c.lsBad = [] → a.shapeOk = true → c.mirrorOk a = true →
      (c.timed.active = false → exec (.tany x m) s = result any ∧ exec (.tall x m) s = result all ∧ exec (.tcnt x m) s = result n) ∧
      (∀ c0, c.timed.active = true → u.core.vector y (testUse a) = .ok c0 →
        exec (.tany x m) s = timed (.tany x m) c0 any ∧ exec (.tall x m) s = timed (.tall x m) c0 all ∧
        exec (.tcnt x m) s = timed (.tcnt x m) c0 n)
  )

/-- OCLAIM takes a free slot, OREL queues the release of one that is not, OLOAD queues a load of the tile's codes, packed
row-major, or the unload of a slot, and MMA queues a product into accumulator D, each completing at once in a free phase;
OINFO returns state and record. OCLAIM, OREL and the unload raise SLOT where the slot is not in the state they need. For OREL a
full queue interlocks, in a timed phase it is condition 2, and a slot that an MMA has still to read condition 6; there OLOAD,
the unload and MMA issue where their ports are free, as `loadTimes`, `unloadTimes` and `mmaTimes` find (R222 to R231). In a free
phase the head of the matrix queue is performed once its join allows it: a load reads its source, then makes its slot READY
with the data, an unload stores the slot's bytes, a release frees the slot, and a product of one output element over at most
eight terms adds their exact sum to C, rounded once; until its join is complete nothing happens. An uncorrectable error in a
source empties the queue, leaves the slot CLAIMED and is a pending cause. In a timed phase a load reads, and an unload writes,
a line on each of its cycles, and the load then delivers what it read (R223 to R227, R229, spec/03 R64, spec/08 R156).
Completion (exec answers a next state, under conditions on the state and operands alone) is stated for: oclaim, orel, oload,
oloadUnload, oinfo, mma, matrixQueuePerform. -/
def Obligations.MatrixUnit : Prop :=
  (
    ∀ (s : State) (x : Args), s.issues plainForm x = true → s.core.memc = false →
      let u := s.begun plainForm x
      let c := s.core
      let y := passArgs x c.sys.repst
      let nd := slotOf y.d
      let na := slotOf y.a
      let nb := slotOf y.b
      let vd := c.slotAt nd
      let va := c.slotAt na
      let vb := c.slotAt nb
      let a := c.view y.a
      let d := c.view y.d
      let pending := if c.timed.active then (c.mq.filter fun e => !e.over u.core.now).length else c.mq.length
      let idle := fun (n : BitVec 4) => c.timed.active = true → ∀ e ∈ c.mq, e.op.reads n.toNat = true → e.due ≠ 0 ∧ e.free ≤ u.core.now
      let ready := fun (n : BitVec 4) => c.timed.active = true → u.core.earlySlot n.toNat = false
      let done := fun (f : Core → Core) => Host.Outcome.next (u.modC f).retire
      let taken := fun (c0 : Core) (f : Core → Core) => Host.Outcome.next (({ u with core := c0 } : State).modC f).retire
      (vd.issue = .free → exec (.oclaim x) s = done fun c => c.setSlot nd
        { vd with issue := .claimed, perf := if vd.perf = .free then .claimed else vd.perf }) ∧
      (vd.issue ≠ .free → exec (.oclaim x) s = .next (s.stops plainForm x (cause 0x0D#8))) ∧
      (vd.issue ≠ .free → idle nd → pending < 16 → exec (.orel x) s = done fun c =>
        (c.setSlot nd { vd with issue := .free, record := none }).enqueue (.release nd.toNat) 1 1 0 0) ∧
      (vd.issue ≠ .free → idle nd → 16 ≤ pending → exec (.orel x) s = .next (if c.timed.active then u.rollback 2 else
        u.modC fun c => { c with wait := .interlock })) ∧
      (vd.issue ≠ .free → ¬idle nd → exec (.orel x) s = .next (u.rollback 6)) ∧
      (vd.issue = .free → exec (.orel x) s = .next (s.stops plainForm x (cause 0x0D#8))) ∧
      (c.streams = [] → c.mq = [] → s.race = [] → c.lsBad = [] → a.shapeOk = true → a.trn = false → c.mirrorOk a = true →
        (a.fmt = .fp16 ∨ a.fmt = .t8 ∨ a.fmt = .t6 ∨ a.fmt = .i8) → packedSize a.fmt (a.rows * a.cols) ≤ 4096 → vd.issue ≠ .free →
        let r : SlotRecord := { fmt := BitVec.ofNat 4 a.code, scale := BitVec.ofInt 8 a.scale, rows := a.rows, cols := a.cols
                                vrows := a.vrows, vcols := a.vcols, bytes := packedSize a.fmt (a.rows * a.cols) }
        let lat := if a.lines.2 ≤ 12 then 16 else a.lines.2 + 4
        let codes := packCodes a.fmt ((List.range a.rows).flatMap fun i => (List.range a.cols).map fun j => c.rawElem a i j)
        let loading := fun (c : Core) => c.setSlot nd { vd with issue := .loading, record := some r }
        let load := fun (codes : Option (List Byte)) => MatrixOp.load nd.toNat r a.shape a.alt codes
        let lines := (List.range a.lines.2).map fun b => (256 * (a.lines.1 + b), Mem.getBytes c.ls (256 * (a.lines.1 + b)) 256)
        let served := (c.unserved y [Beats.lines a 0 a.lines.2]).isEmpty
        (c.timed.active = false → exec (.oload x) s = done fun c => ((loading c).enqueue
          (load (if c.needDone (c.joins.get 8) then some codes else none)) lat lat 0 0).reuse y) ∧
        (∀ c0, c.timed.active = true → u.core.loadTimes y nd.toNat a lat = .ok c0 →
          exec (.oload x) s = taken c0 fun c => ((loading c).enqueue (load none) lat lat 0 (if served then 0 else a.lines.2)
            (if served then lines else [])).reuse y)) ∧
      (let base := recBase (c.tileOf y.d)
        let lines := (va.bytes + 255) / 256
        let unload := fun (c : Core) => c.enqueue (.unload na.toNat base) (lines + 3) (lines + 3) 2 lines
        c.streams = [] → s.race = [] → c.wideBank base = false → base % 256 = 0 →
        va.bytes = 0 ∨ (base + va.bytes - 1) / 0x20000 = base / 0x20000 →
        (va.issue = .loading ∨ va.issue = .ready → pending < 16 →
          (c.timed.active = false → exec (.oloadUnload x) s = done unload) ∧
          (∀ c0, c.timed.active = true → ready na → u.core.unloadTimes (bytesExtent base va.bytes) lines = .ok c0 →
            exec (.oloadUnload x) s = taken c0 unload)) ∧
        (va.issue = .free ∨ va.issue = .claimed → exec (.oloadUnload x) s = .next (s.stops plainForm x (cause 0x0D#8)))) ∧
      (let loads := match c.mq with
          | [] => false
          | e :: rest => e.op.loadsSlot na.toNat || rest.any fun e => e.due != 0 && e.op.loadsSlot na.toNat
        let state := if loads then 2 else match va.perf with
          | .free => 0
          | .claimed => 1
          | .loading => 2
          | .ready => 3
        (∀ r, va.record = some r → exec (.oinfo x) s = done fun c => c.writeD y.d (BitVec.ofNat 64 (state * 2 ^ 62
          + (r.fmt.toNat * 2 ^ 48 + r.scale.toNat * 2 ^ 40 + r.vrows * 2 ^ 33 + r.vcols * 2 ^ 26 + (r.cols - 1) * 2 ^ 20
            + (r.rows - 1) * 2 ^ 14 + r.bytes)))) ∧
        (va.record = none → exec (.oinfo x) s = done fun c => c.writeD y.d (BitVec.ofNat 64 (state * 2 ^ 62)))) ∧
      (∀ (m : MmaMod) (p q : SlotRecord), va.record = some p → vb.record = some q → c.streams = [] → s.race = [] → pending < 16 →
        d.shapeOk = true → recEstr d.shape = 1 → d.alt = false → c.mirrorOk d = true →
        d.fmt = (if p.fmt = 5#4 ∧ q.fmt = 5#4 then .ai56 else .af56) →
        (if m.ta then p.rows else p.cols) = (if m.tb then q.cols else q.rows) →
        d.rows = (if m.ta then p.cols else p.rows) → d.cols = (if m.tb then q.rows else q.cols) →
        (va.issue = .loading ∨ va.issue = .ready) → (vb.issue = .loading ∨ vb.issue = .ready) →
        let cycles := mmaCycles d p q m
        let beats := updateBeats d
        let product := fun (c : Core) =>
          c.enqueue (.mma d.shape na.toNat nb.toNat m) (cycles + 16) cycles (16 + cycles - beats) beats
        (c.timed.active = false → exec (.mma x m) s = done product) ∧
        (∀ c0, c.timed.active = true → ready na → ready nb → u.core.mmaTimes d cycles beats = .ok c0 →
          exec (.mma x m) s = taken c0 product))
  ) ∧
  (
    ∀ (s : State) (e : MatrixEntry), s.core.mq = [e] → e.due = 0 →
      let c := { s.core with mq := [], mqDone := s.core.mqDone + 1 }
      (s.core.needDone e.need = false → exec .matrixQueuePerform s = .next s) ∧
      (s.core.needDone e.need = true →
        (∀ n r src alt bs, e.op = .load n r src alt none → s.core.readSource r src alt = .ok bs → exec .matrixQueuePerform s =
          .next (s.modC fun c => { c with mq := [{ e with op := .load n r src alt (some bs) }] })) ∧
        (∀ (n : Nat) (h : n < 16) r src alt a, e.op = .load n r src alt none → s.core.readSource r src alt = .error a →
          Yields .matrixQueuePerform s fun t => t.core.mq = [] ∧ (t.core.slots[n]).issue = .claimed ∧ (t.core.slots[n]).record = none ∧
            (t.core.slots[n]).perf = .claimed ∧ t.core.deferred = s.core.deferred ++ [⟨0x14#8, BitVec.ofNat 64 a, 0xFFF#12, e.hm⟩] ∧
            t.core.ls = s.core.ls) ∧
        (∀ (n : Nat) (h : n < 16) r src alt bs, e.op = .load n r src alt (some bs) → Yields .matrixQueuePerform s fun t =>
          t = { s with core := { c with slots := t.core.slots } } ∧ (t.core.slots[n]).perf = .ready ∧
          (t.core.slots[n]).precord = some r ∧ (t.core.slots[n]).data = bs ∧
          ∀ k (hk : k < 16), k ≠ n → t.core.slots[k] = s.core.slots[k]) ∧
        (∀ (n : Nat) (h : n < 16) base r, e.op = .unload n base → (s.core.slots[n]).precord = some r →
          exec .matrixQueuePerform s = .next { s with core := c.putLs base ((s.core.slots[n]).data.take r.bytes) }) ∧
        (∀ (n : Nat) (h : n < 16), e.op = .release n → (s.core.slots[n]).issue = .free → Yields .matrixQueuePerform s fun t =>
          t = { s with core := { c with slots := t.core.slots } } ∧ (t.core.slots[n]).perf = .free ∧
          (t.core.slots[n]).precord = none) ∧
        (∀ (shape : Shape) (na nb : Nat) (ha : na < 16) (hb : nb < 16) (m : MmaMod) (p q : SlotRecord) (k : Nat) (d : View),
          e.op = .mma shape na nb m → (s.core.slots[na]).precord = some p → (s.core.slots[nb]).precord = some q → s.core.lsBad = [] →
          k = (if m.ta then p.rows else p.cols) → 1 ≤ k → k ≤ 8 →
          let bank := s.core.bank (recBank shape)
          d = { reg := 0#5, shape := shape, fmt := fmtOf (fmtCode bank), code := fmtCode bank, scale := 0, sat := fmtSat bank
                neg := false, trn := false, alt := false } →
          d.vrows = 1 → d.vcols = 1 →
          let int := p.fmt == 5#4 && q.fmt == 5#4
          let products := (List.range k).map fun e =>
            ((if m.ta then slotElem p (s.core.slots[na]).data int m.na e 0 else slotElem p (s.core.slots[na]).data int m.na 0 e)).mul
              (if m.tb then slotElem q (s.core.slots[nb]).data int m.nb 0 e else slotElem q (s.core.slots[nb]).data int m.nb e 0)
          let sum := chunkSum products
          let v := encodeVal (if int then .ai56 else .af56) (if m.ad then sum else (c.elem d 0 0).add .rne sum) 0 .rne (int || d.sat)
          exec .matrixQueuePerform s = .next { s with core := c.putVal d 0 0 v }))
  ) ∧
  (
    ∀ (s : State) (e : MatrixEntry), s.core.mq = [e] → e.due ≠ 0 → s.core.needDone e.need = true →
      let u := s.reachCycle (e.first + e.beat)
      let next := { e with beat := e.beat + 1 }
      (e.beat < e.beats → ∀ n r src alt data, e.op = .load n r src alt data →
        let line := 256 * ((loadView r src alt).lines.1 + e.beat)
        s.core.weakAt line 256 = false → s.core.lsBadAt line 256 = none → exec .matrixQueuePerform s =
          .next (u.modC fun c => { c with mq := [{ next with got := e.got ++ [(line, Mem.getBytes c.ls line 256)] }] })) ∧
      (e.beat < e.beats → ∀ (v : Slot) n base r, e.op = .unload n base → e.held = [v] → v.precord = some r →
        exec .matrixQueuePerform s = .next (u.modC fun c => { c with mq := [next] }.putLs (base + 256 * e.beat)
          (((v.data.take r.bytes).drop (256 * e.beat)).take 256))) ∧
      (e.beats ≤ e.beat → ∀ (n : Nat) (h : n < 16) r src alt data, e.op = .load n r src alt data →
        Yields .matrixQueuePerform s fun t => t = { s.reachCycle e.due with
            core := { s.core with mq := [], mqDone := s.core.mqDone + 1, slots := t.core.slots } } ∧
          (t.core.slots[n]).perf = .ready ∧ (t.core.slots[n]).precord = some r ∧
          (t.core.slots[n]).data = (s.core.withRead e.got).sourceBytes r src alt)
  )

/-- SBIND binds D to the walk its descriptor gives, SFREE unbinds it, SSKIP consumes b tiles without reading them and raises
STREAM past the end, SSTAT returns the status word, and a reuse hint on a stream-mode register raises RESERVED_FIELD there. A
fill brings the next tile of the walk into a free ring entry, row by row, or poisons it with the cause that stopped it; a full
ring, a timed region or a killed core lets none start; consuming an entry moves to the next tile of the walk (spec/06 R118 to R120).
Completion (exec answers a next state, under conditions on the state and operands alone) is stated for: sbind, sfree, sskip,
sstat, streamFill. -/
def Obligations.Streams : Prop :=
  (
    ∀ (s : State) (x : Args), s.issuesFree freeForm x = true →
      let c := s.core
      let n := regOf x.d
      let a := c.value x.a
      (∀ d e, c.stream n = none → c.streams.length < 8 → a.toNat % 64 = 0 → a.toNat < 0x200000 → c.settled = true → c.mq = [] →
        s.race = [] → c.lsBad = [] → parseStream n (c.tile n) (c.lsBytes a.toNat 64) = some d →
        e = { d with entsz := entrySize (fmtOf (fmtCode (c.bank (d.rbase / 0x20000)))) d } →
        c.ringOk (fmtOf (fmtCode (c.bank (d.rbase / 0x20000)))) e = true →
        exec (.sbind x) s = .next (s.completes x.head fun c => { c with streams := c.streams ++ [e] }.unreuse n)) ∧
      (c.stream n ≠ none → exec (.sbind x) s = .next (s.takes x.head (cause 0x13#8))) ∧
      (Yields (.sfree x) s fun t => t.core.stream n = none ∧ (∀ k, k ≠ n → t.core.stream k = c.stream k) ∧
        s.continues t x.head ∧ s.onlyCore t ∧ t.core.tiles = c.tiles) ∧
      (∀ t, c.stream n = some t →
        (a.toNat ≤ t.total - t.next → exec (.sskip x) s = .next (s.completes x.head fun c =>
          { c with streams := c.streams.map fun u => if u.tile = n then u.skip a.toNat else u })) ∧
        (t.total - t.next < a.toNat → exec (.sskip x) s = .next (s.takes x.head (cause 0x13#8))) ∧
        (t.skip a.toNat).next = t.next + a.toNat) ∧
      (∀ t, c.stream (regOf x.a) = some t → c.hintOk x = true → exec (.sstat x) s = .next (s.completes x.head fun c => c.writeD x.d
        (BitVec.ofNat 64 ((if t.next = t.total then 2 ^ 63 else 0) + (if t.next = t.filled ∧ t.poison.isSome = true then 2 ^ 62 else 0)
          + (t.filled - t.next) * 2 ^ 58 + t.next % 2 ^ 48)))) ∧
      (c.hintOk x = false → exec (.sstat x) s = .next (s.takes x.head (cause 0x02#8))) ∧
      (c.stream (regOf x.a) = none → c.hintOk x = true → exec (.sstat x) s = .next (s.completes x.head fun c => c.writeD x.d 0#64))
  ) ∧
  (
    ∀ (s : State) (n : BitVec 5) (t : Stream), s.core.streams = [t] → t.tile = n →
      let f := fmtOf (fmtCode (s.core.bank (t.rbase / 0x20000)))
      (s.core.fills = true → s.core.timed.active = false → t.poison = none → t.filled < t.next + t.depth → t.filled < t.total →
        (∀ u, s.fillEntry t f = .ok u → exec (.streamFill n) s =
          .next (u.modC fun c => { c with streams := c.streams.map fun y => if y.tile = n then { t with filled := t.filled + 1 } else y })) ∧
        (∀ e, s.fillEntry t f = .error (.exc e) → exec (.streamFill n) s =
          .next (s.modC fun c => { c with streams := [{ t with poison := some (e.code, e.eva, e.other) }] })) ∧
        (recVrows t.saved = 0 → t.edger = 0 → exec (.streamFill n) s =
          .next (s.modC fun c => { c with streams := [{ t with filled := t.filled + 1 }] }))) ∧
      (t.poison.isSome = true ∨ t.total ≤ t.filled ∨ t.next + t.depth ≤ t.filled ∨ s.core.timed.active = true ∨ s.core.run = .killed →
        exec (.streamFill n) s = .next s) ∧
      (∀ v : View, v.reg = n → (s.core.consume [v]).streams = [{ t with next := t.next + 1 }] ∧
        s.core.record n = t.entry t.next)
  )

/-- XCOPY in both directions, XCAST, XLEASE and XFREE put their command at the end of their queue and return its id (XLEASE
owes its handle), where the checks of R263, in a timed phase those of R270 too, pass and the queue holds fewer than 16; XCOPY
of a broken shape raises SHAPE. `w` is the state once a timed copy has its place in the timetable, in a free phase the state
as it was; `last` is the cycle on which a timed copy completes (R263 to R265, R270). XFENCE joins the queues it names to their last commands; XWAIT completes, as an acquire, once DONE
exceeds the id, waits before, and raises PROT for an id not issued yet; XSTAT and GSTAT return the queue's status (R266,
R267). Completion (exec answers a next state, under conditions on the state and operands alone) is stated for: xcopy, xcast,
xcopyViewToTile, xlease, xfree, xfence, xwait, xstat, gstat. -/
def Obligations.TransferQueues : Prop :=
  (
    ∀ (s : State) (x : Args) (m : XMod) (q : BitVec 2), m.queue = q →
      let c := s.core
      let y := passArgs x c.sys.repst
      let id := BitVec.ofNat 64 (c.xnext.get q.toFin)
      let timed := c.timed.active
      (c.xq.get q.toFin).length < 16 →
      (∀ (f : Form) (a k : Word) (v : View) (w : State), v = c.view y.a → a = c.value y.b → k = c.readS (regOf y.b + 1#5) →
        f = { plainForm with phase := .compute, soff := m.soff, reads := [.s (regOf y.b + 1#5)] } → s.issues f x = true →
        regOf x.b = regOf y.b →
        let u := s.begun f x
        let start := if timed then u.core.now + m.soff.toNat else 0
        (engineTile c v → copyCtlOk k true timed = true → a.toNat % alignWidth v.fmt = 0 → bits k 29 0 % alignWidth v.fmt = 0 →
          (bits k 63 61 = 0 ∨ ∃ t, u.peer a = some t ∧ u.reach u.core.die t.die a.toNat ≠ some 0x06#8) → k.getLsbD 47 = false → u.rawRowsOk v (bits k 63 61) a (bits k 29 0) = true →
          (timed = true → bits k 63 61 = 2 ∧ timedShapeOk v (bits k 29 0) (peerOff a) = true ∧ u.routeStarts u.core (bits k 55 48) = true) →
          u.bookCopy v start [bits k 55 48] (peerOff a) = .ok w →
          let last := w.copyEnd (flitCount v) start [bits k 55 48]
          exec (.xcopy x m) s =
            .next (w.modC fun c => (queued c q (.copyOut v.shape v.alt a k m.rm) m.soff last).writeD y.d id).retire) ∧
        (timed = false → c.streams = [] → v.shapeOk = false → exec (.xcopy x m) s = .next (s.takes x.head (cause 0x0B#8))) ∧
        (∀ ts : List Core, engineTile c v → castCtlOk k timed = true → bits k 20 0 % alignWidth v.fmt = 0 →
          bits k 35 21 % alignWidth v.fmt = 0 → u.castTargets a k = some ts →
          (∀ t ∈ ts, u.reach u.core.die t.die (bits k 20 0) ≠ some 0x06#8) →
          (∀ t ∈ ts, u.rawRowsOk v 2 (peerAddress t (bits k 20 0)) (bits k 35 21) = true) →
          let routes := (List.range ts.length).map fun n => (bits k 55 48 + n) % 256
          (timed = true → timedShapeOk v (bits k 35 21) (bits k 20 0) = true ∧ ∀ n ∈ routes, u.routeStarts u.core n = true) →
          u.bookCopy v start routes (bits k 20 0) = .ok w →
          let last := w.copyEnd (flitCount v) start routes
          exec (.xcast x m) s =
            .next (w.modC fun c => (queued c q (.cast v.shape v.alt a k m.rm) m.soff last).writeD y.d id).retire)) ∧
      (∀ (a w : Word) (v : View), v = c.view y.b → a = c.value y.a → w = c.readS (regOf y.a + 1#5) → regOf x.a = regOf y.a →
        s.issues { plainForm with phase := .free, soff := m.soff, reads := [.s (regOf y.a + 1#5)] } x = true →
        engineTile c v → copyCtlOk w false false = true → a.toNat % alignWidth v.fmt = 0 → bits w 29 0 % alignWidth v.fmt = 0 →
        let u := s.clock x.head
        (bits w 63 61 = 0 ∨ ∃ t, u.peer a = some t ∧ u.reach u.core.die t.die a.toNat ≠ some 0x06#8) → w.getLsbD 47 = false →
        u.rawRowsOk v (bits w 63 61) a (bits w 29 0) = true →
        exec (.xcopyViewToTile x m) s =
          .next (s.completes x.head fun c => (queued c q (.copyIn v.shape v.alt a w m.rm) 0#8).writeD y.d id)) ∧
      (s.issuesFree freeForm x = true →
        (let a := c.value x.a
         let b := c.value x.b
         a.toNat % 1024 = 0 → bits b 63 48 ≠ 0 → bits b 47 32 = 0 → bits b 31 0 ≠ 0 → bits b 31 0 % 1024 = 0 →
          exec (.xlease x q) s = .next (s.completes x.head fun c =>
            (queued c q (.lease a.toNat (bits b 31 0) (bits b 63 48)) 0#8).owe x.d q.toNat (c.xnext.get q.toFin % 2 ^ 64))) ∧
        exec (.xfree x q) s = .next (s.completes x.head fun c => (queued c q (.free (c.value x.a)) 0#8).writeD x.d id))
  ) ∧
  (
    ∀ (s : State) (x : Args), s.issuesFree freeForm x = true →
      let c := s.core
      let q := specialIndex x.a
      (∀ m : BitVec 4, Yields (.xfence x m) s fun t => s.onlyCore t ∧ s.continues t x.head ∧ t.core.xq = c.xq ∧ t.core.gq = c.gq ∧
        (∀ (k : Fin 9) (n : Nat) (e : Nat × Nat), (fenceQueues x.a m).contains k.val = true → (fenceQueues x.a m).contains n = true →
          c.lastOf n = some e → e ∈ t.core.joins.get k) ∧
        (∀ k : Fin 9, (fenceQueues x.a m).contains k.val = false → ∀ e ∈ t.core.joins.get k, e ∈ c.joins.get k)) ∧
      (let n := (c.value x.b).toNat
       (c.queueNext x.a ≤ n → exec (.xwait x) s = .next (s.takes x.head (cause 0x06#8))) ∧
       (n < c.queueNext x.a → n < c.queueDone x.a → exec (.xwait x) s = .next (s.clock x.head).acquire.retire) ∧
       (n < c.queueNext x.a → c.queueDone x.a ≤ n →
         exec (.xwait x) s = .next ((s.clock x.head).modC fun c => { c with wait := .engine }))) ∧
      (∀ h : q < 4, exec (.xstat x) s = .next (s.completes x.head fun c => c.writeD x.d (BitVec.ofNat 64
        ((if c.xstop = some q then 2 ^ 63 else 0) + c.xq[q].length * 2 ^ 58 + c.xnext[q] % 2 ^ 48)))) ∧
      (∀ h : q < 4, c.memc = false → exec (.gstat x) s = .next (s.completes x.head fun c => c.writeD x.d (BitVec.ofNat 64
        ((if c.xstop = some (4 + q) then 2 ^ 63 else 0) + c.gq[q].length * 2 ^ 58 + c.gnext[q] % 2 ^ 48))))
  )

/-- The transfer engine starts the head of a queue once its join allows it: a copy of one FP32 element to a GLOBAL view writes
its four bytes, one from a view the tile's element; XLEASE's command takes a lease of 1 KiB and delivers its handle, or 0 where
the set has no way left; XFREE's command ends its lease; a row that cannot be translated stops the queue, with XFAULT, XPROG and
a pending XLATE. A head that may not start leaves everything as it was. The finished head leaves the queue, DONE passes its id,
and its post is added, or reported as LINK where the path is broken; a skipped target is reported; a lease ends at its Tick
(R264, R265, spec/06 R121 to R127, spec/18 R311). Completion (exec answers a next state, under conditions on the state and
operands alone) is stated for: transferCommandStart, transferCommandCompletion, leaseExpiry. -/
def Obligations.TransferEngineServesItsQueue : Prop :=
  (
    ∀ (s : State) (q : BitVec 2) (t : Transfer) (rest : List Transfer) (n : Nat), s.core.xq.get q.toFin = t :: rest →
      t.timed = false → s.core.stores = [] →
      let put := fun (c : Core) (t : Transfer) => { c with xq := c.xq.set q.toNat (t :: rest) q.isLt }
      let begun := { t with begun := true }
      let finished := { t with begun := true, done := true }
      (s.core.engineRuns = true → s.core.xstop = none → t.done = false → s.core.needDone t.need = true →
        (∀ (r : Shape) (alt : Bool) (a w : Word) (rm : BitVec 2), t.rows = 0 → t.skipped = none →
          let v := s.core.viewOf r alt
          v.fmt = .fp32 → v.code = 1 → v.vrows = 1 → v.vcols = 1 → s.core.lsBad = [] → s.race = [] → bits w 63 61 = 0 →
          w.getLsbD 60 = false → a.toNat % 4 = 0 → 1 ≤ n →
          (∀ p e, t.kind = .copyOut r alt a w rm → mapped s a true = some (p, e) → e.getLsbD 4 = false →
            exec (.transferCommandStart q n) s =
              .next ({ s with mem := Mem.putBytes s.mem p (toBytes 4 (s.core.rawElem v 0 0)) }.modC fun c =>
                put c { finished with rows := 1 })) ∧
          (∀ p e, t.kind = .copyIn r alt a w rm → mapped s a false = some (p, e) → e.getLsbD 4 = false →
            exec (.transferCommandStart q n) s =
              .next (s.modC fun c => put (c.putElem v 0 0 (Mem.load s.mem p 4)) { finished with rows := 1 })) ∧
          (t.kind = .copyOut r alt a w rm → s.rootOk s.core.die a = false → s.core.xfaulted = false →
            exec (.transferCommandStart q n) s = .next (s.modC fun c => { put c begun with
              xstop := some q.toNat, deferred := c.deferred ++ [⟨0x05#8, a, 0xFFF#12, t.hm⟩]
              sys := { c.sys with
                xfault := BitVec.ofNat 64 (2 ^ 63 + q.toNat * 2 ^ 59 + 0x05 * 2 ^ 48 + t.id % 2 ^ 48), xprog := 0#64 } }))) ∧
        (∀ (a ticks p : Nat) (e : Word), t.kind = .lease a 1024 ticks → mapped s (BitVec.ofNat 64 a) false = some (p, e) →
          exec (.transferCommandStart q n) s = .next (match s.waysOk [p / 1024], s.leaseHandle with
            | true, some (i, serial) =>
              let h := BitVec.ofNat 64 (i * 256 + serial)
              let l : Lease := { ctx := s.core.ctx, index := i, base := a, length := 1024, lines := [p / 1024]
                                 endTick := s.tick + ticks, handle := h }
              { s with leases := l :: s.liveLeases, leaseSerial := assign s.leaseSerial (s.core.ctx * 256 + i) serial
                       free := s.free + 1 }.modC fun c => put (c.deliver q.toNat t.id h) finished
            | _, _ => s.modC fun c => put (c.deliver q.toNat t.id 0#64) finished)) ∧
        (∀ h : Word, t.kind = .free h → exec (.transferCommandStart q n) s =
          .next ({ s with leases := s.leases.filter fun l => !(l.ctx == s.core.ctx && l.handle == h) }.modC fun c =>
            put c finished))) ∧
      (s.core.engineRuns = false ∨ s.core.xstop = some q.toNat ∨ t.done = true ∨ s.core.needDone t.need = false →
        (∀ r ∈ rest, r.timed = false) → exec (.transferCommandStart q n) s = .next s)
  ) ∧
  (
    ∀ (s : State) (q : BitVec 2) (t : Transfer) (rest : List Transfer), s.core.xq.get q.toFin = t :: rest → s.flits = [] →
      let u := (s.reachCycle t.finish).modC fun c => { c with
        xq := c.xq.set q.toNat rest q.isLt
        sys := { c.sys with xdone := c.sys.xdone.set q.toNat (BitVec.ofNat 64 ((t.id + 1) % 2 ^ 48)) q.isLt } }
      (t.done = false → exec (.transferCommandCompletion q) s = .next s) ∧
      (t.done = true → t.skipped = none →
        (∀ (tile : Shape) (alt : Bool) (a w : Word) (rm : BitVec 2),
          t.kind = .copyOut tile alt a w rm ∨ t.kind = .copyIn tile alt a w rm →
          let line := postAddress w
          (w.getLsbD 47 = false → exec (.transferCommandCompletion q) s = .next u) ∧
          (w.getLsbD 47 = true → s.reach s.core.die (bits w 46 37) line.toNat = none → exec (.transferCommandCompletion q) s =
            .next (u.addLine (bits w 46 37 * 2 + bits w 36 36) (bits w 35 30) 1#32)) ∧
          (w.getLsbD 47 = true → s.reach s.core.die (bits w 46 37) line.toNat ≠ none → s.core.xfaulted = false →
            exec (.transferCommandCompletion q) s = .next (u.engineFault q.toNat t.id t.rows true t.hm (causeAt 0x15#8 line)))) ∧
        (t.kind.post = none → exec (.transferCommandCompletion q) s = .next u)) ∧
      (∀ a, t.done = true → t.skipped = some a → t.kind.post = none → s.core.xfaulted = false →
        exec (.transferCommandCompletion q) s = .next (u.engineFault q.toNat t.id t.rows true t.hm (causeAt 0x0A#8 a)))
  ) ∧
  (
    ∀ (s : State) (k : Nat), exec (.leaseExpiry k) s =
      .next { s with leases := s.leases.filter fun l => !(l.ctx == s.core.ctx && l.index == k && decide (l.endTick ≤ s.cyc / 4096)) }
  )

/-- GTAB, GREST, GPROL and GCONV queue their command behind the joins where the checks of R268 and R269 pass and fewer than
eight are queued; a command word that breaks its rules raises RESERVED_FIELD. `z` is the state once a timed command has its
place in the timetable, in a free phase the state as it was (spec/06 R126). The Rood engine serves the next command of its
die: a table is loaded into its slot; the finished head leaves the queue and DONE passes its id. A row of one point is the
source's value converted (GCONV) or weighed by the one table entry and rounded (GREST) (spec/06 R129 to R135). Completion
(exec answers a next state, under conditions on the state and operands alone) is stated for: grest, gprol, gconv, gtab,
roodCommandStart, roodCommandCompletion. -/
def Obligations.RoodEngine : Prop :=
  (
    ∀ (s : State) (x : Args) (m : GMod) (q : BitVec 2), m.queue = q → s.core.memc = false →
      let f : Form := { plainForm with phase := .compute, soff := m.soff }
      s.issues f x = true → (s.core.gq.get q.toFin).length < 8 →
      let u := s.begun f x
      let c := s.core
      let y := passArgs x c.sys.repst
      let w := c.value y.b
      let start := if c.timed.active then u.core.now + m.soff.toNat else 0
      let put := fun (z : State) (k : RoodKind) => (z.modC fun c =>
        { c with gq := c.gq.set q.toNat (c.gq.get q.toFin ++ [{ id := c.gnext.get q.toFin, kind := k, rows := 0, begun := false, done := false
                                                                timed := c.timed.active, start := start, finish := 0
                                                                need := c.joins[4 + q.toNat]?.getD [] ++ c.writersOf (c.roodSources k)
                                                                hm := c.handler, seen := [] }]) q.isLt
                 gnext := c.gnext.set q.toNat ((c.gnext.get q.toFin + 1) % 2 ^ 48) q.isLt }).retire
      let d := c.roodView (c.tileOf y.d) (cwOvd w)
      let a := c.roodView (c.tileOf y.a) (cwOvs w)
      let k := c.viewOf (c.tile (cwMtile w)) false
      let srcs := a :: (if cwMen w then [k] else [])
      let ready := fun (op : RoodOp) => cwOk op w = true ∧ c.streams = [] ∧ roodShapeOk op d a k w = true ∧ cwFmtOk w = true ∧
        d.code ≠ 0 ∧ a.code ≠ 0 ∧ c.mirrorOk d = true ∧ c.mirrorOk a = true ∧ (cwMen w = true → k.fmt = .m1 ∧ c.mirrorOk k = true)
      (∀ z, ready .restrict → u.bookRood (.restrict d.shape a.shape k.shape w) d srcs start = .ok z →
        exec (.grest x m) s = .next (put z (.restrict d.shape a.shape k.shape w))) ∧
      (∀ z, ready .prolong → u.bookRood (.prolong d.shape a.shape k.shape w) d srcs start = .ok z →
        exec (.gprol x m) s = .next (put z (.prolong d.shape a.shape k.shape w))) ∧
      (∀ z, ready .convert → u.bookRood (.convert d.shape a.shape k.shape w) d srcs start = .ok z →
        exec (.gconv x m) s = .next (put z (.convert d.shape a.shape k.shape w))) ∧
      (cwOk .convert w = false → exec (.gconv x m) s = .next (s.stops f x (cause 0x02#8))) ∧
      (∀ (n : BitVec 15) (table : Stencil), y.b = .imm n → (c.value y.a).toNat % 128 = 0 → (c.value y.a).toNat < 0x200000 →
        c.mq = [] → c.stores = [] → s.race = [] → c.lsBad = [] → parseTable (c.lsBytes (c.value y.a).toNat 128) = some table →
        (c.timed.active = false → exec (.gtab x m) s = .next (put u (.table n.toNat table))) ∧
        (∀ z, c.weakAt (c.value y.a).toNat 128 = false → u.lineAccess [bytesExtent (c.value y.a).toNat 128] 0 false 0 = .ok z →
          exec (.gtab x m) s = .next (put z (.table n.toNat table))))
  ) ∧
  (
    ∀ (s : State) (q : BitVec 2) (t : Rood) (rest : List Rood), s.core.gq.get q.toFin = t :: rest →
      (∀ (n slot : Nat) (h : slot < 4) (table : Stencil), t.kind = .table slot table → t.timed = false → t.done = false →
        s.core.engineRuns = true → s.core.xstop = none → s.core.needDone t.need = true →
        (∀ r ∈ rest, r.timed = false ∧ r.id ≠ t.id) → s.roodNext s.core.die = some (s.core.num, q.toNat) →
        Yields (.roodCommandStart n) s fun u => u.core.gt = s.core.gt.set slot table h ∧
          u.core.gq = s.core.gq.set q.toNat ({ t with begun := true, finish := 0, done := true } :: rest) q.isLt ∧
          u.core.ls = s.core.ls ∧ u.others = s.others) ∧
      (t.done = true → exec (.roodCommandCompletion q) s = .next ({ s with cyc := max s.cyc t.finish }.modC fun c =>
        { c with gq := c.gq.set q.toNat rest q.isLt
                 sys := { c.sys with gdone := c.sys.gdone.set q.toNat (BitVec.ofNat 64 ((t.id + 1) % 2 ^ 48)) q.isLt } })) ∧
      (∀ (d a m : Shape) (w : Word), t.timed = false → t.seen = [] → cwH w = 0 → cwNzs w = 1 → cwNzd w = 1 → cwMen w = false →
        s.core.lsBad = [] → s.race = [] → Mem.wf s.core.ls = true →
        recRows a = 1 → recVrows a = 1 → recVcols a = 1 → recRows d = 1 → recVrows d = 1 → recVcols d = 1 →
        let c := s.core
        let dv := c.roodView d (cwOvd w)
        let av := c.roodView a (cwOvs w)
        let src := decodeVal av.fmt (c.code av.fmt (recBase a) (elemIndex a false 0 0)) av.scale
        let out := fun (v : Val) => s.modC fun c => c.putVal dv 0 0 (encodeVal dv.fmt v dv.scale (roundingOf (cwRm w)) dv.sat)
        (∃ seen, s.roodRow t .convert d a m w 0 = .ok (out src, seen)) ∧
        (∀ (e : StencilEntry) (shift : Nat), c.gt[cwTab w]? = some ⟨shift, false, [e]⟩ → e.dz = 0 → e.dy = 0 → e.dx = 0 → cwAdd w = false →
          ∃ seen, s.roodRow t .restrict d a m w 0 = .ok (out (rne56 (weigh shift e src)), seen)))
  )

/-- Event lines and byte counts: ESIG and EPOST add to a line, ECLR zeroes it or clears a byte count, EARM arms one for 1 to
2^31 bytes; EWAIT pushes COUNT, as an acquire, where the line has fired for its threshold, and waits before (R271 to R274,
spec/05 R98, R109). Completion (exec answers a next state, under conditions on the state and operands alone) is stated for:
esig, epost, eclr, earm, ewait. -/
def Obligations.EventInstructions : Prop :=
  ∀ (s : State) (x : Args), s.issuesFree freeForm x = true →
    let u := s.clock x.head
    let c := s.core
    let n := specialIndex x.a
    let l := s.latch c.latch
    let b := c.value x.b
    (c.settled = true → exec (.esig x) s = .next (u.addLine c.latch n (b.setWidth 32)).retire) ∧
    (c.settled = false → exec (.esig x) s = .next (u.modC fun c => { c with wait := .interlock })) ∧
    (n < 64 → ∀ inc, ((s.addLine c.latch n inc).latch c.latch).line n = ⟨(l.line n).count + inc, (l.line n).target⟩) ∧
    (∀ e, (c.value x.a).toNat % 8 = 0 → u.eventAddr (c.value x.a) = some e → e.cls = 0 → e.word = 0 → e.latch = c.latch →
      c.settled = true → s.reach c.die (e.latch / 2) (c.value x.a).toNat = none →
      exec (.epost x) s = .next (u.addLine c.latch e.index (b.setWidth 32)).retire) ∧
    (specialSub x.a = 2 → exec (.eclr x) s = .next (u.clearLine c.latch n).retire) ∧
    (specialSub x.a ≠ 2 → exec (.eclr x) s = .next (u.setLatch c.latch (l.setCount n ⟨0#32, 0#32, false, 0#6⟩)).retire) ∧
    (∀ m : BitVec 6, 1 ≤ b.toNat → b.toNat ≤ 2 ^ 31 → exec (.earm x m) s = .next ((u.setLatch c.latch (l.setCount n
      { l.count n with expect := BitVec.ofNat 32 b.toNat, armed := true, line := m })).fireCount c.latch n).retire) ∧
    (∀ m : BitVec 6, b.toNat = 0 ∨ 2 ^ 31 < b.toNat → exec (.earm x m) s = .next (s.takes x.head (cause 0x02#8))) ∧
    (∀ m : Bool, c.wait = .none → c.wake = none →
      let t := if m then b.setWidth 32 else (l.line n).target
      (((l.line n).count - t).toNat < 2 ^ 31 → exec (.ewait x m) s =
        .next (u.modC fun c => c.push ((l.line n).count.setWidth 64 <<< 32)).acquire.retire) ∧
      (2 ^ 31 ≤ ((l.line n).count - t).toNat → exec (.ewait x m) s = .next (u.modC fun c => { c with wait := .line n t })))

/-- BARV at a barrier object of the own Latch: an arrival that is not the last raises A by one, records BARST and waits (or
goes on, under `.nb`); the last one flips the phase, applies drops and joins and goes on; `.drop` arrives and leaves without
waiting, `.join` raises E for the next phase; an object with E = 0 raises PROT (R275, spec/05 R101 to R103). The last timed
arrival at a scope barrier of level 3 ends the wait and leaves the core waiting for the base of its region; a timed arrival
elsewhere raises RESERVED_FIELD. BWAIT completes, with 0 pushed, once the phase of the recorded arrival has flipped, and
raises PROT without one (R275, spec/01 R20, spec/05 R103, R104). Completion (exec answers a next state, under conditions on
the state and operands alone) is stated for: barv, barvNb, barvDrop, barvJoin, barvTimed, bwait. -/
def Obligations.Barriers : Prop :=
  (
    ∀ (s : State) (x : Args) (n : BitVec 6), s.issuesFree freeForm x = true → x.a = .x 3#3 n → n.toNat < 16 →
      s.core.settled = true → s.core.sys.barst.getLsbD 0 = false → s.core.arrived = false → s.core.num < 8 →
      let r := BarRef.object s.core.latch n.toNat
      let b := s.bar s.core r
      let bar := fun (t : State) => t.bar s.core r
      let stays := fun (t : State) => t.core.wait = .barrier ∧ t.core.pc = s.core.pc
      let flipped := fun (t : State) (drops : Nat) => (bar t).phase = !b.phase ∧ (bar t).a = 0 ∧ (bar t).e = b.e - drops + b.joins ∧
        (bar t).drops = 0 ∧ (bar t).joins = 0
      (b.e ≠ 0 → b.timed = 0 → b.a + 1 ≠ b.e →
        Yields (.barv x) s (fun t => stays t ∧ (bar t).a = b.a + 1 ∧ (bar t).phase = b.phase ∧ (bar t).e = b.e ∧
          t.core.sys.barst = barstWord r b.phase true) ∧
        Yields (.barvNb x) s (fun t => s.continues t x.head ∧ (bar t).a = b.a + 1 ∧ (bar t).phase = b.phase ∧
          t.core.sys.barst = barstWord r b.phase false) ∧
        Yields (.barvDrop x) s (fun t => s.continues t x.head ∧ (bar t).a = b.a + 1 ∧ (bar t).drops = b.drops + 1)) ∧
      (b.e ≠ 0 → b.timed = 0 → b.a + 1 = b.e →
        Yields (.barv x) s (fun t => s.continues t x.head ∧ flipped t b.drops ∧ t.core.sys.barst.getLsbD 0 = false) ∧
        Yields (.barvNb x) s (fun t => s.continues t x.head ∧ flipped t b.drops) ∧
        Yields (.barvDrop x) s (fun t => s.continues t x.head ∧ flipped t (b.drops + 1))) ∧
      (b.e = 0 → exec (.barv x) s = .next (s.takes x.head (cause 0x06#8))) ∧
      (b.e = 0 → b.a = 0 → Yields (.barvJoin x) s fun t => s.continues t x.head ∧ (bar t).e = 1) ∧
      (b.e ≠ 0 → Yields (.barvJoin x) s fun t => stays t ∧ (bar t).joins = b.joins + 1 ∧ (bar t).a = b.a)
  ) ∧
  (
    ∀ (s : State) (x : Args), s.issuesFree freeForm x = true → s.core.arrived = false →
      let u := s.clock x.head
      let st := s.core.sys.barst
      (∀ n : BitVec 6, x.a = .x 3#3 n → exec (.barvTimed x) s = .next (s.takes x.head (cause 0x02#8))) ∧
      (∀ (sub : BitVec 3) (n : BitVec 6), x.a = .x sub n → sub ≠ 3#3 → n.toNat / 8 = 3 → s.core.memc = false → s.core.settled = true →
        s.core.enginesIdle = true → st.getLsbD 0 = false →
        let r := BarRef.scope 3 (n.toNat % 8)
        let b := s.bar s.core r
        b.e = s.fieldCount → b.a + 1 = b.e → b.timed = b.a →
        Yields (.barvTimed x) s fun t => t.core.wait = .release ∧ t.core.pc = u.advance.core.pc ∧
          t.core.timed.base = u.fcyc s.core ∧ (t.bar s.core r).phase = !b.phase ∧ t.core.timed.comm = s.core.nextComm) ∧
      (st.getLsbD 0 = false → exec (.bwait x) s = .next (s.takes x.head (cause 0x06#8))) ∧
      (st.getLsbD 0 = true → s.core.wake = none →
        ((s.bar s.core (barstRef st)).phase ≠ st.getLsbD 8 →
          exec (.bwait x) s = .next ((u.leaveBarrier (barstRef st)).modC fun c => c.push 0#64).retire) ∧
        ((s.bar s.core (barstRef st)).phase = st.getLsbD 8 →
          exec (.bwait x) s = .next (u.modC fun c => { c with wait := .barrier })))
  )

/-- Mutexes of the own Latch: MLOCK and MTRY take a free one, as an acquire, MLOCK queues behind a holder and MTRY answers 0,
a request by the holder raises LOCK_SELF; MUNL frees it or hands it to the oldest waiter, and raises PROT for another's (R276,
spec/05 R106, R107). Completion (exec answers a next state, under conditions on the state and operands alone) is stated for:
mlock, mtry, munl. -/
def Obligations.MutexInstructions : Prop :=
  ∀ (s : State) (x : Args) (m : BitVec 3), s.issuesFree mutexForm x = true → s.core.wake = none →
    (∀ i, s.core.field = some i → (s.fieldAt i).replayMode = 0) →
    let n := specialIndex x.a
    let pos := s.core.num % 4
    let mutex := fun (t : State) => (t.latch s.core.latch).mutex n
    let mu := mutex s
    n < 16 →
    (mu.holder = none → mu.waiters = [] →
      Yields (.mlock x m) s (fun t => s.continues t x.head ∧ mutex t = ⟨some pos, []⟩ ∧ t.core.readQ 0#4 = 0#64 ∧
        (m ≠ 0#3 → t.core.readP m = true) ∧ t.core.regs = s.core.regs ∧ t.core.sys.racest.getLsbD 0 = true) ∧
      exec (.mtry x) s = .next (((s.clock x.head).setLatch s.core.latch ((s.latch s.core.latch).setMutex n ⟨some pos, []⟩)).modC
        fun c => c.writeD x.d 1#64).acquire.retire) ∧
    (∀ h, mu.holder = some h → h ≠ pos →
      exec (.mtry x) s = .next (s.completes x.head fun c => c.writeD x.d 0#64) ∧
      (mu.waiters.contains pos = false → Yields (.mlock x m) s fun t => t.core.wait = .mutex n ∧ t.core.pc = s.core.pc ∧
        mutex t = ⟨some h, mu.waiters ++ [pos]⟩)) ∧
    (mu.holder = some pos →
      exec (.mlock x m) s = .next (s.takes x.head (cause 0x0E#8)) ∧ exec (.mtry x) s = .next (s.takes x.head (cause 0x0E#8)) ∧
      (s.core.settled = true → mu.waiters = [] →
        Yields (.munl x) s fun t => s.continues t x.head ∧ mutex t = ⟨none, []⟩ ∧ t.core.regs = s.core.regs) ∧
      (∀ w k rest, s.core.settled = true → mu.waiters = w :: rest → s.coreAt s.core.latch w = some k →
        (∀ i, k.field = some i → (s.fieldAt i).replayMode = 0) →
        Yields (.munl x) s fun t => s.continues t x.head ∧ (mutex t).holder = some w)) ∧
    (mu.holder ≠ some pos → s.core.settled = true → exec (.munl x) s = .next (s.takes x.head (cause 0x06#8)))

/-- COPEN opens a collective over the members of its scope; CINJ puts the 64 bytes at a into CQIN as the next chunk and waits
while CQIN holds four; CEXT stores the oldest result chunk in CQOUT and waits while there is none; CCLOSE closes it with
status 0 after the last result and 3 after an abort, SAT set where a root's encode has clamped, and waits before; a bad
descriptor raises RESERVED_FIELD, an aborted collective COLLECTIVE_ABORT (R277, R278, spec/05 R100, R112, R113, R116). A node
with the chunk at every port, and no earlier one, combines it in port order: the root encodes the result, another node forwards the partial to its
parent, where a slot is free; a chunk in a CQIN drains into its core's leaf node; logical operations and counts act on whole
elements (spec/05 R113, R114, spec/03 R67). Completion (exec answers a next state, under conditions on the state and operands
alone) is stated for: copen, cinj, cext, cclose, chainNodeCombine. -/
def Obligations.Collectives : Prop :=
  (
    ∀ (s : State) (x : Args), s.issuesFree freeForm x = true →
      let u := s.clock x.head
      let c := s.core
      let a := c.value x.a
      let id := (c.value x.b).toNat
      (descOk a = true → c.colls.length < 8 → c.coll (bits a 7 0) = none →
        (∀ k ∈ s.colls, k.ctx ≠ c.ctx ∨ k.id ≠ bits a 7 0) →
        Yields (.copen x) s fun t => s.continues t x.head ∧
          t.core.colls = { id := bits a 7 0, desc := a, injected := 0, extracted := 0, popped := 0, forming := [], delivered := 0 } :: c.colls ∧
          t.colls = s.colls ++ [{ ctx := c.ctx, id := bits a 7 0, desc := a, members := s.collMembers (bits a 17 15), opened := [c.lcn]
                                  closed := [], parts := [], results := [], sat := false, aborted := false }]) ∧
      (descOk a = false → exec (.copen x) s = .next (s.takes x.head (cause 0x02#8))) ∧
      (∀ (o : OpenColl) (i : Nat) (k : Coll), c.coll id = some o → s.openOf c id = some i → s.colls[i]? = some k → id < 256 →
        a.toNat % 64 = 0 → a.toNat < 0x200000 →
        (k.aborted = true → exec (.cinj x) s = .next (s.takes x.head (cause 0x12#8)) ∧
          exec (.cext x) s = .next (s.takes x.head (cause 0x12#8))) ∧
        (let v := u.settleChain
         k.aborted = false → o.injected < bits o.desc 33 18 →
          (v.core.cqin.length < 4 → quietCore v.core → v.race = [] →
            exec (.cinj x) s = .next ((v.modC fun c => { c.setColl { o with injected := o.injected + 1 } with
              cqin := c.cqin ++ [(⟨o.id, o.injected,
                (chunkCodes (collFmt o.desc) (c.lsBytes a.toNat 64)).map (liftElem o.desc)⟩ : Inject)] }).settleChain).retire) ∧
          (4 ≤ v.core.cqin.length → exec (.cinj x) s = .next (u.modC fun c => { c with wait := .interlock }))) ∧
        (let v := u.fillCqout 4
         k.aborted = false → o.popped = 0 → (c.wideBank a.toNat = false ∨ collFmt o.desc = .af56 ∨ collFmt o.desc = .ai56) →
          (∀ o' res, quietCore c → s.race = [] → v.core.coll id = some o' → k.result o'.extracted = some res →
            o'.extracted < o'.delivered →
            exec (.cext x) s = .next (v.modC fun c =>
              (c.putLs a.toNat res.bytes).setColl { o' with extracted := o'.extracted + 1 }).retire) ∧
          (k.result o.extracted = none → exec (.cext x) s = .next (u.modC fun c => { c with wait := .interlock })))) ∧
      (∀ (o : OpenColl) (i : Nat) (k : Coll), c.coll a.toNat = some o → s.openOf c a.toNat = some i → s.colls[i]? = some k →
        (k.aborted = true → Yields (.cclose x) s fun t => s.continues t x.head ∧ t.core.readQ 0#4 = (if k.sat then 259#64 else 3#64) ∧
          ∀ v ∈ t.core.colls, v.id ≠ o.id) ∧
        (k.aborted = false → bits o.desc 33 18 ≤ o.injected → (k.result (bits o.desc 33 18 - 1)).isSome = true →
          Yields (.cclose x) s fun t => s.continues t x.head ∧ t.core.readQ 0#4 = (if k.sat then 256#64 else 0#64) ∧
            ∀ v ∈ t.core.colls, v.id ≠ o.id) ∧
        (k.aborted = false → bits o.desc 33 18 ≤ o.injected → (k.result (bits o.desc 33 18 - 1)).isSome = false →
          exec (.cclose x) s = .next (u.modC fun c => { c with wait := .chain o.id })))
  ) ∧
  (
    (∀ (s : State) (k : Coll) (node chunk : Nat) (ps : List (List Word)), s.colls = [k] → k.ctx = s.core.ctx → k.aborted = false →
      (∀ c ∈ s.cores, c.cqin = []) → (∀ p ∈ k.parts, p.spill = none ∧ (p.node = node → chunk ≤ p.chunk)) →
      (s.collPorts k node).isEmpty = false → s.partsAt k node chunk = some ps →
      (s.collRoot k = some node → Yields (.chainNodeCombine node k.id chunk) s fun t => t.core = s.core ∧ ∃ r, t.colls = [r] ∧
        r.results = k.results ++ [(⟨chunk, s.chainSeq, ((combineAll k.desc ps).map (rootElem k.desc)).flatMap fun e =>
          toBytes (collFmt k.desc).bytes e.1⟩ : ChainResult)]) ∧
      (∀ n, s.collRoot k ≠ some node → s.modState.chain[node]? = some n → s.slotFree n.parent = true →
        Yields (.chainNodeCombine node k.id chunk) s fun t => t.core = s.core ∧ ∃ r, t.colls = [r] ∧ r.results = k.results ∧
          (⟨n.parent, n.port, chunk, combineAll k.desc ps, none, s.chainSeq⟩ : Partial) ∈ r.parts)) ∧
    (∀ (s : State) (k : Coll) (c : Inject) (node port id chunk : Nat) (path : List (Nat × Nat)), s.others = [] → s.colls = [k] →
      s.core.cqin = [c] → (∀ p ∈ k.parts, p.spill = none) → s.openOf s.core c.id = some 0 →
      s.chainPath s.core.lcn = (node, port) :: path → s.slotFree node = true → id ≠ k.id →
      exec (.chainNodeCombine node id chunk) s = .next { s with
        core := { s.core with cqin := [] }
        colls := [{ k with parts := k.parts ++ [⟨node, port, c.chunk, c.vals, none, s.chainSeq⟩] }], chainSeq := s.chainSeq + 1 }) ∧
    (∀ d x y : Word, (collOp d = 3 → combineElem d x y = x &&& y) ∧ (collOp d = 4 → combineElem d x y = x ||| y) ∧
      (collOp d = 5 → combineElem d x y = x ^^^ y) ∧ (collOp d = 6 → combineElem d x y = x + y))
  )

/-- PHASE.free ends the region at this core where its flits have left their first link, and nothing issues before what has
issued is over; where they have not, the core is leaving and nothing issues before they have. PHASE.timed and
PHASE.comm choose the kind of the phase that follows; CYC returns τ in a timed region and FCYC outside or under `.abs` (R279,
R281). SEND and RECV of a dense tile in a timed communication phase take the sender and the receiver and go line by line,
cycle by cycle: a line of SEND puts its flit on the route, due three cycles per link after it; a line of RECV consumes the
flit of its route and writes it a cycle later, and one that is missing rolls the region back; neither issues outside such a
phase; a flit that arrives enters its core's receive buffer (R280, spec/08 R156, R161, R165). The value of CYC after a
rollback is DEDUCED (log entry 11). Completion (exec answers a next state, under conditions on the state and operands alone)
is stated for: phaseFree, phaseTimed, phaseComm, cyc, send, recv, staticFlitArrival. -/
def Obligations.TimetableInstructions : Prop :=
  (
    ∀ (s : State) (x : Args),
      (let f : Form := { plainForm with alone := true }
       s.issues f x = true →
        (s.core.timed.active = true →
          (let u := s.begun f x
           let gone := u.flitsGone u.core
           exec (.phaseFree x) s = .next (s.finishes f x fun c =>
            if gone ≤ u.core.now then
              { c with holdUntil := max c.holdUntil c.unitsEnd, timed := { c.timed with active := false, leaving := false } }
            else { c with holdUntil := gone, timed := { c.timed with leaving := true } })) ∧
          exec (.phaseTimed x) s = .next (s.finishes f x fun c => { c with timed := { c.timed with comm := false } }) ∧
          exec (.phaseComm x) s = .next (s.finishes f x fun c => { c with timed := { c.timed with comm := true } })) ∧
        (s.core.timed.active = false →
          exec (.phaseFree x) s = .next (s.completes x.head id) ∧
          exec (.phaseTimed x) s = .next (s.completes x.head fun c => { c with nextComm := false }) ∧
          exec (.phaseComm x) s = .next (s.completes x.head fun c => { c with nextComm := true }))) ∧
      (s.issues plainForm x = true →
        (s.core.timed.active = false → ∀ m, exec (.cyc x m) s = .next (s.completes x.head fun c =>
          c.writeD x.d ((s.clock x.head).fcyc s.core))) ∧
        (s.core.timed.active = true →
          exec (.cyc x true) s = .next (s.finishes plainForm x fun c => c.writeD x.d (s.core.issueCycle x.head)) ∧
          exec (.cyc x false) s = .next (s.finishes plainForm x fun c => c.writeD x.d
            (s.core.issueCycle x.head - s.core.timed.base + BitVec.ofNat 64 s.core.timed.offset)))) ∧
      (s.core.timed.active = false → s.core.holdUntil ≤ (s.clock x.head).cyc)
  ) ∧
  (
    (∀ (s : State) (x : Args) (m : BitVec 8) (f : Form), f = { plainForm with phase := .comm } → s.issues f x = true →
      let u := s.begun f x
      let y := passArgs x s.core.sys.repst
      let v := u.core.view y.a
      let w := u.core.view y.d
      (v.shapeOk = true → denseTile v = true → s.core.streams = [] → s.core.lsBad = [] → u.routeStarts u.core m.toNat = true →
        (∀ c, u.core.bookSend y v m.toNat = .ok c →
          exec (.send x m) s = .next ({ u with core := c } : State).retire ∧ c.lanes = u.core.lanes ++ lanesOf .send v m.toNat u.core.now) ∧
        (∀ n, u.core.bookSend y v m.toNat = .error (.timing n) → exec (.send x m) s = .next (u.rollback n))) ∧
      (w.shapeOk = true → denseTile w = true → s.core.streams = [] → u.routeArrives u.core m.toNat = true →
        (∀ c, u.core.bookRecv w m.toNat = .ok c →
          exec (.recv x m) s = .next ({ u with core := c } : State).retire ∧ c.lanes = u.core.lanes ++ lanesOf .take w m.toNat u.core.now) ∧
        (∀ n, u.core.bookRecv w m.toNat = .error (.timing n) → exec (.recv x m) s = .next (u.rollback n)))) ∧
    (∀ (s : State) (l : Lane),
      let t := (s.modC fun c => { c with lanes := c.lanes.erase l }).reachCycle l.cycle
      let v := t.core.viewOf l.tile false
      (∀ links die core, l.act = .send → t.core.lsWeak = [] → t.core.lsBad = [] → t.flits = [] → t.routeWalk 520 l.route t.core.die 4 = (links, some (die, core)) →
        (∀ k ∈ links, t.linkDown k = false) → (t.chip die).barred = false →
        s.laneStep l = { t with flits := [{ route := l.route, src := t.core.die * 8 + t.core.num, die := die, core := core
                                            due := l.cycle + max 2 (3 * links.length), sent := l.cycle, order := l.order
                                            links := links, data := t.core.tileLine v l.line, copy := none, broken := none
                                            lost := none }] }) ∧
      (∀ f, l.act = .take → (t.core.rxbuf.find? fun f => f.route == l.route) = some f →
        s.laneStep l = t.modC fun c => { c with rxbuf := c.rxbuf.erase f
                                                lanes := c.lanes ++ [{ l with act := .write f.data, cycle := l.cycle + 1 }] }) ∧
      (l.act = .take → (∀ f ∈ t.core.rxbuf, f.route ≠ l.route) → s.laneStep l = t.rollback 7) ∧
      (∀ data, l.act = .write data → s.laneStep l = t.modC fun c => c.putLine v l.line data)) ∧
    (∀ (s : State) (x : Args) (m : BitVec 8), s.core.ganged = false → s.preemptDue x.head = false → s.core.skip = false →
      s.core.guard x.head = true → (s.core.timed.active && s.core.timed.comm) = false →
      (s.core.timed.active = true → (s.clock x.head).core.earlyScalar (.p x.head.gp false) = false) →
      exec (.send x m) s = .next (s.takes x.head (cause 0x01#8)) ∧ exec (.recv x m) s = .next (s.takes x.head (cause 0x01#8))) ∧
    (∀ (s : State) (f : Flit), s.flits = [f] → f.copy = none → f.lost = none → s.core.is f.die f.core = true → s.others = [] →
      s.core.rxbuf = [] →
      exec (.staticFlitArrival false) s =
        .next { s with flits := [], cyc := max s.cyc f.due, core := { s.core with rxbuf := [f] } })
  )

/-- A timing condition of a region of one core rolls it back to its latest restart point: program counter, queue, slot states
and records and bank formats of the mark, REPST cleared, no line of SEND or RECV to come, the count and condition in TFLT, and
a release that counts from 64 cycles after F, which lies within 128 cycles of the detection; a TIMING event outside a region does nothing (spec/08 R161, R162). The base of a region of one core
is 64 cycles after its release: the first instruction issues there; a rolled-back or returning core is released again
likewise; PREEMPT is taken before a restart point 128 cycles or more after its request, with the restart point recorded
(spec/01 R20, spec/08 R162, R167). The cycle a release base counts from is the model's reading (log entry 12). Completion
(exec answers a next state, under conditions on the state and operands alone) is stated for: timingRollback, timedRegionBase,
timedRerelease, preemptAtRestartPoint. -/
def Obligations.RollbackAndRelease : Prop :=
  (
    ∀ (s : State) (cond : BitVec 4), s.others = [] →
      (s.core.timed.active = false → exec (.timingRollback cond) s = .next s) ∧
      (∀ (m : Mark) (i : Nat), s.core.timed.active = true → 1 ≤ cond.toNat → cond.toNat ≤ 9 → s.core.field = some i →
        s.core.mark = some m → s.core.pmark = none → s.core.rbTarget = none → s.core.preemptPend = false → s.core.fcn < 4096 →
        Yields (.timingRollback cond) s fun t => t.core.pc = m.pc ∧ t.core.q = m.q ∧ t.core.bfmt = m.bfmt ∧
          (∀ n : Fin 16, t.core.slots.get n = { m.slots.get n with data := (s.core.slots.get n).data }) ∧ t.core.lanes = [] ∧
          t.core.sys.repst = 0#64 ∧ t.core.wait = .release ∧ t.core.regs = s.core.regs ∧
          (∃ n : Nat, n ≤ 128 ∧ t.core.timed.base = s.fcyc s.core + 64#64 + BitVec.ofNat 64 n) ∧
          t.core.preds = s.core.preds ∧ t.core.ls = s.core.ls ∧ t.mem = s.mem ∧ bits t.core.sys.tflt 59 56 = cond.toNat ∧
          bits t.core.sys.tflt 55 48 = 1)
  ) ∧
  (
    ∀ (s : State) (i : Nat), s.others = [] → s.core.field = some i → s.core.memc = false → s.core.run = .running →
      (s.core.wait = .release →
        let base := BitVec.ofNat 64 (s.core.timed.base.toNat + 64)
        let released := fun (t : State) => t.core.wait = .none ∧ t.core.timed.active = true ∧ t.core.timed.base = base ∧
          t.core.timed.first = true ∧ t.core.pc = s.core.pc ∧ t.core.regs = s.core.regs ∧
          t.cyc = max s.cyc (base + s.core.fbase).toNat
        (s.core.timed.active = false → (s.fieldAt i).noTimed = false → Yields .timedRegionBase s released) ∧
        (s.core.timed.active = true → s.core.savedTimed = false → s.core.hwImage = none → Yields .timedRerelease s released)) ∧
      (s.core.ganged = false → s.core.wait ≠ .release → s.preemptDue s.core.headAt = true →
        Yields .preemptAtRestartPoint s fun t => t.core.handler = true ∧ bits t.core.sys.cause 7 0 = 0x16 ∧
          t.core.sys.cause.getLsbD 11 = true ∧ t.core.sys.epc = s.core.pc.zeroExtend 64 ∧ t.core.pc = s.core.sys.tvec.truncate 14 ∧
          t.core.preemptPend = false ∧ (s.quiet s.core = true → s.core.mq = [] → t.core.mark.map (·.pc) = some s.core.pc))
  )

/-- JPOST reads the 64 bytes at A and writes the handle of an accepted card, 0 where its level is full, and raises
RESERVED_FIELD for a malformed card; a card with no map and no dependence is dealable at once at the level of its PRIO; its
handle is the anchor die in bits 57 to 48 and the serial below (R286, R346, R348). END with records left in its chunk enters
the next one; END of the last record of the last chunk of a card, and END without a card, leave the core idle with its slots
free (R193, R14, R351). Completion (exec answers a next state, under conditions on the state and operands alone) is stated
for: jpost, end_. -/
def Obligations.PostingAndEnding : Prop :=
  (
    (∀ (s : State) (x : Args) (i : Nat) (t : State) (bs : List Byte), s.issues freeForm x = true →
      let u := s.clock x.head
      let a := s.core.value x.a
      s.core.value x.b = 0#64 → s.core.field = some i → (s.fieldAt i).stat ≠ .killed → s.core.settled = true → a.toNat % 64 = 0 →
      u.dispatchRead i a 64 = .ok (t, bs) →
      (∀ v h, t.acceptCard i bs t.core.die t.core.quad false = .accepted v h →
        exec (.jpost x) s = .next (v.modC fun c => c.writeD x.d h).retire) ∧
      (t.acceptCard i bs t.core.die t.core.quad false = .full →
        exec (.jpost x) s = .next (t.modC fun c => c.writeD x.d 0#64).retire) ∧
      (t.acceptCard i bs t.core.die t.core.quad false = .refused → exec (.jpost x) s = .next (s.takes x.head (cause 0x02#8)))) ∧
    (∀ (s : State) (i : Nat) (bs : List Byte) (die quad : Nat) (far : Bool), i < 16 →
      (∀ c ∈ (s.fieldAt i).cards, c.serial ≠ (s.fieldAt i).serial) →
      let f := s.fieldAt i
      let c := postedCard s i bs die quad
      (c.ok far = false → s.acceptCard i bs die quad far = .refused) ∧
      (c.ok far = true → 64 ≤ (f.atLevel c.prio).length → s.acceptCard i bs die quad far = .full) ∧
      (c.ok far = true → (f.atLevel c.prio).length < 64 → c.depAddr = 0#64 → c.abase = 0#64 →
        s.acceptCard i bs die quad far = .accepted (s.setField i { f with cards := f.cards ++ [c], serial := f.serial + 1 })
          (BitVec.ofNat 64 (f.anchor * 2 ^ 48 + f.serial % 2 ^ 48))))
  ) ∧
  (
    ∀ (s : State) (x : Args), s.issues { freeForm with leads := .leader, alone := true } x = true → s.core.drained = true → s.others = [] →
      s.core.memc = false →
      (∀ (ch : Chunk) (d : Card), s.core.chunk = some ch → 1 < ch.left → (s.fieldAt ch.field).card ch.serial = some d →
        Yields (.end_ x) s fun t => entered d (ch.next + 1) s.core.fcn s.core.rank t.core ∧
          t.core.chunk = some { ch with next := ch.next + 1, left := ch.left - 1 } ∧ t.mem = s.mem ∧ t.core.ls = s.core.ls) ∧
      ((∃ (ch : Chunk) (d : Card), s.core.chunk = some ch ∧ ch.left ≤ 1 ∧ s.core.card = some (ch.field, ch.serial) ∧
          (s.fieldAt ch.field).card ch.serial = some d ∧ d.undealt = [] ∧ d.cplAddr = 0#64) ∨
        (s.core.chunk = none ∧ s.core.card = none) →
        Yields (.end_ x) s fun t => t.core.run = .idle ∧ t.core.chunk = none ∧ t.core.card = none ∧
          (∀ n, t.core.slotAt n = Slot.reset) ∧ t.core.regs = s.core.regs ∧ t.core.ls = s.core.ls ∧ t.mem = s.mem ∧
          t.fields = s.fields)
  )

/-- JTAKE deals the next chunk of the current card to a core that holds none, writes NONE where nothing is left and raises
PROT with a chunk held; JDONE adds the chunk to its card's completion and drops it; JSTAT of s0 writes the chunk word, of a
handle the card word (R287 to R289, R352). The dispatcher serves the pending request of an idle core with the first chunk of
the card it chooses, which enters its record; a card that has waited 2^20 cycles at its level moves up; a dependence is read
once a Tick until it holds (R348, R349, R351). Completion (exec answers a next state, under conditions on the state and
operands alone) is stated for: jtake, jdone, jstat, jcancel, dispatchRequest, cardPromotion, dependenceRead. -/
def Obligations.Dealing : Prop :=
  (
    ∀ (s : State) (x : Args),
      (s.issues partyForm x = true →
        (s.core.chunk.isSome = true → exec (.jtake x) s = .next (s.takes x.head (cause 0x06#8))) ∧
        (s.core.chunk = none → s.core.card = none → exec (.jtake x) s = .next (s.completes x.head fun c =>
          c.writeD x.d 0x8000000000000000#64)) ∧
        (∀ (i n first len : Nat) (c : Card) (rest : List (Nat × Nat)) (k : BitVec 5), s.core.chunk = none → s.core.card = some (i, n) →
          (s.fieldAt i).card n = some c → c.inSlot = true → c.ready = true → c.undealt = (first, len) :: rest → 0 < c.div * c.parts →
          s.chunkGrantable s.core c = true → x.d = .s k → k ≠ 0#5 →
          let size := nextSize c len
          Yields (.jtake x) s fun t => s.continues t x.head ∧
            t.core.chunk = some { field := i, serial := c.serial, next := first, left := size, size := size, canc := false } ∧
            t.core.readS k = BitVec.ofNat 64 (size % 2 ^ 30 * 2 ^ 32 + first % 2 ^ 32) ∧ t.core.sys.racest.getLsbD 0 = true ∧
            t.core.ls = s.core.ls) ∧
        (s.core.chunk = none → exec (.jdone x) s = .next (s.takes x.head (cause 0x06#8))) ∧
        (∀ ch, s.core.chunk = some ch → s.core.drained = true → s.others = [] →
          exec (.jdone x) s = .next ((((s.clock x.head).modC fun c => { c with chunk := none }).complete ch.field ch.serial
            ch.size).retire) ∧
          (∀ d, (s.fieldAt ch.field).card ch.serial = some d → d.cplAddr = 0#64 →
            exec (.jdone x) s = .next (s.completes x.head fun c => { c with chunk := none }))) ∧
        (x.a = .s 0#5 → exec (.jstat x) s = .next (s.completes x.head fun c => c.writeD x.d (match c.chunk with
          | none => 0x8000000000000000#64
          | some ch => BitVec.ofNat 64 ((if ch.canc then 2 ^ 62 else 0) + ch.left % 2 ^ 30 * 2 ^ 32 + ch.next % 2 ^ 32))))) ∧
      (s.issues freeForm x = true →
        let h := s.core.value x.a
        let serial := h.toNat % 2 ^ 48
        (s.handleField h = .error (.exc (cause 0x06#8)) → x.a ≠ .s 0#5 →
          exec (.jcancel x) s = .next (s.takes x.head (cause 0x06#8)) ∧ exec (.jstat x) s = .next (s.takes x.head (cause 0x06#8))) ∧
        (∀ i, s.handleField h = .ok i → i < 16 →
          (x.a ≠ .s 0#5 →
            ((s.fieldAt i).card serial = none → exec (.jstat x) s = .next (s.completes x.head fun c =>
              c.writeD x.d 0x8000000000000000#64)) ∧
            (∀ c : Card, (s.fieldAt i).card serial = some c → c.level < 8 → c.left < 2 ^ 32 →
              exec (.jstat x) s = .next (s.completes x.head fun k => k.writeD x.d (BitVec.ofNat 64 ((match c.state with
                | .queued => 0
                | .dealing => 1
                | .finished => 2
                | .cancelled => 3) * 2 ^ 62 + c.level * 2 ^ 59 + c.left))))) ∧
          ((s.fieldAt i).card serial = none → exec (.jcancel x) s = .next (s.completes x.head fun c => c.writeD x.d 2#64)) ∧
          (∀ c : Card, (s.fieldAt i).cards = [c] → c.serial = serial →
            (c.state = .finished ∨ c.state = .cancelled → exec (.jcancel x) s = .next (s.completes x.head fun k => k.writeD x.d 2#64)) ∧
            (∀ k : BitVec 5, c.state = .queued ∨ c.state = .dealing → x.d = .s k → k ≠ 0#5 →
              Yields (.jcancel x) s fun t => s.continues t x.head ∧
                t.core.readS k = (if c.state = .queued then 0#64 else 1#64) ∧
                (t.fieldAt i).cards = [{ c with inSlot := false, due := none, undealt := [], state := .cancelled }] ∧
                ∀ ch, s.core.chunk = some ch → ch.field = i → ch.serial = serial →
                  t.core.chunk = some { ch with canc := true }))))
  ) ∧
  (
    ∀ (s : State) (i : Nat), i < 16 → (s.fieldAt i).valid = true → (s.fieldAt i).stat = .running →
      (∀ (c : Card) (first len : Nat) (rest : List (Nat × Nat)), s.others = [] → s.core.field = some i → s.core.memc = false →
        s.core.run = .idle → s.core.heldCard = none → (s.fieldAt i).cards = [c] → c.inSlot = true → c.ready = true → c.level < 8 →
        c.holds i s.core = true → c.gang = false → c.undealt = (first, len) :: rest → 0 < c.div * c.parts →
        s.chunkGrantable s.core c = true →
        let size := nextSize c len
        Yields (.dispatchRequest i) s fun t => entered c first s.core.fcn 0 t.core ∧ t.core.card = some (i, c.serial) ∧
          t.core.chunk = some { field := i, serial := c.serial, next := first, left := size, size := size, canc := false } ∧
          t.core.ls = s.core.ls ∧ t.hostMem = s.hostMem) ∧
      (∀ c : Card, (s.fieldAt i).cards = [c] →
        (c.inSlot = true → c.level < 7 → c.due = none → c.since + 2 ^ 20 ≤ s.cyc → Yields (.cardPromotion i c.serial) s fun t =>
          t.core = s.core ∧ (t.fieldAt i).cards = [{ c with level := c.level + 1, since := s.cyc }]) ∧
        (s.cyc < c.since + 2 ^ 20 → exec (.cardPromotion i c.serial) s = .next s) ∧
        (s.tick ≤ c.depTick → exec (.dependenceRead i c.serial) s = .next s) ∧
        (∀ (t : State) (bs : List Byte), c.inSlot = true → c.depDone = false → c.depAddr ≠ 0#64 → c.depTick < s.tick →
          s.dispatchRead i c.depAddr 8 = .ok (t, bs) → t.fieldAt i = s.fieldAt i →
          let behind := (BitVec.ofNat 64 (ofBytes bs) - c.depVal).toNat
          (2 ^ 63 ≤ behind → Yields (.dependenceRead i c.serial) s fun u => u.core = t.core ∧
            (u.fieldAt i).cards = [{ c with depTick := t.tick }]) ∧
          (behind < 2 ^ 63 → c.abase = 0#64 → Yields (.dependenceRead i c.serial) s fun u => u.core = t.core ∧
            (u.fieldAt i).cards = [{ c with depDone := true, ready := true, undealt := [(0, c.rcount)] }])))
  )

/-- RPUT copies an element from the local store to the ring's tail and advances it, and waits while the ring is full or others
wait before it; RGET copies the element at the head to the local store, advances it and names its producer, writes EOS for an
empty ring whose producers have all ended, and waits otherwise; REOS marks its producer ended; RSTAT writes EOS, PMASK and the
count, and raises RESERVED_FIELD for a descriptor that breaks the limits. The first use of a producer index, and of a consumer
place, binds it (R290 to R292, spec/20 R357 to R359). The descriptor and the element's pages are mapped in the core's TLB, the
core has no store under way; a grant of RGET is logged in capture mode (spec/23 R396), and RGET's are not replayed. Completion (exec answers a next state, under conditions on
the state and operands alone) is stated for: rput, rget, reos, rstat. -/
def Obligations.RingInstructions : Prop :=
  ∀ (s : State) (x : Args) (m : BitVec 4) (p : Nat) (e : Word), s.issues freeForm x = true →
    let u := s.clock x.head
    let c := s.core
    let y := passArgs x c.sys.repst
    let a := c.value y.a
    let b := c.value y.b
    let r : Ring := ⟨a.toNat, p, cardWords (Mem.getBytes u.mem p 64)⟩
    let n := r.elemSize
    let me := c.lcn % 4096
    let waits := fun (t : State) (w : Wait) => Host.Outcome.next (t.modC fun c => { c with wait := w })
    c.stores = [] → a.toNat % 64 = 0 →
    (mapped u a true = some (p, e) → e.getLsbD 1 = true → r.ok = true →
      (∀ r1, r.pmask / 2 ^ m.toNat % 2 = 1 →
        ((r.producer m.toNat = 0xFFF ∧ r1 = r.bindProducer m.toNat c.lcn) ∨
          (r.producer m.toNat ≠ 0xFFF ∧ r.producer m.toNat = me ∧ r1 = r)) → c.acks = [] →
        (b.toNat % 8 = 0 → b.toNat + n ≤ 0x200000 → c.mq = [] → c.lsBad = [] → r1.ended m.toNat = false →
          let dst := r1.element r1.tail
          (r1.count < r1.cap → u.ringPlace p true = 0 → elementMapped u dst n true →
            let tags := if r1.count = 0 then [] else lookupD u.ringTags p []
            let stored : State := { u with mem := elementStored u dst (c.lsBytes b.toNat n) }
            let kept := stored.keepRing (r1.put 3 (BitVec.ofNat 64 ((r1.tail + 1) % 2 ^ 32 * 2 ^ 32 + r1.head)))
            exec (.rput x m) s =
              .next ({ kept.leaveRing with ringTags := assign u.ringTags p (tags ++ [m.toNat]) } : State).retire) ∧
          (r1.cap ≤ r1.count ∨ u.ringPlace p true ≠ 0 →
            exec (.rput x m) s = waits ((u.keepRing r1).joinRing p true) (.ringPut a.toNat m.toNat))) ∧
        exec (.reos x m) s = .next (u.keepRing (r1.put 2 (r1.word 2 ||| (1#64 <<< (16 + m.toNat))))).retire) ∧
      (∀ r1, ((∃ k, k < r.cons ∧ r.consumer k = me) ∧ r1 = r ∨
          ∃ k, k < r.cons ∧ r.consumer k = 0xFFF ∧ (∀ j, j < k → r.consumer j ≠ 0xFFF) ∧ (∀ j, j < r.cons → r.consumer j ≠ me) ∧
            r1 = r.bindConsumer k c.lcn) →
        b.toNat % 8 = 0 → b.toNat + n ≤ 0x200000 → c.mq = [] →
        (r1.count = 0 → r1.allEnded = true → exec (.rget x) s =
          .next (((u.keepRing r1).leaveRing.modC fun c => c.writeD y.d 0x8000000000000000#64).acquire).retire) ∧
        (0 < r1.count → u.ringPlace p false = 0 → elementMapped u (r1.element r1.head) n false →
          (∀ i, c.field = some i → (s.fieldAt i).replayMode ≠ 2) →
          let tags := lookupD u.ringTags p []
          let left := tags.length - r1.count
          let prod := (tags[left]?).getD ((Config.freeWord u.free).toNat % 16)
          let kept := (u.keepRing (r1.put 3 (BitVec.ofNat 64 (r1.tail * 2 ^ 32 + (r1.head + 1) % 2 ^ 32)))).leaveRing
          let w : State := { kept with ringTags := assign u.ringTags p (tags.drop (left + 1)), free := u.free + 1 }
          exec (.rget x) s = .next
            (((w.recordFor w.core 3 a.toNat (BitVec.ofNat 64 r1.head)).modC fun c =>
              (c.putLs b.toNat (elementBytes u (r1.element r1.head) n)).writeD y.d (BitVec.ofNat 64 (prod % 16 * 2 ^ 56))).acquire).retire) ∧
        (r1.count = 0 ∧ r1.allEnded = false ∨
            0 < r1.count ∧ u.ringPlace p false ≠ 0 ∧ (∀ i, c.field = some i → (s.fieldAt i).replayMode ≠ 2) →
          exec (.rget x) s = waits ((u.keepRing r1).joinRing p false) (.ringGet a.toNat)))) ∧
    (mapped u a false = some (p, e) →
      (r.ok = true → exec (.rstat x) s = .next (u.modC fun c =>
        c.writeD y.d (BitVec.ofNat 64 (r.eos * 2 ^ 48 + r.pmask * 2 ^ 32 + r.count))).retire) ∧
      (r.ok = false → exec (.rstat x) s = .next (s.stops freeForm x (cause 0x02#8))))

/-- The largest deadlocked set keeps exactly the blocked cores that are blocked only by the set; a scan of a context in which
no core is blocked stores itself and changes nothing else, and a scan is made once per 16 Ticks; a core that two scans find
blocked by itself takes DEADLOCK (R360 to R362). Completion (exec answers a next state, under conditions on the state and
operands alone) is stated for: tumblerScan. -/
def Obligations.TumblerScansFindDeadlocks : Prop :=
  (∀ (l : List Blocked) (b : Blocked), b ∈ stuckSet l →
    b ∈ l ∧ ∃ us, b.by_ = some us ∧ ∀ u ∈ us, ∃ d ∈ stuckSet l, d.lcn = u) ∧
  (∀ (l k : List Blocked), (∀ b ∈ k, b ∈ l ∧ ∃ us, b.by_ = some us ∧ ∀ u ∈ us, ∃ d ∈ k, d.lcn = u) → ∀ b ∈ k, b ∈ stuckSet l) ∧
  (∀ (s : State) (ctx : Nat), s.others = [] → s.tumbler = [] → (s.tick / 16 = 0 → exec (.tumblerScan ctx) s = .next s) ∧
    (0 < s.tick / 16 → s.scan ctx = [] → exec (.tumblerScan ctx) s = .next { s with tumbler := [⟨ctx, s.tick / 16, []⟩] })) ∧
  (∀ (s : State) (ctx n : Nat) (b : Blocked), s.others = [] → s.core.ganged = false → s.tumbler = [⟨ctx, n, s.scan ctx⟩] →
    s.tick / 16 = n + 1 → s.scan ctx = [b] → b.lcn = s.core.lcn % 4096 → b.blkst = s.blkst s.core → s.blkst s.core ≠ 0#64 →
    b.by_ = some [b.lcn] → s.core.ctx = ctx → s.core.sys.contain = 0x00000000AA000055#64 → s.core.handler = false →
    Yields (.tumblerScan ctx) s fun t => t.core.handler = true ∧ bits t.core.sys.cause 7 0 = 0x0F ∧
      t.core.sys.epc = s.core.pc.zeroExtend 64 ∧ t.core.pc = s.core.sys.tvec.truncate 14 ∧ t.core.wait = .none)

/-- A verified clock root locks; a wavefront is recorded on the cycle 2 ref after its neighbour's lock; at t + 8 the lowest root
of the window is adopted, by the lowest port; at t + 24 the chiplet locks, and is ISOLATED where its present bonds are all dead;
at 40 ref after both ends of a bond have locked it is trained or dead, and dead at 4,096 ref after the lock of one end whose
neighbour stays DARK (R314 to R316, R321). Completion (exec answers a
next state, under conditions on the state and operands alone) is stated for: rootVerify, wavefrontArrival, clockRootAdopt,
clockLock, bondTrainingDone, partnerLockTimeout. -/
def Obligations.ClocksLockAndBondsTrain : Prop :=
  (∀ (s : State) (die : Nat), s.modState.powered = true → s.modState.holdup = false → die ∈ ioDies → (s.chip die).verdict = none →
    (s.chip die).bus = .dark → s.inRootSet die = true → (∃ p ∈ presentPorts die, (s.chip die).linkState p = 0#2) → (∃ d ∈ ioDies, d ≠ die ∧ s.inRootSet d = true ∧ (s.chip d).verdict ≠ some false) → ∀ accepted : Bool,
    let ok := accepted && decide (Config.minVersion ≤ (s.imageAt die).version.toNat) && portMapOk (s.imageAt die).portMap
    Yields (.rootVerify die accepted) s fun t => t.core = s.core ∧ (t.chip die).verdict = some ok ∧
      (t.chip die).bus = (if ok then .clockLocked else .dark) ∧
      (ok = true → (t.chip die).croot = die ∧ (t.chip die).cport = 7 ∧ (t.chip die).lockAt = some s.ref)) ∧
  (∀ (s : State) (die port n root t : Nat), neighbourChip die port = some n → (kindOf die).isSome = true → (s.chip n).lockAt = some t →
    port < 4 → (s.chip n).croot = root → (s.chip die).bus = .dark → (s.chip die).croot = 0x3FF → (s.chip die).arrivals = [] →
    (t + 2 = s.ref → exec (.wavefrontArrival die port root) s =
      .next (s.modChip die fun c => { c with arrivals := [(port, root, s.ref)] })) ∧
    (t + 2 ≠ s.ref → exec (.wavefrontArrival die port root) s = .next s)) ∧
  (∀ (s : State) (die : Nat) (a b : Nat × Nat × Nat), (s.chip die).arrivals = [a, b] → (s.chip die).bus = .dark →
    (s.chip die).croot = 0x3FF → s.listens die = true → a.2.1 < 0x3FF → b.2.1 < 0x3FF → a.1 < 4 → b.1 < 4 → a.2.2 ≤ b.2.2 →
    a.2.2 + 8 = s.ref → (∀ w ∈ s.wavefronts die, a.2.2 + 7 < w.2.2) →
    Yields (.clockRootAdopt die) s fun t => t.core = s.core ∧
      (t.chip die).croot = (if b.2.2 ≤ a.2.2 + 7 ∧ b.2.1 < a.2.1 then b.2.1 else a.2.1) ∧
      (t.chip die).cport = (if b.2.2 ≤ a.2.2 + 7 ∧ (b.2.1 < a.2.1 ∨ (b.2.1 = a.2.1 ∧ b.1 < a.1)) then b.1 else a.1)) ∧
  (∀ (s : State) (die port root t : Nat), (s.chip die).arrivals = [(port, root, t)] → (s.chip die).bus = .dark →
    (s.chip die).croot ≠ 0x3FF → t + 24 = s.ref →
    Yields (.clockLock die) s fun u => u.core = s.core ∧ (u.chip die).lockAt = some s.ref ∧
      ((∃ p ∈ presentPorts die, (s.chip die).linkState p = 0#2) → (u.chip die).bus = .clockLocked) ∧
      ((∀ p ∈ presentPorts die, (s.chip die).linkState p = 3#2) → (u.chip die).bus = .isolated) ∧
      (u.chip die).croot = (s.chip die).croot ∧ (u.chip die).cport = (s.chip die).cport ∧
      ∀ p ∈ presentPorts die, (s.chip die).linkState p = 0#2 → (u.chip die).linkState p = 1#2) ∧
  (∀ (s : State) (die port n : Nat), port < 4 → neighbourChip die port = some n → n ≠ die →
    (s.chip die).linkState port = 1#2 →
    (∀ a b trained, (s.chip die).lockAt = some a → (s.chip n).lockAt = some b → (s.chip n).linkState ((port + 2) % 4) = 1#2 →
      max a b + 40 = s.ref → Yields (.bondTrainingDone die port trained) s fun t => t.core = s.core ∧
        (t.chip die).linkState port = (if trained then 2#2 else 3#2) ∧
        (t.chip n).linkState ((port + 2) % 4) = (if trained then 2#2 else 3#2)) ∧
    (∀ a, (s.chip die).lockAt = some a → (s.chip n).bus = .dark → a + 4096 = s.ref →
      Yields (.partnerLockTimeout die port) s fun t => t.core = s.core ∧ (t.chip die).linkState port = 3#2 ∧
        (t.chip n).linkState ((port + 2) % 4) = 3#2))

/-- A chiplet with trained links is identified with its nearest root and distance, and the master is the lowest root of the
identified ones; the collection ends 16,384 ref after it began, or once every chiplet that can be is identified, and isolates
what was not; the table write makes identified chiplets CONFIGURED or FENCED, builds LPT and judges the shortfall; once every
chiplet that is neither FENCED nor ISOLATED is CONFIGURED, GO makes them ONLINE at cycle 0 (R317 to R322). What a package page holds is a free value
(log entry 13). Completion (exec answers a next state, under conditions on the state and operands alone) is stated for:
identRecord, masterCollectionEnd, masterTableWrite, go. -/
def Obligations.ChipletsAreIdentifiedAndGoOnline : Prop :=
  (∀ (s : State) (die root k : Nat) (test : BitVec 8), (s.chip die).bus = .linksTrained → s.modState.collected = false →
    s.nearestRoot die = some (root, k) →
    Yields (.identRecord die test) s fun t => t.core = s.core ∧ (t.chip die).bus = .identified ∧ (t.chip die).root = root ∧
      (t.chip die).dist = k ∧
      (t.chip die).harvest = (if kindOf die = some 0 then test else if kindOf die = some 2 then test &&& 0xF#8 else 0#8) ∧
      t.modState.master = ((t.chips.filter fun p => p.2.bus == .identified).map fun p => p.2.root).min? ∧
      ∀ m, t.modState.master = some m → (t.chip die).master = m ∧ m ≤ root) ∧
  (∀ (s : State) (from_ m : Nat), s.modState.collectFrom = some from_ → s.modState.collected = false → s.modState.master = some m →
    (from_ + 16384 = s.ref ∨ ∀ d ∈ allDies, (s.chip d).early = false) → Yields .masterCollectionEnd s fun t => t.core = s.core ∧ t.modState.collected = true ∧
      ∀ d, (t.chip d).bus = (if (s.chip d).bus = .linksTrained then .isolated else (s.chip d).bus)) ∧
  (∀ (s : State) (fence : List Nat) (master d : Nat), s.modState.master = some master → s.modState.collected = true →
    s.modState.recovery = false → d ∈ allDies → (s.chip d).bus = .identified →
    (∀ e, (s.chip e).bus ≠ .configured) →
    (s.copiesAgree master = true → Yields (.masterTableWrite fence) s fun t => t.core = s.core ∧
      (t.chip d).bus = (if fence.contains d ∨ (hasCores d = true ∧ (s.chip d).harvest = 0#8) then .fenced else .configured) ∧
      t.modState.lpt = (allDies.filter fun e => isCompute e && (t.chip e).bus == .configured).flatMap (fun e =>
        (harvestCores (t.chip e).harvest).map fun n => (e, n, false)) ∧
      t.modState.shortfall = (decide ((allDies.filter fun e => isCompute e && (t.chip e).bus == .configured).length < 280) ||
        decide (t.modState.lpt.length < 2176))) ∧
    (s.copiesAgree master = false →
      exec (.masterTableWrite fence) s = .next (s.modMod fun m => { m with recovery := true }))) ∧
  (∀ s : State, (∀ d ∈ allDies, (s.chip d).bus ≠ .configured → (s.chip d).bus = .fenced ∨ (s.chip d).bus = .isolated) → (∃ d ∈ allDies, (s.chip d).bus = .configured) → s.modState.shortfall = false →
    s.modState.recovery = false → s.modState.holdup = false →
    (s.modState.go = none → Yields .go s fun t => t.modState.go = some s.ref ∧ t.cyc = 0 ∧
      t.modState.bringups = s.modState.bringups + 1 ∧
      (∀ d, (t.chip d).bus = (if (s.chip d).bus = .configured then .online else (s.chip d).bus)) ∧
      (Mem.wf s.mem = true → Mem.load t.mem Config.packagePage 2 = t.onlineCompute.length % 2 ^ 16)) ∧
    (s.modState.go ≠ none → exec .go s = .next s))

/-- A link retry counts; the death of a bond makes both its ends dead, invalidates every entry of the routes over it, bars timed
cards of their fields, calls for new NSEL entries and interrupts both hosts; a fence takes an ONLINE chiplet that no field covers
out of service with its cores and marks them GONE; a router fault kills the fields over the chiplet and fences it (R308, R326,
R327). NSEL takes an entry whose reserved bits are 0 and keeps the old one
otherwise; RTE takes an entry that is not valid, or that leads from a core to a trained or untrained bond, unless a timed
region is active on the chiplet (R309, R312, R313). TROOT takes its V and base where the block answers; MCATT attaches the
memory cores of a channel chiplet, all of them halted, to the field and context it names, or detaches them (R331, R391).
Completion (exec answers a next state, under conditions on the state and operands alone) is stated for: linkRetry, bondDeath,
fenceCommand, routerFault, nselWrite, rteWrite, trootWrite, mcattWrite. -/
def Obligations.ChipletLossAndRoutes : Prop :=
  (
    (∀ (s : State) (die port : Nat), (s.chip die).linkState port = 2#2 →
      (Yields (.linkRetry die port) s fun t => t.core = s.core ∧ t.mem = s.mem ∧ ((t.chip die).links[port]?.map Link.retry) =
        ((s.chip die).links[port]?.map fun l => if l.retry = 0xFF#8 then l.retry else l.retry + 1#8)) ∧
      (∀ n, neighbourChip die port = some n → n ≠ die → Yields (.bondDeath die port) s fun t => t.core = s.core ∧ t.mem = s.mem ∧
        (t.chip die).linkState port = 3#2 ∧ (t.chip n).linkState ((port + 2) % 4) = 3#2 ∧
        (∀ r e, (r, e) ∈ (s.chip die).rte → rteValid e = true → usesPort port e = true →
          (r, e &&& 0x7FFFFFFF#32) ∈ (t.chip die).rte ∧
          (r < 252 → (rteField e < 16 → (t.fieldAt (rteField e)).noTimed = true) ∧
            ∀ d f, (r, f) ∈ (s.chip d).rte → rteField f = rteField e → (r, f &&& 0x7FFFFFFF#32) ∈ (t.chip d).rte)) ∧
        t.modState.nselDue = true ∧
        (t.hostAt 0).irqst.getLsbD 3 = true ∧ (t.hostAt 1).irqst.getLsbD 3 = true)) ∧
    (∀ (s : State) (die : Nat), s.online die = true →
      let gone := fun (t : State) => (t.chip die).bus = .fenced ∧ (∀ c ∈ t.cores, c.die = die → c.run = .dark ∧ c.field = none) ∧
        (isCompute die = true →
          t.modState.lpt = (s.modState.lpt.map fun e => if e.1 = die then (e.1, e.2.1, true) else e))
      ((isCompute die = false ∨ s.fieldsOver die = []) → Yields (.fenceCommand die) s gone ∧ Yields (.routerFault die) s gone) ∧
      (isCompute die = true → s.fieldsOver die ≠ [] → exec (.fenceCommand die) s = .next s) ∧
      (∀ i, isCompute die = true → s.fieldsOver die = [i] → Yields (.routerFault die) s fun t =>
        gone t ∧ (t.fieldAt i).stat = .killed))
  ) ∧
  (
    ∀ (s : State) (die : Nat), s.answers die = true →
      (∀ (dest : Nat) (v : BitVec 16), dest < 1024 →
        (bits v 12 10 = 0 → ¬(bits v 15 14 = 2 ∧ v.getLsbD 13 = true) → Yields (.nselWrite die dest v) s fun t =>
          t.core = s.core ∧ t.mem = s.mem ∧ lookupD (t.chip die).nsel dest 0#16 = v ∧
          ∀ e, e ≠ dest → lookupD (t.chip die).nsel e 0#16 = lookupD (s.chip die).nsel e 0#16) ∧
        ((bits v 12 10 ≠ 0 ∨ (bits v 15 14 = 2 ∧ v.getLsbD 13 = true)) → exec (.nselWrite die dest v) s = .next s)) ∧
      (∀ (n : Nat) (value : BitVec 32), n < 256 →
        let v := value &&& 0xFFFF8000#32
        (s.timedOn die = false → (rteValid v = false ∨ (rteIn v = 4 ∧ rteOut v < 4 ∧ hasCores die = true ∧
            ((s.chip die).linkState (rteOut v) = 1#2 ∨ (s.chip die).linkState (rteOut v) = 2#2))) →
          Yields (.rteWrite die n value) s fun t => t.core = s.core ∧ t.mem = s.mem ∧ t.rteAt die n = v ∧
            ∀ k, k ≠ n → t.rteAt die k = s.rteAt die k) ∧
        (s.timedOn die = true → v ≠ s.rteAt die n → exec (.rteWrite die n value) s = .next s) ∧
        (rteValid v = true → (5 ≤ rteIn v ∨ 5 ≤ rteOut v ∨ (rteIn v = rteOut v ∧ rteIn v < 4)) →
          exec (.rteWrite die n value) s = .next s))
  ) ∧
  (
    ∀ (s : State) (die : Nat) (v : Word), s.answers die = true →
      (hasCores die = true → exec (.trootWrite die v) s = .next (s.modChip die fun c =>
        { c with troot := v &&& 0x800FFFFFFFE00000#64 })) ∧
      (hasCores die = false → exec (.trootWrite die v) s = .next s) ∧
      (kindOf die = some 2 → (∀ c ∈ s.cores, c.die = die → c.memc = true → c.run = .halted) →
        Yields (.mcattWrite die v) s fun t => (t.chip die).mcatt = (v &&& 0x800F00000000FFFF#64) ∧ t.mem = s.mem ∧
          (s.core.die = die → s.core.memc = true → t.core.field = (if v.getLsbD 63 then some (bits v 51 48) else none) ∧
            bits t.core.sys.ctxid 15 0 = bits v 15 0 ∧ t.core.run = .halted)) ∧
      (∀ c ∈ s.cores, c.die = die → c.memc = true → c.run ≠ .halted → exec (.mcattWrite die v) s = .next s)
  )

/-- Creating a field over a legal rectangle with an ONLINE compute chiplet makes it RUNNING, for a restore SAVED, at the
lowest such die, and its cores idle, for a restore halted, at FCYC 0 in its context; the result code names a used index, a bad
or overlapping rectangle, and one without a chiplet (R373). A field that is SAVED, KILLED, or RUNNING without cards and held
chunks is deleted: its cores belong to no field and its index is free; another gets result 5, an index without a field result
3 (R374). Completion (exec answers a next state, under conditions on the state and operands alone) is stated for: fdefCreate,
fdefCreateRestore, fdefDelete. -/
def Obligations.FieldCreation : Prop :=
  (
    ∀ (s : State) (i : Nat) (w : Word) (creator : Nat), i < 16 → s.modState.go.isSome = true → s.modState.holdup = false →
      let word0 := w &&& 0x001FFFFE0000FFFF#64
      let f := s.fieldAt i
      let clash := (List.range 16).any fun j => j != i && (s.fieldAt j).valid && rectsMeet word0 (s.fieldAt j).rect
      let dies := (rectDies word0).filter fun d => isCompute d && s.online d
      (f.valid = true → exec (.fdefCreate i w creator) s = .next (s.setField i { f with res := 3#3, word0 := word0 }) ∧
        exec (.fdefCreateRestore i w creator) s = .next (s.setField i { f with res := 3#3, word0 := word0 })) ∧
      (f.valid = false → f.res ≠ 1#3 →
        ((rectOk word0 = false ∨ clash = true) →
          exec (.fdefCreate i w creator) s = .next (s.setField i { f with res := 2#3, word0 := word0 })) ∧
        (rectOk word0 = true → clash = false →
          (dies = [] → exec (.fdefCreate i w creator) s = .next (s.setField i { f with res := 4#3, word0 := word0 })) ∧
          (∀ (anchor : Nat) (rest : List Nat), dies = anchor :: rest →
            let made := fun (restore : Bool) (t : State) => (t.fieldAt i).valid = true ∧
              (t.fieldAt i).stat = (if restore then .saved else .running) ∧ (t.fieldAt i).word0 = word0 ∧
              (t.fieldAt i).ctx = bits w 15 0 ∧ (t.fieldAt i).anchor = anchor ∧ (t.fieldAt i).creator = creator ∧
              (t.fieldAt i).cards = [] ∧ (t.fieldAt i).serial = 1 ∧ t.mem = s.mem ∧
              (s.core.die ∈ dies → s.core.num < 8 → s.core.memc = false →
                t.core.run = (if restore then .acked else .idle) ∧ t.core.field = some i ∧ t.fcyc t.core = 0#64 ∧
                bits t.core.sys.ctxid 15 0 = bits w 15 0 ∧ bits t.core.sys.ctxid 19 16 = i ∧ bits t.core.sys.ctxid 29 20 = anchor ∧
                t.core.sys.contain = 0x00000000AA000055#64 ∧ t.core.ls = s.core.ls ∧ t.core.istore = s.core.istore)
            Yields (.fdefCreate i w creator) s (made false) ∧ Yields (.fdefCreateRestore i w creator) s (made true))))
  ) ∧
  (
    ∀ (s : State) (i : Nat), i < 16 →
      let f := s.fieldAt i
      let idle := f.cards.all (fun c => !c.inSlot) && s.cores.all fun c => c.field != some i || c.chunk.isNone
      (f.valid = false → exec (.fdefDelete i) s = .next (s.setField i { f with res := 3#3 })) ∧
      (f.valid = true →
        ((f.stat = .preempting ∨ f.stat = .copying ∨ f.stat = .restoring ∨ (f.stat = .running ∧ idle = false)) →
          exec (.fdefDelete i) s = .next (s.setField i { f with res := 5#3 })) ∧
        ((f.stat = .saved ∨ f.stat = .killed ∨ (f.stat = .running ∧ idle = true)) → s.others = [] → s.core.stores = [] →
          Yields (.fdefDelete i) s fun t => (t.fieldAt i).valid = false ∧ t.mem = s.mem ∧ t.core.regs = s.core.regs ∧
            t.core.ls = s.core.ls ∧ (s.core.field = some i → s.core.memc = false → t.core.field = none ∧ t.core.run = .dark ∧
              t.core.chunk = none ∧ t.core.mq = []) ∧
            (s.core.field ≠ some i → s.scopeBars = [] → t.core = s.core)))
  )

/-- PREEMPT goes to every core of a RUNNING field, which becomes PREEMPTING; when every core has acknowledged it is COPYING, at
the end of which it is SAVED and its creator interrupted; after PTMO Ticks without that it is killed with CODE PREEMPT; a restore
makes it RESTORING, at the end of which its cores start at TVEC in handler mode, or, where no saved context stands at FSAVE, it
is KILLED; a kill freezes every core, and one that finds none to halt changes nothing (R372, R375 to R380). The layout of a
saved block beyond the spec's table and the record of an ordered kill are free values (log entries 8 and 51). Completion (exec
answers a next state, under conditions on the state and operands alone) is stated for: fcmdPreempt, preemptCopy,
preemptTimeout, fcmdRestore, fcmdKill. -/
def Obligations.FieldsAreSavedRestoredAndKilled : Prop :=
  ∀ (s : State) (i : Nat) (w : Word), i < 16 → (s.fieldAt i).valid = true →
    let f := s.fieldAt i
    let mine := s.core.field = some i ∧ s.core.run ≠ .killed
    let frozen := fun (t : State) => t.core.run = .killed ∧ t.core.regs = s.core.regs ∧ t.core.pc = s.core.pc ∧ t.core.ls = s.core.ls
    (f.stat = .running → Yields (.fcmdPreempt i w) s fun t => (t.fieldAt i).stat = .preempting ∧
      (t.fieldAt i).fcmd = (w &&& 0x0000FFFF0000FFFF#64) ∧ (t.fieldAt i).since = s.tick ∧ t.mem = s.mem ∧
      (mine → t.core.preemptPend = true ∧ t.core.preemptAt = s.cyc ∧ t.core.pc = s.core.pc)) ∧
    (f.stat ≠ .running → exec (.fcmdPreempt i w) s = .next s) ∧
    (f.stat = .preempting →
      (s.allAcked i = false → exec (.preemptCopy i) s = .next s) ∧
      (s.allAcked i = true → exec (.preemptCopy i) s = .next (s.setField i { f with stat := .copying })) ∧
      (bits f.fcmd 15 0 ≠ 0 → f.since + bits f.fcmd 15 0 ≤ s.tick → s.allAcked i = false → mine →
        Yields (.preemptTimeout i) s fun t => (t.fieldAt i).stat = .killed ∧ frozen t ∧
          bits (t.fieldAt i).killrec 62 60 = 3 ∧ bits (t.fieldAt i).killrec 47 40 = 0x16 ∧
          bits (t.fieldAt i).killrec 11 0 = 0xFFF) ∧
      (bits f.fcmd 15 0 = 0 → exec (.preemptTimeout i) s = .next s)) ∧
    (f.stat = .copying → let t := s.finishCopy i
      (t.fieldAt i).stat = .saved ∧ (f.creator < 2 → (t.hostAt f.creator).irqst.getLsbD 1 = true) ∧
      t.areas.head?.map Saved.cores = some (s.blockOrder i) ∧ (f.hold = false → s.modState.holdup = false → t.core = s.core) ∧
      (f.hold = true → s.core.field = some i → s.core.fcn = 0 → s.core.memc = false → s.core.run = .acked →
        t.core.run = .running ∧ t.core.handler = true ∧ t.core.ganged = false ∧ bits t.core.sys.cause 7 0 = 0x17 ∧
        t.core.pc = s.core.sys.tvec.truncate 14)) ∧
    (f.stat = .saved → s.modState.holdup = true → exec (.fcmdRestore i w) s = .next s) ∧
    (f.stat = .saved → s.modState.holdup = false →
      exec (.fcmdRestore i w) s = .next (s.setField i { f with fcmd := w &&& 0x0000FFFF0000FFFF#64, stat := .restoring })) ∧
    (f.stat = .restoring →
      (s.areaAt f = none → s.finishRestore i = s.setField i { f with stat := .killed }) ∧
      (∀ (a : Saved) (k : Core), s.areaAt f = some a → s.blockOrder i = [s.core] → a.cores = [k] → k.die = s.core.die →
        k.num = s.core.num → k.run ≠ .killed → a.latches = [] → a.bars = [] → s.others = [] → s.modState.holdup = false →
        let t := s.finishRestore i
        (t.fieldAt i).stat = .running ∧ t.core.run = .running ∧ t.core.pc = k.sys.tvec.truncate 14 ∧ t.core.handler = true ∧
          t.core.sys.cause.getLsbD 15 = true ∧ t.core.sys.epc = k.sys.epc ∧ t.core.sys.erepst = k.sys.erepst ∧
          t.fcyc t.core = a.fcyc ∧ t.core.sys.ctxid = s.core.sys.ctxid ∧ t.mem = s.mem)) ∧
    ((f.stat = .killed ∨ ∀ c ∈ s.cores, c.field = some i → c.run = .killed) → exec (.fcmdKill i w) s = .next s) ∧
    (f.stat ≠ .killed → mine → Yields (.fcmdKill i w) s fun t => (t.fieldAt i).stat = .killed ∧ frozen t)

/-- Power failure starts hold-up: the core clock falls to 1.5 GHz, a RUNNING field is pre-empted with HOLD, a SAVED one
without a durable set only records it; with power back and nothing left to do hold-up ends; without, everything but host, pod
and CXL memory and boot flash is lost. A module reset and power-on make every chiplet DARK; GLOBAL memory outlives only the
reset (R6, R314, R398, R399, R403). RPCTL takes MODE only in a SAVED field or before a first card; DSET takes a set whose LENs
sum to at most 100 GiB over all fields, with one descriptor that asks for GPF; a divergence ends the replay and interrupts
(R396 to R398): a request is held and its object had no grant for 2^20 cycles (DEDUCED, log entry 98). The fields that map the
stack of a fenced channel chiplet are pre-empted; once each is SAVED or KILLED the stack is evacuated: with no page on it EVREC
says DONE with no counts; a page that cannot be read, or has no free frame elsewhere, is LOST in its entry, another one copied
to its new frame, and both hosts are told of a loss (R400, R401). Which pages the stack holds and which frame a page goes to is
free (log entry 16); what survives a reset is DEDUCED (log entry 19). Completion (exec
answers a next state, under conditions on the state and operands alone) is stated for: powerFail, powerReturn,
holdupEnergyExhausted, powerOn, moduleReset, powerThrottle, rpctlWrite, replayDivergence, dsetWrite, evacuation. -/
def Obligations.PowerAndDurability : Prop :=
  (
    ∀ s : State,
      (s.modState.powered = true →
        (s.modState.mains = true → ∀ i, i < 16 → (s.fieldAt i).valid = true → (∀ j, j ≠ i → (s.fieldAt j).valid = false) →
          Yields .powerFail s fun t => t.modState.mains = false ∧ t.modState.holdup = true ∧ t.modState.clock = 1500 ∧
            ((s.fieldAt i).stat = .running → (t.fieldAt i).stat = .preempting ∧ (t.fieldAt i).hold = true ∧
              (t.fieldAt i).hurec = 0x8000000000000000#64 ∧
              (s.core.field = some i → s.core.run ≠ .killed → t.core.preemptPend = true ∧ t.core.hold = true)) ∧
            ((s.fieldAt i).stat = .saved → (s.fieldAt i).dset.getLsbD 63 = false → t.cxlMem = s.cxlMem ∧
              (t.fieldAt i).hurec = 0x8000000000000000#64) ∧
            ((s.fieldAt i).stat = .killed → (t.fieldAt i).hurec = 0xE000000000000000#64)) ∧
        (s.modState.holdup = true →
          (s.holdupOver = true → exec .powerReturn s = .next (s.modMod fun m =>
            { m with mains := true, holdup := false, clock := 3000 })) ∧
          (s.holdupOver = false → exec .powerReturn s = .next (s.modMod fun m => { m with mains := true })) ∧
          (s.modState.mains = false → ∀ i, Yields (.holdupEnergyExhausted i) s fun t => t.modState.powered = false ∧ t.mem = [] ∧
            t.core = State.reset.core ∧ t.chips = [] ∧ t.hostMem = s.hostMem ∧ t.podMem = s.podMem ∧
            t.modState.images = s.modState.images ∧ (∀ a, (s.fieldAt i).huEnd = some a → t.cxlMem =
              Mem.store s.cxlMem a 8 (setBits (s.fieldAt i).hurec 62 61 1).toNat))) ∧
        exec .powerOn s = .next s ∧
        (Yields .moduleReset s fun t => t.chips = [] ∧ t.mem = s.mem ∧ t.core = State.reset.core ∧ t.others = [] ∧
          t.fields = State.reset.fields ∧ t.modState.images = s.modState.images ∧ t.modState.bringups = s.modState.bringups ∧
          t.modState.powered = true)) ∧
      (s.modState.powered = false → exec .moduleReset s = .next s ∧ (Yields .powerOn s fun t => t.chips = [] ∧ t.mem = [] ∧
        t.core = State.reset.core ∧ t.modState.powered = true ∧ t.modState.bringups = 0 ∧ t.modState.images = s.modState.images)) ∧
      exec .powerThrottle s = .next (s.modMod fun m => { m with clock := m.clock - 100 })
  ) ∧
  (
    ∀ (s : State) (i : Nat) (v : Word), i < 16 → (s.fieldAt i).valid = true →
      let f := s.fieldAt i
      (bits v 63 62 = 3 → exec (.rpctlWrite i v) s = .next s) ∧
      (bits v 63 62 ≠ 3 → Yields (.rpctlWrite i v) s fun t => t.core = s.core ∧ t.mem = s.mem ∧
        bits (t.fieldAt i).rpctl 63 62 = (if f.stat = .saved ∨ (f.stat = .running ∧ f.serial = 1) then bits v 63 62
          else bits f.rpctl 63 62) ∧
        bits (t.fieldAt i).rpctl 51 8 = bits v 51 8 ∧ (v.getLsbD 61 = true → (t.fieldAt i).rpctl.getLsbD 61 = false) ∧
        (v.getLsbD 60 = true → (t.fieldAt i).rpctl.getLsbD 60 = false)) ∧
      (s.diverges i = false → exec (.replayDivergence i) s = .next s) ∧
      (s.diverges i = true → Yields (.replayDivergence i) s fun t => t.core.regs = s.core.regs ∧ t.core.pc = s.core.pc ∧
        t.core.ls = s.core.ls ∧ bits (t.fieldAt i).rpctl 63 62 = 0 ∧
        (t.fieldAt i).rpctl.getLsbD 60 = true ∧ (t.hostAt 0).irqst.getLsbD 5 = true ∧ (t.hostAt 1).irqst.getLsbD 5 = true) ∧
      (v.getLsbD 63 = false → exec (.dsetWrite i v) s = .next (s.setField i
        { f with dset := v &&& 0x800FFFFFFFFFFFFF#64, dsetLen := 0 })) ∧
      (∀ ds, v.getLsbD 63 = true → s.durableSet i (v &&& 0x800FFFFFFFFFFFFF#64) = some ds →
        let total := (ds.map fun d => d[1]?.getD 0).sum
        let gpf := ds.any fun d => d[3]?.getD 0 % 2 == 1
        ((∀ j, j ≠ i → (s.fieldAt j).dsetLen = 0) → total ≤ 100 * 2 ^ 30 → gpf = true → exec (.dsetWrite i v) s = .next (s.setField i
          { f with dset := v &&& 0x800FFFFFFFFFFFFF#64, dsetLen := total })) ∧
        ((100 * 2 ^ 30 < total ∨ gpf = false) → exec (.dsetWrite i v) s = .next s))
  ) ∧
  (
    ∀ (s : State) (die : Nat), kindOf die = some 2 → (s.chip die).bus = .fenced →
      let pages := s.allPages
      (∀ (i : Nat) (p : Leaf) (readable : Bool), i < 16 → (s.fieldAt i).valid = true → (s.fieldAt i).stat = .running → p ∈ s.stackPages die →
        p.ctx = (s.fieldAt i).ctx → Yields (.evacuation die readable) s fun t => (t.fieldAt i).stat = .preempting ∧ t.mem = s.mem) ∧
      ((s.hostAt 0).running = [] → (s.hostAt 1).running = [] →
        (∀ i, (s.fieldAt i).valid = true → (s.fieldAt i).stat = .saved ∨ (s.fieldAt i).stat = .killed) →
        let nothing := ∀ readable, Yields (.evacuation die readable) s fun t => t.core = s.core ∧ t.mem = s.mem ∧ t.modState.evrec = 1#64
        (pages = [] → nothing) ∧
        (∀ p, pages = [p] → p.pte.getLsbD 5 = false → remotePhys p.phys = false →
          (onStack die p.phys = false → nothing) ∧
          (onStack die p.phys = true →
            let lost := fun (t : State) => t.core = s.core ∧ t.mem = Mem.store s.mem p.at_ 8 (p.pte ||| 0x20#64).toNat ∧
              t.modState.evrec = 3#64 ∧ (t.hostAt 0).irqst.getLsbD 6 = true ∧ (t.hostAt 1).irqst.getLsbD 6 = true
            Yields (.evacuation die false) s lost ∧
            (s.poison = [] → match s.newFrame die pages [] (pageBytes p.size) with
              | none => Yields (.evacuation die true) s lost
              | some (frame, cxl) => Yields (.evacuation die true) s fun t => t.core = s.core ∧ t.hosts = s.hosts ∧
                  t.mem = Mem.store (Mem.copyPage s.mem p.phys frame (pageBytes p.size)) p.at_ 8 (setBits p.pte 51 8 (frame / 256)).toNat ∧
                  t.modState.evrec = BitVec.ofNat 64 (if cxl then 2 ^ 22 + 1 else 2 ^ 43 + 1)))))
  )

/-- A free semaphore goes to the endpoint that reads it, in a tie to the loser of the last one; only its owner frees it, by
writing 0; in recovery an endpoint exposes no control page and nothing changes (R392). A post answers in HPRES: the handle, or why it was refused. An endpoint whose link goes down frees its semaphores,
stops its DMA and interrupts the other (R384 to R387). Completion (exec answers a next state, under conditions on the state
and operands alone) is stated for: semAcquire, semRelease, hpctxPost, endpointLinkDown. -/
def Obligations.HostSemaphoresAndPosts : Prop :=
  ∀ (s : State) (e : Nat), e < 2 → (s.hostAt e).up = true →
    (s.exposed e = false → ∀ n tie v, exec (.semAcquire e n tie) s = .next s ∧ exec (.semRelease e n v) s = .next s) ∧
    (∀ n : Fin 8, s.exposed e = true →
      (s.sem n = 0#2 → (Yields (.semAcquire e n false) s fun t => t.sem n = BitVec.ofNat 2 (e + 1) ∧ t.core = s.core ∧
          t.semTie = s.semTie ∧ ∀ k, k ≠ n.val → t.sem k = s.sem k) ∧
        (s.semTie < 2 → Yields (.semAcquire e n true) s fun t => t.sem n = BitVec.ofNat 2 (2 - s.semTie) ∧
          t.semTie = 1 - s.semTie)) ∧
      (s.sem n ≠ 0#2 → ∀ tie, exec (.semAcquire e n tie) s = .next s) ∧
      (s.sem n = BitVec.ofNat 2 (e + 1) → Yields (.semRelease e n 0#64) s fun t => t.sem n = 0#2 ∧ t.core = s.core) ∧
      (∀ v, s.sem n ≠ BitVec.ofNat 2 (e + 1) ∨ v ≠ 0#64 → exec (.semRelease e n v) s = .next s)) ∧
    (s.serves e = false → ∀ a ctx, exec (.hpctxPost e a ctx) s = .next s) ∧
    (∀ a ctx : Word, s.serves e = true →
      (s.fieldNamed (bits ctx 25 16) (bits ctx 15 0) = none → Yields (.hpctxPost e a ctx) s fun t =>
        t.fields = s.fields ∧ (t.hostAt e).hpres = 0x4000000000000000#64) ∧
      (∀ i, s.fieldNamed (bits ctx 25 16) (bits ctx 15 0) = some i →
        ((s.fieldAt i).stat = .killed → Yields (.hpctxPost e a ctx) s fun t => (t.hostAt e).hpres = 0x5000000000000000#64) ∧
        ((s.fieldAt i).stat ≠ .killed → a.toNat % 64 ≠ 0 → Yields (.hpctxPost e a ctx) s fun t =>
          (t.hostAt e).hpres = 0x2000000000000000#64) ∧
        (∀ t bs, (s.fieldAt i).stat ≠ .killed → a.toNat % 64 = 0 → s.dispatchRead i a 64 = .ok (t, bs) →
          (t.acceptCard i bs 0 0 true = .full → Yields (.hpctxPost e a ctx) s fun u =>
            (u.hostAt e).hpres = 0x1000000000000000#64) ∧
          (t.acceptCard i bs 0 0 true = .refused → Yields (.hpctxPost e a ctx) s fun u =>
            (u.hostAt e).hpres = 0x2000000000000000#64) ∧
          (∀ v h, t.acceptCard i bs 0 0 true = .accepted v h → Yields (.hpctxPost e a ctx) s fun u =>
            (u.hostAt e).hpres = BitVec.ofNat 64 (h.toNat % 2 ^ 58) ∧ (u.hostAt e).hpaddr = a ∧
            ((v.fieldAt i).replayMode = 0 → u.fields = v.fields))))) ∧
    (Yields (.endpointLinkDown e) s fun t => t.core = s.core ∧ t.mem = s.mem ∧ (t.hostAt e).up = false ∧
      (t.hostAt e).dqctl.getLsbD 32 = false ∧ (t.hostAt e).running = [] ∧ (t.hostAt (1 - e)).irqst.getLsbD 4 = true ∧
      ∀ n : Fin 8, t.sem n = (if s.sem n = BitVec.ofNat 2 (e + 1) then 0#2 else s.sem n))

/-- DQTAIL is stored; DQCTL takes EN unless DQBASE is 0, and clears ERR; the next descriptor starts, one with FENCE only when
none runs; a running descriptor copies, sets its STAT, lets DQDONE pass and interrupts if it asks to; a BAR4 write goes to
GLOBAL memory (R386, R387); an endpoint that is down, without power or in recovery has no such page (R385, R392). Completion (exec answers a next state, under conditions on the state and operands alone) is stated
for: dqtailWrite, dqctlWrite, hostDmaDescriptorStart, hostDmaDescriptorDone, hostBar4Access. -/
def Obligations.HostDmaAndBar4 : Prop :=
  ∀ (s : State) (e : Nat), e < 2 →
    let h := s.hostAt e
    (s.exposed e = false → ∀ v, exec (.dqtailWrite e v) s = .next s ∧ exec (.dqctlWrite e v) s = .next s) ∧
    (s.exposed e = true → ∀ v, exec (.dqtailWrite e v) s = .next (s.setHost e { h with dqtail := v.truncate 32 })) ∧
    (∀ v : Word, s.exposed e = true →
      (v.getLsbD 32 = true → h.dqbase = 0#64 → exec (.dqctlWrite e v) s = .next s) ∧
      ((v.getLsbD 32 = false ∨ h.dqbase ≠ 0#64) → Yields (.dqctlWrite e v) s fun t => t.core = s.core ∧
        (t.hostAt e).dqctl.getLsbD 32 = v.getLsbD 32 ∧ bits (t.hostAt e).dqctl 31 0 = bits h.dqctl 31 0 ∧
        (t.hostAt e).dqctl.getLsbD 63 = (h.dqctl.getLsbD 63 && !v.getLsbD 63))) ∧
    (s.serves e = true → h.dqctl.getLsbD 32 = true →
      let at_ := bits h.dqbase 63 12 * 4096 + h.dqhead.toNat % 2 ^ bits h.dqbase 4 0 * 32
      let bs := Mem.getBytes s.hostMem at_ 32
      (h.dqhead ≠ h.dqtail → (descWord bs 3 / 4 % 2 = 0 ∨ h.running = []) →
        exec (.hostDmaDescriptorStart e) s = .next (s.setHost e
          { h with dqhead := h.dqhead + 1#32, running := h.running ++ [(h.dqhead.toNat, bs)] })) ∧
      ((h.dqhead = h.dqtail ∨ (descWord bs 3 / 4 % 2 = 1 ∧ h.running ≠ [])) → exec (.hostDmaDescriptorStart e) s = .next s)) ∧
    (∀ (n : Nat) (bs : List Byte), s.serves e = true → h.running = [(n, bs)] → h.finished = [] → h.dqdone.toNat = n →
      let gpa := descWord bs 0
      let hba := descWord bs 1
      let len := descWord bs 2
      let at_ := bits h.dqbase 63 12 * 4096 + n % 2 ^ bits h.dqbase 4 0 * 32 + 31
      let ended := fun (t : State) (status : Nat) => t.core = s.core ∧ (t.hostAt e).running = [] ∧
        (t.hostAt e).dqdone = h.dqdone + 1#32 ∧ (descWord bs 3 / 2 % 2 = 1 → (t.hostAt e).irqst.getLsbD 7 = true) ∧
        (status ≠ 1 → (t.hostAt e).dqctl.getLsbD 63 = true ∧ bits (t.hostAt e).dqctl 31 0 = n) ∧
        (Mem.wf s.hostMem = true → Mem.get t.hostMem at_ = BitVec.ofNat 8 status)
      (descOkDma bs = true → gpa + len ≤ 1728 * 10 ^ 9 → s.poison = [] →
        (descWord bs 3 % 2 = 0 → Yields (.hostDmaDescriptorDone e false) s fun t => ended t 1 ∧
          t.mem = Mem.putBytes s.mem gpa (Mem.getBytes s.hostMem hba len)) ∧
        (descWord bs 3 % 2 = 1 → Yields (.hostDmaDescriptorDone e false) s fun t => ended t 1 ∧ t.mem = s.mem ∧
          t.hostMem = Mem.put (Mem.putBytes s.hostMem hba (Mem.getBytes s.mem gpa len)) at_ 1#8) ∧
        (Yields (.hostDmaDescriptorDone e true) s fun t => ended t 4 ∧ t.mem = s.mem)) ∧
      (descOkDma bs = false → Yields (.hostDmaDescriptorDone e false) s fun t => ended t 5 ∧ t.mem = s.mem)) ∧
    (∀ (a : Nat) (bs : List (BitVec 8)), s.serves e = true → a + bs.length ≤ 1728 * 10 ^ 9 → s.poison = [] →
      exec (.hostBar4Access e a true bs) s = .next { s with mem := Mem.putBytes s.mem a bs } ∧
      exec (.hostBar4Access e a false bs) s = .next s)

/-- An attestation is busy until its report is written to the host's address, which its status and an interrupt say; an update
of the firmware is taken only where its image is judged good, and then written slot by slot in ascending die id, the running
image staying in use; in recovery every slot is written and a module reset follows (R392, R393). The cryptographic verdict
on an image is an input (log entry 18). Registers
of the configuration space: a window whose base is a multiple of its size is stored, another write of it refused; IRQST is
W1C, HPADDR and the nonce RW on an endpoint's page; FSAVE, TUMREC, MODID and FDEF words of a block keep their fields, each
access answered; a read-only offset changes nothing; an offset that is no register of the block, one that the block does not
answer, and a host's write of HOME get a negative acknowledgement; BUSTATE and LINKST can be read of every chiplet (R307, R308,
R317, R384, R388). The report's signature and the least version
are free values (log entry 8); the image at manufacture is the model's (log entry 18). Completion (exec answers a next state,
under conditions on the state and operands alone) is stated for: attestStart, attestReportDone, firmwareUpdate,
recoveryImageWrite, windowWrite, configRegisterWrite. -/
def Obligations.HostAndConfigurationRegisters : Prop :=
  (
    (∀ (s : State) (e : Nat) (a : Word), s.serves e = true →
      (exec (.attestStart e a) s = .next (s.setHost e
        { s.hostAt e with attAddr := a, attBusy := true, atst := 0#64 })) ∧
      ((s.hostAt e).attBusy = true → ∀ bad, Yields (.attestReportDone e bad) s fun t => t.core = s.core ∧ t.mem = s.mem ∧
        (t.hostAt e).attBusy = false ∧ (t.hostAt e).atst = (if bad then 0xC000000000000000#64 else 0x8000000000000000#64) ∧
        (t.hostAt e).irqst.getLsbD 8 = true ∧ (bad = true → t.hostMem = s.hostMem))) ∧
    (∀ (s : State) (i : Image) (verified : Bool), s.modState.powered = true → s.modState.holdup = false →
      let ok := verified && decide (Config.minVersion ≤ i.version.toNat) && portMapOk i.portMap
      (s.modState.recovery = false → s.modState.master.isSome = true →
        (Yields (.firmwareUpdate i verified) s fun t => t.core = s.core ∧ t.modState.running = s.modState.running ∧
          t.modState.images = s.modState.images ∧
          t.modState.update = (if ok ∧ s.modState.update = none then some (i, ioDies) else s.modState.update)) ∧
        (∀ d rest, s.modState.update = some (i, d :: rest) → let t := s.writeNextSlot
          t.modState.images = assign s.modState.images d i ∧ t.modState.running = s.modState.running ∧
            t.modState.update = (if rest = [] then none else some (i, rest))) ∧
        exec (.recoveryImageWrite i verified) s = .next s) ∧
      (s.modState.recovery = true → exec (.firmwareUpdate i verified) s = .next s ∧
        (Yields (.recoveryImageWrite i verified) s fun t => t.mem = s.mem ∧
          t.modState.images = (if ok then ioDies.map fun d => (d, i) else s.modState.images) ∧
          (ok = true → t.chips = [] ∧ t.modState.recovery = false))))
  ) ∧
  (
    (∀ (s : State) (die n : Nat) (v : Word), s.answers die = true →
      (hasCores die = true → n < 16 →
        let w0 := v &&& 0xFFFFFFFFFFFF0000#64
        let old := lookupD (s.chip die).hwin n (0#64, 0#64)
        (w0.toNat % 2 ^ bits old.2 49 44 = 0 → Yields (.windowWrite die false n 0 v) s fun t => t.core = s.core ∧ t.mem = s.mem ∧
          lookupD (t.chip die).hwin n (0#64, 0#64) = (w0, old.2) ∧
          ∀ k, k ≠ n → lookupD (t.chip die).hwin k (0#64, 0#64) = lookupD (s.chip die).hwin k (0#64, 0#64)) ∧
        (w0.toNat % 2 ^ bits old.2 49 44 ≠ 0 → exec (.windowWrite die false n 0 v) s = .next s)) ∧
      (kindOf die = some 3 →
        exec (.configRegisterWrite (.block die) 0x20 8 v) s =
          .next ((s.modChip die fun c => { c with modid := v &&& 0x3F#64 }).answer .done) ∧
        exec (.configRegisterWrite (.block die) 0x408 8 v) s = .next (s.answer .nak)) ∧
      (isCompute die = true →
        exec (.configRegisterWrite (.block die) 0x200 8 v) s = .next ((s.modChip die fun c =>
          { c with tumrec := if v.getLsbD 63 then setBits c.tumrec 63 63 0 else c.tumrec }).answer .done) ∧
        (∀ i, s.fieldAnchored die = some i → (s.fieldAt i).stat = .running → exec (.configRegisterWrite (.block die) 0x408 8 v) s =
          .next ((s.setField i { s.fieldAt i with fsave := v &&& 0x000FFFFFFFFF0000#64 }).answer .done)) ∧
        exec (.configRegisterWrite (.block die) 0x0 8 v) s = .next (s.answer .done)) ∧
      (s.modState.master = some die → kindOf die = some 3 → n < 16 →
        exec (.configRegisterWrite (.block die) (0x808 + 32 * n) 8 v) s =
        .next ((s.setField n { s.fieldAt n with w1 := v }).answer .done))) ∧
    (∀ (s : State) (die offset width : Nat) (v : Word),
      ((s.answers die = false ∧ 0x10 ≤ offset) ∨ (0x4000 ≤ offset ∧ offset < 0x6000) →
        exec (.configRegisterWrite (.block die) offset width v) s = .next (s.answer .nak) ∧
        (s.answers die = false → 0x10 ≤ offset → s.configRead (.block die) offset width = s.answer .nak)) ∧
      ((kindOf die).isSome = true →
        s.configRead (.block die) 0 8 = s.answer (.data (BitVec.ofNat 64 ((s.chip die).croot % 1024 * 2 ^ 42 +
          (s.chip die).root % 1024 * 2 ^ 32 + (s.chip die).master % 1024 * 2 ^ 22 + min (s.chip die).dist 63 * 2 ^ 16 +
          (s.chip die).pport % 8 * 2 ^ 13 + (s.chip die).cport % 8 * 2 ^ 10 + (kindOf die).getD 0 * 2 ^ 8 + (s.chip die).bus.code))) ∧
        s.configRead (.block die) 8 8 = s.answer (.data (linkWord (s.chip die))))) ∧
    (∀ (s : State) (e : Nat) (v : Word), s.exposed e = true →
      let h := s.hostAt e
      exec (.configRegisterWrite (.page e) 0x80 8 v) s = .next ((s.setHost e { h with irqst := h.irqst &&& ~~~v }).answer .done) ∧
      exec (.configRegisterWrite (.page e) 0x40 8 v) s = .next ((s.setHost e { h with hpaddr := v }).answer .done) ∧
      (h.nonce.length = 32 → exec (.configRegisterWrite (.page e) 0x100 8 v) s = .next ((s.setHost e
        { h with nonce := toBytes 8 v.toNat ++ h.nonce.drop 8 }).answer .done)))
  )

/-- TDEF writes record bits 63 to 0 from a and bits 127 to 64 from b, so that a record whose b has bits 63 to 16 zero keeps
its reserved bits and STRM clear; a nonzero bit among them raises RESERVED_FIELD, and a destination in stream mode STREAM
(R200). Completion (exec answers a next state, under conditions on the state and operands alone) is stated for: tdef. -/
def Obligations.TdefWritesTheRecord : Prop :=
  ∀ (s : State) (x : Args), s.issues plainForm x = true →
    let y := passArgs x s.core.sys.repst
    let a := s.core.value y.a
    let b := s.core.value y.b
    (inStream s.core y.d = false → bits b 63 16 = 0 → Yields (.tdef x) s fun t =>
      t = (s.finishes plainForm x fun c => c.writeShape (regOf y.d) (b ++ a)) ∧
      (t.core.tile (regOf y.d)).extractLsb' 0 64 = a ∧ (t.core.tile (regOf y.d)).extractLsb' 64 64 = b ∧
      bits (t.core.tile (regOf y.d)) 127 80 = 0) ∧
    (inStream s.core y.d = false → bits b 63 16 ≠ 0 → exec (.tdef x) s = .next (s.stops plainForm x (cause 0x02#8))) ∧
    (inStream s.core y.d = true → exec (.tdef x) s = .next (s.stops plainForm x (cause 0x13#8)))
end

