-- ==== Sys2Proof/Laws/State.lean ====
section
/-!
SUPPORT. One lemma per field per update of the state: what each update leaves.
-/

namespace Sys2Proof.Machine

/-! ### modC -/

@[simp] theorem State.modC_core (s : State) (f : Core → Core) : (s.modC f).core = f s.core := rfl
@[simp] theorem State.modC_others (s : State) (f : Core → Core) : (s.modC f).others = s.others := rfl
@[simp] theorem State.modC_mem (s : State) (f : Core → Core) : (s.modC f).mem = s.mem := rfl
@[simp] theorem State.modC_poison (s : State) (f : Core → Core) : (s.modC f).poison = s.poison := rfl
@[simp] theorem State.modC_podMem (s : State) (f : Core → Core) : (s.modC f).podMem = s.podMem := rfl
@[simp] theorem State.modC_hostMem (s : State) (f : Core → Core) : (s.modC f).hostMem = s.hostMem := rfl
@[simp] theorem State.modC_cxlMem (s : State) (f : Core → Core) : (s.modC f).cxlMem = s.cxlMem := rfl
@[simp] theorem State.modC_race (s : State) (f : Core → Core) : (s.modC f).race = s.race := rfl
@[simp] theorem State.modC_gens (s : State) (f : Core → Core) : (s.modC f).gens = s.gens := rfl
@[simp] theorem State.modC_norep (s : State) (f : Core → Core) : (s.modC f).norep = s.norep := rfl
@[simp] theorem State.modC_replicas (s : State) (f : Core → Core) : (s.modC f).replicas = s.replicas := rfl
@[simp] theorem State.modC_tlb (s : State) (f : Core → Core) : (s.modC f).tlb = s.tlb := rfl
@[simp] theorem State.modC_leases (s : State) (f : Core → Core) : (s.modC f).leases = s.leases := rfl
@[simp] theorem State.modC_leaseSerial (s : State) (f : Core → Core) : (s.modC f).leaseSerial = s.leaseSerial := rfl
@[simp] theorem State.modC_echo (s : State) (f : Core → Core) : (s.modC f).echo = s.echo := rfl
@[simp] theorem State.modC_lossNext (s : State) (f : Core → Core) : (s.modC f).lossNext = s.lossNext := rfl
@[simp] theorem State.modC_lossLoad (s : State) (f : Core → Core) : (s.modC f).lossLoad = s.lossLoad := rfl
@[simp] theorem State.modC_latches (s : State) (f : Core → Core) : (s.modC f).latches = s.latches := rfl
@[simp] theorem State.modC_scopeBars (s : State) (f : Core → Core) : (s.modC f).scopeBars = s.scopeBars := rfl
@[simp] theorem State.modC_colls (s : State) (f : Core → Core) : (s.modC f).colls = s.colls := rfl
@[simp] theorem State.modC_chainSeq (s : State) (f : Core → Core) : (s.modC f).chainSeq = s.chainSeq := rfl
@[simp] theorem State.modC_rings (s : State) (f : Core → Core) : (s.modC f).rings = s.rings := rfl
@[simp] theorem State.modC_ringTags (s : State) (f : Core → Core) : (s.modC f).ringTags = s.ringTags := rfl
@[simp] theorem State.modC_flits (s : State) (f : Core → Core) : (s.modC f).flits = s.flits := rfl
@[simp] theorem State.modC_fields (s : State) (f : Core → Core) : (s.modC f).fields = s.fields := rfl
@[simp] theorem State.modC_areas (s : State) (f : Core → Core) : (s.modC f).areas = s.areas := rfl
@[simp] theorem State.modC_chips (s : State) (f : Core → Core) : (s.modC f).chips = s.chips := rfl
@[simp] theorem State.modC_modState (s : State) (f : Core → Core) : (s.modC f).modState = s.modState := rfl
@[simp] theorem State.modC_hosts (s : State) (f : Core → Core) : (s.modC f).hosts = s.hosts := rfl
@[simp] theorem State.modC_sems (s : State) (f : Core → Core) : (s.modC f).sems = s.sems := rfl
@[simp] theorem State.modC_semTie (s : State) (f : Core → Core) : (s.modC f).semTie = s.semTie := rfl
@[simp] theorem State.modC_tumbler (s : State) (f : Core → Core) : (s.modC f).tumbler = s.tumbler := rfl
@[simp] theorem State.modC_cyc (s : State) (f : Core → Core) : (s.modC f).cyc = s.cyc := rfl
@[simp] theorem State.modC_ref (s : State) (f : Core → Core) : (s.modC f).ref = s.ref := rfl
@[simp] theorem State.modC_free (s : State) (f : Core → Core) : (s.modC f).free = s.free := rfl
@[simp] theorem State.modC_stint (s : State) (f : Core → Core) : (s.modC f).stint = s.stint := rfl
@[simp] theorem State.modC_agenda (s : State) (f : Core → Core) : (s.modC f).agenda = s.agenda := rfl

/-! ### modSys -/

@[simp] theorem State.modSys_core (s : State) (f : SysRegs → SysRegs) :
    (s.modSys f).core = { s.core with sys := f s.core.sys } := rfl
@[simp] theorem State.modSys_others (s : State) (f : SysRegs → SysRegs) : (s.modSys f).others = s.others := rfl
@[simp] theorem State.modSys_mem (s : State) (f : SysRegs → SysRegs) : (s.modSys f).mem = s.mem := rfl
@[simp] theorem State.modSys_poison (s : State) (f : SysRegs → SysRegs) : (s.modSys f).poison = s.poison := rfl
@[simp] theorem State.modSys_podMem (s : State) (f : SysRegs → SysRegs) : (s.modSys f).podMem = s.podMem := rfl
@[simp] theorem State.modSys_hostMem (s : State) (f : SysRegs → SysRegs) : (s.modSys f).hostMem = s.hostMem := rfl
@[simp] theorem State.modSys_cxlMem (s : State) (f : SysRegs → SysRegs) : (s.modSys f).cxlMem = s.cxlMem := rfl
@[simp] theorem State.modSys_race (s : State) (f : SysRegs → SysRegs) : (s.modSys f).race = s.race := rfl
@[simp] theorem State.modSys_gens (s : State) (f : SysRegs → SysRegs) : (s.modSys f).gens = s.gens := rfl
@[simp] theorem State.modSys_norep (s : State) (f : SysRegs → SysRegs) : (s.modSys f).norep = s.norep := rfl
@[simp] theorem State.modSys_replicas (s : State) (f : SysRegs → SysRegs) : (s.modSys f).replicas = s.replicas := rfl
@[simp] theorem State.modSys_tlb (s : State) (f : SysRegs → SysRegs) : (s.modSys f).tlb = s.tlb := rfl
@[simp] theorem State.modSys_leases (s : State) (f : SysRegs → SysRegs) : (s.modSys f).leases = s.leases := rfl
@[simp] theorem State.modSys_leaseSerial (s : State) (f : SysRegs → SysRegs) :
    (s.modSys f).leaseSerial = s.leaseSerial := rfl
@[simp] theorem State.modSys_echo (s : State) (f : SysRegs → SysRegs) : (s.modSys f).echo = s.echo := rfl
@[simp] theorem State.modSys_lossNext (s : State) (f : SysRegs → SysRegs) : (s.modSys f).lossNext = s.lossNext := rfl
@[simp] theorem State.modSys_lossLoad (s : State) (f : SysRegs → SysRegs) : (s.modSys f).lossLoad = s.lossLoad := rfl
@[simp] theorem State.modSys_latches (s : State) (f : SysRegs → SysRegs) : (s.modSys f).latches = s.latches := rfl
@[simp] theorem State.modSys_scopeBars (s : State) (f : SysRegs → SysRegs) :
    (s.modSys f).scopeBars = s.scopeBars := rfl
@[simp] theorem State.modSys_colls (s : State) (f : SysRegs → SysRegs) : (s.modSys f).colls = s.colls := rfl
@[simp] theorem State.modSys_chainSeq (s : State) (f : SysRegs → SysRegs) : (s.modSys f).chainSeq = s.chainSeq := rfl
@[simp] theorem State.modSys_rings (s : State) (f : SysRegs → SysRegs) : (s.modSys f).rings = s.rings := rfl
@[simp] theorem State.modSys_ringTags (s : State) (f : SysRegs → SysRegs) : (s.modSys f).ringTags = s.ringTags := rfl
@[simp] theorem State.modSys_flits (s : State) (f : SysRegs → SysRegs) : (s.modSys f).flits = s.flits := rfl
@[simp] theorem State.modSys_fields (s : State) (f : SysRegs → SysRegs) : (s.modSys f).fields = s.fields := rfl
@[simp] theorem State.modSys_areas (s : State) (f : SysRegs → SysRegs) : (s.modSys f).areas = s.areas := rfl
@[simp] theorem State.modSys_chips (s : State) (f : SysRegs → SysRegs) : (s.modSys f).chips = s.chips := rfl
@[simp] theorem State.modSys_modState (s : State) (f : SysRegs → SysRegs) : (s.modSys f).modState = s.modState := rfl
@[simp] theorem State.modSys_hosts (s : State) (f : SysRegs → SysRegs) : (s.modSys f).hosts = s.hosts := rfl
@[simp] theorem State.modSys_sems (s : State) (f : SysRegs → SysRegs) : (s.modSys f).sems = s.sems := rfl
@[simp] theorem State.modSys_semTie (s : State) (f : SysRegs → SysRegs) : (s.modSys f).semTie = s.semTie := rfl
@[simp] theorem State.modSys_tumbler (s : State) (f : SysRegs → SysRegs) : (s.modSys f).tumbler = s.tumbler := rfl
@[simp] theorem State.modSys_cyc (s : State) (f : SysRegs → SysRegs) : (s.modSys f).cyc = s.cyc := rfl
@[simp] theorem State.modSys_ref (s : State) (f : SysRegs → SysRegs) : (s.modSys f).ref = s.ref := rfl
@[simp] theorem State.modSys_free (s : State) (f : SysRegs → SysRegs) : (s.modSys f).free = s.free := rfl
@[simp] theorem State.modSys_stint (s : State) (f : SysRegs → SysRegs) : (s.modSys f).stint = s.stint := rfl
@[simp] theorem State.modSys_agenda (s : State) (f : SysRegs → SysRegs) : (s.modSys f).agenda = s.agenda := rfl

/-! ### mapCores -/

@[simp] theorem State.mapCores_core (s : State) (f : Core → Core) : (s.mapCores f).core = f s.core := rfl
@[simp] theorem State.mapCores_others (s : State) (f : Core → Core) : (s.mapCores f).others = s.others.map f := rfl
@[simp] theorem State.mapCores_mem (s : State) (f : Core → Core) : (s.mapCores f).mem = s.mem := rfl
@[simp] theorem State.mapCores_poison (s : State) (f : Core → Core) : (s.mapCores f).poison = s.poison := rfl
@[simp] theorem State.mapCores_podMem (s : State) (f : Core → Core) : (s.mapCores f).podMem = s.podMem := rfl
@[simp] theorem State.mapCores_hostMem (s : State) (f : Core → Core) : (s.mapCores f).hostMem = s.hostMem := rfl
@[simp] theorem State.mapCores_cxlMem (s : State) (f : Core → Core) : (s.mapCores f).cxlMem = s.cxlMem := rfl
@[simp] theorem State.mapCores_race (s : State) (f : Core → Core) : (s.mapCores f).race = s.race := rfl
@[simp] theorem State.mapCores_gens (s : State) (f : Core → Core) : (s.mapCores f).gens = s.gens := rfl
@[simp] theorem State.mapCores_norep (s : State) (f : Core → Core) : (s.mapCores f).norep = s.norep := rfl
@[simp] theorem State.mapCores_replicas (s : State) (f : Core → Core) : (s.mapCores f).replicas = s.replicas := rfl
@[simp] theorem State.mapCores_tlb (s : State) (f : Core → Core) : (s.mapCores f).tlb = s.tlb := rfl
@[simp] theorem State.mapCores_leases (s : State) (f : Core → Core) : (s.mapCores f).leases = s.leases := rfl
@[simp] theorem State.mapCores_leaseSerial (s : State) (f : Core → Core) :
    (s.mapCores f).leaseSerial = s.leaseSerial := rfl
@[simp] theorem State.mapCores_echo (s : State) (f : Core → Core) : (s.mapCores f).echo = s.echo := rfl
@[simp] theorem State.mapCores_lossNext (s : State) (f : Core → Core) : (s.mapCores f).lossNext = s.lossNext := rfl
@[simp] theorem State.mapCores_lossLoad (s : State) (f : Core → Core) : (s.mapCores f).lossLoad = s.lossLoad := rfl
@[simp] theorem State.mapCores_latches (s : State) (f : Core → Core) : (s.mapCores f).latches = s.latches := rfl
@[simp] theorem State.mapCores_scopeBars (s : State) (f : Core → Core) : (s.mapCores f).scopeBars = s.scopeBars := rfl
@[simp] theorem State.mapCores_colls (s : State) (f : Core → Core) : (s.mapCores f).colls = s.colls := rfl
@[simp] theorem State.mapCores_chainSeq (s : State) (f : Core → Core) : (s.mapCores f).chainSeq = s.chainSeq := rfl
@[simp] theorem State.mapCores_rings (s : State) (f : Core → Core) : (s.mapCores f).rings = s.rings := rfl
@[simp] theorem State.mapCores_ringTags (s : State) (f : Core → Core) : (s.mapCores f).ringTags = s.ringTags := rfl
@[simp] theorem State.mapCores_flits (s : State) (f : Core → Core) : (s.mapCores f).flits = s.flits := rfl
@[simp] theorem State.mapCores_fields (s : State) (f : Core → Core) : (s.mapCores f).fields = s.fields := rfl
@[simp] theorem State.mapCores_areas (s : State) (f : Core → Core) : (s.mapCores f).areas = s.areas := rfl
@[simp] theorem State.mapCores_chips (s : State) (f : Core → Core) : (s.mapCores f).chips = s.chips := rfl
@[simp] theorem State.mapCores_modState (s : State) (f : Core → Core) : (s.mapCores f).modState = s.modState := rfl
@[simp] theorem State.mapCores_hosts (s : State) (f : Core → Core) : (s.mapCores f).hosts = s.hosts := rfl
@[simp] theorem State.mapCores_sems (s : State) (f : Core → Core) : (s.mapCores f).sems = s.sems := rfl
@[simp] theorem State.mapCores_semTie (s : State) (f : Core → Core) : (s.mapCores f).semTie = s.semTie := rfl
@[simp] theorem State.mapCores_tumbler (s : State) (f : Core → Core) : (s.mapCores f).tumbler = s.tumbler := rfl
@[simp] theorem State.mapCores_cyc (s : State) (f : Core → Core) : (s.mapCores f).cyc = s.cyc := rfl
@[simp] theorem State.mapCores_ref (s : State) (f : Core → Core) : (s.mapCores f).ref = s.ref := rfl
@[simp] theorem State.mapCores_free (s : State) (f : Core → Core) : (s.mapCores f).free = s.free := rfl
@[simp] theorem State.mapCores_stint (s : State) (f : Core → Core) : (s.mapCores f).stint = s.stint := rfl
@[simp] theorem State.mapCores_agenda (s : State) (f : Core → Core) : (s.mapCores f).agenda = s.agenda := rfl

/-! ### setLatch -/

@[simp] theorem State.setLatch_core (s : State) (k : Nat) (l : Latch) : (s.setLatch k l).core = s.core := rfl
@[simp] theorem State.setLatch_others (s : State) (k : Nat) (l : Latch) : (s.setLatch k l).others = s.others := rfl
@[simp] theorem State.setLatch_mem (s : State) (k : Nat) (l : Latch) : (s.setLatch k l).mem = s.mem := rfl
@[simp] theorem State.setLatch_poison (s : State) (k : Nat) (l : Latch) : (s.setLatch k l).poison = s.poison := rfl
@[simp] theorem State.setLatch_podMem (s : State) (k : Nat) (l : Latch) : (s.setLatch k l).podMem = s.podMem := rfl
@[simp] theorem State.setLatch_hostMem (s : State) (k : Nat) (l : Latch) : (s.setLatch k l).hostMem = s.hostMem := rfl
@[simp] theorem State.setLatch_cxlMem (s : State) (k : Nat) (l : Latch) : (s.setLatch k l).cxlMem = s.cxlMem := rfl
@[simp] theorem State.setLatch_race (s : State) (k : Nat) (l : Latch) : (s.setLatch k l).race = s.race := rfl
@[simp] theorem State.setLatch_gens (s : State) (k : Nat) (l : Latch) : (s.setLatch k l).gens = s.gens := rfl
@[simp] theorem State.setLatch_norep (s : State) (k : Nat) (l : Latch) : (s.setLatch k l).norep = s.norep := rfl
@[simp] theorem State.setLatch_replicas (s : State) (k : Nat) (l : Latch) :
    (s.setLatch k l).replicas = s.replicas := rfl
@[simp] theorem State.setLatch_tlb (s : State) (k : Nat) (l : Latch) : (s.setLatch k l).tlb = s.tlb := rfl
@[simp] theorem State.setLatch_leases (s : State) (k : Nat) (l : Latch) : (s.setLatch k l).leases = s.leases := rfl
@[simp] theorem State.setLatch_leaseSerial (s : State) (k : Nat) (l : Latch) :
    (s.setLatch k l).leaseSerial = s.leaseSerial := rfl
@[simp] theorem State.setLatch_echo (s : State) (k : Nat) (l : Latch) : (s.setLatch k l).echo = s.echo := rfl
@[simp] theorem State.setLatch_lossNext (s : State) (k : Nat) (l : Latch) :
    (s.setLatch k l).lossNext = s.lossNext := rfl
@[simp] theorem State.setLatch_lossLoad (s : State) (k : Nat) (l : Latch) :
    (s.setLatch k l).lossLoad = s.lossLoad := rfl
@[simp] theorem State.setLatch_latches (s : State) (k : Nat) (l : Latch) :
    (s.setLatch k l).latches = assign s.latches k l := rfl
@[simp] theorem State.setLatch_scopeBars (s : State) (k : Nat) (l : Latch) :
    (s.setLatch k l).scopeBars = s.scopeBars := rfl
@[simp] theorem State.setLatch_colls (s : State) (k : Nat) (l : Latch) : (s.setLatch k l).colls = s.colls := rfl
@[simp] theorem State.setLatch_chainSeq (s : State) (k : Nat) (l : Latch) :
    (s.setLatch k l).chainSeq = s.chainSeq := rfl
@[simp] theorem State.setLatch_rings (s : State) (k : Nat) (l : Latch) : (s.setLatch k l).rings = s.rings := rfl
@[simp] theorem State.setLatch_ringTags (s : State) (k : Nat) (l : Latch) :
    (s.setLatch k l).ringTags = s.ringTags := rfl
@[simp] theorem State.setLatch_flits (s : State) (k : Nat) (l : Latch) : (s.setLatch k l).flits = s.flits := rfl
@[simp] theorem State.setLatch_fields (s : State) (k : Nat) (l : Latch) : (s.setLatch k l).fields = s.fields := rfl
@[simp] theorem State.setLatch_areas (s : State) (k : Nat) (l : Latch) : (s.setLatch k l).areas = s.areas := rfl
@[simp] theorem State.setLatch_chips (s : State) (k : Nat) (l : Latch) : (s.setLatch k l).chips = s.chips := rfl
@[simp] theorem State.setLatch_modState (s : State) (k : Nat) (l : Latch) :
    (s.setLatch k l).modState = s.modState := rfl
@[simp] theorem State.setLatch_hosts (s : State) (k : Nat) (l : Latch) : (s.setLatch k l).hosts = s.hosts := rfl
@[simp] theorem State.setLatch_sems (s : State) (k : Nat) (l : Latch) : (s.setLatch k l).sems = s.sems := rfl
@[simp] theorem State.setLatch_semTie (s : State) (k : Nat) (l : Latch) : (s.setLatch k l).semTie = s.semTie := rfl
@[simp] theorem State.setLatch_tumbler (s : State) (k : Nat) (l : Latch) : (s.setLatch k l).tumbler = s.tumbler := rfl
@[simp] theorem State.setLatch_cyc (s : State) (k : Nat) (l : Latch) : (s.setLatch k l).cyc = s.cyc := rfl
@[simp] theorem State.setLatch_ref (s : State) (k : Nat) (l : Latch) : (s.setLatch k l).ref = s.ref := rfl
@[simp] theorem State.setLatch_free (s : State) (k : Nat) (l : Latch) : (s.setLatch k l).free = s.free := rfl
@[simp] theorem State.setLatch_stint (s : State) (k : Nat) (l : Latch) : (s.setLatch k l).stint = s.stint := rfl
@[simp] theorem State.setLatch_agenda (s : State) (k : Nat) (l : Latch) : (s.setLatch k l).agenda = s.agenda := rfl

/-! ### setChip -/

@[simp] theorem State.setChip_core (s : State) (k : Nat) (c : Chip) : (s.setChip k c).core = s.core := rfl
@[simp] theorem State.setChip_others (s : State) (k : Nat) (c : Chip) : (s.setChip k c).others = s.others := rfl
@[simp] theorem State.setChip_mem (s : State) (k : Nat) (c : Chip) : (s.setChip k c).mem = s.mem := rfl
@[simp] theorem State.setChip_poison (s : State) (k : Nat) (c : Chip) : (s.setChip k c).poison = s.poison := rfl
@[simp] theorem State.setChip_podMem (s : State) (k : Nat) (c : Chip) : (s.setChip k c).podMem = s.podMem := rfl
@[simp] theorem State.setChip_hostMem (s : State) (k : Nat) (c : Chip) : (s.setChip k c).hostMem = s.hostMem := rfl
@[simp] theorem State.setChip_cxlMem (s : State) (k : Nat) (c : Chip) : (s.setChip k c).cxlMem = s.cxlMem := rfl
@[simp] theorem State.setChip_race (s : State) (k : Nat) (c : Chip) : (s.setChip k c).race = s.race := rfl
@[simp] theorem State.setChip_gens (s : State) (k : Nat) (c : Chip) : (s.setChip k c).gens = s.gens := rfl
@[simp] theorem State.setChip_norep (s : State) (k : Nat) (c : Chip) : (s.setChip k c).norep = s.norep := rfl
@[simp] theorem State.setChip_replicas (s : State) (k : Nat) (c : Chip) : (s.setChip k c).replicas = s.replicas := rfl
@[simp] theorem State.setChip_tlb (s : State) (k : Nat) (c : Chip) : (s.setChip k c).tlb = s.tlb := rfl
@[simp] theorem State.setChip_leases (s : State) (k : Nat) (c : Chip) : (s.setChip k c).leases = s.leases := rfl
@[simp] theorem State.setChip_leaseSerial (s : State) (k : Nat) (c : Chip) :
    (s.setChip k c).leaseSerial = s.leaseSerial := rfl
@[simp] theorem State.setChip_echo (s : State) (k : Nat) (c : Chip) : (s.setChip k c).echo = s.echo := rfl
@[simp] theorem State.setChip_lossNext (s : State) (k : Nat) (c : Chip) : (s.setChip k c).lossNext = s.lossNext := rfl
@[simp] theorem State.setChip_lossLoad (s : State) (k : Nat) (c : Chip) : (s.setChip k c).lossLoad = s.lossLoad := rfl
@[simp] theorem State.setChip_latches (s : State) (k : Nat) (c : Chip) : (s.setChip k c).latches = s.latches := rfl
@[simp] theorem State.setChip_scopeBars (s : State) (k : Nat) (c : Chip) :
    (s.setChip k c).scopeBars = s.scopeBars := rfl
@[simp] theorem State.setChip_colls (s : State) (k : Nat) (c : Chip) : (s.setChip k c).colls = s.colls := rfl
@[simp] theorem State.setChip_chainSeq (s : State) (k : Nat) (c : Chip) : (s.setChip k c).chainSeq = s.chainSeq := rfl
@[simp] theorem State.setChip_rings (s : State) (k : Nat) (c : Chip) : (s.setChip k c).rings = s.rings := rfl
@[simp] theorem State.setChip_ringTags (s : State) (k : Nat) (c : Chip) : (s.setChip k c).ringTags = s.ringTags := rfl
@[simp] theorem State.setChip_flits (s : State) (k : Nat) (c : Chip) : (s.setChip k c).flits = s.flits := rfl
@[simp] theorem State.setChip_fields (s : State) (k : Nat) (c : Chip) : (s.setChip k c).fields = s.fields := rfl
@[simp] theorem State.setChip_areas (s : State) (k : Nat) (c : Chip) : (s.setChip k c).areas = s.areas := rfl
@[simp] theorem State.setChip_chips (s : State) (k : Nat) (c : Chip) :
    (s.setChip k c).chips = assign s.chips k c := rfl
@[simp] theorem State.setChip_modState (s : State) (k : Nat) (c : Chip) : (s.setChip k c).modState = s.modState := rfl
@[simp] theorem State.setChip_hosts (s : State) (k : Nat) (c : Chip) : (s.setChip k c).hosts = s.hosts := rfl
@[simp] theorem State.setChip_sems (s : State) (k : Nat) (c : Chip) : (s.setChip k c).sems = s.sems := rfl
@[simp] theorem State.setChip_semTie (s : State) (k : Nat) (c : Chip) : (s.setChip k c).semTie = s.semTie := rfl
@[simp] theorem State.setChip_tumbler (s : State) (k : Nat) (c : Chip) : (s.setChip k c).tumbler = s.tumbler := rfl
@[simp] theorem State.setChip_cyc (s : State) (k : Nat) (c : Chip) : (s.setChip k c).cyc = s.cyc := rfl
@[simp] theorem State.setChip_ref (s : State) (k : Nat) (c : Chip) : (s.setChip k c).ref = s.ref := rfl
@[simp] theorem State.setChip_free (s : State) (k : Nat) (c : Chip) : (s.setChip k c).free = s.free := rfl
@[simp] theorem State.setChip_stint (s : State) (k : Nat) (c : Chip) : (s.setChip k c).stint = s.stint := rfl
@[simp] theorem State.setChip_agenda (s : State) (k : Nat) (c : Chip) : (s.setChip k c).agenda = s.agenda := rfl

/-! ### modMod -/

@[simp] theorem State.modMod_core (s : State) (f : Module → Module) : (s.modMod f).core = s.core := rfl
@[simp] theorem State.modMod_others (s : State) (f : Module → Module) : (s.modMod f).others = s.others := rfl
@[simp] theorem State.modMod_mem (s : State) (f : Module → Module) : (s.modMod f).mem = s.mem := rfl
@[simp] theorem State.modMod_poison (s : State) (f : Module → Module) : (s.modMod f).poison = s.poison := rfl
@[simp] theorem State.modMod_podMem (s : State) (f : Module → Module) : (s.modMod f).podMem = s.podMem := rfl
@[simp] theorem State.modMod_hostMem (s : State) (f : Module → Module) : (s.modMod f).hostMem = s.hostMem := rfl
@[simp] theorem State.modMod_cxlMem (s : State) (f : Module → Module) : (s.modMod f).cxlMem = s.cxlMem := rfl
@[simp] theorem State.modMod_race (s : State) (f : Module → Module) : (s.modMod f).race = s.race := rfl
@[simp] theorem State.modMod_gens (s : State) (f : Module → Module) : (s.modMod f).gens = s.gens := rfl
@[simp] theorem State.modMod_norep (s : State) (f : Module → Module) : (s.modMod f).norep = s.norep := rfl
@[simp] theorem State.modMod_replicas (s : State) (f : Module → Module) : (s.modMod f).replicas = s.replicas := rfl
@[simp] theorem State.modMod_tlb (s : State) (f : Module → Module) : (s.modMod f).tlb = s.tlb := rfl
@[simp] theorem State.modMod_leases (s : State) (f : Module → Module) : (s.modMod f).leases = s.leases := rfl
@[simp] theorem State.modMod_leaseSerial (s : State) (f : Module → Module) :
    (s.modMod f).leaseSerial = s.leaseSerial := rfl
@[simp] theorem State.modMod_echo (s : State) (f : Module → Module) : (s.modMod f).echo = s.echo := rfl
@[simp] theorem State.modMod_lossNext (s : State) (f : Module → Module) : (s.modMod f).lossNext = s.lossNext := rfl
@[simp] theorem State.modMod_lossLoad (s : State) (f : Module → Module) : (s.modMod f).lossLoad = s.lossLoad := rfl
@[simp] theorem State.modMod_latches (s : State) (f : Module → Module) : (s.modMod f).latches = s.latches := rfl
@[simp] theorem State.modMod_scopeBars (s : State) (f : Module → Module) : (s.modMod f).scopeBars = s.scopeBars := rfl
@[simp] theorem State.modMod_colls (s : State) (f : Module → Module) : (s.modMod f).colls = s.colls := rfl
@[simp] theorem State.modMod_chainSeq (s : State) (f : Module → Module) : (s.modMod f).chainSeq = s.chainSeq := rfl
@[simp] theorem State.modMod_rings (s : State) (f : Module → Module) : (s.modMod f).rings = s.rings := rfl
@[simp] theorem State.modMod_ringTags (s : State) (f : Module → Module) : (s.modMod f).ringTags = s.ringTags := rfl
@[simp] theorem State.modMod_flits (s : State) (f : Module → Module) : (s.modMod f).flits = s.flits := rfl
@[simp] theorem State.modMod_fields (s : State) (f : Module → Module) : (s.modMod f).fields = s.fields := rfl
@[simp] theorem State.modMod_areas (s : State) (f : Module → Module) : (s.modMod f).areas = s.areas := rfl
@[simp] theorem State.modMod_chips (s : State) (f : Module → Module) : (s.modMod f).chips = s.chips := rfl
@[simp] theorem State.modMod_modState (s : State) (f : Module → Module) : (s.modMod f).modState = f s.modState := rfl
@[simp] theorem State.modMod_hosts (s : State) (f : Module → Module) : (s.modMod f).hosts = s.hosts := rfl
@[simp] theorem State.modMod_sems (s : State) (f : Module → Module) : (s.modMod f).sems = s.sems := rfl
@[simp] theorem State.modMod_semTie (s : State) (f : Module → Module) : (s.modMod f).semTie = s.semTie := rfl
@[simp] theorem State.modMod_tumbler (s : State) (f : Module → Module) : (s.modMod f).tumbler = s.tumbler := rfl
@[simp] theorem State.modMod_cyc (s : State) (f : Module → Module) : (s.modMod f).cyc = s.cyc := rfl
@[simp] theorem State.modMod_ref (s : State) (f : Module → Module) : (s.modMod f).ref = s.ref := rfl
@[simp] theorem State.modMod_free (s : State) (f : Module → Module) : (s.modMod f).free = s.free := rfl
@[simp] theorem State.modMod_stint (s : State) (f : Module → Module) : (s.modMod f).stint = s.stint := rfl
@[simp] theorem State.modMod_agenda (s : State) (f : Module → Module) : (s.modMod f).agenda = s.agenda := rfl

/-! ### elapse -/

@[simp] theorem State.elapse_core (s : State) (n : Nat) : (s.elapse n).core = s.core := rfl
@[simp] theorem State.elapse_others (s : State) (n : Nat) : (s.elapse n).others = s.others := rfl
@[simp] theorem State.elapse_mem (s : State) (n : Nat) : (s.elapse n).mem = s.mem := rfl
@[simp] theorem State.elapse_poison (s : State) (n : Nat) : (s.elapse n).poison = s.poison := rfl
@[simp] theorem State.elapse_podMem (s : State) (n : Nat) : (s.elapse n).podMem = s.podMem := rfl
@[simp] theorem State.elapse_hostMem (s : State) (n : Nat) : (s.elapse n).hostMem = s.hostMem := rfl
@[simp] theorem State.elapse_cxlMem (s : State) (n : Nat) : (s.elapse n).cxlMem = s.cxlMem := rfl
@[simp] theorem State.elapse_race (s : State) (n : Nat) : (s.elapse n).race = s.race := rfl
@[simp] theorem State.elapse_gens (s : State) (n : Nat) : (s.elapse n).gens = s.gens := rfl
@[simp] theorem State.elapse_norep (s : State) (n : Nat) : (s.elapse n).norep = s.norep := rfl
@[simp] theorem State.elapse_replicas (s : State) (n : Nat) : (s.elapse n).replicas = s.replicas := rfl
@[simp] theorem State.elapse_tlb (s : State) (n : Nat) : (s.elapse n).tlb = s.tlb := rfl
@[simp] theorem State.elapse_leases (s : State) (n : Nat) : (s.elapse n).leases = s.leases := rfl
@[simp] theorem State.elapse_leaseSerial (s : State) (n : Nat) : (s.elapse n).leaseSerial = s.leaseSerial := rfl
@[simp] theorem State.elapse_echo (s : State) (n : Nat) : (s.elapse n).echo = s.echo := rfl
@[simp] theorem State.elapse_lossNext (s : State) (n : Nat) : (s.elapse n).lossNext = s.lossNext := rfl
@[simp] theorem State.elapse_lossLoad (s : State) (n : Nat) : (s.elapse n).lossLoad = s.lossLoad := rfl
@[simp] theorem State.elapse_latches (s : State) (n : Nat) : (s.elapse n).latches = s.latches := rfl
@[simp] theorem State.elapse_scopeBars (s : State) (n : Nat) : (s.elapse n).scopeBars = s.scopeBars := rfl
@[simp] theorem State.elapse_colls (s : State) (n : Nat) : (s.elapse n).colls = s.colls := rfl
@[simp] theorem State.elapse_chainSeq (s : State) (n : Nat) : (s.elapse n).chainSeq = s.chainSeq := rfl
@[simp] theorem State.elapse_rings (s : State) (n : Nat) : (s.elapse n).rings = s.rings := rfl
@[simp] theorem State.elapse_ringTags (s : State) (n : Nat) : (s.elapse n).ringTags = s.ringTags := rfl
@[simp] theorem State.elapse_flits (s : State) (n : Nat) : (s.elapse n).flits = s.flits := rfl
@[simp] theorem State.elapse_fields (s : State) (n : Nat) : (s.elapse n).fields = s.fields := rfl
@[simp] theorem State.elapse_areas (s : State) (n : Nat) : (s.elapse n).areas = s.areas := rfl
@[simp] theorem State.elapse_chips (s : State) (n : Nat) : (s.elapse n).chips = s.chips := rfl
@[simp] theorem State.elapse_modState (s : State) (n : Nat) : (s.elapse n).modState = s.modState := rfl
@[simp] theorem State.elapse_hosts (s : State) (n : Nat) : (s.elapse n).hosts = s.hosts := rfl
@[simp] theorem State.elapse_sems (s : State) (n : Nat) : (s.elapse n).sems = s.sems := rfl
@[simp] theorem State.elapse_semTie (s : State) (n : Nat) : (s.elapse n).semTie = s.semTie := rfl
@[simp] theorem State.elapse_tumbler (s : State) (n : Nat) : (s.elapse n).tumbler = s.tumbler := rfl
@[simp] theorem State.elapse_cyc (s : State) (n : Nat) : (s.elapse n).cyc = s.cyc + n := rfl
@[simp] theorem State.elapse_ref (s : State) (n : Nat) : (s.elapse n).ref = s.ref := rfl
@[simp] theorem State.elapse_free (s : State) (n : Nat) : (s.elapse n).free = s.free := rfl
@[simp] theorem State.elapse_stint (s : State) (n : Nat) : (s.elapse n).stint = s.stint := rfl
@[simp] theorem State.elapse_agenda (s : State) (n : Nat) : (s.elapse n).agenda = s.agenda := rfl

/-! ### reachCycle -/

@[simp] theorem State.reachCycle_core (s : State) (n : Nat) : (s.reachCycle n).core = s.core := rfl
@[simp] theorem State.reachCycle_others (s : State) (n : Nat) : (s.reachCycle n).others = s.others := rfl
@[simp] theorem State.reachCycle_mem (s : State) (n : Nat) : (s.reachCycle n).mem = s.mem := rfl
@[simp] theorem State.reachCycle_poison (s : State) (n : Nat) : (s.reachCycle n).poison = s.poison := rfl
@[simp] theorem State.reachCycle_podMem (s : State) (n : Nat) : (s.reachCycle n).podMem = s.podMem := rfl
@[simp] theorem State.reachCycle_hostMem (s : State) (n : Nat) : (s.reachCycle n).hostMem = s.hostMem := rfl
@[simp] theorem State.reachCycle_cxlMem (s : State) (n : Nat) : (s.reachCycle n).cxlMem = s.cxlMem := rfl
@[simp] theorem State.reachCycle_race (s : State) (n : Nat) : (s.reachCycle n).race = s.race := rfl
@[simp] theorem State.reachCycle_gens (s : State) (n : Nat) : (s.reachCycle n).gens = s.gens := rfl
@[simp] theorem State.reachCycle_norep (s : State) (n : Nat) : (s.reachCycle n).norep = s.norep := rfl
@[simp] theorem State.reachCycle_replicas (s : State) (n : Nat) : (s.reachCycle n).replicas = s.replicas := rfl
@[simp] theorem State.reachCycle_tlb (s : State) (n : Nat) : (s.reachCycle n).tlb = s.tlb := rfl
@[simp] theorem State.reachCycle_leases (s : State) (n : Nat) : (s.reachCycle n).leases = s.leases := rfl
@[simp] theorem State.reachCycle_leaseSerial (s : State) (n : Nat) :
    (s.reachCycle n).leaseSerial = s.leaseSerial := rfl
@[simp] theorem State.reachCycle_echo (s : State) (n : Nat) : (s.reachCycle n).echo = s.echo := rfl
@[simp] theorem State.reachCycle_lossNext (s : State) (n : Nat) : (s.reachCycle n).lossNext = s.lossNext := rfl
@[simp] theorem State.reachCycle_lossLoad (s : State) (n : Nat) : (s.reachCycle n).lossLoad = s.lossLoad := rfl
@[simp] theorem State.reachCycle_latches (s : State) (n : Nat) : (s.reachCycle n).latches = s.latches := rfl
@[simp] theorem State.reachCycle_scopeBars (s : State) (n : Nat) : (s.reachCycle n).scopeBars = s.scopeBars := rfl
@[simp] theorem State.reachCycle_colls (s : State) (n : Nat) : (s.reachCycle n).colls = s.colls := rfl
@[simp] theorem State.reachCycle_chainSeq (s : State) (n : Nat) : (s.reachCycle n).chainSeq = s.chainSeq := rfl
@[simp] theorem State.reachCycle_rings (s : State) (n : Nat) : (s.reachCycle n).rings = s.rings := rfl
@[simp] theorem State.reachCycle_ringTags (s : State) (n : Nat) : (s.reachCycle n).ringTags = s.ringTags := rfl
@[simp] theorem State.reachCycle_flits (s : State) (n : Nat) : (s.reachCycle n).flits = s.flits := rfl
@[simp] theorem State.reachCycle_fields (s : State) (n : Nat) : (s.reachCycle n).fields = s.fields := rfl
@[simp] theorem State.reachCycle_areas (s : State) (n : Nat) : (s.reachCycle n).areas = s.areas := rfl
@[simp] theorem State.reachCycle_chips (s : State) (n : Nat) : (s.reachCycle n).chips = s.chips := rfl
@[simp] theorem State.reachCycle_modState (s : State) (n : Nat) : (s.reachCycle n).modState = s.modState := rfl
@[simp] theorem State.reachCycle_hosts (s : State) (n : Nat) : (s.reachCycle n).hosts = s.hosts := rfl
@[simp] theorem State.reachCycle_sems (s : State) (n : Nat) : (s.reachCycle n).sems = s.sems := rfl
@[simp] theorem State.reachCycle_semTie (s : State) (n : Nat) : (s.reachCycle n).semTie = s.semTie := rfl
@[simp] theorem State.reachCycle_tumbler (s : State) (n : Nat) : (s.reachCycle n).tumbler = s.tumbler := rfl
@[simp] theorem State.reachCycle_cyc (s : State) (n : Nat) : (s.reachCycle n).cyc = max s.cyc n := rfl
@[simp] theorem State.reachCycle_ref (s : State) (n : Nat) : (s.reachCycle n).ref = s.ref := rfl
@[simp] theorem State.reachCycle_free (s : State) (n : Nat) : (s.reachCycle n).free = s.free := rfl
@[simp] theorem State.reachCycle_stint (s : State) (n : Nat) : (s.reachCycle n).stint = s.stint := rfl
@[simp] theorem State.reachCycle_agenda (s : State) (n : Nat) : (s.reachCycle n).agenda = s.agenda := rfl

/-! ### setField -/

@[simp] theorem State.setField_core (s : State) (i : Nat) (f : Field) :
    (s.setField i f).core = s.core := by unfold State.setField; split <;> rfl
@[simp] theorem State.setField_others (s : State) (i : Nat) (f : Field) :
    (s.setField i f).others = s.others := by unfold State.setField; split <;> rfl
@[simp] theorem State.setField_mem (s : State) (i : Nat) (f : Field) :
    (s.setField i f).mem = s.mem := by unfold State.setField; split <;> rfl
@[simp] theorem State.setField_poison (s : State) (i : Nat) (f : Field) :
    (s.setField i f).poison = s.poison := by unfold State.setField; split <;> rfl
@[simp] theorem State.setField_podMem (s : State) (i : Nat) (f : Field) :
    (s.setField i f).podMem = s.podMem := by unfold State.setField; split <;> rfl
@[simp] theorem State.setField_hostMem (s : State) (i : Nat) (f : Field) :
    (s.setField i f).hostMem = s.hostMem := by unfold State.setField; split <;> rfl
@[simp] theorem State.setField_cxlMem (s : State) (i : Nat) (f : Field) :
    (s.setField i f).cxlMem = s.cxlMem := by unfold State.setField; split <;> rfl
@[simp] theorem State.setField_race (s : State) (i : Nat) (f : Field) :
    (s.setField i f).race = s.race := by unfold State.setField; split <;> rfl
@[simp] theorem State.setField_gens (s : State) (i : Nat) (f : Field) :
    (s.setField i f).gens = s.gens := by unfold State.setField; split <;> rfl
@[simp] theorem State.setField_norep (s : State) (i : Nat) (f : Field) :
    (s.setField i f).norep = s.norep := by unfold State.setField; split <;> rfl
@[simp] theorem State.setField_replicas (s : State) (i : Nat) (f : Field) :
    (s.setField i f).replicas = s.replicas := by unfold State.setField; split <;> rfl
@[simp] theorem State.setField_tlb (s : State) (i : Nat) (f : Field) :
    (s.setField i f).tlb = s.tlb := by unfold State.setField; split <;> rfl
@[simp] theorem State.setField_leases (s : State) (i : Nat) (f : Field) :
    (s.setField i f).leases = s.leases := by unfold State.setField; split <;> rfl
@[simp] theorem State.setField_leaseSerial (s : State) (i : Nat) (f : Field) :
    (s.setField i f).leaseSerial = s.leaseSerial := by unfold State.setField; split <;> rfl
@[simp] theorem State.setField_echo (s : State) (i : Nat) (f : Field) :
    (s.setField i f).echo = s.echo := by unfold State.setField; split <;> rfl
@[simp] theorem State.setField_lossNext (s : State) (i : Nat) (f : Field) :
    (s.setField i f).lossNext = s.lossNext := by unfold State.setField; split <;> rfl
@[simp] theorem State.setField_lossLoad (s : State) (i : Nat) (f : Field) :
    (s.setField i f).lossLoad = s.lossLoad := by unfold State.setField; split <;> rfl
@[simp] theorem State.setField_latches (s : State) (i : Nat) (f : Field) :
    (s.setField i f).latches = s.latches := by unfold State.setField; split <;> rfl
@[simp] theorem State.setField_scopeBars (s : State) (i : Nat) (f : Field) :
    (s.setField i f).scopeBars = s.scopeBars := by unfold State.setField; split <;> rfl
@[simp] theorem State.setField_colls (s : State) (i : Nat) (f : Field) :
    (s.setField i f).colls = s.colls := by unfold State.setField; split <;> rfl
@[simp] theorem State.setField_chainSeq (s : State) (i : Nat) (f : Field) :
    (s.setField i f).chainSeq = s.chainSeq := by unfold State.setField; split <;> rfl
@[simp] theorem State.setField_rings (s : State) (i : Nat) (f : Field) :
    (s.setField i f).rings = s.rings := by unfold State.setField; split <;> rfl
@[simp] theorem State.setField_ringTags (s : State) (i : Nat) (f : Field) :
    (s.setField i f).ringTags = s.ringTags := by unfold State.setField; split <;> rfl
@[simp] theorem State.setField_flits (s : State) (i : Nat) (f : Field) :
    (s.setField i f).flits = s.flits := by unfold State.setField; split <;> rfl
@[simp] theorem State.setField_areas (s : State) (i : Nat) (f : Field) :
    (s.setField i f).areas = s.areas := by unfold State.setField; split <;> rfl
@[simp] theorem State.setField_chips (s : State) (i : Nat) (f : Field) :
    (s.setField i f).chips = s.chips := by unfold State.setField; split <;> rfl
@[simp] theorem State.setField_modState (s : State) (i : Nat) (f : Field) :
    (s.setField i f).modState = s.modState := by unfold State.setField; split <;> rfl
@[simp] theorem State.setField_hosts (s : State) (i : Nat) (f : Field) :
    (s.setField i f).hosts = s.hosts := by unfold State.setField; split <;> rfl
@[simp] theorem State.setField_sems (s : State) (i : Nat) (f : Field) :
    (s.setField i f).sems = s.sems := by unfold State.setField; split <;> rfl
@[simp] theorem State.setField_semTie (s : State) (i : Nat) (f : Field) :
    (s.setField i f).semTie = s.semTie := by unfold State.setField; split <;> rfl
@[simp] theorem State.setField_tumbler (s : State) (i : Nat) (f : Field) :
    (s.setField i f).tumbler = s.tumbler := by unfold State.setField; split <;> rfl
@[simp] theorem State.setField_cyc (s : State) (i : Nat) (f : Field) :
    (s.setField i f).cyc = s.cyc := by unfold State.setField; split <;> rfl
@[simp] theorem State.setField_ref (s : State) (i : Nat) (f : Field) :
    (s.setField i f).ref = s.ref := by unfold State.setField; split <;> rfl
@[simp] theorem State.setField_free (s : State) (i : Nat) (f : Field) :
    (s.setField i f).free = s.free := by unfold State.setField; split <;> rfl
@[simp] theorem State.setField_stint (s : State) (i : Nat) (f : Field) :
    (s.setField i f).stint = s.stint := by unfold State.setField; split <;> rfl
@[simp] theorem State.setField_agenda (s : State) (i : Nat) (f : Field) :
    (s.setField i f).agenda = s.agenda := by unfold State.setField; split <;> rfl

/-! ### setHost -/

@[simp] theorem State.setHost_core (s : State) (e : Nat) (h : Endpoint) :
    (s.setHost e h).core = s.core := by unfold State.setHost; split <;> rfl
@[simp] theorem State.setHost_others (s : State) (e : Nat) (h : Endpoint) :
    (s.setHost e h).others = s.others := by unfold State.setHost; split <;> rfl
@[simp] theorem State.setHost_mem (s : State) (e : Nat) (h : Endpoint) :
    (s.setHost e h).mem = s.mem := by unfold State.setHost; split <;> rfl
@[simp] theorem State.setHost_poison (s : State) (e : Nat) (h : Endpoint) :
    (s.setHost e h).poison = s.poison := by unfold State.setHost; split <;> rfl
@[simp] theorem State.setHost_podMem (s : State) (e : Nat) (h : Endpoint) :
    (s.setHost e h).podMem = s.podMem := by unfold State.setHost; split <;> rfl
@[simp] theorem State.setHost_hostMem (s : State) (e : Nat) (h : Endpoint) :
    (s.setHost e h).hostMem = s.hostMem := by unfold State.setHost; split <;> rfl
@[simp] theorem State.setHost_cxlMem (s : State) (e : Nat) (h : Endpoint) :
    (s.setHost e h).cxlMem = s.cxlMem := by unfold State.setHost; split <;> rfl
@[simp] theorem State.setHost_race (s : State) (e : Nat) (h : Endpoint) :
    (s.setHost e h).race = s.race := by unfold State.setHost; split <;> rfl
@[simp] theorem State.setHost_gens (s : State) (e : Nat) (h : Endpoint) :
    (s.setHost e h).gens = s.gens := by unfold State.setHost; split <;> rfl
@[simp] theorem State.setHost_norep (s : State) (e : Nat) (h : Endpoint) :
    (s.setHost e h).norep = s.norep := by unfold State.setHost; split <;> rfl
@[simp] theorem State.setHost_replicas (s : State) (e : Nat) (h : Endpoint) :
    (s.setHost e h).replicas = s.replicas := by unfold State.setHost; split <;> rfl
@[simp] theorem State.setHost_tlb (s : State) (e : Nat) (h : Endpoint) :
    (s.setHost e h).tlb = s.tlb := by unfold State.setHost; split <;> rfl
@[simp] theorem State.setHost_leases (s : State) (e : Nat) (h : Endpoint) :
    (s.setHost e h).leases = s.leases := by unfold State.setHost; split <;> rfl
@[simp] theorem State.setHost_leaseSerial (s : State) (e : Nat) (h : Endpoint) :
    (s.setHost e h).leaseSerial = s.leaseSerial := by unfold State.setHost; split <;> rfl
@[simp] theorem State.setHost_echo (s : State) (e : Nat) (h : Endpoint) :
    (s.setHost e h).echo = s.echo := by unfold State.setHost; split <;> rfl
@[simp] theorem State.setHost_lossNext (s : State) (e : Nat) (h : Endpoint) :
    (s.setHost e h).lossNext = s.lossNext := by unfold State.setHost; split <;> rfl
@[simp] theorem State.setHost_lossLoad (s : State) (e : Nat) (h : Endpoint) :
    (s.setHost e h).lossLoad = s.lossLoad := by unfold State.setHost; split <;> rfl
@[simp] theorem State.setHost_latches (s : State) (e : Nat) (h : Endpoint) :
    (s.setHost e h).latches = s.latches := by unfold State.setHost; split <;> rfl
@[simp] theorem State.setHost_scopeBars (s : State) (e : Nat) (h : Endpoint) :
    (s.setHost e h).scopeBars = s.scopeBars := by unfold State.setHost; split <;> rfl
@[simp] theorem State.setHost_colls (s : State) (e : Nat) (h : Endpoint) :
    (s.setHost e h).colls = s.colls := by unfold State.setHost; split <;> rfl
@[simp] theorem State.setHost_chainSeq (s : State) (e : Nat) (h : Endpoint) :
    (s.setHost e h).chainSeq = s.chainSeq := by unfold State.setHost; split <;> rfl
@[simp] theorem State.setHost_rings (s : State) (e : Nat) (h : Endpoint) :
    (s.setHost e h).rings = s.rings := by unfold State.setHost; split <;> rfl
@[simp] theorem State.setHost_ringTags (s : State) (e : Nat) (h : Endpoint) :
    (s.setHost e h).ringTags = s.ringTags := by unfold State.setHost; split <;> rfl
@[simp] theorem State.setHost_flits (s : State) (e : Nat) (h : Endpoint) :
    (s.setHost e h).flits = s.flits := by unfold State.setHost; split <;> rfl
@[simp] theorem State.setHost_fields (s : State) (e : Nat) (h : Endpoint) :
    (s.setHost e h).fields = s.fields := by unfold State.setHost; split <;> rfl
@[simp] theorem State.setHost_areas (s : State) (e : Nat) (h : Endpoint) :
    (s.setHost e h).areas = s.areas := by unfold State.setHost; split <;> rfl
@[simp] theorem State.setHost_chips (s : State) (e : Nat) (h : Endpoint) :
    (s.setHost e h).chips = s.chips := by unfold State.setHost; split <;> rfl
@[simp] theorem State.setHost_modState (s : State) (e : Nat) (h : Endpoint) :
    (s.setHost e h).modState = s.modState := by unfold State.setHost; split <;> rfl
@[simp] theorem State.setHost_sems (s : State) (e : Nat) (h : Endpoint) :
    (s.setHost e h).sems = s.sems := by unfold State.setHost; split <;> rfl
@[simp] theorem State.setHost_semTie (s : State) (e : Nat) (h : Endpoint) :
    (s.setHost e h).semTie = s.semTie := by unfold State.setHost; split <;> rfl
@[simp] theorem State.setHost_tumbler (s : State) (e : Nat) (h : Endpoint) :
    (s.setHost e h).tumbler = s.tumbler := by unfold State.setHost; split <;> rfl
@[simp] theorem State.setHost_cyc (s : State) (e : Nat) (h : Endpoint) :
    (s.setHost e h).cyc = s.cyc := by unfold State.setHost; split <;> rfl
@[simp] theorem State.setHost_ref (s : State) (e : Nat) (h : Endpoint) :
    (s.setHost e h).ref = s.ref := by unfold State.setHost; split <;> rfl
@[simp] theorem State.setHost_free (s : State) (e : Nat) (h : Endpoint) :
    (s.setHost e h).free = s.free := by unfold State.setHost; split <;> rfl
@[simp] theorem State.setHost_stint (s : State) (e : Nat) (h : Endpoint) :
    (s.setHost e h).stint = s.stint := by unfold State.setHost; split <;> rfl
@[simp] theorem State.setHost_agenda (s : State) (e : Nat) (h : Endpoint) :
    (s.setHost e h).agenda = s.agenda := by unfold State.setHost; split <;> rfl

/-! ### clock, advance, retire -/

/-- What the issue of an instruction may change (spec/08 R154, R159). -/
theorem State.clock_eq (s : State) (h : Head) :
    s.clock h = { s with
      cyc := (s.clock h).cyc, free := (s.clock h).free
      core := { s.core with
        timed := (s.clock h).core.timed, mark := (s.clock h).core.mark, pmark := (s.clock h).core.pmark
        sys := { s.core.sys with
          markpc := (s.clock h).core.sys.markpc, markcyc := (s.clock h).core.sys.markcyc
          pmarkpc := (s.clock h).core.sys.pmarkpc, pmarkcyc := (s.clock h).core.sys.pmarkcyc } } } := by
  simp only [State.clock]; split
  · split
    · unfold State.recordMark; split <;> rfl
    · rfl
  · rfl

/-- What completion in sequence may change: the program counter and the repetition state (spec/02 R47, R48). -/
theorem State.advance_eq (s : State) :
    s.advance = { s with core := { s.core with
      pc := s.advance.core.pc, sys := { s.core.sys with repst := s.advance.core.sys.repst } } } := by
  simp only [State.advance]; (repeat' split) <;> rfl

/-- What the retirement of an instruction may change. -/
theorem State.retire_eq (s : State) :
    s.retire = { s with core := { s.core with
      wait := .none, wake := none, arrived := false, pc := s.retire.core.pc, sys := { s.core.sys with repst := s.retire.core.sys.repst } } } :=
  State.advance_eq _

@[simp] theorem State.clock_others (s : State) (h : Head) :
    (s.clock h).others = s.others := (congrArg State.others (State.clock_eq s h) :)
@[simp] theorem State.advance_others (s : State) :
    s.advance.others = s.others := (congrArg State.others (State.advance_eq s) :)
@[simp] theorem State.retire_others (s : State) :
    s.retire.others = s.others := (congrArg State.others (State.retire_eq s) :)
@[simp] theorem State.clock_mem (s : State) (h : Head) :
    (s.clock h).mem = s.mem := (congrArg State.mem (State.clock_eq s h) :)
@[simp] theorem State.advance_mem (s : State) : s.advance.mem = s.mem := (congrArg State.mem (State.advance_eq s) :)
@[simp] theorem State.retire_mem (s : State) : s.retire.mem = s.mem := (congrArg State.mem (State.retire_eq s) :)
@[simp] theorem State.clock_poison (s : State) (h : Head) :
    (s.clock h).poison = s.poison := (congrArg State.poison (State.clock_eq s h) :)
@[simp] theorem State.advance_poison (s : State) :
    s.advance.poison = s.poison := (congrArg State.poison (State.advance_eq s) :)
@[simp] theorem State.retire_poison (s : State) :
    s.retire.poison = s.poison := (congrArg State.poison (State.retire_eq s) :)
@[simp] theorem State.clock_podMem (s : State) (h : Head) :
    (s.clock h).podMem = s.podMem := (congrArg State.podMem (State.clock_eq s h) :)
@[simp] theorem State.advance_podMem (s : State) :
    s.advance.podMem = s.podMem := (congrArg State.podMem (State.advance_eq s) :)
@[simp] theorem State.retire_podMem (s : State) :
    s.retire.podMem = s.podMem := (congrArg State.podMem (State.retire_eq s) :)
@[simp] theorem State.clock_hostMem (s : State) (h : Head) :
    (s.clock h).hostMem = s.hostMem := (congrArg State.hostMem (State.clock_eq s h) :)
@[simp] theorem State.advance_hostMem (s : State) :
    s.advance.hostMem = s.hostMem := (congrArg State.hostMem (State.advance_eq s) :)
@[simp] theorem State.retire_hostMem (s : State) :
    s.retire.hostMem = s.hostMem := (congrArg State.hostMem (State.retire_eq s) :)
@[simp] theorem State.clock_cxlMem (s : State) (h : Head) :
    (s.clock h).cxlMem = s.cxlMem := (congrArg State.cxlMem (State.clock_eq s h) :)
@[simp] theorem State.advance_cxlMem (s : State) :
    s.advance.cxlMem = s.cxlMem := (congrArg State.cxlMem (State.advance_eq s) :)
@[simp] theorem State.retire_cxlMem (s : State) :
    s.retire.cxlMem = s.cxlMem := (congrArg State.cxlMem (State.retire_eq s) :)
@[simp] theorem State.clock_race (s : State) (h : Head) :
    (s.clock h).race = s.race := (congrArg State.race (State.clock_eq s h) :)
@[simp] theorem State.advance_race (s : State) :
    s.advance.race = s.race := (congrArg State.race (State.advance_eq s) :)
@[simp] theorem State.retire_race (s : State) : s.retire.race = s.race := (congrArg State.race (State.retire_eq s) :)
@[simp] theorem State.clock_gens (s : State) (h : Head) :
    (s.clock h).gens = s.gens := (congrArg State.gens (State.clock_eq s h) :)
@[simp] theorem State.advance_gens (s : State) :
    s.advance.gens = s.gens := (congrArg State.gens (State.advance_eq s) :)
@[simp] theorem State.retire_gens (s : State) : s.retire.gens = s.gens := (congrArg State.gens (State.retire_eq s) :)
@[simp] theorem State.clock_norep (s : State) (h : Head) :
    (s.clock h).norep = s.norep := (congrArg State.norep (State.clock_eq s h) :)
@[simp] theorem State.advance_norep (s : State) :
    s.advance.norep = s.norep := (congrArg State.norep (State.advance_eq s) :)
@[simp] theorem State.retire_norep (s : State) :
    s.retire.norep = s.norep := (congrArg State.norep (State.retire_eq s) :)
@[simp] theorem State.clock_replicas (s : State) (h : Head) :
    (s.clock h).replicas = s.replicas := (congrArg State.replicas (State.clock_eq s h) :)
@[simp] theorem State.advance_replicas (s : State) :
    s.advance.replicas = s.replicas := (congrArg State.replicas (State.advance_eq s) :)
@[simp] theorem State.retire_replicas (s : State) :
    s.retire.replicas = s.replicas := (congrArg State.replicas (State.retire_eq s) :)
@[simp] theorem State.clock_tlb (s : State) (h : Head) :
    (s.clock h).tlb = s.tlb := (congrArg State.tlb (State.clock_eq s h) :)
@[simp] theorem State.advance_tlb (s : State) : s.advance.tlb = s.tlb := (congrArg State.tlb (State.advance_eq s) :)
@[simp] theorem State.retire_tlb (s : State) : s.retire.tlb = s.tlb := (congrArg State.tlb (State.retire_eq s) :)
@[simp] theorem State.clock_leases (s : State) (h : Head) :
    (s.clock h).leases = s.leases := (congrArg State.leases (State.clock_eq s h) :)
@[simp] theorem State.advance_leases (s : State) :
    s.advance.leases = s.leases := (congrArg State.leases (State.advance_eq s) :)
@[simp] theorem State.retire_leases (s : State) :
    s.retire.leases = s.leases := (congrArg State.leases (State.retire_eq s) :)
@[simp] theorem State.clock_leaseSerial (s : State) (h : Head) :
    (s.clock h).leaseSerial = s.leaseSerial := (congrArg State.leaseSerial (State.clock_eq s h) :)
@[simp] theorem State.advance_leaseSerial (s : State) :
    s.advance.leaseSerial = s.leaseSerial := (congrArg State.leaseSerial (State.advance_eq s) :)
@[simp] theorem State.retire_leaseSerial (s : State) :
    s.retire.leaseSerial = s.leaseSerial := (congrArg State.leaseSerial (State.retire_eq s) :)
@[simp] theorem State.clock_echo (s : State) (h : Head) :
    (s.clock h).echo = s.echo := (congrArg State.echo (State.clock_eq s h) :)
@[simp] theorem State.advance_echo (s : State) :
    s.advance.echo = s.echo := (congrArg State.echo (State.advance_eq s) :)
@[simp] theorem State.retire_echo (s : State) : s.retire.echo = s.echo := (congrArg State.echo (State.retire_eq s) :)
@[simp] theorem State.clock_lossNext (s : State) (h : Head) :
    (s.clock h).lossNext = s.lossNext := (congrArg State.lossNext (State.clock_eq s h) :)
@[simp] theorem State.advance_lossNext (s : State) :
    s.advance.lossNext = s.lossNext := (congrArg State.lossNext (State.advance_eq s) :)
@[simp] theorem State.retire_lossNext (s : State) :
    s.retire.lossNext = s.lossNext := (congrArg State.lossNext (State.retire_eq s) :)
@[simp] theorem State.clock_lossLoad (s : State) (h : Head) :
    (s.clock h).lossLoad = s.lossLoad := (congrArg State.lossLoad (State.clock_eq s h) :)
@[simp] theorem State.advance_lossLoad (s : State) :
    s.advance.lossLoad = s.lossLoad := (congrArg State.lossLoad (State.advance_eq s) :)
@[simp] theorem State.retire_lossLoad (s : State) :
    s.retire.lossLoad = s.lossLoad := (congrArg State.lossLoad (State.retire_eq s) :)
@[simp] theorem State.clock_latches (s : State) (h : Head) :
    (s.clock h).latches = s.latches := (congrArg State.latches (State.clock_eq s h) :)
@[simp] theorem State.advance_latches (s : State) :
    s.advance.latches = s.latches := (congrArg State.latches (State.advance_eq s) :)
@[simp] theorem State.retire_latches (s : State) :
    s.retire.latches = s.latches := (congrArg State.latches (State.retire_eq s) :)
@[simp] theorem State.clock_scopeBars (s : State) (h : Head) :
    (s.clock h).scopeBars = s.scopeBars := (congrArg State.scopeBars (State.clock_eq s h) :)
@[simp] theorem State.advance_scopeBars (s : State) :
    s.advance.scopeBars = s.scopeBars := (congrArg State.scopeBars (State.advance_eq s) :)
@[simp] theorem State.retire_scopeBars (s : State) :
    s.retire.scopeBars = s.scopeBars := (congrArg State.scopeBars (State.retire_eq s) :)
@[simp] theorem State.clock_colls (s : State) (h : Head) :
    (s.clock h).colls = s.colls := (congrArg State.colls (State.clock_eq s h) :)
@[simp] theorem State.advance_colls (s : State) :
    s.advance.colls = s.colls := (congrArg State.colls (State.advance_eq s) :)
@[simp] theorem State.retire_colls (s : State) :
    s.retire.colls = s.colls := (congrArg State.colls (State.retire_eq s) :)
@[simp] theorem State.clock_chainSeq (s : State) (h : Head) :
    (s.clock h).chainSeq = s.chainSeq := (congrArg State.chainSeq (State.clock_eq s h) :)
@[simp] theorem State.advance_chainSeq (s : State) :
    s.advance.chainSeq = s.chainSeq := (congrArg State.chainSeq (State.advance_eq s) :)
@[simp] theorem State.retire_chainSeq (s : State) :
    s.retire.chainSeq = s.chainSeq := (congrArg State.chainSeq (State.retire_eq s) :)
@[simp] theorem State.clock_rings (s : State) (h : Head) :
    (s.clock h).rings = s.rings := (congrArg State.rings (State.clock_eq s h) :)
@[simp] theorem State.advance_rings (s : State) :
    s.advance.rings = s.rings := (congrArg State.rings (State.advance_eq s) :)
@[simp] theorem State.retire_rings (s : State) :
    s.retire.rings = s.rings := (congrArg State.rings (State.retire_eq s) :)
@[simp] theorem State.clock_ringTags (s : State) (h : Head) :
    (s.clock h).ringTags = s.ringTags := (congrArg State.ringTags (State.clock_eq s h) :)
@[simp] theorem State.advance_ringTags (s : State) :
    s.advance.ringTags = s.ringTags := (congrArg State.ringTags (State.advance_eq s) :)
@[simp] theorem State.retire_ringTags (s : State) :
    s.retire.ringTags = s.ringTags := (congrArg State.ringTags (State.retire_eq s) :)
@[simp] theorem State.clock_flits (s : State) (h : Head) :
    (s.clock h).flits = s.flits := (congrArg State.flits (State.clock_eq s h) :)
@[simp] theorem State.advance_flits (s : State) :
    s.advance.flits = s.flits := (congrArg State.flits (State.advance_eq s) :)
@[simp] theorem State.retire_flits (s : State) :
    s.retire.flits = s.flits := (congrArg State.flits (State.retire_eq s) :)
@[simp] theorem State.clock_fields (s : State) (h : Head) :
    (s.clock h).fields = s.fields := (congrArg State.fields (State.clock_eq s h) :)
@[simp] theorem State.advance_fields (s : State) :
    s.advance.fields = s.fields := (congrArg State.fields (State.advance_eq s) :)
@[simp] theorem State.retire_fields (s : State) :
    s.retire.fields = s.fields := (congrArg State.fields (State.retire_eq s) :)
@[simp] theorem State.clock_areas (s : State) (h : Head) :
    (s.clock h).areas = s.areas := (congrArg State.areas (State.clock_eq s h) :)
@[simp] theorem State.advance_areas (s : State) :
    s.advance.areas = s.areas := (congrArg State.areas (State.advance_eq s) :)
@[simp] theorem State.retire_areas (s : State) :
    s.retire.areas = s.areas := (congrArg State.areas (State.retire_eq s) :)
@[simp] theorem State.clock_chips (s : State) (h : Head) :
    (s.clock h).chips = s.chips := (congrArg State.chips (State.clock_eq s h) :)
@[simp] theorem State.advance_chips (s : State) :
    s.advance.chips = s.chips := (congrArg State.chips (State.advance_eq s) :)
@[simp] theorem State.retire_chips (s : State) :
    s.retire.chips = s.chips := (congrArg State.chips (State.retire_eq s) :)
@[simp] theorem State.clock_modState (s : State) (h : Head) :
    (s.clock h).modState = s.modState := (congrArg State.modState (State.clock_eq s h) :)
@[simp] theorem State.advance_modState (s : State) :
    s.advance.modState = s.modState := (congrArg State.modState (State.advance_eq s) :)
@[simp] theorem State.retire_modState (s : State) :
    s.retire.modState = s.modState := (congrArg State.modState (State.retire_eq s) :)
@[simp] theorem State.clock_hosts (s : State) (h : Head) :
    (s.clock h).hosts = s.hosts := (congrArg State.hosts (State.clock_eq s h) :)
@[simp] theorem State.advance_hosts (s : State) :
    s.advance.hosts = s.hosts := (congrArg State.hosts (State.advance_eq s) :)
@[simp] theorem State.retire_hosts (s : State) :
    s.retire.hosts = s.hosts := (congrArg State.hosts (State.retire_eq s) :)
@[simp] theorem State.clock_sems (s : State) (h : Head) :
    (s.clock h).sems = s.sems := (congrArg State.sems (State.clock_eq s h) :)
@[simp] theorem State.advance_sems (s : State) :
    s.advance.sems = s.sems := (congrArg State.sems (State.advance_eq s) :)
@[simp] theorem State.retire_sems (s : State) : s.retire.sems = s.sems := (congrArg State.sems (State.retire_eq s) :)
@[simp] theorem State.clock_semTie (s : State) (h : Head) :
    (s.clock h).semTie = s.semTie := (congrArg State.semTie (State.clock_eq s h) :)
@[simp] theorem State.advance_semTie (s : State) :
    s.advance.semTie = s.semTie := (congrArg State.semTie (State.advance_eq s) :)
@[simp] theorem State.retire_semTie (s : State) :
    s.retire.semTie = s.semTie := (congrArg State.semTie (State.retire_eq s) :)
@[simp] theorem State.clock_tumbler (s : State) (h : Head) :
    (s.clock h).tumbler = s.tumbler := (congrArg State.tumbler (State.clock_eq s h) :)
@[simp] theorem State.advance_tumbler (s : State) :
    s.advance.tumbler = s.tumbler := (congrArg State.tumbler (State.advance_eq s) :)
@[simp] theorem State.retire_tumbler (s : State) :
    s.retire.tumbler = s.tumbler := (congrArg State.tumbler (State.retire_eq s) :)
@[simp] theorem State.advance_cyc (s : State) : s.advance.cyc = s.cyc := (congrArg State.cyc (State.advance_eq s) :)
@[simp] theorem State.retire_cyc (s : State) : s.retire.cyc = s.cyc := (congrArg State.cyc (State.retire_eq s) :)
@[simp] theorem State.clock_ref (s : State) (h : Head) :
    (s.clock h).ref = s.ref := (congrArg State.ref (State.clock_eq s h) :)
@[simp] theorem State.advance_ref (s : State) : s.advance.ref = s.ref := (congrArg State.ref (State.advance_eq s) :)
@[simp] theorem State.retire_ref (s : State) : s.retire.ref = s.ref := (congrArg State.ref (State.retire_eq s) :)
@[simp] theorem State.advance_free (s : State) :
    s.advance.free = s.free := (congrArg State.free (State.advance_eq s) :)
@[simp] theorem State.retire_free (s : State) : s.retire.free = s.free := (congrArg State.free (State.retire_eq s) :)
@[simp] theorem State.clock_stint (s : State) (h : Head) :
    (s.clock h).stint = s.stint := (congrArg State.stint (State.clock_eq s h) :)
@[simp] theorem State.advance_stint (s : State) :
    s.advance.stint = s.stint := (congrArg State.stint (State.advance_eq s) :)
@[simp] theorem State.retire_stint (s : State) :
    s.retire.stint = s.stint := (congrArg State.stint (State.retire_eq s) :)
@[simp] theorem State.clock_agenda (s : State) (h : Head) :
    (s.clock h).agenda = s.agenda := (congrArg State.agenda (State.clock_eq s h) :)
@[simp] theorem State.advance_agenda (s : State) :
    s.advance.agenda = s.agenda := (congrArg State.agenda (State.advance_eq s) :)
@[simp] theorem State.retire_agenda (s : State) :
    s.retire.agenda = s.agenda := (congrArg State.agenda (State.retire_eq s) :)
@[simp] theorem State.clock_core_die (s : State) (h : Head) :
    (s.clock h).core.die = s.core.die := (congrArg (fun (t : State) => t.core.die) (State.clock_eq s h) :)
@[simp] theorem State.advance_core_die (s : State) :
    s.advance.core.die = s.core.die := (congrArg (fun (t : State) => t.core.die) (State.advance_eq s) :)
@[simp] theorem State.retire_core_die (s : State) :
    s.retire.core.die = s.core.die := (congrArg (fun (t : State) => t.core.die) (State.retire_eq s) :)
@[simp] theorem State.clock_core_num (s : State) (h : Head) :
    (s.clock h).core.num = s.core.num := (congrArg (fun (t : State) => t.core.num) (State.clock_eq s h) :)
@[simp] theorem State.advance_core_num (s : State) :
    s.advance.core.num = s.core.num := (congrArg (fun (t : State) => t.core.num) (State.advance_eq s) :)
@[simp] theorem State.retire_core_num (s : State) :
    s.retire.core.num = s.core.num := (congrArg (fun (t : State) => t.core.num) (State.retire_eq s) :)
@[simp] theorem State.clock_core_lcn (s : State) (h : Head) :
    (s.clock h).core.lcn = s.core.lcn := (congrArg (fun (t : State) => t.core.lcn) (State.clock_eq s h) :)
@[simp] theorem State.advance_core_lcn (s : State) :
    s.advance.core.lcn = s.core.lcn := (congrArg (fun (t : State) => t.core.lcn) (State.advance_eq s) :)
@[simp] theorem State.retire_core_lcn (s : State) :
    s.retire.core.lcn = s.core.lcn := (congrArg (fun (t : State) => t.core.lcn) (State.retire_eq s) :)
@[simp] theorem State.clock_core_fcn (s : State) (h : Head) :
    (s.clock h).core.fcn = s.core.fcn := (congrArg (fun (t : State) => t.core.fcn) (State.clock_eq s h) :)
@[simp] theorem State.advance_core_fcn (s : State) :
    s.advance.core.fcn = s.core.fcn := (congrArg (fun (t : State) => t.core.fcn) (State.advance_eq s) :)
@[simp] theorem State.retire_core_fcn (s : State) :
    s.retire.core.fcn = s.core.fcn := (congrArg (fun (t : State) => t.core.fcn) (State.retire_eq s) :)
@[simp] theorem State.clock_core_rank (s : State) (h : Head) :
    (s.clock h).core.rank = s.core.rank := (congrArg (fun (t : State) => t.core.rank) (State.clock_eq s h) :)
@[simp] theorem State.advance_core_rank (s : State) :
    s.advance.core.rank = s.core.rank := (congrArg (fun (t : State) => t.core.rank) (State.advance_eq s) :)
@[simp] theorem State.retire_core_rank (s : State) :
    s.retire.core.rank = s.core.rank := (congrArg (fun (t : State) => t.core.rank) (State.retire_eq s) :)
@[simp] theorem State.clock_core_memc (s : State) (h : Head) :
    (s.clock h).core.memc = s.core.memc := (congrArg (fun (t : State) => t.core.memc) (State.clock_eq s h) :)
@[simp] theorem State.advance_core_memc (s : State) :
    s.advance.core.memc = s.core.memc := (congrArg (fun (t : State) => t.core.memc) (State.advance_eq s) :)
@[simp] theorem State.retire_core_memc (s : State) :
    s.retire.core.memc = s.core.memc := (congrArg (fun (t : State) => t.core.memc) (State.retire_eq s) :)
@[simp] theorem State.clock_core_field (s : State) (h : Head) :
    (s.clock h).core.field = s.core.field := (congrArg (fun (t : State) => t.core.field) (State.clock_eq s h) :)
@[simp] theorem State.advance_core_field (s : State) :
    s.advance.core.field = s.core.field := (congrArg (fun (t : State) => t.core.field) (State.advance_eq s) :)
@[simp] theorem State.retire_core_field (s : State) :
    s.retire.core.field = s.core.field := (congrArg (fun (t : State) => t.core.field) (State.retire_eq s) :)
@[simp] theorem State.clock_core_run (s : State) (h : Head) :
    (s.clock h).core.run = s.core.run := (congrArg (fun (t : State) => t.core.run) (State.clock_eq s h) :)
@[simp] theorem State.advance_core_run (s : State) :
    s.advance.core.run = s.core.run := (congrArg (fun (t : State) => t.core.run) (State.advance_eq s) :)
@[simp] theorem State.retire_core_run (s : State) :
    s.retire.core.run = s.core.run := (congrArg (fun (t : State) => t.core.run) (State.retire_eq s) :)
@[simp] theorem State.clock_core_pc (s : State) (h : Head) :
    (s.clock h).core.pc = s.core.pc := (congrArg (fun (t : State) => t.core.pc) (State.clock_eq s h) :)
@[simp] theorem State.clock_core_fbase (s : State) (h : Head) :
    (s.clock h).core.fbase = s.core.fbase := (congrArg (fun (t : State) => t.core.fbase) (State.clock_eq s h) :)
@[simp] theorem State.advance_core_fbase (s : State) :
    s.advance.core.fbase = s.core.fbase := (congrArg (fun (t : State) => t.core.fbase) (State.advance_eq s) :)
@[simp] theorem State.retire_core_fbase (s : State) :
    s.retire.core.fbase = s.core.fbase := (congrArg (fun (t : State) => t.core.fbase) (State.retire_eq s) :)
@[simp] theorem State.clock_core_regs (s : State) (h : Head) :
    (s.clock h).core.regs = s.core.regs := (congrArg (fun (t : State) => t.core.regs) (State.clock_eq s h) :)
@[simp] theorem State.advance_core_regs (s : State) :
    s.advance.core.regs = s.core.regs := (congrArg (fun (t : State) => t.core.regs) (State.advance_eq s) :)
@[simp] theorem State.retire_core_regs (s : State) :
    s.retire.core.regs = s.core.regs := (congrArg (fun (t : State) => t.core.regs) (State.retire_eq s) :)
@[simp] theorem State.clock_core_preds (s : State) (h : Head) :
    (s.clock h).core.preds = s.core.preds := (congrArg (fun (t : State) => t.core.preds) (State.clock_eq s h) :)
@[simp] theorem State.advance_core_preds (s : State) :
    s.advance.core.preds = s.core.preds := (congrArg (fun (t : State) => t.core.preds) (State.advance_eq s) :)
@[simp] theorem State.retire_core_preds (s : State) :
    s.retire.core.preds = s.core.preds := (congrArg (fun (t : State) => t.core.preds) (State.retire_eq s) :)
@[simp] theorem State.clock_core_q (s : State) (h : Head) :
    (s.clock h).core.q = s.core.q := (congrArg (fun (t : State) => t.core.q) (State.clock_eq s h) :)
@[simp] theorem State.advance_core_q (s : State) :
    s.advance.core.q = s.core.q := (congrArg (fun (t : State) => t.core.q) (State.advance_eq s) :)
@[simp] theorem State.retire_core_q (s : State) :
    s.retire.core.q = s.core.q := (congrArg (fun (t : State) => t.core.q) (State.retire_eq s) :)
@[simp] theorem State.clock_core_pushes (s : State) (h : Head) :
    (s.clock h).core.pushes = s.core.pushes := (congrArg (fun (t : State) => t.core.pushes) (State.clock_eq s h) :)
@[simp] theorem State.advance_core_pushes (s : State) :
    s.advance.core.pushes = s.core.pushes := (congrArg (fun (t : State) => t.core.pushes) (State.advance_eq s) :)
@[simp] theorem State.retire_core_pushes (s : State) :
    s.retire.core.pushes = s.core.pushes := (congrArg (fun (t : State) => t.core.pushes) (State.retire_eq s) :)
@[simp] theorem State.clock_core_owed (s : State) (h : Head) :
    (s.clock h).core.owed = s.core.owed := (congrArg (fun (t : State) => t.core.owed) (State.clock_eq s h) :)
@[simp] theorem State.advance_core_owed (s : State) :
    s.advance.core.owed = s.core.owed := (congrArg (fun (t : State) => t.core.owed) (State.advance_eq s) :)
@[simp] theorem State.retire_core_owed (s : State) :
    s.retire.core.owed = s.core.owed := (congrArg (fun (t : State) => t.core.owed) (State.retire_eq s) :)
@[simp] theorem State.clock_core_tiles (s : State) (h : Head) :
    (s.clock h).core.tiles = s.core.tiles := (congrArg (fun (t : State) => t.core.tiles) (State.clock_eq s h) :)
@[simp] theorem State.advance_core_tiles (s : State) :
    s.advance.core.tiles = s.core.tiles := (congrArg (fun (t : State) => t.core.tiles) (State.advance_eq s) :)
@[simp] theorem State.retire_core_tiles (s : State) :
    s.retire.core.tiles = s.core.tiles := (congrArg (fun (t : State) => t.core.tiles) (State.retire_eq s) :)
@[simp] theorem State.clock_core_bfmt (s : State) (h : Head) :
    (s.clock h).core.bfmt = s.core.bfmt := (congrArg (fun (t : State) => t.core.bfmt) (State.clock_eq s h) :)
@[simp] theorem State.advance_core_bfmt (s : State) :
    s.advance.core.bfmt = s.core.bfmt := (congrArg (fun (t : State) => t.core.bfmt) (State.advance_eq s) :)
@[simp] theorem State.retire_core_bfmt (s : State) :
    s.retire.core.bfmt = s.core.bfmt := (congrArg (fun (t : State) => t.core.bfmt) (State.retire_eq s) :)
@[simp] theorem State.clock_core_ls (s : State) (h : Head) :
    (s.clock h).core.ls = s.core.ls := (congrArg (fun (t : State) => t.core.ls) (State.clock_eq s h) :)
@[simp] theorem State.advance_core_ls (s : State) :
    s.advance.core.ls = s.core.ls := (congrArg (fun (t : State) => t.core.ls) (State.advance_eq s) :)
@[simp] theorem State.retire_core_ls (s : State) :
    s.retire.core.ls = s.core.ls := (congrArg (fun (t : State) => t.core.ls) (State.retire_eq s) :)
@[simp] theorem State.clock_core_lsBad (s : State) (h : Head) :
    (s.clock h).core.lsBad = s.core.lsBad := (congrArg (fun (t : State) => t.core.lsBad) (State.clock_eq s h) :)
@[simp] theorem State.advance_core_lsBad (s : State) :
    s.advance.core.lsBad = s.core.lsBad := (congrArg (fun (t : State) => t.core.lsBad) (State.advance_eq s) :)
@[simp] theorem State.retire_core_lsBad (s : State) :
    s.retire.core.lsBad = s.core.lsBad := (congrArg (fun (t : State) => t.core.lsBad) (State.retire_eq s) :)
@[simp] theorem State.clock_core_lsWeak (s : State) (h : Head) :
    (s.clock h).core.lsWeak = s.core.lsWeak := (congrArg (fun (t : State) => t.core.lsWeak) (State.clock_eq s h) :)
@[simp] theorem State.advance_core_lsWeak (s : State) :
    s.advance.core.lsWeak = s.core.lsWeak := (congrArg (fun (t : State) => t.core.lsWeak) (State.advance_eq s) :)
@[simp] theorem State.retire_core_lsWeak (s : State) :
    s.retire.core.lsWeak = s.core.lsWeak := (congrArg (fun (t : State) => t.core.lsWeak) (State.retire_eq s) :)
@[simp] theorem State.clock_core_istore (s : State) (h : Head) :
    (s.clock h).core.istore = s.core.istore := (congrArg (fun (t : State) => t.core.istore) (State.clock_eq s h) :)
@[simp] theorem State.advance_core_istore (s : State) :
    s.advance.core.istore = s.core.istore := (congrArg (fun (t : State) => t.core.istore) (State.advance_eq s) :)
@[simp] theorem State.retire_core_istore (s : State) :
    s.retire.core.istore = s.core.istore := (congrArg (fun (t : State) => t.core.istore) (State.retire_eq s) :)
@[simp] theorem State.clock_core_fetched (s : State) (h : Head) :
    (s.clock h).core.fetched = s.core.fetched := (congrArg (fun (t : State) => t.core.fetched) (State.clock_eq s h) :)
@[simp] theorem State.advance_core_fetched (s : State) :
    s.advance.core.fetched = s.core.fetched := (congrArg (fun (t : State) => t.core.fetched) (State.advance_eq s) :)
@[simp] theorem State.retire_core_fetched (s : State) :
    s.retire.core.fetched = s.core.fetched := (congrArg (fun (t : State) => t.core.fetched) (State.retire_eq s) :)
@[simp] theorem State.clock_core_slots (s : State) (h : Head) :
    (s.clock h).core.slots = s.core.slots := (congrArg (fun (t : State) => t.core.slots) (State.clock_eq s h) :)
@[simp] theorem State.advance_core_slots (s : State) :
    s.advance.core.slots = s.core.slots := (congrArg (fun (t : State) => t.core.slots) (State.advance_eq s) :)
@[simp] theorem State.retire_core_slots (s : State) :
    s.retire.core.slots = s.core.slots := (congrArg (fun (t : State) => t.core.slots) (State.retire_eq s) :)
@[simp] theorem State.clock_core_mq (s : State) (h : Head) :
    (s.clock h).core.mq = s.core.mq := (congrArg (fun (t : State) => t.core.mq) (State.clock_eq s h) :)
@[simp] theorem State.advance_core_mq (s : State) :
    s.advance.core.mq = s.core.mq := (congrArg (fun (t : State) => t.core.mq) (State.advance_eq s) :)
@[simp] theorem State.retire_core_mq (s : State) :
    s.retire.core.mq = s.core.mq := (congrArg (fun (t : State) => t.core.mq) (State.retire_eq s) :)
@[simp] theorem State.clock_core_mqIssued (s : State) (h : Head) :
    (s.clock h).core.mqIssued = s.core.mqIssued := (congrArg (fun (t : State) => t.core.mqIssued) (State.clock_eq s h) :)
@[simp] theorem State.advance_core_mqIssued (s : State) :
    s.advance.core.mqIssued = s.core.mqIssued := (congrArg (fun (t : State) => t.core.mqIssued) (State.advance_eq s) :)
@[simp] theorem State.retire_core_mqIssued (s : State) :
    s.retire.core.mqIssued = s.core.mqIssued := (congrArg (fun (t : State) => t.core.mqIssued) (State.retire_eq s) :)
@[simp] theorem State.clock_core_mqDone (s : State) (h : Head) :
    (s.clock h).core.mqDone = s.core.mqDone := (congrArg (fun (t : State) => t.core.mqDone) (State.clock_eq s h) :)
@[simp] theorem State.advance_core_mqDone (s : State) :
    s.advance.core.mqDone = s.core.mqDone := (congrArg (fun (t : State) => t.core.mqDone) (State.advance_eq s) :)
@[simp] theorem State.retire_core_mqDone (s : State) :
    s.retire.core.mqDone = s.core.mqDone := (congrArg (fun (t : State) => t.core.mqDone) (State.retire_eq s) :)
@[simp] theorem State.clock_core_streams (s : State) (h : Head) :
    (s.clock h).core.streams = s.core.streams := (congrArg (fun (t : State) => t.core.streams) (State.clock_eq s h) :)
@[simp] theorem State.advance_core_streams (s : State) :
    s.advance.core.streams = s.core.streams := (congrArg (fun (t : State) => t.core.streams) (State.advance_eq s) :)
@[simp] theorem State.retire_core_streams (s : State) :
    s.retire.core.streams = s.core.streams := (congrArg (fun (t : State) => t.core.streams) (State.retire_eq s) :)
@[simp] theorem State.clock_core_xq (s : State) (h : Head) :
    (s.clock h).core.xq = s.core.xq := (congrArg (fun (t : State) => t.core.xq) (State.clock_eq s h) :)
@[simp] theorem State.advance_core_xq (s : State) :
    s.advance.core.xq = s.core.xq := (congrArg (fun (t : State) => t.core.xq) (State.advance_eq s) :)
@[simp] theorem State.retire_core_xq (s : State) :
    s.retire.core.xq = s.core.xq := (congrArg (fun (t : State) => t.core.xq) (State.retire_eq s) :)
@[simp] theorem State.clock_core_xnext (s : State) (h : Head) :
    (s.clock h).core.xnext = s.core.xnext := (congrArg (fun (t : State) => t.core.xnext) (State.clock_eq s h) :)
@[simp] theorem State.advance_core_xnext (s : State) :
    s.advance.core.xnext = s.core.xnext := (congrArg (fun (t : State) => t.core.xnext) (State.advance_eq s) :)
@[simp] theorem State.retire_core_xnext (s : State) :
    s.retire.core.xnext = s.core.xnext := (congrArg (fun (t : State) => t.core.xnext) (State.retire_eq s) :)
@[simp] theorem State.clock_core_gq (s : State) (h : Head) :
    (s.clock h).core.gq = s.core.gq := (congrArg (fun (t : State) => t.core.gq) (State.clock_eq s h) :)
@[simp] theorem State.advance_core_gq (s : State) :
    s.advance.core.gq = s.core.gq := (congrArg (fun (t : State) => t.core.gq) (State.advance_eq s) :)
@[simp] theorem State.retire_core_gq (s : State) :
    s.retire.core.gq = s.core.gq := (congrArg (fun (t : State) => t.core.gq) (State.retire_eq s) :)
@[simp] theorem State.clock_core_gnext (s : State) (h : Head) :
    (s.clock h).core.gnext = s.core.gnext := (congrArg (fun (t : State) => t.core.gnext) (State.clock_eq s h) :)
@[simp] theorem State.advance_core_gnext (s : State) :
    s.advance.core.gnext = s.core.gnext := (congrArg (fun (t : State) => t.core.gnext) (State.advance_eq s) :)
@[simp] theorem State.retire_core_gnext (s : State) :
    s.retire.core.gnext = s.core.gnext := (congrArg (fun (t : State) => t.core.gnext) (State.retire_eq s) :)
@[simp] theorem State.clock_core_xstop (s : State) (h : Head) :
    (s.clock h).core.xstop = s.core.xstop := (congrArg (fun (t : State) => t.core.xstop) (State.clock_eq s h) :)
@[simp] theorem State.advance_core_xstop (s : State) :
    s.advance.core.xstop = s.core.xstop := (congrArg (fun (t : State) => t.core.xstop) (State.advance_eq s) :)
@[simp] theorem State.retire_core_xstop (s : State) :
    s.retire.core.xstop = s.core.xstop := (congrArg (fun (t : State) => t.core.xstop) (State.retire_eq s) :)
@[simp] theorem State.clock_core_joins (s : State) (h : Head) :
    (s.clock h).core.joins = s.core.joins := (congrArg (fun (t : State) => t.core.joins) (State.clock_eq s h) :)
@[simp] theorem State.advance_core_joins (s : State) :
    s.advance.core.joins = s.core.joins := (congrArg (fun (t : State) => t.core.joins) (State.advance_eq s) :)
@[simp] theorem State.retire_core_joins (s : State) :
    s.retire.core.joins = s.core.joins := (congrArg (fun (t : State) => t.core.joins) (State.retire_eq s) :)
@[simp] theorem State.clock_core_gt (s : State) (h : Head) :
    (s.clock h).core.gt = s.core.gt := (congrArg (fun (t : State) => t.core.gt) (State.clock_eq s h) :)
@[simp] theorem State.advance_core_gt (s : State) :
    s.advance.core.gt = s.core.gt := (congrArg (fun (t : State) => t.core.gt) (State.advance_eq s) :)
@[simp] theorem State.retire_core_gt (s : State) :
    s.retire.core.gt = s.core.gt := (congrArg (fun (t : State) => t.core.gt) (State.retire_eq s) :)
@[simp] theorem State.clock_core_stores (s : State) (h : Head) :
    (s.clock h).core.stores = s.core.stores := (congrArg (fun (t : State) => t.core.stores) (State.clock_eq s h) :)
@[simp] theorem State.advance_core_stores (s : State) :
    s.advance.core.stores = s.core.stores := (congrArg (fun (t : State) => t.core.stores) (State.advance_eq s) :)
@[simp] theorem State.retire_core_stores (s : State) :
    s.retire.core.stores = s.core.stores := (congrArg (fun (t : State) => t.core.stores) (State.retire_eq s) :)
@[simp] theorem State.clock_core_acks (s : State) (h : Head) :
    (s.clock h).core.acks = s.core.acks := (congrArg (fun (t : State) => t.core.acks) (State.clock_eq s h) :)
@[simp] theorem State.advance_core_acks (s : State) :
    s.advance.core.acks = s.core.acks := (congrArg (fun (t : State) => t.core.acks) (State.advance_eq s) :)
@[simp] theorem State.retire_core_acks (s : State) :
    s.retire.core.acks = s.core.acks := (congrArg (fun (t : State) => t.core.acks) (State.retire_eq s) :)
@[simp] theorem State.clock_core_deferred (s : State) (h : Head) :
    (s.clock h).core.deferred = s.core.deferred := (congrArg (fun (t : State) => t.core.deferred) (State.clock_eq s h) :)
@[simp] theorem State.advance_core_deferred (s : State) :
    s.advance.core.deferred = s.core.deferred := (congrArg (fun (t : State) => t.core.deferred) (State.advance_eq s) :)
@[simp] theorem State.retire_core_deferred (s : State) :
    s.retire.core.deferred = s.core.deferred := (congrArg (fun (t : State) => t.core.deferred) (State.retire_eq s) :)
@[simp] theorem State.clock_core_abortPend (s : State) (h : Head) :
    (s.clock h).core.abortPend = s.core.abortPend := (congrArg (fun (t : State) => t.core.abortPend) (State.clock_eq s h) :)
@[simp] theorem State.advance_core_abortPend (s : State) :
    s.advance.core.abortPend = s.core.abortPend := (congrArg (fun (t : State) => t.core.abortPend) (State.advance_eq s) :)
@[simp] theorem State.retire_core_abortPend (s : State) :
    s.retire.core.abortPend = s.core.abortPend := (congrArg (fun (t : State) => t.core.abortPend) (State.retire_eq s) :)
@[simp] theorem State.clock_core_abortRaise (s : State) (h : Head) :
    (s.clock h).core.abortRaise = s.core.abortRaise := (congrArg (fun (t : State) => t.core.abortRaise) (State.clock_eq s h) :)
@[simp] theorem State.advance_core_abortRaise (s : State) :
    s.advance.core.abortRaise = s.core.abortRaise := (congrArg (fun (t : State) => t.core.abortRaise) (State.advance_eq s) :)
@[simp] theorem State.retire_core_abortRaise (s : State) :
    s.retire.core.abortRaise = s.core.abortRaise := (congrArg (fun (t : State) => t.core.abortRaise) (State.retire_eq s) :)
@[simp] theorem State.clock_core_preemptPend (s : State) (h : Head) :
    (s.clock h).core.preemptPend = s.core.preemptPend := (congrArg (fun (t : State) => t.core.preemptPend) (State.clock_eq s h) :)
@[simp] theorem State.advance_core_preemptPend (s : State) :
    s.advance.core.preemptPend = s.core.preemptPend := (congrArg (fun (t : State) => t.core.preemptPend) (State.advance_eq s) :)
@[simp] theorem State.retire_core_preemptPend (s : State) :
    s.retire.core.preemptPend = s.core.preemptPend := (congrArg (fun (t : State) => t.core.preemptPend) (State.retire_eq s) :)
@[simp] theorem State.clock_core_preemptAt (s : State) (h : Head) :
    (s.clock h).core.preemptAt = s.core.preemptAt := (congrArg (fun (t : State) => t.core.preemptAt) (State.clock_eq s h) :)
@[simp] theorem State.advance_core_preemptAt (s : State) :
    s.advance.core.preemptAt = s.core.preemptAt := (congrArg (fun (t : State) => t.core.preemptAt) (State.advance_eq s) :)
@[simp] theorem State.retire_core_preemptAt (s : State) :
    s.retire.core.preemptAt = s.core.preemptAt := (congrArg (fun (t : State) => t.core.preemptAt) (State.retire_eq s) :)
@[simp] theorem State.clock_core_hold (s : State) (h : Head) :
    (s.clock h).core.hold = s.core.hold := (congrArg (fun (t : State) => t.core.hold) (State.clock_eq s h) :)
@[simp] theorem State.advance_core_hold (s : State) :
    s.advance.core.hold = s.core.hold := (congrArg (fun (t : State) => t.core.hold) (State.advance_eq s) :)
@[simp] theorem State.retire_core_hold (s : State) :
    s.retire.core.hold = s.core.hold := (congrArg (fun (t : State) => t.core.hold) (State.retire_eq s) :)
@[simp] theorem State.clock_core_wait (s : State) (h : Head) :
    (s.clock h).core.wait = s.core.wait := (congrArg (fun (t : State) => t.core.wait) (State.clock_eq s h) :)
@[simp] theorem State.advance_core_wait (s : State) :
    s.advance.core.wait = s.core.wait := (congrArg (fun (t : State) => t.core.wait) (State.advance_eq s) :)
@[simp] theorem State.clock_core_wake (s : State) (h : Head) :
    (s.clock h).core.wake = s.core.wake := (congrArg (fun (t : State) => t.core.wake) (State.clock_eq s h) :)
@[simp] theorem State.advance_core_wake (s : State) :
    s.advance.core.wake = s.core.wake := (congrArg (fun (t : State) => t.core.wake) (State.advance_eq s) :)
@[simp] theorem State.clock_core_arrived (s : State) (h : Head) :
    (s.clock h).core.arrived = s.core.arrived := (congrArg (fun (t : State) => t.core.arrived) (State.clock_eq s h) :)
@[simp] theorem State.advance_core_arrived (s : State) :
    s.advance.core.arrived = s.core.arrived := (congrArg (fun (t : State) => t.core.arrived) (State.advance_eq s) :)
@[simp] theorem State.clock_core_atomSeq (s : State) (h : Head) :
    (s.clock h).core.atomSeq = s.core.atomSeq := (congrArg (fun (t : State) => t.core.atomSeq) (State.clock_eq s h) :)
@[simp] theorem State.advance_core_atomSeq (s : State) :
    s.advance.core.atomSeq = s.core.atomSeq := (congrArg (fun (t : State) => t.core.atomSeq) (State.advance_eq s) :)
@[simp] theorem State.retire_core_atomSeq (s : State) :
    s.retire.core.atomSeq = s.core.atomSeq := (congrArg (fun (t : State) => t.core.atomSeq) (State.retire_eq s) :)
@[simp] theorem State.clock_core_lostPlace (s : State) (h : Head) :
    (s.clock h).core.lostPlace = s.core.lostPlace := (congrArg (fun (t : State) => t.core.lostPlace) (State.clock_eq s h) :)
@[simp] theorem State.advance_core_lostPlace (s : State) :
    s.advance.core.lostPlace = s.core.lostPlace := (congrArg (fun (t : State) => t.core.lostPlace) (State.advance_eq s) :)
@[simp] theorem State.retire_core_lostPlace (s : State) :
    s.retire.core.lostPlace = s.core.lostPlace := (congrArg (fun (t : State) => t.core.lostPlace) (State.retire_eq s) :)
@[simp] theorem State.clock_core_tredCause (s : State) (h : Head) :
    (s.clock h).core.tredCause = s.core.tredCause := (congrArg (fun (t : State) => t.core.tredCause) (State.clock_eq s h) :)
@[simp] theorem State.advance_core_tredCause (s : State) :
    s.advance.core.tredCause = s.core.tredCause := (congrArg (fun (t : State) => t.core.tredCause) (State.advance_eq s) :)
@[simp] theorem State.retire_core_tredCause (s : State) :
    s.retire.core.tredCause = s.core.tredCause := (congrArg (fun (t : State) => t.core.tredCause) (State.retire_eq s) :)
@[simp] theorem State.clock_core_colls (s : State) (h : Head) :
    (s.clock h).core.colls = s.core.colls := (congrArg (fun (t : State) => t.core.colls) (State.clock_eq s h) :)
@[simp] theorem State.advance_core_colls (s : State) :
    s.advance.core.colls = s.core.colls := (congrArg (fun (t : State) => t.core.colls) (State.advance_eq s) :)
@[simp] theorem State.retire_core_colls (s : State) :
    s.retire.core.colls = s.core.colls := (congrArg (fun (t : State) => t.core.colls) (State.retire_eq s) :)
@[simp] theorem State.clock_core_cqin (s : State) (h : Head) :
    (s.clock h).core.cqin = s.core.cqin := (congrArg (fun (t : State) => t.core.cqin) (State.clock_eq s h) :)
@[simp] theorem State.advance_core_cqin (s : State) :
    s.advance.core.cqin = s.core.cqin := (congrArg (fun (t : State) => t.core.cqin) (State.advance_eq s) :)
@[simp] theorem State.retire_core_cqin (s : State) :
    s.retire.core.cqin = s.core.cqin := (congrArg (fun (t : State) => t.core.cqin) (State.retire_eq s) :)
@[simp] theorem State.clock_core_chunk (s : State) (h : Head) :
    (s.clock h).core.chunk = s.core.chunk := (congrArg (fun (t : State) => t.core.chunk) (State.clock_eq s h) :)
@[simp] theorem State.advance_core_chunk (s : State) :
    s.advance.core.chunk = s.core.chunk := (congrArg (fun (t : State) => t.core.chunk) (State.advance_eq s) :)
@[simp] theorem State.retire_core_chunk (s : State) :
    s.retire.core.chunk = s.core.chunk := (congrArg (fun (t : State) => t.core.chunk) (State.retire_eq s) :)
@[simp] theorem State.clock_core_card (s : State) (h : Head) :
    (s.clock h).core.card = s.core.card := (congrArg (fun (t : State) => t.core.card) (State.clock_eq s h) :)
@[simp] theorem State.advance_core_card (s : State) :
    s.advance.core.card = s.core.card := (congrArg (fun (t : State) => t.core.card) (State.advance_eq s) :)
@[simp] theorem State.retire_core_card (s : State) :
    s.retire.core.card = s.core.card := (congrArg (fun (t : State) => t.core.card) (State.retire_eq s) :)
@[simp] theorem State.clock_core_heldCard (s : State) (h : Head) :
    (s.clock h).core.heldCard = s.core.heldCard := (congrArg (fun (t : State) => t.core.heldCard) (State.clock_eq s h) :)
@[simp] theorem State.advance_core_heldCard (s : State) :
    s.advance.core.heldCard = s.core.heldCard := (congrArg (fun (t : State) => t.core.heldCard) (State.advance_eq s) :)
@[simp] theorem State.retire_core_heldCard (s : State) :
    s.retire.core.heldCard = s.core.heldCard := (congrArg (fun (t : State) => t.core.heldCard) (State.retire_eq s) :)
@[simp] theorem State.clock_core_seen (s : State) (h : Head) :
    (s.clock h).core.seen = s.core.seen := (congrArg (fun (t : State) => t.core.seen) (State.clock_eq s h) :)
@[simp] theorem State.advance_core_seen (s : State) :
    s.advance.core.seen = s.core.seen := (congrArg (fun (t : State) => t.core.seen) (State.advance_eq s) :)
@[simp] theorem State.retire_core_seen (s : State) :
    s.retire.core.seen = s.core.seen := (congrArg (fun (t : State) => t.core.seen) (State.retire_eq s) :)
@[simp] theorem State.clock_core_idled (s : State) (h : Head) :
    (s.clock h).core.idled = s.core.idled := (congrArg (fun (t : State) => t.core.idled) (State.clock_eq s h) :)
@[simp] theorem State.advance_core_idled (s : State) :
    s.advance.core.idled = s.core.idled := (congrArg (fun (t : State) => t.core.idled) (State.advance_eq s) :)
@[simp] theorem State.retire_core_idled (s : State) :
    s.retire.core.idled = s.core.idled := (congrArg (fun (t : State) => t.core.idled) (State.retire_eq s) :)
@[simp] theorem State.advance_core_timed (s : State) :
    s.advance.core.timed = s.core.timed := (congrArg (fun (t : State) => t.core.timed) (State.advance_eq s) :)
@[simp] theorem State.retire_core_timed (s : State) :
    s.retire.core.timed = s.core.timed := (congrArg (fun (t : State) => t.core.timed) (State.retire_eq s) :)
@[simp] theorem State.clock_core_nextComm (s : State) (h : Head) :
    (s.clock h).core.nextComm = s.core.nextComm := (congrArg (fun (t : State) => t.core.nextComm) (State.clock_eq s h) :)
@[simp] theorem State.advance_core_nextComm (s : State) :
    s.advance.core.nextComm = s.core.nextComm := (congrArg (fun (t : State) => t.core.nextComm) (State.advance_eq s) :)
@[simp] theorem State.retire_core_nextComm (s : State) :
    s.retire.core.nextComm = s.core.nextComm := (congrArg (fun (t : State) => t.core.nextComm) (State.retire_eq s) :)
@[simp] theorem State.advance_core_mark (s : State) :
    s.advance.core.mark = s.core.mark := (congrArg (fun (t : State) => t.core.mark) (State.advance_eq s) :)
@[simp] theorem State.retire_core_mark (s : State) :
    s.retire.core.mark = s.core.mark := (congrArg (fun (t : State) => t.core.mark) (State.retire_eq s) :)
@[simp] theorem State.advance_core_pmark (s : State) :
    s.advance.core.pmark = s.core.pmark := (congrArg (fun (t : State) => t.core.pmark) (State.advance_eq s) :)
@[simp] theorem State.retire_core_pmark (s : State) :
    s.retire.core.pmark = s.core.pmark := (congrArg (fun (t : State) => t.core.pmark) (State.retire_eq s) :)
@[simp] theorem State.clock_core_rbTarget (s : State) (h : Head) :
    (s.clock h).core.rbTarget = s.core.rbTarget := (congrArg (fun (t : State) => t.core.rbTarget) (State.clock_eq s h) :)
@[simp] theorem State.advance_core_rbTarget (s : State) :
    s.advance.core.rbTarget = s.core.rbTarget := (congrArg (fun (t : State) => t.core.rbTarget) (State.advance_eq s) :)
@[simp] theorem State.retire_core_rbTarget (s : State) :
    s.retire.core.rbTarget = s.core.rbTarget := (congrArg (fun (t : State) => t.core.rbTarget) (State.retire_eq s) :)
@[simp] theorem State.clock_core_rxbuf (s : State) (h : Head) :
    (s.clock h).core.rxbuf = s.core.rxbuf := (congrArg (fun (t : State) => t.core.rxbuf) (State.clock_eq s h) :)
@[simp] theorem State.advance_core_rxbuf (s : State) :
    s.advance.core.rxbuf = s.core.rxbuf := (congrArg (fun (t : State) => t.core.rxbuf) (State.advance_eq s) :)
@[simp] theorem State.retire_core_rxbuf (s : State) :
    s.retire.core.rxbuf = s.core.rxbuf := (congrArg (fun (t : State) => t.core.rxbuf) (State.retire_eq s) :)
@[simp] theorem State.clock_core_lanes (s : State) (h : Head) :
    (s.clock h).core.lanes = s.core.lanes := (congrArg (fun (t : State) => t.core.lanes) (State.clock_eq s h) :)
@[simp] theorem State.advance_core_lanes (s : State) :
    s.advance.core.lanes = s.core.lanes := (congrArg (fun (t : State) => t.core.lanes) (State.advance_eq s) :)
@[simp] theorem State.retire_core_lanes (s : State) :
    s.retire.core.lanes = s.core.lanes := (congrArg (fun (t : State) => t.core.lanes) (State.retire_eq s) :)
@[simp] theorem State.clock_core_holdUntil (s : State) (h : Head) :
    (s.clock h).core.holdUntil = s.core.holdUntil := (congrArg (fun (t : State) => t.core.holdUntil) (State.clock_eq s h) :)
@[simp] theorem State.advance_core_holdUntil (s : State) :
    s.advance.core.holdUntil = s.core.holdUntil := (congrArg (fun (t : State) => t.core.holdUntil) (State.advance_eq s) :)
@[simp] theorem State.retire_core_holdUntil (s : State) :
    s.retire.core.holdUntil = s.core.holdUntil := (congrArg (fun (t : State) => t.core.holdUntil) (State.retire_eq s) :)
@[simp] theorem State.clock_core_reuseA (s : State) (h : Head) :
    (s.clock h).core.reuseA = s.core.reuseA := (congrArg (fun (t : State) => t.core.reuseA) (State.clock_eq s h) :)
@[simp] theorem State.advance_core_reuseA (s : State) :
    s.advance.core.reuseA = s.core.reuseA := (congrArg (fun (t : State) => t.core.reuseA) (State.advance_eq s) :)
@[simp] theorem State.retire_core_reuseA (s : State) :
    s.retire.core.reuseA = s.core.reuseA := (congrArg (fun (t : State) => t.core.reuseA) (State.retire_eq s) :)
@[simp] theorem State.clock_core_reuseB (s : State) (h : Head) :
    (s.clock h).core.reuseB = s.core.reuseB := (congrArg (fun (t : State) => t.core.reuseB) (State.clock_eq s h) :)
@[simp] theorem State.advance_core_reuseB (s : State) :
    s.advance.core.reuseB = s.core.reuseB := (congrArg (fun (t : State) => t.core.reuseB) (State.advance_eq s) :)
@[simp] theorem State.retire_core_reuseB (s : State) :
    s.retire.core.reuseB = s.core.reuseB := (congrArg (fun (t : State) => t.core.reuseB) (State.retire_eq s) :)
@[simp] theorem State.clock_core_board (s : State) (h : Head) :
    (s.clock h).core.board = s.core.board := (congrArg (fun (t : State) => t.core.board) (State.clock_eq s h) :)
@[simp] theorem State.advance_core_board (s : State) :
    s.advance.core.board = s.core.board := (congrArg (fun (t : State) => t.core.board) (State.advance_eq s) :)
@[simp] theorem State.retire_core_board (s : State) :
    s.retire.core.board = s.core.board := (congrArg (fun (t : State) => t.core.board) (State.retire_eq s) :)
@[simp] theorem State.clock_core_works (s : State) (h : Head) :
    (s.clock h).core.works = s.core.works := (congrArg (fun (t : State) => t.core.works) (State.clock_eq s h) :)
@[simp] theorem State.advance_core_works (s : State) :
    s.advance.core.works = s.core.works := (congrArg (fun (t : State) => t.core.works) (State.advance_eq s) :)
@[simp] theorem State.retire_core_works (s : State) :
    s.retire.core.works = s.core.works := (congrArg (fun (t : State) => t.core.works) (State.retire_eq s) :)
@[simp] theorem State.clock_core_lag (s : State) (h : Head) :
    (s.clock h).core.lag = s.core.lag := (congrArg (fun (t : State) => t.core.lag) (State.clock_eq s h) :)
@[simp] theorem State.advance_core_lag (s : State) :
    s.advance.core.lag = s.core.lag := (congrArg (fun (t : State) => t.core.lag) (State.advance_eq s) :)
@[simp] theorem State.retire_core_lag (s : State) :
    s.retire.core.lag = s.core.lag := (congrArg (fun (t : State) => t.core.lag) (State.retire_eq s) :)
@[simp] theorem State.clock_core_solo (s : State) (h : Head) :
    (s.clock h).core.solo = s.core.solo := (congrArg (fun (t : State) => t.core.solo) (State.clock_eq s h) :)
@[simp] theorem State.advance_core_solo (s : State) :
    s.advance.core.solo = s.core.solo := (congrArg (fun (t : State) => t.core.solo) (State.advance_eq s) :)
@[simp] theorem State.retire_core_solo (s : State) :
    s.retire.core.solo = s.core.solo := (congrArg (fun (t : State) => t.core.solo) (State.retire_eq s) :)
@[simp] theorem State.clock_core_skip (s : State) (h : Head) :
    (s.clock h).core.skip = s.core.skip := (congrArg (fun (t : State) => t.core.skip) (State.clock_eq s h) :)
@[simp] theorem State.advance_core_skip (s : State) :
    s.advance.core.skip = s.core.skip := (congrArg (fun (t : State) => t.core.skip) (State.advance_eq s) :)
@[simp] theorem State.retire_core_skip (s : State) :
    s.retire.core.skip = s.core.skip := (congrArg (fun (t : State) => t.core.skip) (State.retire_eq s) :)
@[simp] theorem State.clock_core_rowLimit (s : State) (h : Head) :
    (s.clock h).core.rowLimit = s.core.rowLimit := (congrArg (fun (t : State) => t.core.rowLimit) (State.clock_eq s h) :)
@[simp] theorem State.advance_core_rowLimit (s : State) :
    s.advance.core.rowLimit = s.core.rowLimit := (congrArg (fun (t : State) => t.core.rowLimit) (State.advance_eq s) :)
@[simp] theorem State.retire_core_rowLimit (s : State) :
    s.retire.core.rowLimit = s.core.rowLimit := (congrArg (fun (t : State) => t.core.rowLimit) (State.retire_eq s) :)
@[simp] theorem State.clock_core_hwImage (s : State) (h : Head) :
    (s.clock h).core.hwImage = s.core.hwImage := (congrArg (fun (t : State) => t.core.hwImage) (State.clock_eq s h) :)
@[simp] theorem State.advance_core_hwImage (s : State) :
    s.advance.core.hwImage = s.core.hwImage := (congrArg (fun (t : State) => t.core.hwImage) (State.advance_eq s) :)
@[simp] theorem State.retire_core_hwImage (s : State) :
    s.retire.core.hwImage = s.core.hwImage := (congrArg (fun (t : State) => t.core.hwImage) (State.retire_eq s) :)
@[simp] theorem State.clock_core_savedTimed (s : State) (h : Head) :
    (s.clock h).core.savedTimed = s.core.savedTimed := (congrArg (fun (t : State) => t.core.savedTimed) (State.clock_eq s h) :)
@[simp] theorem State.advance_core_savedTimed (s : State) :
    s.advance.core.savedTimed = s.core.savedTimed := (congrArg (fun (t : State) => t.core.savedTimed) (State.advance_eq s) :)
@[simp] theorem State.retire_core_savedTimed (s : State) :
    s.retire.core.savedTimed = s.core.savedTimed := (congrArg (fun (t : State) => t.core.savedTimed) (State.retire_eq s) :)
@[simp] theorem State.retire_core_wait (s : State) :
    s.retire.core.wait = .none := (congrArg (fun (t : State) => t.core.wait) (State.retire_eq s) :)
@[simp] theorem State.retire_core_arrived (s : State) :
    s.retire.core.arrived = false := (congrArg (fun (t : State) => t.core.arrived) (State.retire_eq s) :)
@[simp] theorem State.retire_core_wake (s : State) :
    s.retire.core.wake = none := (congrArg (fun (t : State) => t.core.wake) (State.retire_eq s) :)
@[simp] theorem State.clock_sys_cause (s : State) (h : Head) :
    (s.clock h).core.sys.cause = s.core.sys.cause := (congrArg (fun (t : State) => t.core.sys.cause) (State.clock_eq s h) :)
@[simp] theorem State.advance_sys_cause (s : State) :
    s.advance.core.sys.cause = s.core.sys.cause := (congrArg (fun (t : State) => t.core.sys.cause) (State.advance_eq s) :)
@[simp] theorem State.retire_sys_cause (s : State) :
    s.retire.core.sys.cause = s.core.sys.cause := (congrArg (fun (t : State) => t.core.sys.cause) (State.retire_eq s) :)
@[simp] theorem State.clock_sys_epc (s : State) (h : Head) :
    (s.clock h).core.sys.epc = s.core.sys.epc := (congrArg (fun (t : State) => t.core.sys.epc) (State.clock_eq s h) :)
@[simp] theorem State.advance_sys_epc (s : State) :
    s.advance.core.sys.epc = s.core.sys.epc := (congrArg (fun (t : State) => t.core.sys.epc) (State.advance_eq s) :)
@[simp] theorem State.retire_sys_epc (s : State) :
    s.retire.core.sys.epc = s.core.sys.epc := (congrArg (fun (t : State) => t.core.sys.epc) (State.retire_eq s) :)
@[simp] theorem State.clock_sys_eva (s : State) (h : Head) :
    (s.clock h).core.sys.eva = s.core.sys.eva := (congrArg (fun (t : State) => t.core.sys.eva) (State.clock_eq s h) :)
@[simp] theorem State.advance_sys_eva (s : State) :
    s.advance.core.sys.eva = s.core.sys.eva := (congrArg (fun (t : State) => t.core.sys.eva) (State.advance_eq s) :)
@[simp] theorem State.retire_sys_eva (s : State) :
    s.retire.core.sys.eva = s.core.sys.eva := (congrArg (fun (t : State) => t.core.sys.eva) (State.retire_eq s) :)
@[simp] theorem State.clock_sys_tvec (s : State) (h : Head) :
    (s.clock h).core.sys.tvec = s.core.sys.tvec := (congrArg (fun (t : State) => t.core.sys.tvec) (State.clock_eq s h) :)
@[simp] theorem State.advance_sys_tvec (s : State) :
    s.advance.core.sys.tvec = s.core.sys.tvec := (congrArg (fun (t : State) => t.core.sys.tvec) (State.advance_eq s) :)
@[simp] theorem State.retire_sys_tvec (s : State) :
    s.retire.core.sys.tvec = s.core.sys.tvec := (congrArg (fun (t : State) => t.core.sys.tvec) (State.retire_eq s) :)
@[simp] theorem State.clock_sys_mode (s : State) (h : Head) :
    (s.clock h).core.sys.mode = s.core.sys.mode := (congrArg (fun (t : State) => t.core.sys.mode) (State.clock_eq s h) :)
@[simp] theorem State.advance_sys_mode (s : State) :
    s.advance.core.sys.mode = s.core.sys.mode := (congrArg (fun (t : State) => t.core.sys.mode) (State.advance_eq s) :)
@[simp] theorem State.retire_sys_mode (s : State) :
    s.retire.core.sys.mode = s.core.sys.mode := (congrArg (fun (t : State) => t.core.sys.mode) (State.retire_eq s) :)
@[simp] theorem State.clock_sys_scr (s : State) (h : Head) :
    (s.clock h).core.sys.scr = s.core.sys.scr := (congrArg (fun (t : State) => t.core.sys.scr) (State.clock_eq s h) :)
@[simp] theorem State.advance_sys_scr (s : State) :
    s.advance.core.sys.scr = s.core.sys.scr := (congrArg (fun (t : State) => t.core.sys.scr) (State.advance_eq s) :)
@[simp] theorem State.retire_sys_scr (s : State) :
    s.retire.core.sys.scr = s.core.sys.scr := (congrArg (fun (t : State) => t.core.sys.scr) (State.retire_eq s) :)
@[simp] theorem State.clock_sys_tprog (s : State) (h : Head) :
    (s.clock h).core.sys.tprog = s.core.sys.tprog := (congrArg (fun (t : State) => t.core.sys.tprog) (State.clock_eq s h) :)
@[simp] theorem State.advance_sys_tprog (s : State) :
    s.advance.core.sys.tprog = s.core.sys.tprog := (congrArg (fun (t : State) => t.core.sys.tprog) (State.advance_eq s) :)
@[simp] theorem State.retire_sys_tprog (s : State) :
    s.retire.core.sys.tprog = s.core.sys.tprog := (congrArg (fun (t : State) => t.core.sys.tprog) (State.retire_eq s) :)
@[simp] theorem State.clock_sys_repst (s : State) (h : Head) :
    (s.clock h).core.sys.repst = s.core.sys.repst := (congrArg (fun (t : State) => t.core.sys.repst) (State.clock_eq s h) :)
@[simp] theorem State.clock_sys_erepst (s : State) (h : Head) :
    (s.clock h).core.sys.erepst = s.core.sys.erepst := (congrArg (fun (t : State) => t.core.sys.erepst) (State.clock_eq s h) :)
@[simp] theorem State.advance_sys_erepst (s : State) :
    s.advance.core.sys.erepst = s.core.sys.erepst := (congrArg (fun (t : State) => t.core.sys.erepst) (State.advance_eq s) :)
@[simp] theorem State.retire_sys_erepst (s : State) :
    s.retire.core.sys.erepst = s.core.sys.erepst := (congrArg (fun (t : State) => t.core.sys.erepst) (State.retire_eq s) :)
@[simp] theorem State.clock_sys_barst (s : State) (h : Head) :
    (s.clock h).core.sys.barst = s.core.sys.barst := (congrArg (fun (t : State) => t.core.sys.barst) (State.clock_eq s h) :)
@[simp] theorem State.advance_sys_barst (s : State) :
    s.advance.core.sys.barst = s.core.sys.barst := (congrArg (fun (t : State) => t.core.sys.barst) (State.advance_eq s) :)
@[simp] theorem State.retire_sys_barst (s : State) :
    s.retire.core.sys.barst = s.core.sys.barst := (congrArg (fun (t : State) => t.core.sys.barst) (State.retire_eq s) :)
@[simp] theorem State.clock_sys_racest (s : State) (h : Head) :
    (s.clock h).core.sys.racest = s.core.sys.racest := (congrArg (fun (t : State) => t.core.sys.racest) (State.clock_eq s h) :)
@[simp] theorem State.advance_sys_racest (s : State) :
    s.advance.core.sys.racest = s.core.sys.racest := (congrArg (fun (t : State) => t.core.sys.racest) (State.advance_eq s) :)
@[simp] theorem State.retire_sys_racest (s : State) :
    s.retire.core.sys.racest = s.core.sys.racest := (congrArg (fun (t : State) => t.core.sys.racest) (State.retire_eq s) :)
@[simp] theorem State.clock_sys_collctl (s : State) (h : Head) :
    (s.clock h).core.sys.collctl = s.core.sys.collctl := (congrArg (fun (t : State) => t.core.sys.collctl) (State.clock_eq s h) :)
@[simp] theorem State.advance_sys_collctl (s : State) :
    s.advance.core.sys.collctl = s.core.sys.collctl := (congrArg (fun (t : State) => t.core.sys.collctl) (State.advance_eq s) :)
@[simp] theorem State.retire_sys_collctl (s : State) :
    s.retire.core.sys.collctl = s.core.sys.collctl := (congrArg (fun (t : State) => t.core.sys.collctl) (State.retire_eq s) :)
@[simp] theorem State.clock_sys_xfault (s : State) (h : Head) :
    (s.clock h).core.sys.xfault = s.core.sys.xfault := (congrArg (fun (t : State) => t.core.sys.xfault) (State.clock_eq s h) :)
@[simp] theorem State.advance_sys_xfault (s : State) :
    s.advance.core.sys.xfault = s.core.sys.xfault := (congrArg (fun (t : State) => t.core.sys.xfault) (State.advance_eq s) :)
@[simp] theorem State.retire_sys_xfault (s : State) :
    s.retire.core.sys.xfault = s.core.sys.xfault := (congrArg (fun (t : State) => t.core.sys.xfault) (State.retire_eq s) :)
@[simp] theorem State.clock_sys_alost (s : State) (h : Head) :
    (s.clock h).core.sys.alost = s.core.sys.alost := (congrArg (fun (t : State) => t.core.sys.alost) (State.clock_eq s h) :)
@[simp] theorem State.advance_sys_alost (s : State) :
    s.advance.core.sys.alost = s.core.sys.alost := (congrArg (fun (t : State) => t.core.sys.alost) (State.advance_eq s) :)
@[simp] theorem State.retire_sys_alost (s : State) :
    s.retire.core.sys.alost = s.core.sys.alost := (congrArg (fun (t : State) => t.core.sys.alost) (State.retire_eq s) :)
@[simp] theorem State.clock_sys_aecho (s : State) (h : Head) :
    (s.clock h).core.sys.aecho = s.core.sys.aecho := (congrArg (fun (t : State) => t.core.sys.aecho) (State.clock_eq s h) :)
@[simp] theorem State.advance_sys_aecho (s : State) :
    s.advance.core.sys.aecho = s.core.sys.aecho := (congrArg (fun (t : State) => t.core.sys.aecho) (State.advance_eq s) :)
@[simp] theorem State.retire_sys_aecho (s : State) :
    s.retire.core.sys.aecho = s.core.sys.aecho := (congrArg (fun (t : State) => t.core.sys.aecho) (State.retire_eq s) :)
@[simp] theorem State.clock_sys_tflt (s : State) (h : Head) :
    (s.clock h).core.sys.tflt = s.core.sys.tflt := (congrArg (fun (t : State) => t.core.sys.tflt) (State.clock_eq s h) :)
@[simp] theorem State.advance_sys_tflt (s : State) :
    s.advance.core.sys.tflt = s.core.sys.tflt := (congrArg (fun (t : State) => t.core.sys.tflt) (State.advance_eq s) :)
@[simp] theorem State.retire_sys_tflt (s : State) :
    s.retire.core.sys.tflt = s.core.sys.tflt := (congrArg (fun (t : State) => t.core.sys.tflt) (State.retire_eq s) :)
@[simp] theorem State.clock_sys_xprog (s : State) (h : Head) :
    (s.clock h).core.sys.xprog = s.core.sys.xprog := (congrArg (fun (t : State) => t.core.sys.xprog) (State.clock_eq s h) :)
@[simp] theorem State.advance_sys_xprog (s : State) :
    s.advance.core.sys.xprog = s.core.sys.xprog := (congrArg (fun (t : State) => t.core.sys.xprog) (State.advance_eq s) :)
@[simp] theorem State.retire_sys_xprog (s : State) :
    s.retire.core.sys.xprog = s.core.sys.xprog := (congrArg (fun (t : State) => t.core.sys.xprog) (State.retire_eq s) :)
@[simp] theorem State.advance_sys_markpc (s : State) :
    s.advance.core.sys.markpc = s.core.sys.markpc := (congrArg (fun (t : State) => t.core.sys.markpc) (State.advance_eq s) :)
@[simp] theorem State.retire_sys_markpc (s : State) :
    s.retire.core.sys.markpc = s.core.sys.markpc := (congrArg (fun (t : State) => t.core.sys.markpc) (State.retire_eq s) :)
@[simp] theorem State.advance_sys_markcyc (s : State) :
    s.advance.core.sys.markcyc = s.core.sys.markcyc := (congrArg (fun (t : State) => t.core.sys.markcyc) (State.advance_eq s) :)
@[simp] theorem State.retire_sys_markcyc (s : State) :
    s.retire.core.sys.markcyc = s.core.sys.markcyc := (congrArg (fun (t : State) => t.core.sys.markcyc) (State.retire_eq s) :)
@[simp] theorem State.advance_sys_pmarkpc (s : State) :
    s.advance.core.sys.pmarkpc = s.core.sys.pmarkpc := (congrArg (fun (t : State) => t.core.sys.pmarkpc) (State.advance_eq s) :)
@[simp] theorem State.retire_sys_pmarkpc (s : State) :
    s.retire.core.sys.pmarkpc = s.core.sys.pmarkpc := (congrArg (fun (t : State) => t.core.sys.pmarkpc) (State.retire_eq s) :)
@[simp] theorem State.advance_sys_pmarkcyc (s : State) :
    s.advance.core.sys.pmarkcyc = s.core.sys.pmarkcyc := (congrArg (fun (t : State) => t.core.sys.pmarkcyc) (State.advance_eq s) :)
@[simp] theorem State.retire_sys_pmarkcyc (s : State) :
    s.retire.core.sys.pmarkcyc = s.core.sys.pmarkcyc := (congrArg (fun (t : State) => t.core.sys.pmarkcyc) (State.retire_eq s) :)
@[simp] theorem State.clock_sys_xdone (s : State) (h : Head) :
    (s.clock h).core.sys.xdone = s.core.sys.xdone := (congrArg (fun (t : State) => t.core.sys.xdone) (State.clock_eq s h) :)
@[simp] theorem State.advance_sys_xdone (s : State) :
    s.advance.core.sys.xdone = s.core.sys.xdone := (congrArg (fun (t : State) => t.core.sys.xdone) (State.advance_eq s) :)
@[simp] theorem State.retire_sys_xdone (s : State) :
    s.retire.core.sys.xdone = s.core.sys.xdone := (congrArg (fun (t : State) => t.core.sys.xdone) (State.retire_eq s) :)
@[simp] theorem State.clock_sys_gdone (s : State) (h : Head) :
    (s.clock h).core.sys.gdone = s.core.sys.gdone := (congrArg (fun (t : State) => t.core.sys.gdone) (State.clock_eq s h) :)
@[simp] theorem State.advance_sys_gdone (s : State) :
    s.advance.core.sys.gdone = s.core.sys.gdone := (congrArg (fun (t : State) => t.core.sys.gdone) (State.advance_eq s) :)
@[simp] theorem State.retire_sys_gdone (s : State) :
    s.retire.core.sys.gdone = s.core.sys.gdone := (congrArg (fun (t : State) => t.core.sys.gdone) (State.retire_eq s) :)
@[simp] theorem State.clock_sys_ctxid (s : State) (h : Head) :
    (s.clock h).core.sys.ctxid = s.core.sys.ctxid := (congrArg (fun (t : State) => t.core.sys.ctxid) (State.clock_eq s h) :)
@[simp] theorem State.advance_sys_ctxid (s : State) :
    s.advance.core.sys.ctxid = s.core.sys.ctxid := (congrArg (fun (t : State) => t.core.sys.ctxid) (State.advance_eq s) :)
@[simp] theorem State.retire_sys_ctxid (s : State) :
    s.retire.core.sys.ctxid = s.core.sys.ctxid := (congrArg (fun (t : State) => t.core.sys.ctxid) (State.retire_eq s) :)
@[simp] theorem State.clock_sys_prio (s : State) (h : Head) :
    (s.clock h).core.sys.prio = s.core.sys.prio := (congrArg (fun (t : State) => t.core.sys.prio) (State.clock_eq s h) :)
@[simp] theorem State.advance_sys_prio (s : State) :
    s.advance.core.sys.prio = s.core.sys.prio := (congrArg (fun (t : State) => t.core.sys.prio) (State.advance_eq s) :)
@[simp] theorem State.retire_sys_prio (s : State) :
    s.retire.core.sys.prio = s.core.sys.prio := (congrArg (fun (t : State) => t.core.sys.prio) (State.retire_eq s) :)
@[simp] theorem State.clock_sys_contain (s : State) (h : Head) :
    (s.clock h).core.sys.contain = s.core.sys.contain := (congrArg (fun (t : State) => t.core.sys.contain) (State.clock_eq s h) :)
@[simp] theorem State.advance_sys_contain (s : State) :
    s.advance.core.sys.contain = s.core.sys.contain := (congrArg (fun (t : State) => t.core.sys.contain) (State.advance_eq s) :)
@[simp] theorem State.retire_sys_contain (s : State) :
    s.retire.core.sys.contain = s.core.sys.contain := (congrArg (fun (t : State) => t.core.sys.contain) (State.retire_eq s) :)
@[simp] theorem State.clock_sys_hasp (s : State) (h : Head) :
    (s.clock h).core.sys.hasp = s.core.sys.hasp := (congrArg (fun (t : State) => t.core.sys.hasp) (State.clock_eq s h) :)
@[simp] theorem State.advance_sys_hasp (s : State) :
    s.advance.core.sys.hasp = s.core.sys.hasp := (congrArg (fun (t : State) => t.core.sys.hasp) (State.advance_eq s) :)
@[simp] theorem State.retire_sys_hasp (s : State) :
    s.retire.core.sys.hasp = s.core.sys.hasp := (congrArg (fun (t : State) => t.core.sys.hasp) (State.retire_eq s) :)

/-! ### Core: scalar writes -/

/-- What a write of an s register may change. -/
theorem Core.writeS_eq (c : Core) (n : BitVec 5) (v : Word) :
    c.writeS n v = { c with regs := (c.writeS n v).regs, owed := (c.writeS n v).owed } := by
  unfold Core.writeS; split <;> rfl

/-- What a write of a predicate may change. -/
theorem Core.writeP_eq (c : Core) (n : BitVec 3) (v : Bool) : c.writeP n v = { c with preds := (c.writeP n v).preds } := by
  unfold Core.writeP; split <;> rfl

/-- What a push may change. -/
theorem Core.push_eq (c : Core) (v : Word) : c.push v = { c with q := (c.push v).q, pushes := (c.push v).pushes } := rfl

/-- What the write of a scalar result may change (spec/02 R45, R46). -/
theorem Core.writeD_eq (c : Core) (d : Operand) (v : Word) :
    c.writeD d v = { c with
      regs := (c.writeD d v).regs, q := (c.writeD d v).q, pushes := (c.writeD d v).pushes, owed := (c.writeD d v).owed
      preds := (c.writeD d v).preds } := by
  cases d with
  | s n => simp only [Core.writeD, Core.writeS]; split <;> rfl
  | p n inv => simp only [Core.writeD, Core.writeP]; split <;> rfl
  | _ => rfl

@[simp] theorem Core.writeD_die (c : Core) (d : Operand) (v : Word) :
    (c.writeD d v).die = c.die := (congrArg Core.die (Core.writeD_eq c d v) :)
@[simp] theorem Core.writeS_die (c : Core) (n : BitVec 5) (v : Word) :
    (c.writeS n v).die = c.die := (congrArg Core.die (Core.writeS_eq c n v) :)
@[simp] theorem Core.writeP_die (c : Core) (n : BitVec 3) (v : Bool) :
    (c.writeP n v).die = c.die := (congrArg Core.die (Core.writeP_eq c n v) :)
@[simp] theorem Core.push_die (c : Core) (v : Word) :
    (c.push v).die = c.die := (congrArg Core.die (Core.push_eq c v) :)
@[simp] theorem Core.writeD_num (c : Core) (d : Operand) (v : Word) :
    (c.writeD d v).num = c.num := (congrArg Core.num (Core.writeD_eq c d v) :)
@[simp] theorem Core.writeS_num (c : Core) (n : BitVec 5) (v : Word) :
    (c.writeS n v).num = c.num := (congrArg Core.num (Core.writeS_eq c n v) :)
@[simp] theorem Core.writeP_num (c : Core) (n : BitVec 3) (v : Bool) :
    (c.writeP n v).num = c.num := (congrArg Core.num (Core.writeP_eq c n v) :)
@[simp] theorem Core.push_num (c : Core) (v : Word) :
    (c.push v).num = c.num := (congrArg Core.num (Core.push_eq c v) :)
@[simp] theorem Core.writeD_lcn (c : Core) (d : Operand) (v : Word) :
    (c.writeD d v).lcn = c.lcn := (congrArg Core.lcn (Core.writeD_eq c d v) :)
@[simp] theorem Core.writeS_lcn (c : Core) (n : BitVec 5) (v : Word) :
    (c.writeS n v).lcn = c.lcn := (congrArg Core.lcn (Core.writeS_eq c n v) :)
@[simp] theorem Core.writeP_lcn (c : Core) (n : BitVec 3) (v : Bool) :
    (c.writeP n v).lcn = c.lcn := (congrArg Core.lcn (Core.writeP_eq c n v) :)
@[simp] theorem Core.push_lcn (c : Core) (v : Word) :
    (c.push v).lcn = c.lcn := (congrArg Core.lcn (Core.push_eq c v) :)
@[simp] theorem Core.writeD_fcn (c : Core) (d : Operand) (v : Word) :
    (c.writeD d v).fcn = c.fcn := (congrArg Core.fcn (Core.writeD_eq c d v) :)
@[simp] theorem Core.writeS_fcn (c : Core) (n : BitVec 5) (v : Word) :
    (c.writeS n v).fcn = c.fcn := (congrArg Core.fcn (Core.writeS_eq c n v) :)
@[simp] theorem Core.writeP_fcn (c : Core) (n : BitVec 3) (v : Bool) :
    (c.writeP n v).fcn = c.fcn := (congrArg Core.fcn (Core.writeP_eq c n v) :)
@[simp] theorem Core.push_fcn (c : Core) (v : Word) :
    (c.push v).fcn = c.fcn := (congrArg Core.fcn (Core.push_eq c v) :)
@[simp] theorem Core.writeD_rank (c : Core) (d : Operand) (v : Word) :
    (c.writeD d v).rank = c.rank := (congrArg Core.rank (Core.writeD_eq c d v) :)
@[simp] theorem Core.writeS_rank (c : Core) (n : BitVec 5) (v : Word) :
    (c.writeS n v).rank = c.rank := (congrArg Core.rank (Core.writeS_eq c n v) :)
@[simp] theorem Core.writeP_rank (c : Core) (n : BitVec 3) (v : Bool) :
    (c.writeP n v).rank = c.rank := (congrArg Core.rank (Core.writeP_eq c n v) :)
@[simp] theorem Core.push_rank (c : Core) (v : Word) :
    (c.push v).rank = c.rank := (congrArg Core.rank (Core.push_eq c v) :)
@[simp] theorem Core.writeD_memc (c : Core) (d : Operand) (v : Word) :
    (c.writeD d v).memc = c.memc := (congrArg Core.memc (Core.writeD_eq c d v) :)
@[simp] theorem Core.writeS_memc (c : Core) (n : BitVec 5) (v : Word) :
    (c.writeS n v).memc = c.memc := (congrArg Core.memc (Core.writeS_eq c n v) :)
@[simp] theorem Core.writeP_memc (c : Core) (n : BitVec 3) (v : Bool) :
    (c.writeP n v).memc = c.memc := (congrArg Core.memc (Core.writeP_eq c n v) :)
@[simp] theorem Core.push_memc (c : Core) (v : Word) :
    (c.push v).memc = c.memc := (congrArg Core.memc (Core.push_eq c v) :)
@[simp] theorem Core.writeD_field (c : Core) (d : Operand) (v : Word) :
    (c.writeD d v).field = c.field := (congrArg Core.field (Core.writeD_eq c d v) :)
@[simp] theorem Core.writeS_field (c : Core) (n : BitVec 5) (v : Word) :
    (c.writeS n v).field = c.field := (congrArg Core.field (Core.writeS_eq c n v) :)
@[simp] theorem Core.writeP_field (c : Core) (n : BitVec 3) (v : Bool) :
    (c.writeP n v).field = c.field := (congrArg Core.field (Core.writeP_eq c n v) :)
@[simp] theorem Core.push_field (c : Core) (v : Word) :
    (c.push v).field = c.field := (congrArg Core.field (Core.push_eq c v) :)
@[simp] theorem Core.writeD_run (c : Core) (d : Operand) (v : Word) :
    (c.writeD d v).run = c.run := (congrArg Core.run (Core.writeD_eq c d v) :)
@[simp] theorem Core.writeS_run (c : Core) (n : BitVec 5) (v : Word) :
    (c.writeS n v).run = c.run := (congrArg Core.run (Core.writeS_eq c n v) :)
@[simp] theorem Core.writeP_run (c : Core) (n : BitVec 3) (v : Bool) :
    (c.writeP n v).run = c.run := (congrArg Core.run (Core.writeP_eq c n v) :)
@[simp] theorem Core.push_run (c : Core) (v : Word) :
    (c.push v).run = c.run := (congrArg Core.run (Core.push_eq c v) :)
@[simp] theorem Core.writeD_pc (c : Core) (d : Operand) (v : Word) :
    (c.writeD d v).pc = c.pc := (congrArg Core.pc (Core.writeD_eq c d v) :)
@[simp] theorem Core.writeS_pc (c : Core) (n : BitVec 5) (v : Word) :
    (c.writeS n v).pc = c.pc := (congrArg Core.pc (Core.writeS_eq c n v) :)
@[simp] theorem Core.writeP_pc (c : Core) (n : BitVec 3) (v : Bool) :
    (c.writeP n v).pc = c.pc := (congrArg Core.pc (Core.writeP_eq c n v) :)
@[simp] theorem Core.push_pc (c : Core) (v : Word) : (c.push v).pc = c.pc := (congrArg Core.pc (Core.push_eq c v) :)
@[simp] theorem Core.writeD_fbase (c : Core) (d : Operand) (v : Word) :
    (c.writeD d v).fbase = c.fbase := (congrArg Core.fbase (Core.writeD_eq c d v) :)
@[simp] theorem Core.writeS_fbase (c : Core) (n : BitVec 5) (v : Word) :
    (c.writeS n v).fbase = c.fbase := (congrArg Core.fbase (Core.writeS_eq c n v) :)
@[simp] theorem Core.writeP_fbase (c : Core) (n : BitVec 3) (v : Bool) :
    (c.writeP n v).fbase = c.fbase := (congrArg Core.fbase (Core.writeP_eq c n v) :)
@[simp] theorem Core.push_fbase (c : Core) (v : Word) :
    (c.push v).fbase = c.fbase := (congrArg Core.fbase (Core.push_eq c v) :)
@[simp] theorem Core.writeP_regs (c : Core) (n : BitVec 3) (v : Bool) :
    (c.writeP n v).regs = c.regs := (congrArg Core.regs (Core.writeP_eq c n v) :)
@[simp] theorem Core.push_regs (c : Core) (v : Word) :
    (c.push v).regs = c.regs := (congrArg Core.regs (Core.push_eq c v) :)
@[simp] theorem Core.writeS_preds (c : Core) (n : BitVec 5) (v : Word) :
    (c.writeS n v).preds = c.preds := (congrArg Core.preds (Core.writeS_eq c n v) :)
@[simp] theorem Core.push_preds (c : Core) (v : Word) :
    (c.push v).preds = c.preds := (congrArg Core.preds (Core.push_eq c v) :)
@[simp] theorem Core.writeS_q (c : Core) (n : BitVec 5) (v : Word) :
    (c.writeS n v).q = c.q := (congrArg Core.q (Core.writeS_eq c n v) :)
@[simp] theorem Core.writeP_q (c : Core) (n : BitVec 3) (v : Bool) :
    (c.writeP n v).q = c.q := (congrArg Core.q (Core.writeP_eq c n v) :)
@[simp] theorem Core.writeS_pushes (c : Core) (n : BitVec 5) (v : Word) :
    (c.writeS n v).pushes = c.pushes := (congrArg Core.pushes (Core.writeS_eq c n v) :)
@[simp] theorem Core.writeP_pushes (c : Core) (n : BitVec 3) (v : Bool) :
    (c.writeP n v).pushes = c.pushes := (congrArg Core.pushes (Core.writeP_eq c n v) :)
@[simp] theorem Core.writeP_owed (c : Core) (n : BitVec 3) (v : Bool) :
    (c.writeP n v).owed = c.owed := (congrArg Core.owed (Core.writeP_eq c n v) :)
@[simp] theorem Core.push_owed (c : Core) (v : Word) :
    (c.push v).owed = c.owed := (congrArg Core.owed (Core.push_eq c v) :)
@[simp] theorem Core.writeD_tiles (c : Core) (d : Operand) (v : Word) :
    (c.writeD d v).tiles = c.tiles := (congrArg Core.tiles (Core.writeD_eq c d v) :)
@[simp] theorem Core.writeS_tiles (c : Core) (n : BitVec 5) (v : Word) :
    (c.writeS n v).tiles = c.tiles := (congrArg Core.tiles (Core.writeS_eq c n v) :)
@[simp] theorem Core.writeP_tiles (c : Core) (n : BitVec 3) (v : Bool) :
    (c.writeP n v).tiles = c.tiles := (congrArg Core.tiles (Core.writeP_eq c n v) :)
@[simp] theorem Core.push_tiles (c : Core) (v : Word) :
    (c.push v).tiles = c.tiles := (congrArg Core.tiles (Core.push_eq c v) :)
@[simp] theorem Core.writeD_bfmt (c : Core) (d : Operand) (v : Word) :
    (c.writeD d v).bfmt = c.bfmt := (congrArg Core.bfmt (Core.writeD_eq c d v) :)
@[simp] theorem Core.writeS_bfmt (c : Core) (n : BitVec 5) (v : Word) :
    (c.writeS n v).bfmt = c.bfmt := (congrArg Core.bfmt (Core.writeS_eq c n v) :)
@[simp] theorem Core.writeP_bfmt (c : Core) (n : BitVec 3) (v : Bool) :
    (c.writeP n v).bfmt = c.bfmt := (congrArg Core.bfmt (Core.writeP_eq c n v) :)
@[simp] theorem Core.push_bfmt (c : Core) (v : Word) :
    (c.push v).bfmt = c.bfmt := (congrArg Core.bfmt (Core.push_eq c v) :)
@[simp] theorem Core.writeD_ls (c : Core) (d : Operand) (v : Word) :
    (c.writeD d v).ls = c.ls := (congrArg Core.ls (Core.writeD_eq c d v) :)
@[simp] theorem Core.writeS_ls (c : Core) (n : BitVec 5) (v : Word) :
    (c.writeS n v).ls = c.ls := (congrArg Core.ls (Core.writeS_eq c n v) :)
@[simp] theorem Core.writeP_ls (c : Core) (n : BitVec 3) (v : Bool) :
    (c.writeP n v).ls = c.ls := (congrArg Core.ls (Core.writeP_eq c n v) :)
@[simp] theorem Core.push_ls (c : Core) (v : Word) : (c.push v).ls = c.ls := (congrArg Core.ls (Core.push_eq c v) :)
@[simp] theorem Core.writeD_lsBad (c : Core) (d : Operand) (v : Word) :
    (c.writeD d v).lsBad = c.lsBad := (congrArg Core.lsBad (Core.writeD_eq c d v) :)
@[simp] theorem Core.writeS_lsBad (c : Core) (n : BitVec 5) (v : Word) :
    (c.writeS n v).lsBad = c.lsBad := (congrArg Core.lsBad (Core.writeS_eq c n v) :)
@[simp] theorem Core.writeP_lsBad (c : Core) (n : BitVec 3) (v : Bool) :
    (c.writeP n v).lsBad = c.lsBad := (congrArg Core.lsBad (Core.writeP_eq c n v) :)
@[simp] theorem Core.push_lsBad (c : Core) (v : Word) :
    (c.push v).lsBad = c.lsBad := (congrArg Core.lsBad (Core.push_eq c v) :)
@[simp] theorem Core.writeD_lsWeak (c : Core) (d : Operand) (v : Word) :
    (c.writeD d v).lsWeak = c.lsWeak := (congrArg Core.lsWeak (Core.writeD_eq c d v) :)
@[simp] theorem Core.writeS_lsWeak (c : Core) (n : BitVec 5) (v : Word) :
    (c.writeS n v).lsWeak = c.lsWeak := (congrArg Core.lsWeak (Core.writeS_eq c n v) :)
@[simp] theorem Core.writeP_lsWeak (c : Core) (n : BitVec 3) (v : Bool) :
    (c.writeP n v).lsWeak = c.lsWeak := (congrArg Core.lsWeak (Core.writeP_eq c n v) :)
@[simp] theorem Core.push_lsWeak (c : Core) (v : Word) :
    (c.push v).lsWeak = c.lsWeak := (congrArg Core.lsWeak (Core.push_eq c v) :)
@[simp] theorem Core.writeD_istore (c : Core) (d : Operand) (v : Word) :
    (c.writeD d v).istore = c.istore := (congrArg Core.istore (Core.writeD_eq c d v) :)
@[simp] theorem Core.writeS_istore (c : Core) (n : BitVec 5) (v : Word) :
    (c.writeS n v).istore = c.istore := (congrArg Core.istore (Core.writeS_eq c n v) :)
@[simp] theorem Core.writeP_istore (c : Core) (n : BitVec 3) (v : Bool) :
    (c.writeP n v).istore = c.istore := (congrArg Core.istore (Core.writeP_eq c n v) :)
@[simp] theorem Core.push_istore (c : Core) (v : Word) :
    (c.push v).istore = c.istore := (congrArg Core.istore (Core.push_eq c v) :)
@[simp] theorem Core.writeD_fetched (c : Core) (d : Operand) (v : Word) :
    (c.writeD d v).fetched = c.fetched := (congrArg Core.fetched (Core.writeD_eq c d v) :)
@[simp] theorem Core.writeS_fetched (c : Core) (n : BitVec 5) (v : Word) :
    (c.writeS n v).fetched = c.fetched := (congrArg Core.fetched (Core.writeS_eq c n v) :)
@[simp] theorem Core.writeP_fetched (c : Core) (n : BitVec 3) (v : Bool) :
    (c.writeP n v).fetched = c.fetched := (congrArg Core.fetched (Core.writeP_eq c n v) :)
@[simp] theorem Core.push_fetched (c : Core) (v : Word) :
    (c.push v).fetched = c.fetched := (congrArg Core.fetched (Core.push_eq c v) :)
@[simp] theorem Core.writeD_slots (c : Core) (d : Operand) (v : Word) :
    (c.writeD d v).slots = c.slots := (congrArg Core.slots (Core.writeD_eq c d v) :)
@[simp] theorem Core.writeS_slots (c : Core) (n : BitVec 5) (v : Word) :
    (c.writeS n v).slots = c.slots := (congrArg Core.slots (Core.writeS_eq c n v) :)
@[simp] theorem Core.writeP_slots (c : Core) (n : BitVec 3) (v : Bool) :
    (c.writeP n v).slots = c.slots := (congrArg Core.slots (Core.writeP_eq c n v) :)
@[simp] theorem Core.push_slots (c : Core) (v : Word) :
    (c.push v).slots = c.slots := (congrArg Core.slots (Core.push_eq c v) :)
@[simp] theorem Core.writeD_mq (c : Core) (d : Operand) (v : Word) :
    (c.writeD d v).mq = c.mq := (congrArg Core.mq (Core.writeD_eq c d v) :)
@[simp] theorem Core.writeS_mq (c : Core) (n : BitVec 5) (v : Word) :
    (c.writeS n v).mq = c.mq := (congrArg Core.mq (Core.writeS_eq c n v) :)
@[simp] theorem Core.writeP_mq (c : Core) (n : BitVec 3) (v : Bool) :
    (c.writeP n v).mq = c.mq := (congrArg Core.mq (Core.writeP_eq c n v) :)
@[simp] theorem Core.push_mq (c : Core) (v : Word) : (c.push v).mq = c.mq := (congrArg Core.mq (Core.push_eq c v) :)
@[simp] theorem Core.writeD_mqIssued (c : Core) (d : Operand) (v : Word) :
    (c.writeD d v).mqIssued = c.mqIssued := (congrArg Core.mqIssued (Core.writeD_eq c d v) :)
@[simp] theorem Core.writeS_mqIssued (c : Core) (n : BitVec 5) (v : Word) :
    (c.writeS n v).mqIssued = c.mqIssued := (congrArg Core.mqIssued (Core.writeS_eq c n v) :)
@[simp] theorem Core.writeP_mqIssued (c : Core) (n : BitVec 3) (v : Bool) :
    (c.writeP n v).mqIssued = c.mqIssued := (congrArg Core.mqIssued (Core.writeP_eq c n v) :)
@[simp] theorem Core.push_mqIssued (c : Core) (v : Word) :
    (c.push v).mqIssued = c.mqIssued := (congrArg Core.mqIssued (Core.push_eq c v) :)
@[simp] theorem Core.writeD_mqDone (c : Core) (d : Operand) (v : Word) :
    (c.writeD d v).mqDone = c.mqDone := (congrArg Core.mqDone (Core.writeD_eq c d v) :)
@[simp] theorem Core.writeS_mqDone (c : Core) (n : BitVec 5) (v : Word) :
    (c.writeS n v).mqDone = c.mqDone := (congrArg Core.mqDone (Core.writeS_eq c n v) :)
@[simp] theorem Core.writeP_mqDone (c : Core) (n : BitVec 3) (v : Bool) :
    (c.writeP n v).mqDone = c.mqDone := (congrArg Core.mqDone (Core.writeP_eq c n v) :)
@[simp] theorem Core.push_mqDone (c : Core) (v : Word) :
    (c.push v).mqDone = c.mqDone := (congrArg Core.mqDone (Core.push_eq c v) :)
@[simp] theorem Core.writeD_streams (c : Core) (d : Operand) (v : Word) :
    (c.writeD d v).streams = c.streams := (congrArg Core.streams (Core.writeD_eq c d v) :)
@[simp] theorem Core.writeS_streams (c : Core) (n : BitVec 5) (v : Word) :
    (c.writeS n v).streams = c.streams := (congrArg Core.streams (Core.writeS_eq c n v) :)
@[simp] theorem Core.writeP_streams (c : Core) (n : BitVec 3) (v : Bool) :
    (c.writeP n v).streams = c.streams := (congrArg Core.streams (Core.writeP_eq c n v) :)
@[simp] theorem Core.push_streams (c : Core) (v : Word) :
    (c.push v).streams = c.streams := (congrArg Core.streams (Core.push_eq c v) :)
@[simp] theorem Core.writeD_xq (c : Core) (d : Operand) (v : Word) :
    (c.writeD d v).xq = c.xq := (congrArg Core.xq (Core.writeD_eq c d v) :)
@[simp] theorem Core.writeS_xq (c : Core) (n : BitVec 5) (v : Word) :
    (c.writeS n v).xq = c.xq := (congrArg Core.xq (Core.writeS_eq c n v) :)
@[simp] theorem Core.writeP_xq (c : Core) (n : BitVec 3) (v : Bool) :
    (c.writeP n v).xq = c.xq := (congrArg Core.xq (Core.writeP_eq c n v) :)
@[simp] theorem Core.push_xq (c : Core) (v : Word) : (c.push v).xq = c.xq := (congrArg Core.xq (Core.push_eq c v) :)
@[simp] theorem Core.writeD_xnext (c : Core) (d : Operand) (v : Word) :
    (c.writeD d v).xnext = c.xnext := (congrArg Core.xnext (Core.writeD_eq c d v) :)
@[simp] theorem Core.writeS_xnext (c : Core) (n : BitVec 5) (v : Word) :
    (c.writeS n v).xnext = c.xnext := (congrArg Core.xnext (Core.writeS_eq c n v) :)
@[simp] theorem Core.writeP_xnext (c : Core) (n : BitVec 3) (v : Bool) :
    (c.writeP n v).xnext = c.xnext := (congrArg Core.xnext (Core.writeP_eq c n v) :)
@[simp] theorem Core.push_xnext (c : Core) (v : Word) :
    (c.push v).xnext = c.xnext := (congrArg Core.xnext (Core.push_eq c v) :)
@[simp] theorem Core.writeD_gq (c : Core) (d : Operand) (v : Word) :
    (c.writeD d v).gq = c.gq := (congrArg Core.gq (Core.writeD_eq c d v) :)
@[simp] theorem Core.writeS_gq (c : Core) (n : BitVec 5) (v : Word) :
    (c.writeS n v).gq = c.gq := (congrArg Core.gq (Core.writeS_eq c n v) :)
@[simp] theorem Core.writeP_gq (c : Core) (n : BitVec 3) (v : Bool) :
    (c.writeP n v).gq = c.gq := (congrArg Core.gq (Core.writeP_eq c n v) :)
@[simp] theorem Core.push_gq (c : Core) (v : Word) : (c.push v).gq = c.gq := (congrArg Core.gq (Core.push_eq c v) :)
@[simp] theorem Core.writeD_gnext (c : Core) (d : Operand) (v : Word) :
    (c.writeD d v).gnext = c.gnext := (congrArg Core.gnext (Core.writeD_eq c d v) :)
@[simp] theorem Core.writeS_gnext (c : Core) (n : BitVec 5) (v : Word) :
    (c.writeS n v).gnext = c.gnext := (congrArg Core.gnext (Core.writeS_eq c n v) :)
@[simp] theorem Core.writeP_gnext (c : Core) (n : BitVec 3) (v : Bool) :
    (c.writeP n v).gnext = c.gnext := (congrArg Core.gnext (Core.writeP_eq c n v) :)
@[simp] theorem Core.push_gnext (c : Core) (v : Word) :
    (c.push v).gnext = c.gnext := (congrArg Core.gnext (Core.push_eq c v) :)
@[simp] theorem Core.writeD_xstop (c : Core) (d : Operand) (v : Word) :
    (c.writeD d v).xstop = c.xstop := (congrArg Core.xstop (Core.writeD_eq c d v) :)
@[simp] theorem Core.writeS_xstop (c : Core) (n : BitVec 5) (v : Word) :
    (c.writeS n v).xstop = c.xstop := (congrArg Core.xstop (Core.writeS_eq c n v) :)
@[simp] theorem Core.writeP_xstop (c : Core) (n : BitVec 3) (v : Bool) :
    (c.writeP n v).xstop = c.xstop := (congrArg Core.xstop (Core.writeP_eq c n v) :)
@[simp] theorem Core.push_xstop (c : Core) (v : Word) :
    (c.push v).xstop = c.xstop := (congrArg Core.xstop (Core.push_eq c v) :)
@[simp] theorem Core.writeD_joins (c : Core) (d : Operand) (v : Word) :
    (c.writeD d v).joins = c.joins := (congrArg Core.joins (Core.writeD_eq c d v) :)
@[simp] theorem Core.writeS_joins (c : Core) (n : BitVec 5) (v : Word) :
    (c.writeS n v).joins = c.joins := (congrArg Core.joins (Core.writeS_eq c n v) :)
@[simp] theorem Core.writeP_joins (c : Core) (n : BitVec 3) (v : Bool) :
    (c.writeP n v).joins = c.joins := (congrArg Core.joins (Core.writeP_eq c n v) :)
@[simp] theorem Core.push_joins (c : Core) (v : Word) :
    (c.push v).joins = c.joins := (congrArg Core.joins (Core.push_eq c v) :)
@[simp] theorem Core.writeD_gt (c : Core) (d : Operand) (v : Word) :
    (c.writeD d v).gt = c.gt := (congrArg Core.gt (Core.writeD_eq c d v) :)
@[simp] theorem Core.writeS_gt (c : Core) (n : BitVec 5) (v : Word) :
    (c.writeS n v).gt = c.gt := (congrArg Core.gt (Core.writeS_eq c n v) :)
@[simp] theorem Core.writeP_gt (c : Core) (n : BitVec 3) (v : Bool) :
    (c.writeP n v).gt = c.gt := (congrArg Core.gt (Core.writeP_eq c n v) :)
@[simp] theorem Core.push_gt (c : Core) (v : Word) : (c.push v).gt = c.gt := (congrArg Core.gt (Core.push_eq c v) :)
@[simp] theorem Core.writeD_stores (c : Core) (d : Operand) (v : Word) :
    (c.writeD d v).stores = c.stores := (congrArg Core.stores (Core.writeD_eq c d v) :)
@[simp] theorem Core.writeS_stores (c : Core) (n : BitVec 5) (v : Word) :
    (c.writeS n v).stores = c.stores := (congrArg Core.stores (Core.writeS_eq c n v) :)
@[simp] theorem Core.writeP_stores (c : Core) (n : BitVec 3) (v : Bool) :
    (c.writeP n v).stores = c.stores := (congrArg Core.stores (Core.writeP_eq c n v) :)
@[simp] theorem Core.push_stores (c : Core) (v : Word) :
    (c.push v).stores = c.stores := (congrArg Core.stores (Core.push_eq c v) :)
@[simp] theorem Core.writeD_acks (c : Core) (d : Operand) (v : Word) :
    (c.writeD d v).acks = c.acks := (congrArg Core.acks (Core.writeD_eq c d v) :)
@[simp] theorem Core.writeS_acks (c : Core) (n : BitVec 5) (v : Word) :
    (c.writeS n v).acks = c.acks := (congrArg Core.acks (Core.writeS_eq c n v) :)
@[simp] theorem Core.writeP_acks (c : Core) (n : BitVec 3) (v : Bool) :
    (c.writeP n v).acks = c.acks := (congrArg Core.acks (Core.writeP_eq c n v) :)
@[simp] theorem Core.push_acks (c : Core) (v : Word) :
    (c.push v).acks = c.acks := (congrArg Core.acks (Core.push_eq c v) :)
@[simp] theorem Core.writeD_deferred (c : Core) (d : Operand) (v : Word) :
    (c.writeD d v).deferred = c.deferred := (congrArg Core.deferred (Core.writeD_eq c d v) :)
@[simp] theorem Core.writeS_deferred (c : Core) (n : BitVec 5) (v : Word) :
    (c.writeS n v).deferred = c.deferred := (congrArg Core.deferred (Core.writeS_eq c n v) :)
@[simp] theorem Core.writeP_deferred (c : Core) (n : BitVec 3) (v : Bool) :
    (c.writeP n v).deferred = c.deferred := (congrArg Core.deferred (Core.writeP_eq c n v) :)
@[simp] theorem Core.push_deferred (c : Core) (v : Word) :
    (c.push v).deferred = c.deferred := (congrArg Core.deferred (Core.push_eq c v) :)
@[simp] theorem Core.writeD_abortPend (c : Core) (d : Operand) (v : Word) :
    (c.writeD d v).abortPend = c.abortPend := (congrArg Core.abortPend (Core.writeD_eq c d v) :)
@[simp] theorem Core.writeS_abortPend (c : Core) (n : BitVec 5) (v : Word) :
    (c.writeS n v).abortPend = c.abortPend := (congrArg Core.abortPend (Core.writeS_eq c n v) :)
@[simp] theorem Core.writeP_abortPend (c : Core) (n : BitVec 3) (v : Bool) :
    (c.writeP n v).abortPend = c.abortPend := (congrArg Core.abortPend (Core.writeP_eq c n v) :)
@[simp] theorem Core.push_abortPend (c : Core) (v : Word) :
    (c.push v).abortPend = c.abortPend := (congrArg Core.abortPend (Core.push_eq c v) :)
@[simp] theorem Core.writeD_abortRaise (c : Core) (d : Operand) (v : Word) :
    (c.writeD d v).abortRaise = c.abortRaise := (congrArg Core.abortRaise (Core.writeD_eq c d v) :)
@[simp] theorem Core.writeS_abortRaise (c : Core) (n : BitVec 5) (v : Word) :
    (c.writeS n v).abortRaise = c.abortRaise := (congrArg Core.abortRaise (Core.writeS_eq c n v) :)
@[simp] theorem Core.writeP_abortRaise (c : Core) (n : BitVec 3) (v : Bool) :
    (c.writeP n v).abortRaise = c.abortRaise := (congrArg Core.abortRaise (Core.writeP_eq c n v) :)
@[simp] theorem Core.push_abortRaise (c : Core) (v : Word) :
    (c.push v).abortRaise = c.abortRaise := (congrArg Core.abortRaise (Core.push_eq c v) :)
@[simp] theorem Core.writeD_preemptPend (c : Core) (d : Operand) (v : Word) :
    (c.writeD d v).preemptPend = c.preemptPend := (congrArg Core.preemptPend (Core.writeD_eq c d v) :)
@[simp] theorem Core.writeS_preemptPend (c : Core) (n : BitVec 5) (v : Word) :
    (c.writeS n v).preemptPend = c.preemptPend := (congrArg Core.preemptPend (Core.writeS_eq c n v) :)
@[simp] theorem Core.writeP_preemptPend (c : Core) (n : BitVec 3) (v : Bool) :
    (c.writeP n v).preemptPend = c.preemptPend := (congrArg Core.preemptPend (Core.writeP_eq c n v) :)
@[simp] theorem Core.push_preemptPend (c : Core) (v : Word) :
    (c.push v).preemptPend = c.preemptPend := (congrArg Core.preemptPend (Core.push_eq c v) :)
@[simp] theorem Core.writeD_preemptAt (c : Core) (d : Operand) (v : Word) :
    (c.writeD d v).preemptAt = c.preemptAt := (congrArg Core.preemptAt (Core.writeD_eq c d v) :)
@[simp] theorem Core.writeS_preemptAt (c : Core) (n : BitVec 5) (v : Word) :
    (c.writeS n v).preemptAt = c.preemptAt := (congrArg Core.preemptAt (Core.writeS_eq c n v) :)
@[simp] theorem Core.writeP_preemptAt (c : Core) (n : BitVec 3) (v : Bool) :
    (c.writeP n v).preemptAt = c.preemptAt := (congrArg Core.preemptAt (Core.writeP_eq c n v) :)
@[simp] theorem Core.push_preemptAt (c : Core) (v : Word) :
    (c.push v).preemptAt = c.preemptAt := (congrArg Core.preemptAt (Core.push_eq c v) :)
@[simp] theorem Core.writeD_hold (c : Core) (d : Operand) (v : Word) :
    (c.writeD d v).hold = c.hold := (congrArg Core.hold (Core.writeD_eq c d v) :)
@[simp] theorem Core.writeS_hold (c : Core) (n : BitVec 5) (v : Word) :
    (c.writeS n v).hold = c.hold := (congrArg Core.hold (Core.writeS_eq c n v) :)
@[simp] theorem Core.writeP_hold (c : Core) (n : BitVec 3) (v : Bool) :
    (c.writeP n v).hold = c.hold := (congrArg Core.hold (Core.writeP_eq c n v) :)
@[simp] theorem Core.push_hold (c : Core) (v : Word) :
    (c.push v).hold = c.hold := (congrArg Core.hold (Core.push_eq c v) :)
@[simp] theorem Core.writeD_wait (c : Core) (d : Operand) (v : Word) :
    (c.writeD d v).wait = c.wait := (congrArg Core.wait (Core.writeD_eq c d v) :)
@[simp] theorem Core.writeS_wait (c : Core) (n : BitVec 5) (v : Word) :
    (c.writeS n v).wait = c.wait := (congrArg Core.wait (Core.writeS_eq c n v) :)
@[simp] theorem Core.writeP_wait (c : Core) (n : BitVec 3) (v : Bool) :
    (c.writeP n v).wait = c.wait := (congrArg Core.wait (Core.writeP_eq c n v) :)
@[simp] theorem Core.push_wait (c : Core) (v : Word) :
    (c.push v).wait = c.wait := (congrArg Core.wait (Core.push_eq c v) :)
@[simp] theorem Core.writeD_wake (c : Core) (d : Operand) (v : Word) :
    (c.writeD d v).wake = c.wake := (congrArg Core.wake (Core.writeD_eq c d v) :)
@[simp] theorem Core.writeS_wake (c : Core) (n : BitVec 5) (v : Word) :
    (c.writeS n v).wake = c.wake := (congrArg Core.wake (Core.writeS_eq c n v) :)
@[simp] theorem Core.writeP_wake (c : Core) (n : BitVec 3) (v : Bool) :
    (c.writeP n v).wake = c.wake := (congrArg Core.wake (Core.writeP_eq c n v) :)
@[simp] theorem Core.push_wake (c : Core) (v : Word) :
    (c.push v).wake = c.wake := (congrArg Core.wake (Core.push_eq c v) :)
@[simp] theorem Core.writeD_arrived (c : Core) (d : Operand) (v : Word) :
    (c.writeD d v).arrived = c.arrived := (congrArg Core.arrived (Core.writeD_eq c d v) :)
@[simp] theorem Core.writeS_arrived (c : Core) (n : BitVec 5) (v : Word) :
    (c.writeS n v).arrived = c.arrived := (congrArg Core.arrived (Core.writeS_eq c n v) :)
@[simp] theorem Core.writeP_arrived (c : Core) (n : BitVec 3) (v : Bool) :
    (c.writeP n v).arrived = c.arrived := (congrArg Core.arrived (Core.writeP_eq c n v) :)
@[simp] theorem Core.push_arrived (c : Core) (v : Word) :
    (c.push v).arrived = c.arrived := (congrArg Core.arrived (Core.push_eq c v) :)
@[simp] theorem Core.writeD_atomSeq (c : Core) (d : Operand) (v : Word) :
    (c.writeD d v).atomSeq = c.atomSeq := (congrArg Core.atomSeq (Core.writeD_eq c d v) :)
@[simp] theorem Core.writeS_atomSeq (c : Core) (n : BitVec 5) (v : Word) :
    (c.writeS n v).atomSeq = c.atomSeq := (congrArg Core.atomSeq (Core.writeS_eq c n v) :)
@[simp] theorem Core.writeP_atomSeq (c : Core) (n : BitVec 3) (v : Bool) :
    (c.writeP n v).atomSeq = c.atomSeq := (congrArg Core.atomSeq (Core.writeP_eq c n v) :)
@[simp] theorem Core.push_atomSeq (c : Core) (v : Word) :
    (c.push v).atomSeq = c.atomSeq := (congrArg Core.atomSeq (Core.push_eq c v) :)
@[simp] theorem Core.writeD_lostPlace (c : Core) (d : Operand) (v : Word) :
    (c.writeD d v).lostPlace = c.lostPlace := (congrArg Core.lostPlace (Core.writeD_eq c d v) :)
@[simp] theorem Core.writeS_lostPlace (c : Core) (n : BitVec 5) (v : Word) :
    (c.writeS n v).lostPlace = c.lostPlace := (congrArg Core.lostPlace (Core.writeS_eq c n v) :)
@[simp] theorem Core.writeP_lostPlace (c : Core) (n : BitVec 3) (v : Bool) :
    (c.writeP n v).lostPlace = c.lostPlace := (congrArg Core.lostPlace (Core.writeP_eq c n v) :)
@[simp] theorem Core.push_lostPlace (c : Core) (v : Word) :
    (c.push v).lostPlace = c.lostPlace := (congrArg Core.lostPlace (Core.push_eq c v) :)
@[simp] theorem Core.writeD_tredCause (c : Core) (d : Operand) (v : Word) :
    (c.writeD d v).tredCause = c.tredCause := (congrArg Core.tredCause (Core.writeD_eq c d v) :)
@[simp] theorem Core.writeS_tredCause (c : Core) (n : BitVec 5) (v : Word) :
    (c.writeS n v).tredCause = c.tredCause := (congrArg Core.tredCause (Core.writeS_eq c n v) :)
@[simp] theorem Core.writeP_tredCause (c : Core) (n : BitVec 3) (v : Bool) :
    (c.writeP n v).tredCause = c.tredCause := (congrArg Core.tredCause (Core.writeP_eq c n v) :)
@[simp] theorem Core.push_tredCause (c : Core) (v : Word) :
    (c.push v).tredCause = c.tredCause := (congrArg Core.tredCause (Core.push_eq c v) :)
@[simp] theorem Core.writeD_colls (c : Core) (d : Operand) (v : Word) :
    (c.writeD d v).colls = c.colls := (congrArg Core.colls (Core.writeD_eq c d v) :)
@[simp] theorem Core.writeS_colls (c : Core) (n : BitVec 5) (v : Word) :
    (c.writeS n v).colls = c.colls := (congrArg Core.colls (Core.writeS_eq c n v) :)
@[simp] theorem Core.writeP_colls (c : Core) (n : BitVec 3) (v : Bool) :
    (c.writeP n v).colls = c.colls := (congrArg Core.colls (Core.writeP_eq c n v) :)
@[simp] theorem Core.push_colls (c : Core) (v : Word) :
    (c.push v).colls = c.colls := (congrArg Core.colls (Core.push_eq c v) :)
@[simp] theorem Core.writeD_cqin (c : Core) (d : Operand) (v : Word) :
    (c.writeD d v).cqin = c.cqin := (congrArg Core.cqin (Core.writeD_eq c d v) :)
@[simp] theorem Core.writeS_cqin (c : Core) (n : BitVec 5) (v : Word) :
    (c.writeS n v).cqin = c.cqin := (congrArg Core.cqin (Core.writeS_eq c n v) :)
@[simp] theorem Core.writeP_cqin (c : Core) (n : BitVec 3) (v : Bool) :
    (c.writeP n v).cqin = c.cqin := (congrArg Core.cqin (Core.writeP_eq c n v) :)
@[simp] theorem Core.push_cqin (c : Core) (v : Word) :
    (c.push v).cqin = c.cqin := (congrArg Core.cqin (Core.push_eq c v) :)
@[simp] theorem Core.writeD_chunk (c : Core) (d : Operand) (v : Word) :
    (c.writeD d v).chunk = c.chunk := (congrArg Core.chunk (Core.writeD_eq c d v) :)
@[simp] theorem Core.writeS_chunk (c : Core) (n : BitVec 5) (v : Word) :
    (c.writeS n v).chunk = c.chunk := (congrArg Core.chunk (Core.writeS_eq c n v) :)
@[simp] theorem Core.writeP_chunk (c : Core) (n : BitVec 3) (v : Bool) :
    (c.writeP n v).chunk = c.chunk := (congrArg Core.chunk (Core.writeP_eq c n v) :)
@[simp] theorem Core.push_chunk (c : Core) (v : Word) :
    (c.push v).chunk = c.chunk := (congrArg Core.chunk (Core.push_eq c v) :)
@[simp] theorem Core.writeD_card (c : Core) (d : Operand) (v : Word) :
    (c.writeD d v).card = c.card := (congrArg Core.card (Core.writeD_eq c d v) :)
@[simp] theorem Core.writeS_card (c : Core) (n : BitVec 5) (v : Word) :
    (c.writeS n v).card = c.card := (congrArg Core.card (Core.writeS_eq c n v) :)
@[simp] theorem Core.writeP_card (c : Core) (n : BitVec 3) (v : Bool) :
    (c.writeP n v).card = c.card := (congrArg Core.card (Core.writeP_eq c n v) :)
@[simp] theorem Core.push_card (c : Core) (v : Word) :
    (c.push v).card = c.card := (congrArg Core.card (Core.push_eq c v) :)
@[simp] theorem Core.writeD_heldCard (c : Core) (d : Operand) (v : Word) :
    (c.writeD d v).heldCard = c.heldCard := (congrArg Core.heldCard (Core.writeD_eq c d v) :)
@[simp] theorem Core.writeS_heldCard (c : Core) (n : BitVec 5) (v : Word) :
    (c.writeS n v).heldCard = c.heldCard := (congrArg Core.heldCard (Core.writeS_eq c n v) :)
@[simp] theorem Core.writeP_heldCard (c : Core) (n : BitVec 3) (v : Bool) :
    (c.writeP n v).heldCard = c.heldCard := (congrArg Core.heldCard (Core.writeP_eq c n v) :)
@[simp] theorem Core.push_heldCard (c : Core) (v : Word) :
    (c.push v).heldCard = c.heldCard := (congrArg Core.heldCard (Core.push_eq c v) :)
@[simp] theorem Core.writeD_seen (c : Core) (d : Operand) (v : Word) :
    (c.writeD d v).seen = c.seen := (congrArg Core.seen (Core.writeD_eq c d v) :)
@[simp] theorem Core.writeS_seen (c : Core) (n : BitVec 5) (v : Word) :
    (c.writeS n v).seen = c.seen := (congrArg Core.seen (Core.writeS_eq c n v) :)
@[simp] theorem Core.writeP_seen (c : Core) (n : BitVec 3) (v : Bool) :
    (c.writeP n v).seen = c.seen := (congrArg Core.seen (Core.writeP_eq c n v) :)
@[simp] theorem Core.push_seen (c : Core) (v : Word) :
    (c.push v).seen = c.seen := (congrArg Core.seen (Core.push_eq c v) :)
@[simp] theorem Core.writeD_idled (c : Core) (d : Operand) (v : Word) :
    (c.writeD d v).idled = c.idled := (congrArg Core.idled (Core.writeD_eq c d v) :)
@[simp] theorem Core.writeS_idled (c : Core) (n : BitVec 5) (v : Word) :
    (c.writeS n v).idled = c.idled := (congrArg Core.idled (Core.writeS_eq c n v) :)
@[simp] theorem Core.writeP_idled (c : Core) (n : BitVec 3) (v : Bool) :
    (c.writeP n v).idled = c.idled := (congrArg Core.idled (Core.writeP_eq c n v) :)
@[simp] theorem Core.push_idled (c : Core) (v : Word) :
    (c.push v).idled = c.idled := (congrArg Core.idled (Core.push_eq c v) :)
@[simp] theorem Core.writeD_timed (c : Core) (d : Operand) (v : Word) :
    (c.writeD d v).timed = c.timed := (congrArg Core.timed (Core.writeD_eq c d v) :)
@[simp] theorem Core.writeS_timed (c : Core) (n : BitVec 5) (v : Word) :
    (c.writeS n v).timed = c.timed := (congrArg Core.timed (Core.writeS_eq c n v) :)
@[simp] theorem Core.writeP_timed (c : Core) (n : BitVec 3) (v : Bool) :
    (c.writeP n v).timed = c.timed := (congrArg Core.timed (Core.writeP_eq c n v) :)
@[simp] theorem Core.push_timed (c : Core) (v : Word) :
    (c.push v).timed = c.timed := (congrArg Core.timed (Core.push_eq c v) :)
@[simp] theorem Core.writeD_nextComm (c : Core) (d : Operand) (v : Word) :
    (c.writeD d v).nextComm = c.nextComm := (congrArg Core.nextComm (Core.writeD_eq c d v) :)
@[simp] theorem Core.writeS_nextComm (c : Core) (n : BitVec 5) (v : Word) :
    (c.writeS n v).nextComm = c.nextComm := (congrArg Core.nextComm (Core.writeS_eq c n v) :)
@[simp] theorem Core.writeP_nextComm (c : Core) (n : BitVec 3) (v : Bool) :
    (c.writeP n v).nextComm = c.nextComm := (congrArg Core.nextComm (Core.writeP_eq c n v) :)
@[simp] theorem Core.push_nextComm (c : Core) (v : Word) :
    (c.push v).nextComm = c.nextComm := (congrArg Core.nextComm (Core.push_eq c v) :)
@[simp] theorem Core.writeD_mark (c : Core) (d : Operand) (v : Word) :
    (c.writeD d v).mark = c.mark := (congrArg Core.mark (Core.writeD_eq c d v) :)
@[simp] theorem Core.writeS_mark (c : Core) (n : BitVec 5) (v : Word) :
    (c.writeS n v).mark = c.mark := (congrArg Core.mark (Core.writeS_eq c n v) :)
@[simp] theorem Core.writeP_mark (c : Core) (n : BitVec 3) (v : Bool) :
    (c.writeP n v).mark = c.mark := (congrArg Core.mark (Core.writeP_eq c n v) :)
@[simp] theorem Core.push_mark (c : Core) (v : Word) :
    (c.push v).mark = c.mark := (congrArg Core.mark (Core.push_eq c v) :)
@[simp] theorem Core.writeD_pmark (c : Core) (d : Operand) (v : Word) :
    (c.writeD d v).pmark = c.pmark := (congrArg Core.pmark (Core.writeD_eq c d v) :)
@[simp] theorem Core.writeS_pmark (c : Core) (n : BitVec 5) (v : Word) :
    (c.writeS n v).pmark = c.pmark := (congrArg Core.pmark (Core.writeS_eq c n v) :)
@[simp] theorem Core.writeP_pmark (c : Core) (n : BitVec 3) (v : Bool) :
    (c.writeP n v).pmark = c.pmark := (congrArg Core.pmark (Core.writeP_eq c n v) :)
@[simp] theorem Core.push_pmark (c : Core) (v : Word) :
    (c.push v).pmark = c.pmark := (congrArg Core.pmark (Core.push_eq c v) :)
@[simp] theorem Core.writeD_rbTarget (c : Core) (d : Operand) (v : Word) :
    (c.writeD d v).rbTarget = c.rbTarget := (congrArg Core.rbTarget (Core.writeD_eq c d v) :)
@[simp] theorem Core.writeS_rbTarget (c : Core) (n : BitVec 5) (v : Word) :
    (c.writeS n v).rbTarget = c.rbTarget := (congrArg Core.rbTarget (Core.writeS_eq c n v) :)
@[simp] theorem Core.writeP_rbTarget (c : Core) (n : BitVec 3) (v : Bool) :
    (c.writeP n v).rbTarget = c.rbTarget := (congrArg Core.rbTarget (Core.writeP_eq c n v) :)
@[simp] theorem Core.push_rbTarget (c : Core) (v : Word) :
    (c.push v).rbTarget = c.rbTarget := (congrArg Core.rbTarget (Core.push_eq c v) :)
@[simp] theorem Core.writeD_rxbuf (c : Core) (d : Operand) (v : Word) :
    (c.writeD d v).rxbuf = c.rxbuf := (congrArg Core.rxbuf (Core.writeD_eq c d v) :)
@[simp] theorem Core.writeS_rxbuf (c : Core) (n : BitVec 5) (v : Word) :
    (c.writeS n v).rxbuf = c.rxbuf := (congrArg Core.rxbuf (Core.writeS_eq c n v) :)
@[simp] theorem Core.writeP_rxbuf (c : Core) (n : BitVec 3) (v : Bool) :
    (c.writeP n v).rxbuf = c.rxbuf := (congrArg Core.rxbuf (Core.writeP_eq c n v) :)
@[simp] theorem Core.push_rxbuf (c : Core) (v : Word) :
    (c.push v).rxbuf = c.rxbuf := (congrArg Core.rxbuf (Core.push_eq c v) :)
@[simp] theorem Core.writeD_lanes (c : Core) (d : Operand) (v : Word) :
    (c.writeD d v).lanes = c.lanes := (congrArg Core.lanes (Core.writeD_eq c d v) :)
@[simp] theorem Core.writeS_lanes (c : Core) (n : BitVec 5) (v : Word) :
    (c.writeS n v).lanes = c.lanes := (congrArg Core.lanes (Core.writeS_eq c n v) :)
@[simp] theorem Core.writeP_lanes (c : Core) (n : BitVec 3) (v : Bool) :
    (c.writeP n v).lanes = c.lanes := (congrArg Core.lanes (Core.writeP_eq c n v) :)
@[simp] theorem Core.push_lanes (c : Core) (v : Word) :
    (c.push v).lanes = c.lanes := (congrArg Core.lanes (Core.push_eq c v) :)
@[simp] theorem Core.writeD_holdUntil (c : Core) (d : Operand) (v : Word) :
    (c.writeD d v).holdUntil = c.holdUntil := (congrArg Core.holdUntil (Core.writeD_eq c d v) :)
@[simp] theorem Core.writeS_holdUntil (c : Core) (n : BitVec 5) (v : Word) :
    (c.writeS n v).holdUntil = c.holdUntil := (congrArg Core.holdUntil (Core.writeS_eq c n v) :)
@[simp] theorem Core.writeP_holdUntil (c : Core) (n : BitVec 3) (v : Bool) :
    (c.writeP n v).holdUntil = c.holdUntil := (congrArg Core.holdUntil (Core.writeP_eq c n v) :)
@[simp] theorem Core.push_holdUntil (c : Core) (v : Word) :
    (c.push v).holdUntil = c.holdUntil := (congrArg Core.holdUntil (Core.push_eq c v) :)
@[simp] theorem Core.writeD_reuseA (c : Core) (d : Operand) (v : Word) :
    (c.writeD d v).reuseA = c.reuseA := (congrArg Core.reuseA (Core.writeD_eq c d v) :)
@[simp] theorem Core.writeS_reuseA (c : Core) (n : BitVec 5) (v : Word) :
    (c.writeS n v).reuseA = c.reuseA := (congrArg Core.reuseA (Core.writeS_eq c n v) :)
@[simp] theorem Core.writeP_reuseA (c : Core) (n : BitVec 3) (v : Bool) :
    (c.writeP n v).reuseA = c.reuseA := (congrArg Core.reuseA (Core.writeP_eq c n v) :)
@[simp] theorem Core.push_reuseA (c : Core) (v : Word) :
    (c.push v).reuseA = c.reuseA := (congrArg Core.reuseA (Core.push_eq c v) :)
@[simp] theorem Core.writeD_reuseB (c : Core) (d : Operand) (v : Word) :
    (c.writeD d v).reuseB = c.reuseB := (congrArg Core.reuseB (Core.writeD_eq c d v) :)
@[simp] theorem Core.writeS_reuseB (c : Core) (n : BitVec 5) (v : Word) :
    (c.writeS n v).reuseB = c.reuseB := (congrArg Core.reuseB (Core.writeS_eq c n v) :)
@[simp] theorem Core.writeP_reuseB (c : Core) (n : BitVec 3) (v : Bool) :
    (c.writeP n v).reuseB = c.reuseB := (congrArg Core.reuseB (Core.writeP_eq c n v) :)
@[simp] theorem Core.push_reuseB (c : Core) (v : Word) :
    (c.push v).reuseB = c.reuseB := (congrArg Core.reuseB (Core.push_eq c v) :)
@[simp] theorem Core.writeD_board (c : Core) (d : Operand) (v : Word) :
    (c.writeD d v).board = c.board := (congrArg Core.board (Core.writeD_eq c d v) :)
@[simp] theorem Core.writeS_board (c : Core) (n : BitVec 5) (v : Word) :
    (c.writeS n v).board = c.board := (congrArg Core.board (Core.writeS_eq c n v) :)
@[simp] theorem Core.writeP_board (c : Core) (n : BitVec 3) (v : Bool) :
    (c.writeP n v).board = c.board := (congrArg Core.board (Core.writeP_eq c n v) :)
@[simp] theorem Core.push_board (c : Core) (v : Word) :
    (c.push v).board = c.board := (congrArg Core.board (Core.push_eq c v) :)
@[simp] theorem Core.writeD_works (c : Core) (d : Operand) (v : Word) :
    (c.writeD d v).works = c.works := (congrArg Core.works (Core.writeD_eq c d v) :)
@[simp] theorem Core.writeS_works (c : Core) (n : BitVec 5) (v : Word) :
    (c.writeS n v).works = c.works := (congrArg Core.works (Core.writeS_eq c n v) :)
@[simp] theorem Core.writeP_works (c : Core) (n : BitVec 3) (v : Bool) :
    (c.writeP n v).works = c.works := (congrArg Core.works (Core.writeP_eq c n v) :)
@[simp] theorem Core.push_works (c : Core) (v : Word) :
    (c.push v).works = c.works := (congrArg Core.works (Core.push_eq c v) :)
@[simp] theorem Core.writeD_lag (c : Core) (d : Operand) (v : Word) :
    (c.writeD d v).lag = c.lag := (congrArg Core.lag (Core.writeD_eq c d v) :)
@[simp] theorem Core.writeS_lag (c : Core) (n : BitVec 5) (v : Word) :
    (c.writeS n v).lag = c.lag := (congrArg Core.lag (Core.writeS_eq c n v) :)
@[simp] theorem Core.writeP_lag (c : Core) (n : BitVec 3) (v : Bool) :
    (c.writeP n v).lag = c.lag := (congrArg Core.lag (Core.writeP_eq c n v) :)
@[simp] theorem Core.push_lag (c : Core) (v : Word) :
    (c.push v).lag = c.lag := (congrArg Core.lag (Core.push_eq c v) :)
@[simp] theorem Core.writeD_solo (c : Core) (d : Operand) (v : Word) :
    (c.writeD d v).solo = c.solo := (congrArg Core.solo (Core.writeD_eq c d v) :)
@[simp] theorem Core.writeS_solo (c : Core) (n : BitVec 5) (v : Word) :
    (c.writeS n v).solo = c.solo := (congrArg Core.solo (Core.writeS_eq c n v) :)
@[simp] theorem Core.writeP_solo (c : Core) (n : BitVec 3) (v : Bool) :
    (c.writeP n v).solo = c.solo := (congrArg Core.solo (Core.writeP_eq c n v) :)
@[simp] theorem Core.push_solo (c : Core) (v : Word) :
    (c.push v).solo = c.solo := (congrArg Core.solo (Core.push_eq c v) :)
@[simp] theorem Core.writeD_skip (c : Core) (d : Operand) (v : Word) :
    (c.writeD d v).skip = c.skip := (congrArg Core.skip (Core.writeD_eq c d v) :)
@[simp] theorem Core.writeS_skip (c : Core) (n : BitVec 5) (v : Word) :
    (c.writeS n v).skip = c.skip := (congrArg Core.skip (Core.writeS_eq c n v) :)
@[simp] theorem Core.writeP_skip (c : Core) (n : BitVec 3) (v : Bool) :
    (c.writeP n v).skip = c.skip := (congrArg Core.skip (Core.writeP_eq c n v) :)
@[simp] theorem Core.push_skip (c : Core) (v : Word) :
    (c.push v).skip = c.skip := (congrArg Core.skip (Core.push_eq c v) :)
@[simp] theorem Core.writeD_rowLimit (c : Core) (d : Operand) (v : Word) :
    (c.writeD d v).rowLimit = c.rowLimit := (congrArg Core.rowLimit (Core.writeD_eq c d v) :)
@[simp] theorem Core.writeS_rowLimit (c : Core) (n : BitVec 5) (v : Word) :
    (c.writeS n v).rowLimit = c.rowLimit := (congrArg Core.rowLimit (Core.writeS_eq c n v) :)
@[simp] theorem Core.writeP_rowLimit (c : Core) (n : BitVec 3) (v : Bool) :
    (c.writeP n v).rowLimit = c.rowLimit := (congrArg Core.rowLimit (Core.writeP_eq c n v) :)
@[simp] theorem Core.push_rowLimit (c : Core) (v : Word) :
    (c.push v).rowLimit = c.rowLimit := (congrArg Core.rowLimit (Core.push_eq c v) :)
@[simp] theorem Core.writeD_hwImage (c : Core) (d : Operand) (v : Word) :
    (c.writeD d v).hwImage = c.hwImage := (congrArg Core.hwImage (Core.writeD_eq c d v) :)
@[simp] theorem Core.writeS_hwImage (c : Core) (n : BitVec 5) (v : Word) :
    (c.writeS n v).hwImage = c.hwImage := (congrArg Core.hwImage (Core.writeS_eq c n v) :)
@[simp] theorem Core.writeP_hwImage (c : Core) (n : BitVec 3) (v : Bool) :
    (c.writeP n v).hwImage = c.hwImage := (congrArg Core.hwImage (Core.writeP_eq c n v) :)
@[simp] theorem Core.push_hwImage (c : Core) (v : Word) :
    (c.push v).hwImage = c.hwImage := (congrArg Core.hwImage (Core.push_eq c v) :)
@[simp] theorem Core.writeD_savedTimed (c : Core) (d : Operand) (v : Word) :
    (c.writeD d v).savedTimed = c.savedTimed := (congrArg Core.savedTimed (Core.writeD_eq c d v) :)
@[simp] theorem Core.writeS_savedTimed (c : Core) (n : BitVec 5) (v : Word) :
    (c.writeS n v).savedTimed = c.savedTimed := (congrArg Core.savedTimed (Core.writeS_eq c n v) :)
@[simp] theorem Core.writeP_savedTimed (c : Core) (n : BitVec 3) (v : Bool) :
    (c.writeP n v).savedTimed = c.savedTimed := (congrArg Core.savedTimed (Core.writeP_eq c n v) :)
@[simp] theorem Core.push_savedTimed (c : Core) (v : Word) :
    (c.push v).savedTimed = c.savedTimed := (congrArg Core.savedTimed (Core.push_eq c v) :)
@[simp] theorem Core.writeD_sys (c : Core) (d : Operand) (v : Word) :
    (c.writeD d v).sys = c.sys := (congrArg Core.sys (Core.writeD_eq c d v) :)
@[simp] theorem Core.writeS_sys (c : Core) (n : BitVec 5) (v : Word) :
    (c.writeS n v).sys = c.sys := (congrArg Core.sys (Core.writeS_eq c n v) :)
@[simp] theorem Core.writeP_sys (c : Core) (n : BitVec 3) (v : Bool) :
    (c.writeP n v).sys = c.sys := (congrArg Core.sys (Core.writeP_eq c n v) :)
@[simp] theorem Core.push_sys (c : Core) (v : Word) :
    (c.push v).sys = c.sys := (congrArg Core.sys (Core.push_eq c v) :)

end Sys2Proof.Machine
end

