-- ==== Sys2Proof/Laws/Issue.lean ====
section
/-!
SUPPORT. The frame every instruction issues through: it always answers a next state, and what that state is when nothing
stands in the way.
-/

namespace Sys2Proof.Machine

/-- Issue always answers a next state. -/
theorem issue_next (f : Form) (x : Args) (s : State) (body : Args → State → Res) : ∃ t, issue f x s body = .next t := by
  unfold issue
  split
  · exact ⟨_, rfl⟩
  · split <;> exact ⟨_, rfl⟩

theorem notOnMemoryCore_next (f : Form) (x : Args) (s : State) (body : Args → State → Res) :
    ∃ t, notOnMemoryCore f x s body = .next t := by
  unfold notOnMemoryCore
  split
  · exact ⟨_, rfl⟩
  · exact issue_next f x s body

theorem spend_next {o : Out} (h : ∃ t, o = .next t) : ∃ t, spend o = .next t := by
  obtain ⟨t, rfl⟩ := h
  exact ⟨_, rfl⟩

/-- What `issues` says, condition by condition. -/
theorem State.issues_iff (s : State) (f : Form) (x : Args) :
    s.issues f x = true ↔ s.core.ganged = false ∧ s.preemptDue x.head = false ∧ s.core.skip = false
      ∧ s.core.guard x.head = true ∧ s.core.check f x.head = none ∧ s.supplied f x = true := by
  simp [State.issues, and_assoc]

/-- The clock does not leave or enter a timed region. -/
@[simp] theorem State.clock_timed_active (s : State) (h : Head) : (s.clock h).core.timed.active = s.core.timed.active := by
  simp only [State.clock]
  split
  · split
    · unfold State.recordMark; split <;> rfl
    · rfl
  · rfl

@[simp] theorem State.clock_owes (s : State) (h : Head) (os : List Operand) : (s.clock h).core.owes os = s.core.owes os := by
  simp [Core.owes]

/-- In a free phase an instruction acts on the clocked state. -/
theorem State.begun_free (s : State) (f : Form) (x : Args) (h : s.core.timed.active = false) : s.begun f x = s.clock x.head := by
  unfold State.begun State.modC
  simp only [State.clock_timed_active, h]
  rfl

/-- An instruction that issues: its outcome is its body's, on the operands of the current pass. -/
theorem issue_eq (f : Form) (x : Args) (s : State) (body : Args → State → Res) (h : s.issues f x = true) :
    issue f x s body = .next ((body (passArgs x s.core.sys.repst) (s.begun f x)).settle s.core) := by
  obtain ⟨h1, h2, h3, h4, h5, h6⟩ := (s.issues_iff f x).mp h
  cases ht : s.core.timed.active
  · have h6' : s.core.owes (x.a :: x.b :: f.reads) = false := by simpa [State.supplied, ht] using h6
    simp [issue, issueOne, h1, h2, h3, h4, h5, ht, h6', State.begun_free]
  · have h6' : (s.clock x.head).core.earlyScalar (.p x.head.gp false) = false ∧ (s.clock x.head).core.early f x = none := by
      simpa [State.supplied, ht] using h6
    simp [issue, issueOne, h1, h2, h3, h4, h5, ht, h6'.1, h6'.2, State.begun, State.modC]

/-- Outside a repetition the operands are those of the word. -/
theorem passArgs_idle (x : Args) (r : Word) (h : repAct r = false) : passArgs x r = x := by simp [passArgs, h]

theorem issue_free (f : Form) (x : Args) (s : State) (body : Args → State → Res) (h : s.issuesFree f x = true) :
    issue f x s body = .next ((body x (s.clock x.head)).settle s.core) := by
  simp only [State.issuesFree, Bool.and_eq_true, Bool.not_eq_true'] at h
  rw [issue_eq f x s body h.1.1, passArgs_idle _ _ h.2, State.begun_free _ _ _ h.1.2]

/-- An instruction whose guard is false, in no gang: it only takes its slot, once its predicate is there. -/
theorem issue_guarded (f : Form) (x : Args) (s : State) (body : Args → State → Res) (h1 : s.core.ganged = false)
    (h2 : s.preemptDue x.head = false) (h3 : s.core.skip = false) (h4 : s.core.guard x.head = false)
    (h5 : s.core.timed.active = true → (s.clock x.head).core.earlyScalar (.p x.head.gp false) = false) :
    issue f x s body = .next (s.clock x.head).retire := by
  cases ht : s.core.timed.active
  · simp [issue, issueOne, h1, h2, h3, h4, ht, Res.settle]
  · simp [issue, issueOne, h1, h2, h3, h4, ht, h5 ht, Res.settle]

/-- A cause of checks 3 and 4. -/
theorem issue_refused (f : Form) (x : Args) (s : State) (body : Args → State → Res) (code : BitVec 8)
    (h1 : s.core.ganged = false) (h2 : s.preemptDue x.head = false) (h3 : s.core.skip = false)
    (h4 : s.core.guard x.head = true) (h5 : s.core.check f x.head = some code)
    (h6 : s.core.timed.active = true → (s.clock x.head).core.earlyScalar (.p x.head.gp false) = false) :
    issue f x s body = .next (s.takes x.head (cause code)) := by
  cases ht : s.core.timed.active
  · simp [issue, issueOne, h1, h2, h3, h4, h5, ht, Res.settle, State.takes, cause]
  · simp [issue, issueOne, h1, h2, h3, h4, h5, ht, h6 ht, Res.settle, State.takes, cause]

/-- Outside a gang an instruction that a PREEMPT does not pre-empt, and that nothing skips, settles what its copy makes of it. -/
theorem issue_one (f : Form) (x : Args) (s : State) (body : Args → State → Res) (h1 : s.core.ganged = false)
    (h2 : s.preemptDue x.head = false) :
    issue f x s body = .next ((issueOne f x (s.core.guard x.head) s.core (s.clock x.head) body).settle s.core) := by
  simp [issue, h1, h2]

end Sys2Proof.Machine
end

