-- ==== Sys2Proof/Laws/Mem.lean ====
section
/-!
SUPPORT. Laws of a memory: a read after a write, and that every operation keeps the canonical form.
-/

namespace Sys2Proof.Machine

theorem Mem.wfFrom_mono {lo lo' : Nat} (m : Mem) (h : lo' ≤ lo) (w : Mem.wfFrom lo m = true) : Mem.wfFrom lo' m = true := by
  cases m with
  | nil => rfl
  | cons p rest =>
    obtain ⟨a, b⟩ := p
    simp only [Mem.wfFrom, Bool.and_eq_true, decide_eq_true_eq] at w ⊢
    exact ⟨⟨Nat.le_trans h w.1.1, w.1.2⟩, w.2⟩

/-- An address below the bound is not listed. -/
theorem Mem.get_below (m : Mem) {lo x : Nat} (w : Mem.wfFrom lo m = true) (h : x < lo) : Mem.get m x = 0#8 := by
  cases m with
  | nil => rfl
  | cons p rest =>
    obtain ⟨a, b⟩ := p
    simp only [Mem.wfFrom, Bool.and_eq_true, decide_eq_true_eq] at w
    have : x < a := by omega
    simp [Mem.get, Nat.ne_of_gt this, this]

theorem Mem.put_wfFrom (m : Mem) {lo : Nat} (x : Nat) (v : Byte) (w : Mem.wfFrom lo m = true) (h : lo ≤ x) :
    Mem.wfFrom lo (Mem.put m x v) = true := by
  induction m generalizing lo with
  | nil => by_cases hv : v = 0#8 <;> simp [Mem.put, Mem.wfFrom, hv, h]
  | cons p rest ih =>
    obtain ⟨a, b⟩ := p
    simp only [Mem.wfFrom, Bool.and_eq_true, decide_eq_true_eq] at w
    obtain ⟨⟨w1, w2⟩, w3⟩ := w
    simp only [Mem.put]
    split
    · rename_i hx
      split
      · simp [Mem.wfFrom, w1, w2, w3]
      · rename_i hv
        have hr := w3
        simp [Mem.wfFrom, h, hv, w2, w3, Nat.succ_le_of_lt hx]
    · rename_i hx
      split
      · rename_i he
        split
        · exact Mem.wfFrom_mono rest (by omega) w3
        · rename_i hv
          simp [Mem.wfFrom, w1, hv, w3]
      · rename_i he
        have := ih w3 (by omega)
        simp [Mem.wfFrom, w1, w2, this]

/-- A write of one byte keeps the canonical form. -/
theorem Mem.put_wf (m : Mem) (x : Nat) (v : Byte) (w : Mem.wf m = true) : Mem.wf (Mem.put m x v) = true :=
  Mem.put_wfFrom m x v w (Nat.zero_le x)

theorem Mem.get_put_from (m : Mem) {lo : Nat} (x y : Nat) (v : Byte) (w : Mem.wfFrom lo m = true) :
    Mem.get (Mem.put m x v) y = if y = x then v else Mem.get m y := by
  induction m generalizing lo with
  | nil =>
    by_cases hv : v = 0#8
    · simp [Mem.put, Mem.get, hv]
    · by_cases hy : y = x
      · simp [Mem.put, Mem.get, hv, hy]
      · simp only [Mem.put, hv, Mem.get, if_false, hy]
        simp [Ne.symm hy]
  | cons p rest ih =>
    obtain ⟨a, b⟩ := p
    simp only [Mem.wfFrom, Bool.and_eq_true, decide_eq_true_eq] at w
    obtain ⟨⟨w1, w2⟩, w3⟩ := w
    simp only [Mem.put]
    split
    · rename_i hx
      split
      · rename_i hv
        by_cases hy : y = x
        · subst hy; simp [Mem.get, hv, Nat.ne_of_gt hx, hx]
        · simp [hy]
      · by_cases hy : y = x
        · simp [Mem.get, hy]
        · simp only [Mem.get, hy, if_false, Ne.symm hy]
          split
          · rename_i hlt
            have h1 : a ≠ y := by omega
            have h2 : y < a := by omega
            simp [h1, h2]
          · rfl
    · rename_i hx
      split
      · rename_i he
        subst he
        split
        · rename_i hv
          by_cases hy : y = x
          · subst hy; simp [hv, Mem.get_below rest w3 (Nat.lt_succ_self y)]
          · simp only [Mem.get, Ne.symm hy, if_false, hy]
            split
            · rename_i hlt
              exact Mem.get_below rest w3 (by omega)
            · rfl
        · by_cases hy : y = x
          · simp [Mem.get, hy]
          · simp [Mem.get, hy, Ne.symm hy]
      · rename_i he
        by_cases hya : a = y
        · have : y ≠ x := by omega
          simp [Mem.get, hya, this]
        · by_cases hlt : y < a
          · have : y ≠ x := by omega
            simp [Mem.get, hya, hlt, this]
          · simp only [Mem.get, hya, if_false, hlt]
            exact ih w3

/-- What a byte reads as after one byte is written. -/
theorem Mem.get_put (m : Mem) (x y : Nat) (v : Byte) (w : Mem.wf m = true) :
    Mem.get (Mem.put m x v) y = if y = x then v else Mem.get m y := Mem.get_put_from m x y v w

/-- A write of several bytes keeps the canonical form. -/
theorem Mem.putBytes_wf (bs : List Byte) (m : Mem) (x : Nat) (w : Mem.wf m = true) : Mem.wf (Mem.putBytes m x bs) = true := by
  induction bs generalizing m x with
  | nil => exact w
  | cons b rest ih => exact ih _ _ (Mem.put_wf m x b w)

/-- A byte outside the written ones reads as before. -/
theorem Mem.get_putBytes_outside (bs : List Byte) (m : Mem) (x y : Nat) (w : Mem.wf m = true)
    (h : y < x ∨ x + bs.length ≤ y) : Mem.get (Mem.putBytes m x bs) y = Mem.get m y := by
  induction bs generalizing m x with
  | nil => rfl
  | cons b rest ih =>
    simp only [List.length_cons] at h
    have hy : y ≠ x := by omega
    rw [Mem.putBytes, ih _ _ (Mem.put_wf m x b w) (by omega), Mem.get_put m x y b w]
    simp [hy]

/-- A written byte reads as written. -/
theorem Mem.get_putBytes_inside (bs : List Byte) (m : Mem) (x k : Nat) (w : Mem.wf m = true) (h : k < bs.length) :
    Mem.get (Mem.putBytes m x bs) (x + k) = bs[k] := by
  induction bs generalizing m x k with
  | nil => simp at h
  | cons b rest ih =>
    cases k with
    | zero =>
      rw [Mem.putBytes, Mem.get_putBytes_outside rest _ _ _ (Mem.put_wf m x b w) (by omega), Mem.get_put m x _ b w]
      simp
    | succ k =>
      simp only [List.length_cons] at h
      have := ih (Mem.put m x b) (x + 1) k (Mem.put_wf m x b w) (by omega)
      rw [Mem.putBytes, show x + (k + 1) = x + 1 + k by omega, this]
      simp

/-- A little-endian store keeps the canonical form. -/
theorem Mem.store_wf (m : Mem) (a n v : Nat) (w : Mem.wf m = true) : Mem.wf (Mem.store m a n v) = true :=
  Mem.putBytes_wf _ _ _ w

theorem toBytes_length (n v : Nat) : (toBytes n v).length = n := by
  induction n generalizing v with
  | zero => rfl
  | succ k ih => simp [toBytes, ih]

/-- Bytes of a value read back as the value. -/
theorem ofBytes_toBytes (n v : Nat) : ofBytes (toBytes n v) = v % 256 ^ n := by
  induction n generalizing v with
  | zero => simp [toBytes, ofBytes, Nat.mod_one]
  | succ k ih =>
    simp only [toBytes, ofBytes, ih, BitVec.toNat_ofNat]
    have e : 256 ^ (k + 1) = 256 * 256 ^ k := by rw [Nat.pow_succ, Nat.mul_comm]
    rw [e]
    exact Nat.mod_mul.symm

/-- A load after a store of the same bytes. -/
theorem Mem.load_store (m : Mem) (a n v : Nat) (w : Mem.wf m = true) : Mem.load (Mem.store m a n v) a n = v % 256 ^ n := by
  rw [← ofBytes_toBytes, Mem.load, Mem.store]
  congr 1
  apply List.ext_getElem
  · simp [Mem.getBytes, toBytes_length]
  · intro k h1 h2
    simp only [Mem.getBytes, List.getElem_map, List.getElem_range]
    exact Mem.get_putBytes_inside _ _ _ _ w h2

theorem Mem.wfFrom_filter (p : Host.Cell → Bool) (m : Mem) {lo : Nat} (w : Mem.wfFrom lo m = true) :
    Mem.wfFrom lo (m.filter p) = true := by
  induction m generalizing lo with
  | nil => rfl
  | cons c rest ih =>
    obtain ⟨a, b⟩ := c
    simp only [Mem.wfFrom, Bool.and_eq_true, decide_eq_true_eq] at w
    obtain ⟨⟨w1, w2⟩, w3⟩ := w
    simp only [List.filter_cons]
    split
    · simp [Mem.wfFrom, w1, w2, ih w3]
    · exact Mem.wfFrom_mono _ (by omega) (ih w3)

/-- A copied page keeps the canonical form. -/
theorem Mem.copyPage_wf (m : Mem) (src dst n : Nat) (w : Mem.wf m = true) : Mem.wf (Mem.copyPage m src dst n) = true := by
  have fold : ∀ (cells : List Host.Cell) (t : Mem), Mem.wf t = true →
      Mem.wf (cells.foldl (fun (t : Mem) (c : Host.Cell) => Mem.put t (c.1 - src + dst) c.2) t) = true := by
    intro cells
    induction cells with
    | nil => exact fun t h => h
    | cons c rest ih => exact fun t h => ih _ (Mem.put_wf t _ _ h)
  exact fold _ _ (Mem.wfFrom_filter _ m w)

end Sys2Proof.Machine
end

