-- ==== Sys2Proof/Tests/Slice0.lean ====
section
/-!
SUPPORT. Tests: a word of every instruction written out from the encoding tables of the spec, an ill-formed term for each
check, values that the spec works out, and for every statement with hypotheses a state that meets them. A tile, bank, page or
ring of the sample states is as small as the hypotheses allow.
-/

namespace Sys2Proof.Tests

/- Each test is one kernel evaluation; run one after the other they need the memory of one. -/
set_option Elab.async false

open Sys2Proof Sys2Proof.Machine Sys2Proof.Claims

/-! Words written out from the encoding tables of spec/07 (R139 to R150), one for each instruction: OP in bits 95..86, the
guard in 85..82, D, A and B in 81..28, MOD in 27..16, HINT in 15..0. -/

theorem test_decode_scalar_a :
    decode 0x000024002D0027B2E0000580#96 = .ok (.add_ ⟨⟨false, 0#3, 5#8, true, false, false⟩, .s 9#5, .q 13#4, .imm 31534#15⟩) ∧
    decode 0x004424002D0027B2E0002A00#96 = .ok (.sub_ ⟨⟨false, 1#3, 42#8, false, false, false⟩, .s 9#5, .q 13#4, .imm 31534#15⟩) ∧
    decode 0x008824002D0027B2E0004F00#96 = .ok (.mul_ ⟨⟨false, 2#3, 79#8, false, false, false⟩, .s 9#5, .q 13#4, .imm 31534#15⟩) ∧
    decode 0x00CC24002D0027B2E0007480#96 = .ok (.mulh ⟨⟨false, 3#3, 116#8, true, false, false⟩, .s 9#5, .q 13#4, .imm 31534#15⟩) ∧
    decode 0x011024002D0027B2E0009900#96 = .ok (.mulhn ⟨⟨false, 4#3, 153#8, false, false, false⟩, .s 9#5, .q 13#4, .imm 31534#15⟩) ∧
    decode 0x015424002D0027B2E000BE00#96 = .ok (.div_ ⟨⟨false, 5#3, 190#8, false, false, false⟩, .s 9#5, .q 13#4, .imm 31534#15⟩) ∧
    decode 0x019824002D0027B2E000E380#96 = .ok (.divn ⟨⟨false, 6#3, 227#8, true, false, false⟩, .s 9#5, .q 13#4, .imm 31534#15⟩) ∧
    decode 0x01DC24002D0027B2E0000800#96 = .ok (.mod_ ⟨⟨false, 7#3, 8#8, false, false, false⟩, .s 9#5, .q 13#4, .imm 31534#15⟩) ∧
    decode 0x022024002D0027B2E0002D00#96 = .ok (.modn ⟨⟨true, 0#3, 45#8, false, false, false⟩, .s 9#5, .q 13#4, .imm 31534#15⟩) ∧
    decode 0x026424002D0027B2E0005280#96 = .ok (.and_ ⟨⟨true, 1#3, 82#8, true, false, false⟩, .s 9#5, .q 13#4, .imm 31534#15⟩) ∧
    decode 0x02A824002D0027B2E0007700#96 = .ok (.or_ ⟨⟨true, 2#3, 119#8, false, false, false⟩, .s 9#5, .q 13#4, .imm 31534#15⟩) ∧
    decode 0x02EC24002D0027B2E0009C00#96 = .ok (.xor_ ⟨⟨true, 3#3, 156#8, false, false, false⟩, .s 9#5, .q 13#4, .imm 31534#15⟩) := by
  refine ⟨?_, ?_, ?_, ?_, ?_, ?_, ?_, ?_, ?_, ?_, ?_, ?_⟩ <;> decide +kernel

theorem test_decode_scalar_b :
    decode 0x033024002D0027B2E000C180#96 = .ok (.andn ⟨⟨true, 4#3, 193#8, true, false, false⟩, .s 9#5, .q 13#4, .imm 31534#15⟩) ∧
    decode 0x037424002D0027B2E000E600#96 = .ok (.orn ⟨⟨true, 5#3, 230#8, false, false, false⟩, .s 9#5, .q 13#4, .imm 31534#15⟩) ∧
    decode 0x03B824002D0027B2E0000B00#96 = .ok (.shl ⟨⟨true, 6#3, 11#8, false, false, false⟩, .s 9#5, .q 13#4, .imm 31534#15⟩) ∧
    decode 0x03FC24002D0027B2E0003080#96 = .ok (.shr ⟨⟨true, 7#3, 48#8, true, false, false⟩, .s 9#5, .q 13#4, .imm 31534#15⟩) ∧
    decode 0x040024002D0027B2E0005500#96 = .ok (.sha ⟨⟨false, 0#3, 85#8, false, false, false⟩, .s 9#5, .q 13#4, .imm 31534#15⟩) ∧
    decode 0x044424002D0027B2E0007A00#96 = .ok (.rol ⟨⟨false, 1#3, 122#8, false, false, false⟩, .s 9#5, .q 13#4, .imm 31534#15⟩) ∧
    decode 0x048824002D0027B2E0009F80#96 = .ok (.min_ ⟨⟨false, 2#3, 159#8, true, false, false⟩, .s 9#5, .q 13#4, .imm 31534#15⟩) ∧
    decode 0x04CC24002D0027B2E000C400#96 = .ok (.max_ ⟨⟨false, 3#3, 196#8, false, false, false⟩, .s 9#5, .q 13#4, .imm 31534#15⟩) ∧
    decode 0x051024002D0027B2E000E900#96 = .ok (.minn ⟨⟨false, 4#3, 233#8, false, false, false⟩, .s 9#5, .q 13#4, .imm 31534#15⟩) ∧
    decode 0x055424002D0027B2E0000E80#96 = .ok (.maxn ⟨⟨false, 5#3, 14#8, true, false, false⟩, .s 9#5, .q 13#4, .imm 31534#15⟩) ∧
    decode 0x059824001600000000003300#96 = .ok (.clz ⟨⟨false, 6#3, 51#8, false, false, false⟩, .s 9#5, .s 22#5, .s 0#5⟩) ∧
    decode 0x05DC24001600000000005800#96 = .ok (.ctz ⟨⟨false, 7#3, 88#8, false, false, false⟩, .s 9#5, .s 22#5, .s 0#5⟩) := by
  refine ⟨?_, ?_, ?_, ?_, ?_, ?_, ?_, ?_, ?_, ?_, ?_, ?_⟩ <;> decide +kernel

theorem test_decode_scalar_c :
    decode 0x062024001600000000007D80#96 = .ok (.popc ⟨⟨true, 0#3, 125#8, true, false, false⟩, .s 9#5, .s 22#5, .s 0#5⟩) ∧
    decode 0x06642400160000000025A200#96 = .ok (.sext ⟨⟨true, 1#3, 162#8, false, false, false⟩, .s 9#5, .s 22#5, .s 0#5⟩ 37#6) ∧
    decode 0x06A82400160000000025C700#96 = .ok (.zext ⟨⟨true, 2#3, 199#8, false, false, false⟩, .s 9#5, .s 22#5, .s 0#5⟩ 37#6) ∧
    decode 0x06EC2400160000000A53EC80#96 = .ok (.bfx ⟨⟨true, 3#3, 236#8, true, false, false⟩, .s 9#5, .s 22#5, .s 0#5⟩ ⟨41#6, 19#6⟩) ∧
    decode 0x073024002D0027B2EA531100#96 = .ok (.bfi ⟨⟨true, 4#3, 17#8, false, false, false⟩, .s 9#5, .q 13#4, .imm 31534#15⟩ ⟨41#6, 19#6⟩) ∧
    decode 0x077424007600000000003600#96 = .ok (.mov ⟨⟨true, 5#3, 54#8, false, false, false⟩, .s 9#5, .p 6#3 true, .s 0#5⟩) ∧
    decode 0x07B84C00A5C30F1E2D4B5B80#96 = .ok (.liw ⟨true, 6#3, 91#8, true, false, false⟩ (.s 19#5) 0xA5C30F1E2D4B#48) ∧
    decode 0x07FC24002D0027B2E0058000#96 = .ok (.lea ⟨⟨true, 7#3, 128#8, false, false, false⟩, .s 9#5, .q 13#4, .imm 31534#15⟩ 5#3) ∧
    decode 0x08018C002D0027B2E240A500#96 = .ok (.cmp ⟨⟨false, 0#3, 165#8, false, false, false⟩, .p 3#3 false, .q 13#4, .imm 31534#15⟩ 9#4) ∧
    decode 0x08442400740027B2E000CA80#96 = .ok (.sel ⟨⟨false, 1#3, 202#8, true, false, false⟩, .s 9#5, .p 4#3 true, .imm 31534#15⟩) := by
  refine ⟨?_, ?_, ?_, ?_, ?_, ?_, ?_, ?_, ?_, ?_⟩ <;> decide +kernel

theorem test_decode_float :
    decode 0x200824002D0027B2E800EF00#96 = .ok (.fadd ⟨⟨false, 2#3, 239#8, false, false, false⟩, .s 9#5, .q 13#4, .imm 31534#15⟩ 2#2) ∧
    decode 0x204C24002D0027B2E8001400#96 = .ok (.fsub ⟨⟨false, 3#3, 20#8, false, false, false⟩, .s 9#5, .q 13#4, .imm 31534#15⟩ 2#2) ∧
    decode 0x209024002D0027B2E8003980#96 = .ok (.fmul ⟨⟨false, 4#3, 57#8, true, false, false⟩, .s 9#5, .q 13#4, .imm 31534#15⟩ 2#2) ∧
    decode 0x20D424002D0027B2E8005E00#96 = .ok (.ffma ⟨⟨false, 5#3, 94#8, false, false, false⟩, .s 9#5, .q 13#4, .imm 31534#15⟩ 2#2) ∧
    decode 0x211824002D0027B2E0008300#96 = .ok (.fmin ⟨⟨false, 6#3, 131#8, false, false, false⟩, .s 9#5, .q 13#4, .imm 31534#15⟩) ∧
    decode 0x215C24002D0027B2E000A880#96 = .ok (.fmax ⟨⟨false, 7#3, 168#8, true, false, false⟩, .s 9#5, .q 13#4, .imm 31534#15⟩) ∧
    decode 0x21A18C002D0027B2E2C0CD00#96 = .ok (.fcmp ⟨⟨true, 0#3, 205#8, false, false, false⟩, .p 3#3 false, .q 13#4, .imm 31534#15⟩ 11#4) ∧
    decode 0x21E424002D0000000420F200#96 = .ok (.fcvti ⟨⟨true, 1#3, 242#8, false, false, false⟩, .s 9#5, .q 13#4, .s 0#5⟩ ⟨1#2, true⟩) ∧
    decode 0x222824002D00000004201780#96 = .ok (.fcvtf ⟨⟨true, 2#3, 23#8, true, false, false⟩, .s 9#5, .q 13#4, .s 0#5⟩ ⟨1#2, true⟩) ∧
    decode 0x226C24002D00000000003C00#96 = .ok (.frsqs ⟨⟨true, 3#3, 60#8, false, false, false⟩, .s 9#5, .q 13#4, .s 0#5⟩) ∧
    decode 0x22B024002D00000000006100#96 = .ok (.frcps ⟨⟨true, 4#3, 97#8, false, false, false⟩, .s 9#5, .q 13#4, .s 0#5⟩) := by
  refine ⟨?_, ?_, ?_, ?_, ?_, ?_, ?_, ?_, ?_, ?_, ?_⟩ <;> decide +kernel

theorem test_decode_control_a :
    decode 0x303400000000000000008680#96 = .ok (.nop ⟨⟨true, 5#3, 134#8, true, false, false⟩, .s 0#5, .s 0#5, .s 0#5⟩) ∧
    decode 0x30798C00740019400000AB00#96 = .ok (.pand ⟨⟨true, 6#3, 171#8, false, false, false⟩, .p 3#3 false, .p 4#3 true, .p 5#3 false⟩) ∧
    decode 0x30BD8C00740019400000D000#96 = .ok (.por ⟨⟨true, 7#3, 208#8, false, false, false⟩, .p 3#3 false, .p 4#3 true, .p 5#3 false⟩) ∧
    decode 0x30C18C00740019400000F580#96 = .ok (.pxor ⟨⟨false, 0#3, 245#8, true, false, false⟩, .p 3#3 false, .p 4#3 true, .p 5#3 false⟩) ∧
    decode 0x31058C007400000000001A00#96 = .ok (.pnot ⟨⟨false, 1#3, 26#8, false, false, false⟩, .p 3#3 false, .p 4#3 true, .s 0#5⟩) ∧
    decode 0x314800009FFEC00000003F00#96 = .ok (.bra ⟨⟨false, 2#3, 63#8, false, false, false⟩, .s 0#5, .imm 32763#15, .s 0#5⟩) ∧
    decode 0x318C0000160027B2E0006480#96 = .ok (.brx ⟨⟨false, 3#3, 100#8, true, false, false⟩, .s 0#5, .s 22#5, .imm 31534#15⟩) ∧
    decode 0x31D024002D00000000008900#96 = .ok (.call ⟨⟨false, 4#3, 137#8, false, false, false⟩, .s 9#5, .q 13#4, .s 0#5⟩) ∧
    decode 0x32140000160000000000AE00#96 = .ok (.ret ⟨⟨false, 5#3, 174#8, false, false, false⟩, .s 0#5, .s 22#5, .s 0#5⟩) ∧
    decode 0x325878009FFEC0000000D380#96 = .ok (.loop ⟨⟨false, 6#3, 211#8, true, false, false⟩, .s 30#5, .imm 32763#15, .s 0#5⟩) ∧
    decode 0x329C000080AF00000D50F800#96 = .ok (.rep ⟨⟨false, 7#3, 248#8, false, false, false⟩, .s 0#5, .imm 700#15, .s 0#5⟩ ⟨6#3, 21#5⟩) ∧
    decode 0x32E000002D00000000011D00#96 = .ok (.waitc ⟨⟨true, 0#3, 29#8, false, false, false⟩, .s 0#5, .q 13#4, .s 0#5⟩ true) := by
  refine ⟨?_, ?_, ?_, ?_, ?_, ?_, ?_, ?_, ?_, ?_, ?_, ?_⟩ <;> decide +kernel

theorem test_decode_control_b :
    decode 0x3324000080AF000000004280#96 = .ok (.yield ⟨⟨true, 1#3, 66#8, true, false, false⟩, .s 0#5, .imm 700#15, .s 0#5⟩) ∧
    decode 0x336800000000000000006700#96 = .ok (.end_ ⟨⟨true, 2#3, 103#8, false, false, false⟩, .s 0#5, .s 0#5, .s 0#5⟩) := by
  refine ⟨?_, ?_⟩ <;> decide +kernel

theorem test_decode_memory_a :
    decode 0x402C24000C00203E87308C00#96 = .ok (.ld ⟨⟨true, 3#3, 140#8, false, false, false⟩, .s 9#5, .s 12#5, .imm 1000#15⟩ ⟨3#3, 2#2, 1#2, true⟩) ∧
    decode 0x407044000C00203E84D6B180#96 = .ok (.st ⟨⟨true, 4#3, 177#8, true, false, false⟩, .s 17#5, .s 12#5, .imm 1000#15⟩ ⟨2#3, 1#2, 2#2, 11#4⟩) ∧
    decode 0x40B58C000C00203E8180D600#96 = .ok (.ldp ⟨⟨true, 5#3, 214#8, false, false, false⟩, .p 3#3 false, .s 12#5, .imm 1000#15⟩ ⟨0#3, 3#2, 0#2, false⟩) ∧
    decode 0x40F824000C0027B2E574FB00#96 = .ok (.aadd ⟨⟨true, 6#3, 251#8, false, false, false⟩, .s 9#5, .s 12#5, .imm 31534#15⟩ ⟨2#3, 2#2, 3#2, 5#3, false⟩) ∧
    decode 0x413C24000C0027B2EFAA2080#96 = .ok (.amin ⟨⟨true, 7#3, 32#8, true, false, false⟩, .s 9#5, .s 12#5, .imm 31534#15⟩ ⟨7#3, 3#2, 1#2, 2#3, true⟩) ∧
    decode 0x414024000C0027B2EFAA4500#96 = .ok (.amax ⟨⟨false, 0#3, 69#8, false, false, false⟩, .s 9#5, .s 12#5, .imm 31534#15⟩ ⟨7#3, 3#2, 1#2, 2#3, true⟩) ∧
    decode 0x418424000C0027B2E5746A00#96 = .ok (.aand ⟨⟨false, 1#3, 106#8, false, false, false⟩, .s 9#5, .s 12#5, .imm 31534#15⟩ ⟨2#3, 2#2, 3#2, 5#3, false⟩) ∧
    decode 0x41C824000C0027B2E5748F80#96 = .ok (.aor ⟨⟨false, 2#3, 143#8, true, false, false⟩, .s 9#5, .s 12#5, .imm 31534#15⟩ ⟨2#3, 2#2, 3#2, 5#3, false⟩) ∧
    decode 0x420C24000C0027B2E574B400#96 = .ok (.axor ⟨⟨false, 3#3, 180#8, false, false, false⟩, .s 9#5, .s 12#5, .imm 31534#15⟩ ⟨2#3, 2#2, 3#2, 5#3, false⟩) ∧
    decode 0x425024000C0027B2E574D900#96 = .ok (.aswp ⟨⟨false, 4#3, 217#8, false, false, false⟩, .s 9#5, .s 12#5, .imm 31534#15⟩ ⟨2#3, 2#2, 3#2, 5#3, false⟩) ∧
    decode 0x429424000C0027B2E574FE80#96 = .ok (.acas ⟨⟨false, 5#3, 254#8, true, false, false⟩, .s 9#5, .s 12#5, .imm 31534#15⟩ ⟨2#3, 2#2, 3#2, 5#3, false⟩) ∧
    decode 0x42D824000C0027B2E5742300#96 = .ok (.afadd ⟨⟨false, 6#3, 35#8, false, false, false⟩, .s 9#5, .s 12#5, .imm 31534#15⟩ ⟨2#3, 2#2, 3#2, 5#3, false⟩) := by
  refine ⟨?_, ?_, ?_, ?_, ?_, ?_, ?_, ?_, ?_, ?_, ?_, ?_⟩ <;> decide +kernel

theorem test_decode_memory_b :
    decode 0x431C24000C0027B2E5744800#96 = .ok (.afmin ⟨⟨false, 7#3, 72#8, false, false, false⟩, .s 9#5, .s 12#5, .imm 31534#15⟩ ⟨2#3, 2#2, 3#2, 5#3, false⟩) ∧
    decode 0x436024000C0027B2E5746D80#96 = .ok (.afmax ⟨⟨true, 0#3, 109#8, true, false, false⟩, .s 9#5, .s 12#5, .imm 31534#15⟩ ⟨2#3, 2#2, 3#2, 5#3, false⟩) ∧
    decode 0x43A517000C0027B2E2F29200#96 = .ok (.tred ⟨⟨true, 1#3, 146#8, false, false, false⟩, .t 5#5 true true false, .s 12#5, .imm 31534#15⟩ ⟨1#3, 7#4, 4#3, 2#2⟩) ∧
    decode 0x43E8000000000000000CB700#96 = .ok (.fence ⟨⟨true, 2#3, 183#8, false, false, false⟩, .s 0#5, .s 0#5, .s 0#5⟩ 3#3) ∧
    decode 0x442C0000000000000000DC80#96 = .ok (.fencesc ⟨⟨true, 3#3, 220#8, true, false, false⟩, .s 0#5, .s 0#5, .s 0#5⟩) ∧
    decode 0x447000000C00203E8E000100#96 = .ok (.lflush ⟨⟨true, 4#3, 1#8, false, false, false⟩, .s 0#5, .s 12#5, .imm 1000#15⟩ 7#3) ∧
    decode 0x44B400000C00203E80002600#96 = .ok (.linv ⟨⟨true, 5#3, 38#8, false, false, false⟩, .s 0#5, .s 12#5, .imm 1000#15⟩ 0#3) := by
  refine ⟨?_, ?_, ?_, ?_, ?_, ?_, ?_⟩ <;> decide +kernel

theorem test_decode_streams :
    decode 0x603918002D00000000004B80#96 = .ok (.sbind ⟨⟨true, 6#3, 75#8, true, false, false⟩, .t 6#5 false false false, .q 13#4, .s 0#5⟩) ∧
    decode 0x607D18000000000000007000#96 = .ok (.sfree ⟨⟨true, 7#3, 112#8, false, false, false⟩, .t 6#5 false false false, .s 0#5, .s 0#5⟩) ∧
    decode 0x608118002D00000000009500#96 = .ok (.sskip ⟨⟨false, 0#3, 149#8, false, false, false⟩, .t 6#5 false false false, .q 13#4, .s 0#5⟩) ∧
    decode 0x60C42400530000000000BA80#96 = .ok (.sstat ⟨⟨false, 1#3, 186#8, true, false, false⟩, .s 9#5, .t 19#5 false false false, .s 0#5⟩) := by
  refine ⟨?_, ?_, ?_, ?_⟩ <;> decide +kernel

theorem test_decode_shapes :
    decode 0x70091800160027B2E000DF00#96 = .ok (.tdef ⟨⟨false, 2#3, 223#8, false, false, false⟩, .t 6#5 false false false, .s 22#5, .imm 31534#15⟩) ∧
    decode 0x704D1800552027B2E8000400#96 = .ok (.tview ⟨⟨false, 3#3, 4#8, false, false, false⟩, .t 6#5 false false false, .t 21#5 false false true, .imm 31534#15⟩ 8#4) ∧
    decode 0x70511800552027B2E9002980#96 = .ok (.tviewOrigin ⟨⟨false, 4#3, 41#8, true, false, false⟩, .t 6#5 false false false, .t 21#5 false false true, .imm 31534#15⟩) ∧
    decode 0x709518005520000002004E00#96 = .ok (.tedge ⟨⟨false, 5#3, 78#8, false, false, false⟩, .t 6#5 false false false, .t 21#5 false false true, .s 0#5⟩ 2#4) ∧
    decode 0x70D82400552000000E007300#96 = .ok (.tinfo ⟨⟨false, 6#3, 115#8, false, false, false⟩, .s 9#5, .t 21#5 false false true, .s 0#5⟩ 14#4) ∧
    decode 0x711C00002D000000000B9880#96 = .ok (.bfset ⟨⟨false, 7#3, 152#8, true, false, false⟩, .s 0#5, .q 13#4, .s 0#5⟩ 11#4) ∧
    decode 0x7160240000000000000BBD00#96 = .ok (.bfget ⟨⟨true, 0#3, 189#8, false, false, false⟩, .s 9#5, .s 0#5, .s 0#5⟩ 11#4) := by
  refine ⟨?_, ?_, ?_, ?_, ?_, ?_, ?_⟩ <;> decide +kernel

theorem test_decode_tiles_a :
    decode 0x80251C804DC000000C15E200#96 = .ok (.tmov ⟨⟨true, 1#3, 226#8, false, false, false⟩, .t 7#5 false false true, .t 13#5 true true false, .s 0#5⟩ ⟨3#2, 0#4, 1#2, 5#4⟩) ∧
    decode 0x80691C804DC000000E650780#96 = .ok (.tcvt ⟨⟨true, 2#3, 7#8, true, false, false⟩, .t 7#5 false false true, .t 13#5 true true false, .s 0#5⟩ ⟨3#2, 9#4, 2#2, 5#4⟩) ∧
    decode 0x80AD1C802D0000000C152C00#96 = .ok (.tfill ⟨⟨true, 3#3, 44#8, false, false, false⟩, .t 7#5 false false true, .q 13#4, .s 0#5⟩ ⟨3#2, 0#4, 1#2, 5#4⟩) ∧
    decode 0x80F11C802D0027B2E4935100#96 = .ok (.tiota ⟨⟨true, 4#3, 81#8, false, false, false⟩, .t 7#5 false false true, .q 13#4, .imm 31534#15⟩ ⟨1#2, 2#4, 1#2, 3#4⟩) ∧
    decode 0x81351C804DC015E80C157680#96 = .ok (.tadd ⟨⟨true, 5#3, 118#8, true, false, false⟩, .t 7#5 false false true, .t 13#5 true true false, .t 23#5 true false true⟩ ⟨3#2, 0#4, 1#2, 5#4⟩) ∧
    decode 0x81791C804DC015E80C159B00#96 = .ok (.tsub ⟨⟨true, 6#3, 155#8, false, false, false⟩, .t 7#5 false false true, .t 13#5 true true false, .t 23#5 true false true⟩ ⟨3#2, 0#4, 1#2, 5#4⟩) ∧
    decode 0x81BD1C804DC015E80C15C000#96 = .ok (.tmul ⟨⟨true, 7#3, 192#8, false, false, false⟩, .t 7#5 false false true, .t 13#5 true true false, .t 23#5 true false true⟩ ⟨3#2, 0#4, 1#2, 5#4⟩) ∧
    decode 0x81C11C804DC015E80C15E580#96 = .ok (.tfma ⟨⟨false, 0#3, 229#8, true, false, false⟩, .t 7#5 false false true, .t 13#5 true true false, .t 23#5 true false true⟩ ⟨3#2, 0#4, 1#2, 5#4⟩) ∧
    decode 0x82051C804DC015E80C150A00#96 = .ok (.tdiv ⟨⟨false, 1#3, 10#8, false, false, false⟩, .t 7#5 false false true, .t 13#5 true true false, .t 23#5 true false true⟩ ⟨3#2, 0#4, 1#2, 5#4⟩) ∧
    decode 0x82491C804DC015E80C152F00#96 = .ok (.tmin ⟨⟨false, 2#3, 47#8, false, false, false⟩, .t 7#5 false false true, .t 13#5 true true false, .t 23#5 true false true⟩ ⟨3#2, 0#4, 1#2, 5#4⟩) ∧
    decode 0x828D1C804DC015E80C155480#96 = .ok (.tmax ⟨⟨false, 3#3, 84#8, true, false, false⟩, .t 7#5 false false true, .t 13#5 true true false, .t 23#5 true false true⟩ ⟨3#2, 0#4, 1#2, 5#4⟩) ∧
    decode 0x82D11C804DC000000C157900#96 = .ok (.tabs ⟨⟨false, 4#3, 121#8, false, false, false⟩, .t 7#5 false false true, .t 13#5 true true false, .s 0#5⟩ ⟨3#2, 0#4, 1#2, 5#4⟩) := by
  refine ⟨?_, ?_, ?_, ?_, ?_, ?_, ?_, ?_, ?_, ?_, ?_, ?_⟩ <;> decide +kernel

theorem test_decode_tiles_b :
    decode 0x83151C804DC009800C159E00#96 = .ok (.tclamp ⟨⟨false, 5#3, 158#8, false, false, false⟩, .t 7#5 false false true, .t 13#5 true true false, .q 6#4⟩ ⟨3#2, 0#4, 1#2, 5#4⟩) ∧
    decode 0x83591C804E6016100007C380#96 = .ok (.tand ⟨⟨false, 6#3, 195#8, true, false, false⟩, .t 7#5 false false true, .t 14#5 false true true, .t 24#5 false true false⟩ ⟨0#2, 0#4, 0#2, 7#4⟩) ∧
    decode 0x839D1C804E6016100007E800#96 = .ok (.tor ⟨⟨false, 7#3, 232#8, false, false, false⟩, .t 7#5 false false true, .t 14#5 false true true, .t 24#5 false true false⟩ ⟨0#2, 0#4, 0#2, 7#4⟩) ∧
    decode 0x83E11C804E60161000070D00#96 = .ok (.txor ⟨⟨true, 0#3, 13#8, false, false, false⟩, .t 7#5 false false true, .t 14#5 false true true, .t 24#5 false true false⟩ ⟨0#2, 0#4, 0#2, 7#4⟩) ∧
    decode 0x84251C804E60000000073280#96 = .ok (.tnot ⟨⟨true, 1#3, 50#8, true, false, false⟩, .t 7#5 false false true, .t 14#5 false true true, .s 0#5⟩ ⟨0#2, 0#4, 0#2, 7#4⟩) ∧
    decode 0x84691C804E60161000075700#96 = .ok (.tshl ⟨⟨true, 2#3, 87#8, false, false, false⟩, .t 7#5 false false true, .t 14#5 false true true, .t 24#5 false true false⟩ ⟨0#2, 0#4, 0#2, 7#4⟩) ∧
    decode 0x84AD1C804E60161000427C00#96 = .ok (.tshr ⟨⟨true, 3#3, 124#8, false, false, false⟩, .t 7#5 false false true, .t 14#5 false true true, .t 24#5 false true false⟩ ⟨0#2, 1#4, 0#2, 2#4⟩) ∧
    decode 0x84F11C804DC015E80289A180#96 = .ok (.tcmp ⟨⟨true, 4#3, 161#8, true, false, false⟩, .t 7#5 false false true, .t 13#5 true true false, .t 23#5 true false true⟩ ⟨0#2, 10#4, 0#2, 9#4⟩) ∧
    decode 0x85351C804DC015E80C15C600#96 = .ok (.tsel ⟨⟨true, 5#3, 198#8, false, false, false⟩, .t 7#5 false false true, .t 13#5 true true false, .t 23#5 true false true⟩ ⟨3#2, 0#4, 1#2, 5#4⟩) ∧
    decode 0x85798C004DC000000000EB00#96 = .ok (.tany ⟨⟨true, 6#3, 235#8, false, false, false⟩, .p 3#3 false, .t 13#5 true true false, .s 0#5⟩ ⟨0#2, 0#4, 0#2, 0#4⟩) ∧
    decode 0x85BD8C004DC0000000001080#96 = .ok (.tall ⟨⟨true, 7#3, 16#8, true, false, false⟩, .p 3#3 false, .t 13#5 true true false, .s 0#5⟩ ⟨0#2, 0#4, 0#2, 0#4⟩) ∧
    decode 0x85C024004DC0000000003500#96 = .ok (.tcnt ⟨⟨false, 0#3, 53#8, false, false, false⟩, .s 9#5, .t 13#5 true true false, .s 0#5⟩ ⟨0#2, 0#4, 0#2, 0#4⟩) := by
  refine ⟨?_, ?_, ?_, ?_, ?_, ?_, ?_, ?_, ?_, ?_, ?_, ?_⟩ <;> decide +kernel

theorem test_decode_tiles_c :
    decode 0x86051C804DC000000C155A00#96 = .ok (.trsqs ⟨⟨false, 1#3, 90#8, false, false, false⟩, .t 7#5 false false true, .t 13#5 true true false, .s 0#5⟩ ⟨3#2, 0#4, 1#2, 5#4⟩) ∧
    decode 0x86491C804DC000000C157F80#96 = .ok (.trcps ⟨⟨false, 2#3, 127#8, true, false, false⟩, .t 7#5 false false true, .t 13#5 true true false, .s 0#5⟩ ⟨3#2, 0#4, 1#2, 5#4⟩) ∧
    decode 0x868D1C804DC000000C15A400#96 = .ok (.texp2 ⟨⟨false, 3#3, 164#8, false, false, false⟩, .t 7#5 false false true, .t 13#5 true true false, .s 0#5⟩ ⟨3#2, 0#4, 1#2, 5#4⟩) ∧
    decode 0x86D11C804DC000000C15C900#96 = .ok (.tlog2 ⟨⟨false, 4#3, 201#8, false, false, false⟩, .t 7#5 false false true, .t 13#5 true true false, .s 0#5⟩ ⟨3#2, 0#4, 1#2, 5#4⟩) ∧
    decode 0x87151C804DC000000C15EE80#96 = .ok (.trsum ⟨⟨false, 5#3, 238#8, true, false, false⟩, .t 7#5 false false true, .t 13#5 true true false, .s 0#5⟩ ⟨3#2, 0#4, 1#2, 5#4⟩) ∧
    decode 0x87591C804DC000000C151300#96 = .ok (.tcsum ⟨⟨false, 6#3, 19#8, false, false, false⟩, .t 7#5 false false true, .t 13#5 true true false, .s 0#5⟩ ⟨3#2, 0#4, 1#2, 5#4⟩) ∧
    decode 0x879D1C804DC000000C153800#96 = .ok (.trmax ⟨⟨false, 7#3, 56#8, false, false, false⟩, .t 7#5 false false true, .t 13#5 true true false, .s 0#5⟩ ⟨3#2, 0#4, 1#2, 5#4⟩) ∧
    decode 0x87E11C804DC000000C155D80#96 = .ok (.tcmax ⟨⟨true, 0#3, 93#8, true, false, false⟩, .t 7#5 false false true, .t 13#5 true true false, .s 0#5⟩ ⟨3#2, 0#4, 1#2, 5#4⟩) ∧
    decode 0x88251C804DC000000C158200#96 = .ok (.ttrn ⟨⟨true, 1#3, 130#8, false, false, false⟩, .t 7#5 false false true, .t 13#5 true true false, .s 0#5⟩ ⟨3#2, 0#4, 1#2, 5#4⟩) ∧
    decode 0x88691C804DC027B2E854A700#96 = .ok (.tshf ⟨⟨true, 2#3, 167#8, false, false, false⟩, .t 7#5 false false true, .t 13#5 true true false, .imm 31534#15⟩ ⟨2#2, 1#4, 1#2, 4#4⟩) ∧
    decode 0x88AD1C804DC027B2EC15CC80#96 = .ok (.tbcr ⟨⟨true, 3#3, 204#8, true, false, false⟩, .t 7#5 false false true, .t 13#5 true true false, .imm 31534#15⟩ ⟨3#2, 0#4, 1#2, 5#4⟩) ∧
    decode 0x88F11C804DC027B2EC15F100#96 = .ok (.tbcc ⟨⟨true, 4#3, 241#8, false, false, false⟩, .t 7#5 false false true, .t 13#5 true true false, .imm 31534#15⟩ ⟨3#2, 0#4, 1#2, 5#4⟩) := by
  refine ⟨?_, ?_, ?_, ?_, ?_, ?_, ?_, ?_, ?_, ?_, ?_, ?_⟩ <;> decide +kernel

theorem test_decode_tiles_d :
    decode 0x89351C804DC016580C151600#96 = .ok (.tgath ⟨⟨true, 5#3, 22#8, false, false, false⟩, .t 7#5 false false true, .t 13#5 true true false, .t 25#5 false true true⟩ ⟨3#2, 0#4, 1#2, 5#4⟩) ∧
    decode 0x89791C804DC016580C153B80#96 = .ok (.tscat ⟨⟨true, 6#3, 59#8, true, false, false⟩, .t 7#5 false false true, .t 13#5 true true false, .t 25#5 false true true⟩ ⟨3#2, 0#4, 1#2, 5#4⟩) ∧
    decode 0x89BC24004DC027B2E4406000#96 = .ok (.text ⟨⟨true, 7#3, 96#8, false, false, false⟩, .s 9#5, .t 13#5 true true false, .imm 31534#15⟩ ⟨1#2, 1#4, 0#2, 0#4⟩) ∧
    decode 0x89C11C802D0027B2E8548500#96 = .ok (.tins ⟨⟨false, 0#3, 133#8, false, false, false⟩, .t 7#5 false false true, .q 13#4, .imm 31534#15⟩ ⟨2#2, 1#4, 1#2, 4#4⟩) ∧
    decode 0x8A051C804F8027B2E493AA80#96 = .ok (.tsten ⟨⟨false, 1#3, 170#8, true, false, false⟩, .t 7#5 false false true, .t 15#5 true false false, .imm 31534#15⟩ ⟨1#2, 2#4, 1#2, 3#4⟩) ∧
    decode 0x8A491C804DC000000420CF00#96 = .ok (.tquant ⟨⟨false, 2#3, 207#8, false, false, false⟩, .t 7#5 false false true, .t 13#5 true true false, .s 0#5⟩ ⟨1#2, 0#4, 2#2, 0#4⟩) ∧
    decode 0x8A8D1C804DC000000C15F400#96 = .ok (.tnrm2 ⟨⟨false, 3#3, 244#8, false, false, false⟩, .t 7#5 false false true, .t 13#5 true true false, .s 0#5⟩ ⟨3#2, 0#4, 1#2, 5#4⟩) ∧
    decode 0x8AD11C804DC016580C151980#96 = .ok (.trowp ⟨⟨false, 4#3, 25#8, true, false, false⟩, .t 7#5 false false true, .t 13#5 true true false, .t 25#5 false true true⟩ ⟨3#2, 0#4, 1#2, 5#4⟩) := by
  refine ⟨?_, ?_, ?_, ?_, ?_, ?_, ?_, ?_⟩ <;> decide +kernel

theorem test_decode_matrix :
    decode 0xC016AC000000000000003E00#96 = .ok (.oclaim ⟨⟨false, 5#3, 62#8, false, false, false⟩, .o 11#4, .s 0#5, .s 0#5⟩) ∧
    decode 0xC05AAC000000000000006300#96 = .ok (.orel ⟨⟨false, 6#3, 99#8, false, false, false⟩, .o 11#4, .s 0#5, .s 0#5⟩) ∧
    decode 0xC09EAC005520000000008880#96 = .ok (.oload ⟨⟨false, 7#3, 136#8, true, false, false⟩, .o 11#4, .t 21#5 false false true, .s 0#5⟩) ∧
    decode 0xC0A12080A90000000000AD00#96 = .ok (.oloadUnload ⟨⟨true, 0#3, 173#8, false, false, false⟩, .t 8#5 false false true, .o 9#4, .s 0#5⟩) ∧
    decode 0xC0E42400A90000000000D200#96 = .ok (.oinfo ⟨⟨true, 1#3, 210#8, false, false, false⟩, .s 9#5, .o 9#4, .s 0#5⟩) ∧
    decode 0xC1292080A9002B8002C0F780#96 = .ok (.mma ⟨⟨true, 2#3, 247#8, true, false, false⟩, .t 8#5 false false true, .o 9#4, .o 14#4⟩ ⟨true, false, true, true, false⟩) ∧
    decode 0xC16D1C800000000000001C00#96 = .ok (.azero ⟨⟨true, 3#3, 28#8, false, false, false⟩, .t 7#5 false false true, .s 0#5, .s 0#5⟩) ∧
    decode 0xC1B11C804DC027B2EC104100#96 = .ok (.acvt ⟨⟨true, 4#3, 65#8, false, false, false⟩, .t 7#5 false false true, .t 13#5 true true false, .imm 31534#15⟩ ⟨3#2, 1#2⟩) ∧
    decode 0xC1F51C804DC000000C106680#96 = .ok (.aaddt ⟨⟨true, 5#3, 102#8, true, false, false⟩, .t 7#5 false false true, .t 13#5 true true false, .s 0#5⟩ ⟨3#2, 1#2⟩) ∧
    decode 0xC2391C802D0000000C108B00#96 = .ok (.ascl ⟨⟨true, 6#3, 139#8, false, false, false⟩, .t 7#5 false false true, .q 13#4, .s 0#5⟩ ⟨3#2, 1#2⟩) := by
  refine ⟨?_, ?_, ?_, ?_, ?_, ?_, ?_, ?_, ?_, ?_⟩ <;> decide +kernel

theorem test_decode_engines_a :
    decode 0xD03C24005520060007C8B000#96 = .ok (.xcopy ⟨⟨true, 7#3, 176#8, false, false, false⟩, .s 9#5, .t 21#5 false false true, .s 24#5⟩ ⟨1#2, 3#2, 200#8⟩) ∧
    decode 0xD00024001C00168807C8D580#96 = .ok (.xcopyViewToTile ⟨⟨false, 0#3, 213#8, true, false, false⟩, .s 9#5, .s 28#5, .t 26#5 false false true⟩ ⟨1#2, 3#2, 200#8⟩) ∧
    decode 0xD04424005520060007C8FA00#96 = .ok (.xcast ⟨⟨false, 1#3, 250#8, false, false, false⟩, .s 9#5, .t 21#5 false false true, .s 24#5⟩ ⟨1#2, 3#2, 200#8⟩) ∧
    decode 0xD08824001600098003001F00#96 = .ok (.xlease ⟨⟨false, 2#3, 31#8, false, false, false⟩, .s 9#5, .s 22#5, .q 6#4⟩ 3#2) ∧
    decode 0xD0CC24001600000003004480#96 = .ok (.xfree ⟨⟨false, 3#3, 68#8, true, false, false⟩, .s 9#5, .s 22#5, .s 0#5⟩ 3#2) ∧
    decode 0xD11000008005400000096900#96 = .ok (.xfence ⟨⟨false, 4#3, 105#8, false, false, false⟩, .s 0#5, .imm 21#15, .s 0#5⟩ 9#4) ∧
    decode 0xD1540000C41027B2E0008E00#96 = .ok (.xwait ⟨⟨false, 5#3, 142#8, false, false, false⟩, .s 0#5, .x 1#3 1#6, .imm 31534#15⟩) ∧
    decode 0xD1982400C02000000000B380#96 = .ok (.xstat ⟨⟨false, 6#3, 179#8, true, false, false⟩, .s 9#5, .x 0#3 2#6, .s 0#5⟩) ∧
    decode 0xD1DC00002D002000224DD800#96 = .ok (.gtab ⟨⟨false, 7#3, 216#8, false, false, false⟩, .s 0#5, .q 13#4, .imm 2#15⟩ ⟨2#2, 77#8⟩) ∧
    decode 0xD221180053000980024DFD00#96 = .ok (.grest ⟨⟨true, 0#3, 253#8, false, false, false⟩, .t 6#5 false false false, .t 19#5 false false false, .q 6#4⟩ ⟨2#2, 77#8⟩) ∧
    decode 0xD265180053000980024D2280#96 = .ok (.gprol ⟨⟨true, 1#3, 34#8, true, false, false⟩, .t 6#5 false false false, .t 19#5 false false false, .q 6#4⟩ ⟨2#2, 77#8⟩) ∧
    decode 0xD2A9180053000980024D4700#96 = .ok (.gconv ⟨⟨true, 2#3, 71#8, false, false, false⟩, .t 6#5 false false false, .t 19#5 false false false, .q 6#4⟩ ⟨2#2, 77#8⟩) := by
  refine ⟨?_, ?_, ?_, ?_, ?_, ?_, ?_, ?_, ?_, ?_, ?_, ?_⟩ <;> decide +kernel

theorem test_decode_engines_b :
    decode 0xD2EC2400C430000000006C00#96 = .ok (.gstat ⟨⟨true, 3#3, 108#8, false, false, false⟩, .s 9#5, .x 1#3 3#6, .s 0#5⟩) := by decide +kernel

theorem test_decode_synchronisation_a :
    decode 0xE0308000CAD0201F40019180#96 = .ok (.ewait ⟨⟨true, 4#3, 145#8, true, false, false⟩, .q 0#4, .x 2#3 45#6, .imm 500#15⟩ true) ∧
    decode 0xE0740000CAD027B2E000B600#96 = .ok (.esig ⟨⟨true, 5#3, 182#8, false, false, false⟩, .s 0#5, .x 2#3 45#6, .imm 31534#15⟩) ∧
    decode 0xE0B80000D4C000000000DB00#96 = .ok (.eclr ⟨⟨true, 6#3, 219#8, false, false, false⟩, .s 0#5, .x 5#3 12#6, .s 0#5⟩) ∧
    decode 0xE0FC0000D4D027B2E02C0080#96 = .ok (.earm ⟨⟨true, 7#3, 0#8, true, false, false⟩, .s 0#5, .x 5#3 13#6, .imm 31534#15⟩ 44#6) ∧
    decode 0xE1000000160027B2E0002500#96 = .ok (.epost ⟨⟨false, 0#3, 37#8, false, false, false⟩, .s 0#5, .s 22#5, .imm 31534#15⟩) ∧
    decode 0xE1440000CCE0000000004A00#96 = .ok (.barv ⟨⟨false, 1#3, 74#8, false, false, false⟩, .s 0#5, .x 3#3 14#6, .s 0#5⟩) ∧
    decode 0xE1480000CCE0000002006F80#96 = .ok (.barvNb ⟨⟨false, 2#3, 111#8, true, false, false⟩, .s 0#5, .x 3#3 14#6, .s 0#5⟩) ∧
    decode 0xE14C0000CCE0000004009400#96 = .ok (.barvDrop ⟨⟨false, 3#3, 148#8, false, false, false⟩, .s 0#5, .x 3#3 14#6, .s 0#5⟩) ∧
    decode 0xE1500000CCE000000600B900#96 = .ok (.barvJoin ⟨⟨false, 4#3, 185#8, false, false, false⟩, .s 0#5, .x 3#3 14#6, .s 0#5⟩) ∧
    decode 0xE1540000CCE000000800DE80#96 = .ok (.barvTimed ⟨⟨false, 5#3, 222#8, true, false, false⟩, .s 0#5, .x 3#3 14#6, .s 0#5⟩) ∧
    decode 0xE19880000000000000000300#96 = .ok (.bwait ⟨⟨false, 6#3, 3#8, false, false, false⟩, .q 0#4, .s 0#5, .s 0#5⟩) ∧
    decode 0xE1DC8000D0A0000000062800#96 = .ok (.mlock ⟨⟨false, 7#3, 40#8, false, false, false⟩, .q 0#4, .x 4#3 10#6, .s 0#5⟩ 6#3) := by
  refine ⟨?_, ?_, ?_, ?_, ?_, ?_, ?_, ?_, ?_, ?_, ?_, ?_⟩ <;> decide +kernel

theorem test_decode_synchronisation_b :
    decode 0xE2218C00D0A0000000004D80#96 = .ok (.mtry ⟨⟨true, 0#3, 77#8, true, false, false⟩, .p 3#3 false, .x 4#3 10#6, .s 0#5⟩) ∧
    decode 0xE2640000D0A0000000007200#96 = .ok (.munl ⟨⟨true, 1#3, 114#8, false, false, false⟩, .s 0#5, .x 4#3 10#6, .s 0#5⟩) ∧
    decode 0xE2A800001600000000009700#96 = .ok (.copen ⟨⟨true, 2#3, 151#8, false, false, false⟩, .s 0#5, .s 22#5, .s 0#5⟩) ∧
    decode 0xE2EC00002D0027B2E000BC80#96 = .ok (.cinj ⟨⟨true, 3#3, 188#8, true, false, false⟩, .s 0#5, .q 13#4, .imm 31534#15⟩) ∧
    decode 0xE33000002D0027B2E000E100#96 = .ok (.cext ⟨⟨true, 4#3, 225#8, false, false, false⟩, .s 0#5, .q 13#4, .imm 31534#15⟩) ∧
    decode 0xE37480002D00000000000600#96 = .ok (.cclose ⟨⟨true, 5#3, 6#8, false, false, false⟩, .q 0#4, .q 13#4, .s 0#5⟩) ∧
    decode 0xE3B800000000000000002B80#96 = .ok (.phaseFree ⟨⟨true, 6#3, 43#8, true, false, false⟩, .s 0#5, .s 0#5, .s 0#5⟩) ∧
    decode 0xE3BC00000000000004005000#96 = .ok (.phaseTimed ⟨⟨true, 7#3, 80#8, false, false, false⟩, .s 0#5, .s 0#5, .s 0#5⟩) ∧
    decode 0xE38000000000000008007500#96 = .ok (.phaseComm ⟨⟨false, 0#3, 117#8, false, false, false⟩, .s 0#5, .s 0#5, .s 0#5⟩) ∧
    decode 0xE3C400005520000000AD9A80#96 = .ok (.send ⟨⟨false, 1#3, 154#8, true, false, false⟩, .s 0#5, .t 21#5 false false true, .s 0#5⟩ 173#8) ∧
    decode 0xE40918000000000000ADBF00#96 = .ok (.recv ⟨⟨false, 2#3, 191#8, false, false, false⟩, .t 6#5 false false false, .s 0#5, .s 0#5⟩ 173#8) ∧
    decode 0xE44C2400000000000001E400#96 = .ok (.cyc ⟨⟨false, 3#3, 228#8, false, false, false⟩, .s 9#5, .s 0#5, .s 0#5⟩ true) := by
  refine ⟨?_, ?_, ?_, ?_, ?_, ?_, ?_, ?_, ?_, ?_, ?_, ?_⟩ <;> decide +kernel

theorem test_decode_dispatch :
    decode 0xF0102400160027B2E0000980#96 = .ok (.jpost ⟨⟨false, 4#3, 9#8, true, false, false⟩, .s 9#5, .s 22#5, .imm 31534#15⟩) ∧
    decode 0xF05424000000000000002E00#96 = .ok (.jtake ⟨⟨false, 5#3, 46#8, false, false, false⟩, .s 9#5, .s 0#5, .s 0#5⟩) ∧
    decode 0xF09800000000000000005300#96 = .ok (.jdone ⟨⟨false, 6#3, 83#8, false, false, false⟩, .s 0#5, .s 0#5, .s 0#5⟩) ∧
    decode 0xF0DC24001600000000007880#96 = .ok (.jcancel ⟨⟨false, 7#3, 120#8, true, false, false⟩, .s 9#5, .s 22#5, .s 0#5⟩) ∧
    decode 0xF12024001600000000009D00#96 = .ok (.jstat ⟨⟨true, 0#3, 157#8, false, false, false⟩, .s 9#5, .s 22#5, .s 0#5⟩) ∧
    decode 0xF1640000160027B2E00CC200#96 = .ok (.rput ⟨⟨true, 1#3, 194#8, false, false, false⟩, .s 0#5, .s 22#5, .imm 31534#15⟩ 12#4) ∧
    decode 0xF1A82400160027B2E000E780#96 = .ok (.rget ⟨⟨true, 2#3, 231#8, true, false, false⟩, .s 9#5, .s 22#5, .imm 31534#15⟩) ∧
    decode 0xF1EC000016000000000C0C00#96 = .ok (.reos ⟨⟨true, 3#3, 12#8, false, false, false⟩, .s 0#5, .s 22#5, .s 0#5⟩ 12#4) ∧
    decode 0xF23024001600000000003100#96 = .ok (.rstat ⟨⟨true, 4#3, 49#8, false, false, false⟩, .s 9#5, .s 22#5, .s 0#5⟩) := by
  refine ⟨?_, ?_, ?_, ?_, ?_, ?_, ?_, ?_, ?_⟩ <;> decide +kernel

theorem test_decode_system_a :
    decode 0xF834000080AF000000005680#96 = .ok (.trap ⟨⟨true, 5#3, 86#8, true, false, false⟩, .s 0#5, .imm 700#15, .s 0#5⟩) ∧
    decode 0xF87800000000000000007B00#96 = .ok (.eret ⟨⟨true, 6#3, 123#8, false, false, false⟩, .s 0#5, .s 0#5, .s 0#5⟩) ∧
    decode 0xF8BC2400000000000043A000#96 = .ok (.sysrd ⟨⟨true, 7#3, 160#8, false, false, false⟩, .s 9#5, .s 0#5, .s 0#5⟩ 67#12) ∧
    decode 0xF8802400000000000018C580#96 = .ok (.aechoRead ⟨⟨false, 0#3, 197#8, true, false, false⟩, .s 9#5, .s 0#5, .s 0#5⟩) ∧
    decode 0xF8C400002D0000000002EA00#96 = .ok (.syswr ⟨⟨false, 1#3, 234#8, false, false, false⟩, .s 0#5, .q 13#4, .s 0#5⟩ 2#12) ∧
    decode 0xF8C800002D00000000180F00#96 = .ok (.aechoWrite ⟨⟨false, 2#3, 15#8, false, false, false⟩, .s 0#5, .q 13#4, .s 0#5⟩) ∧
    decode 0xF90C00000000000000003480#96 = .ok (.ackpre ⟨⟨false, 3#3, 52#8, true, false, false⟩, .s 0#5, .s 0#5, .s 0#5⟩) ∧
    decode 0xF9500000160027B2E0125900#96 = .ok (.start ⟨⟨false, 4#3, 89#8, false, false, false⟩, .s 0#5, .s 22#5, .imm 31534#15⟩ 9#4) ∧
    decode 0xF99400000000000000007E00#96 = .ok (.isfence ⟨⟨false, 5#3, 126#8, false, false, false⟩, .s 0#5, .s 0#5, .s 0#5⟩) ∧
    decode 0xF9D8000080AF00000000A380#96 = .ok (.bkpt ⟨⟨false, 6#3, 163#8, true, false, false⟩, .s 0#5, .imm 700#15, .s 0#5⟩) ∧
    decode 0xFA1C0000000000000000C800#96 = .ok (.haltc ⟨⟨false, 7#3, 200#8, false, false, false⟩, .s 0#5, .s 0#5, .s 0#5⟩) ∧
    decode 0xFA600000160000000000ED00#96 = .ok (.vinvPage ⟨⟨true, 0#3, 237#8, false, false, false⟩, .s 0#5, .s 22#5, .s 0#5⟩) := by
  refine ⟨?_, ?_, ?_, ?_, ?_, ?_, ?_, ?_, ?_, ?_, ?_, ?_⟩ <;> decide +kernel

theorem test_decode_system_b :
    decode 0xFA6400000000000000011280#96 = .ok (.vinvAll ⟨⟨true, 1#3, 18#8, true, false, false⟩, .s 0#5, .s 0#5, .s 0#5⟩) ∧
    decode 0xFAA824002D00000000003700#96 = .ok (.dflush ⟨⟨true, 2#3, 55#8, false, false, false⟩, .s 9#5, .q 13#4, .s 0#5⟩) := by
  refine ⟨?_, ?_⟩ <;> decide +kernel

/-- Words that check 2 of R152 refuses: kind 0b111, TRN set in a destination (the example of R142), a nonzero HINT bit, a nonzero
unused field, a SUB of 7 and a BARV FORM of 5; an unassigned OP, and the all-ones word, are no instruction (R151). -/
theorem test_decode_refused :
    decode 0x00002400E000000000000100#96 = .error .operandKind ∧
    decode 0x81091100420010E000000180#96 = .error .form ∧
    decode 0x300000000000000000000101#96 = .error .reservedBits ∧
    decode 0x300004000000000000000100#96 = .error .form ∧
    decode 0xE1400000DC00000000000100#96 = .error .form ∧
    decode 0xE1400000CCE000000A000100#96 = .error .reservedBits ∧
    decode 0x0C8000000000000000000100#96 = .ok (.wordNotInstruction 0x0C8000000000000000000100#96) ∧
    decode (BitVec.allOnes 96) = .ok (.wordNotInstruction (BitVec.allOnes 96)) := by
  refine ⟨?_, ?_, ?_, ?_, ?_, ?_, ?_, ?_⟩ <;> decide +kernel

/-- Words that the spec works out: LD.sx (spec/09), CMP.ltn (spec/07), TCMP.lt (spec/11), MMA.ad.tb (spec/12), ACVT (spec/16),
TFMA and the guarded XCOPY (spec/16, spec/17), TSTEN.h1 (spec/17), AADD (spec/13), BARV.timed (spec/14), JPOST (spec/20). -/
theorem test_decode_spec_examples :
    decode 0x400018000400200403100100#96 =
      .ok (.ld ⟨⟨false, 0#3, 1#8, false, false, false⟩, .s 6#5, .s 4#5, .imm 64#15⟩ ⟨1#3, 2#2, 0#2, true⟩) ∧
    decode 0x08018C00050027FFF1800000#96 =
      .ok (.cmp ⟨⟨false, 0#3, 0#8, false, false, false⟩, .p 3#3 false, .s 5#5, .imm 0x7FFF#15⟩ 6#4) ∧
    decode 0x84C124004200200000800100#96 =
      .ok (.tcmp ⟨⟨false, 0#3, 1#8, false, false, false⟩, .t 9#5 false false false, .t 2#5 false false false, .imm 0#15⟩
        ⟨0#2, 2#4, 0#2, 0#4⟩) ∧
    decode 0xC1012000A100288000600100#96 =
      .ok (.mma ⟨⟨false, 0#3, 1#8, false, false, false⟩, .t 8#5 false false false, .o 1#4, .o 2#4⟩
        ⟨false, false, false, true, true⟩) ∧
    decode 0xC18128804900200000000100#96 =
      .ok (.acvt ⟨⟨false, 0#3, 1#8, false, false, false⟩, .t 10#5 false false true, .t 9#5 false false false, .imm 0#15⟩
        ⟨0#2, 0#2⟩) ∧
    decode 0x81C12400438011C000000100#96 =
      .ok (.tfma ⟨⟨false, 0#3, 1#8, false, false, false⟩, .t 9#5 false false false, .t 3#5 true false false,
        .t 7#5 false false false⟩ ⟨0#2, 0#4, 0#2, 0#4⟩) ∧
    decode 0xD00C00004500058000001600#96 =
      .ok (.xcopy ⟨⟨false, 3#3, 22#8, false, false, false⟩, .s 0#5, .t 5#5 false false false, .s 22#5⟩ ⟨0#2, 0#2, 0#8⟩) ∧
    decode 0x8A0108004100211000400100#96 =
      .ok (.tsten ⟨⟨false, 0#3, 1#8, false, false, false⟩, .t 2#5 false false false, .t 1#5 false false false, .imm 0x1100#15⟩
        ⟨0#2, 1#4, 0#2, 0#4⟩) ∧
    decode 0x40C0140006002000112C0100#96 =
      .ok (.aadd ⟨⟨false, 0#3, 1#8, false, false, false⟩, .s 5#5, .s 6#5, .imm 1#15⟩ ⟨0#3, 2#2, 1#2, 3#3, false⟩) ∧
    decode 0xE1400000D980000008000100#96 =
      .ok (.barvTimed ⟨⟨false, 0#3, 1#8, false, false, false⟩, .s 0#5, .x 6#3 24#6, .s 0#5⟩) ∧
    decode 0xF00050000700200000000100#96 =
      .ok (.jpost ⟨⟨false, 0#3, 1#8, false, false, false⟩, .s 20#5, .s 7#5, .imm 0#15⟩) := by
  refine ⟨?_, ?_, ?_, ?_, ?_, ?_, ?_, ?_, ?_, ?_, ?_⟩ <;> decide +kernel

/-- The bytes of a word in the instruction store: the SYSRD of spec/15. -/
theorem test_word_bytes :
    wordBytes 0xF88024000000000000010100#96 =
      [0x00#8, 0x01#8, 0x01#8, 0#8, 0#8, 0#8, 0#8, 0#8, 0x00#8, 0x24#8, 0x80#8, 0xF8#8] := by decide +kernel

/-! Ill-formed terms, one for each check of `WellFormed`. -/

/-- No hints, guard p0, DELTA 1. -/
def plainHead : Head := ⟨false, 0#3, 1#8, false, false, false⟩

/-- Arguments under `plainHead`. -/
def args (d a b : Operand) : Args := ⟨plainHead, d, a, b⟩

/-- Tile n without modifiers. -/
def tile (n : BitVec 5) : Operand := .t n false false false

/-- No MOD bit of a tile instruction set. -/
def tmod0 : TMod := ⟨0#2, 0#4, 0#2, 0#4⟩

theorem test_illformed_scalar :
    WellFormed (.add_ (args (.p 1#3 false) (.s 1#5) (.s 2#5))) = false ∧
    WellFormed (.add_ (args (.q 3#4) (.s 1#5) (.s 2#5))) = false ∧
    WellFormed (.add_ ⟨⟨false, 0#3, 0#8, false, false, false⟩, .s 0#5, .s 0#5, .s 0#5⟩) = false ∧
    WellFormed (.add_ ⟨⟨false, 0#3, 1#8, false, true, false⟩, .s 1#5, .s 1#5, .s 2#5⟩) = false ∧
    WellFormed (.add_ ⟨⟨false, 0#3, 1#8, false, false, true⟩, .s 1#5, .s 1#5, .s 2#5⟩) = false ∧
    WellFormed (.sub_ (args (.s 1#5) (tile 1#5) (.s 2#5))) = false ∧
    WellFormed (.clz (args (.s 1#5) (.imm 4#15) (.s 0#5))) = false ∧
    WellFormed (.clz (args (.s 1#5) (.s 4#5) (.s 2#5))) = false ∧
    WellFormed (.mov (args (.s 1#5) (.o 1#4) (.s 0#5))) = false ∧
    WellFormed (.liw plainHead (tile 1#5) 0#48) = false ∧
    WellFormed (.cmp (args (.p 1#3 true) (.s 1#5) (.s 2#5)) 0#4) = false ∧
    WellFormed (.cmp (args (.p 1#3 false) (.s 1#5) (.s 2#5)) 10#4) = false ∧
    WellFormed (.sel (args (.s 1#5) (.s 1#5) (.s 2#5))) = false ∧
    WellFormed (.fcmp (args (.p 1#3 false) (.s 1#5) (.s 2#5)) 6#4) = false ∧
    WellFormed (.wordNotInstruction 0x300000000000000000000100#96) = false := by
  refine ⟨?_, ?_, ?_, ?_, ?_, ?_, ?_, ?_, ?_, ?_, ?_, ?_, ?_, ?_, ?_⟩ <;> decide +kernel

theorem test_illformed_control_and_memory :
    WellFormed (.bra (args (.s 0#5) (.s 1#5) (.s 0#5))) = false ∧
    WellFormed (.ret (args (.s 0#5) (.imm 1#15) (.s 0#5))) = false ∧
    WellFormed (.loop (args (.s 0#5) (.imm 1#15) (.s 0#5))) = false ∧
    WellFormed (.rep (args (.s 0#5) (.imm 0#15) (.s 0#5)) ⟨0#3, 0#5⟩) = false ∧
    WellFormed (.yield (args (.s 0#5) (.imm 1025#15) (.s 0#5))) = false ∧
    WellFormed (.trap (args (.s 0#5) (.imm 0x7FFF#15) (.s 0#5))) = false ∧
    WellFormed (.ld (args (.s 1#5) (.q 1#4) (.s 0#5)) ⟨0#3, 0#2, 0#2, false⟩) = false ∧
    WellFormed (.ld (args (.s 1#5) (.s 1#5) (.q 0#4)) ⟨0#3, 0#2, 0#2, false⟩) = false ∧
    WellFormed (.ld (args (.s 1#5) (.s 1#5) (.s 0#5)) ⟨5#3, 0#2, 0#2, false⟩) = false ∧
    WellFormed (.ld (args (.s 1#5) (.s 1#5) (.s 0#5)) ⟨0#3, 3#2, 0#2, true⟩) = false ∧
    WellFormed (.st (args (.imm 1#15) (.s 1#5) (.s 0#5)) ⟨0#3, 0#2, 0#2, 0#4⟩) = false ∧
    WellFormed (.st (args (.s 1#5) (.s 1#5) (.s 0#5)) ⟨1#3, 0#2, 0#2, 1#4⟩) = false ∧
    WellFormed (.ldp (args (.p 1#3 false) (.s 1#5) (.s 0#5)) ⟨0#3, 0#2, 0#2, true⟩) = false ∧
    WellFormed (.aadd (args (.s 1#5) (.s 1#5) (.s 2#5)) ⟨3#3, 0#2, 0#2, 0#3, false⟩) = false ∧
    WellFormed (.aadd (args (.s 1#5) (.s 1#5) (.s 2#5)) ⟨0#3, 0#2, 0#2, 6#3, false⟩) = false ∧
    WellFormed (.aadd (args (.s 1#5) (.s 1#5) (.s 2#5)) ⟨0#3, 0#2, 0#2, 0#3, true⟩) = false ∧
    WellFormed (.afadd (args (.s 1#5) (.s 1#5) (.s 2#5)) ⟨0#3, 3#2, 0#2, 0#3, false⟩) = false ∧
    WellFormed (.tred (args (tile 1#5) (.s 1#5) (.s 2#5)) ⟨0#3, 9#4, 0#3, 0#2⟩) = false ∧
    WellFormed (.fence (args (.s 0#5) (.s 0#5) (.s 0#5)) 6#3) = false ∧
    WellFormed (.lflush (args (.s 0#5) (.s 1#5) (.s 0#5)) 1#3) = false ∧
    WellFormed (.linv (args (.s 0#5) (.s 1#5) (.s 0#5)) 7#3) = false := by
  refine ⟨?_, ?_, ?_, ?_, ?_, ?_, ?_, ?_, ?_, ?_, ?_, ?_, ?_, ?_, ?_, ?_, ?_, ?_, ?_, ?_, ?_⟩ <;> decide +kernel

theorem test_illformed_tiles_and_matrix :
    WellFormed (.sbind (args (.t 1#5 false false true) (.s 1#5) (.s 0#5))) = false ∧
    WellFormed (.tview (args (tile 1#5) (.t 1#5 false true false) (.s 1#5)) 0#4) = false ∧
    WellFormed (.tview (args (tile 1#5) (tile 1#5) (.s 1#5)) 9#4) = false ∧
    WellFormed (.tedge (args (tile 1#5) (tile 1#5) (.s 1#5)) 2#4) = false ∧
    WellFormed (.tinfo (args (.s 1#5) (tile 1#5) (.s 0#5)) 9#4) = false ∧
    WellFormed (.tmov (args (.t 1#5 true false false) (tile 1#5) (.s 0#5)) tmod0) = false ∧
    WellFormed (.tmov (args (tile 1#5) (.s 1#5) (.s 0#5)) tmod0) = false ∧
    WellFormed (.tmov (args (tile 1#5) (tile 1#5) (.s 0#5)) ⟨0#2, 0#4, 3#2, 0#4⟩) = false ∧
    WellFormed (.tmov (args (tile 1#5) (tile 1#5) (.s 0#5)) ⟨0#2, 1#4, 0#2, 0#4⟩) = false ∧
    WellFormed (.tadd (args (tile 1#5) (tile 1#5) (.p 1#3 false)) tmod0) = false ∧
    WellFormed (.tand (args (tile 1#5) (.t 1#5 true false false) (tile 2#5)) tmod0) = false ∧
    WellFormed (.tand (args (tile 1#5) (tile 1#5) (tile 2#5)) ⟨1#2, 0#4, 0#2, 0#4⟩) = false ∧
    WellFormed (.tany (args (.p 1#3 false) (tile 1#5) (.s 0#5)) ⟨0#2, 0#4, 0#2, 1#4⟩) = false ∧
    WellFormed (.tcmp (args (tile 1#5) (tile 1#5) (tile 2#5)) ⟨0#2, 0#4, 0#2, 1#4⟩) = false ∧
    WellFormed (.text (args (.s 1#5) (tile 1#5) (.s 2#5)) ⟨0#2, 2#4, 0#2, 0#4⟩) = false ∧
    WellFormed (.tshf (args (tile 1#5) (tile 1#5) (.s 2#5)) ⟨0#2, 2#4, 0#2, 0#4⟩) = false ∧
    WellFormed (.tquant (args (tile 1#5) (tile 1#5) (.s 0#5)) ⟨0#2, 0#4, 0#2, 1#4⟩) = false ∧
    WellFormed (.tsten (args (tile 1#5) (.t 1#5 false true false) (.s 1#5)) tmod0) = false ∧
    WellFormed (.mma (args (tile 1#5) (tile 1#5) (.o 2#4)) ⟨false, false, false, false, false⟩) = false ∧
    WellFormed (.ascl (args (tile 1#5) (.s 1#5) (.s 0#5)) ⟨0#2, 3#2⟩) = false := by
  refine ⟨?_, ?_, ?_, ?_, ?_, ?_, ?_, ?_, ?_, ?_, ?_, ?_, ?_, ?_, ?_, ?_, ?_, ?_, ?_, ?_⟩ <;> decide +kernel

theorem test_illformed_engines_and_system :
    WellFormed (.xcopy (args (.s 1#5) (tile 1#5) (.s 31#5)) ⟨0#2, 0#2, 0#8⟩) = false ∧
    WellFormed (.xcopyViewToTile (args (.s 1#5) (.s 0#5) (tile 1#5)) ⟨0#2, 0#2, 0#8⟩) = false ∧
    WellFormed (.xfence (args (.s 0#5) (.imm 32#15) (.s 0#5)) 0#4) = false ∧
    WellFormed (.xfence (args (.s 0#5) (.s 0#5) (.s 0#5)) 0#4) = false ∧
    WellFormed (.xwait (args (.s 0#5) (.x 0#3 4#6) (.s 1#5))) = false ∧
    WellFormed (.xstat (args (.s 1#5) (.x 1#3 0#6) (.s 0#5))) = false ∧
    WellFormed (.gtab (args (.s 0#5) (.s 1#5) (.imm 4#15)) ⟨0#2, 0#8⟩) = false ∧
    WellFormed (.gstat (args (.s 1#5) (.x 0#3 0#6) (.s 0#5))) = false ∧
    WellFormed (.ewait (args (.s 1#5) (.x 2#3 0#6) (.s 0#5)) false) = false ∧
    WellFormed (.ewait (args (.q 0#4) (.x 2#3 0#6) (.s 1#5)) false) = false ∧
    WellFormed (.eclr (args (.s 0#5) (.x 3#3 0#6) (.s 0#5))) = false ∧
    WellFormed (.earm (args (.s 0#5) (.x 5#3 16#6) (.s 1#5)) 0#6) = false ∧
    WellFormed (.barv (args (.s 0#5) (.x 6#3 8#6) (.s 0#5))) = false ∧
    WellFormed (.mlock (args (.q 0#4) (.x 4#3 16#6) (.s 0#5)) 0#3) = false ∧
    WellFormed (.sysrd (args (.s 1#5) (.s 0#5) (.s 0#5)) 5#12) = false ∧
    WellFormed (.syswr (args (.s 0#5) (.s 1#5) (.s 0#5)) 0x30#12) = false ∧
    WellFormed (.vinvAll (args (.s 0#5) (.s 1#5) (.s 0#5))) = false := by
  refine ⟨?_, ?_, ?_, ?_, ?_, ?_, ?_, ?_, ?_, ?_, ?_, ?_, ?_, ?_, ?_, ?_, ?_⟩ <;> decide +kernel

/-! Values that the spec works out. -/

/-- The cases of R181's example. -/
theorem test_division_cases :
    divideSigned (BitVec.ofInt 64 (-7)) 2#64 = (BitVec.ofInt 64 (-3), BitVec.ofInt 64 (-1)) ∧
    (divideUnsigned 0xFFFFFFFFFFFFFFF9#64 2#64).1 = 0x7FFFFFFFFFFFFFFC#64 ∧
    (divideSigned 7#64 (BitVec.ofInt 64 (-2))).2 = 1#64 ∧
    (divideSigned 5#64 0#64).1 = 0xFFFFFFFFFFFFFFFF#64 ∧ (divideUnsigned 5#64 0#64).2 = 5#64 ∧
    divideSigned 0x8000000000000000#64 0xFFFFFFFFFFFFFFFF#64 = (0x8000000000000000#64, 0#64) := by
  refine ⟨?_, ?_, ?_, ?_, ?_, ?_⟩ <;> decide +kernel

/-- The conversions of R186's example. -/
theorem test_float_integer_conversions :
    f32ToInt .rdn false (binary32.decode 0x3FB33333) = 1#64 ∧ f32ToInt .rdn false (binary32.decode 0xBFB33333) = BitVec.ofInt 64 (-2) ∧
    f32ToInt .rne true (binary32.decode 0xC0000000) = 0#64 ∧ intToF32 .rne false 0x1000001#64 = 0x4B800000#64 ∧
    intToF32 .rup false 0x1000001#64 = 0x4B800001#64 := by
  refine ⟨?_, ?_, ?_, ?_, ?_⟩ <;> decide +kernel

/-- The tapered encodings worked in spec/03 (R57, R58), at scale 0 and at scale 2. -/
theorem test_tapered_encodings :
    encodeVal .t8 (.fin false 31 10 0) 0 .rne true = (0x59, false) ∧ encodeVal .t6 (.fin false 31 10 0) 0 .rne true = (0x1A, false) ∧
    encodeVal .t8 (.fin true 3 10 0) 0 .rne true = (0xA3, false) ∧ encodeVal .t6 (.fin true 3 10 0) 0 .rne true = (0x25, false) ∧
    encodeVal .t8 (Val.ofInt 5) 0 .rne true = (0x62, false) ∧ encodeVal .t6 (Val.ofInt 5) 0 .rne true = (0x1C, false) ∧
    encodeVal .t8 (Val.ofInt 3000) 0 .rne true = (0x7F, false) ∧ encodeVal .t6 (Val.ofInt 3000) 0 .rne true = (0x1F, true) ∧
    (encodeVal .t6 (Val.ofInt 3000) 0 .rne false).1 = 0x20 ∧ encodeVal .t8 (.fin false 15 100000 0) 0 .rne true = (0x01, false) ∧
    encodeVal .t6 (.fin false 15 100000 0) 0 .rne true = (0x00, false) ∧ (encodeVal .t8 .nan 0 .rne true).1 = 0x80 ∧
    encodeVal .t8 (Val.ofInt (-100)) 2 .rne true = (0xF2, false) ∧ encodeVal .t6 (Val.ofInt (-100)) 2 .rne true = (0x3F, true) := by
  refine ⟨?_, ?_, ?_, ?_, ?_, ?_, ?_, ?_, ?_, ?_, ?_, ?_, ?_, ?_⟩ <;> decide +kernel

/-- The stores into an I8 bank of scale -4 worked under R39. -/
theorem test_integer_encodings :
    encodeVal .i8 (.fin false 253 100 0) (-4) .rne true = (0x28, false) ∧ encodeVal .i8 (Val.ofInt 9) (-4) .rne true = (0x7F, true) ∧
    encodeVal .i8 (.fin true 1 32 0) (-4) .rne true = (0x00, false) ∧ encodeVal .i8 (Val.ofInt (-3)) (-4) .rne true = (0xD0, false) ∧
    encodeVal .i8 (Val.ofInt 9) (-4) .rne false = (0x90, false) := by
  refine ⟨?_, ?_, ?_, ?_, ?_⟩ <;> decide +kernel

/-- The home of spec/19's example: address 0x12_3456_7800 has h = 3,749. -/
theorem test_home_hash : homeIndex 0x1234567800 = 3749 := by decide +kernel


/-! ## Sample states -/

def core0 : Core := { Core.reset 21 0 with
  run := .running, field := some 0, lcn := 3, fcn := 2, pc := 100#14, regs := Vector.ofFn fun (i : Fin 32) => BitVec.ofNat 64 (i.val * 0x10000000007 + 5)
  q := Vector.ofFn fun (i : Fin 16) => BitVec.ofNat 64 (i.val + 1000), preds := 0b01010101#8
  sys := { SysRegs.reset with tvec := 77#64, ctxid := BitVec.ofNat 64 (21 * 2^20 + 9) } }
def f0 : Field := { Field.reset with valid := true, ctx := 9, anchor := 21, creator := 0, lead := true, word0 := BitVec.ofNat 64 (9 + 2^48 + 4 * 2^43 + 2^38 + 4 * 2^33), rect := BitVec.ofNat 64 (9 + 2^48 + 4 * 2^43 + 2^38 + 4 * 2^33) }
def chip0 : Chip := { Chip.reset with
  bus := .online, troot := 0x8000000000200000#64, harvest := 0xFF#8, links := Vector.replicate 4 ⟨2#2, 0#8⟩, nsel := [(23, 0#16), (80, 0x4000#16)], home := [0, 32, 64, 96, 160, 161, 1024, 1056, 1088].map (fun h => (h, 23#16)),
  hwin := [(0, (0x100000#64, BitVec.ofNat 64 (7 * 2^61 + 80 * 2^50 + 16 * 2^44 + 9 * 2^16)))],
  cwin := [(0, (0x200000#64, BitVec.ofNat 64 (7 * 2^61 + 80 * 2^50 + 16 * 2^44 + 9 * 2^16)))] }
def s0 : State := { State.reset with
  core := core0, fields := State.reset.fields.set 0 f0, chips := [(21, chip0), (22, chip0), (80, chip0)], cyc := 5000, ref := 9000
  modState := { Module.reset with go := some 3, master := some 80, collected := true } }
def si (w : Nat) : State := { (s0.withFetchWord 96 w) with agenda := [.issue, .pass 1 1] }
def sample1 := (si 0x300000000000000000000100)
def sample2 := { (si 0x300000000000000000000100) with agenda := [], stint := 1 }
def sic : State := { (s0.withFetchWord 96 0x300000000000000000010100) with agenda := [.issue, .pass 1 1] }
def sample3 := {s0 with agenda := [.event .go, .issue]}
def z0 : Args := args (.s 0#5) (.s 0#5) (.s 0#5)
def xi : Args := args (.s 9#5) (.imm 200#15) (.imm 0x7FFE#15)
def xp : Args := args (.p 3#3 false) (.p 2#3 true) (.p 4#3 false)
def xsel : Args := args (.s 9#5) (.p 2#3 true) (.s 11#5)
def xq : Args := args (.q 0#4) (.s 10#5) (.q 3#4)
def sx (o : Operand) (v : Nat) (s : State) : State := match o with
  | .s n => s.modC fun c => c.writeS n (BitVec.ofNat 64 v)
  | _ => s
def withRegs (a b : Nat) (s : State) : State := sx (.s 11#5) b (sx (.s 10#5) a s)
def sf : State := withRegs 0x40490fdb 0xbf800000 s0
def x0 : Args := args (.s 9#5) (.s 10#5) (.s 11#5)
def sample4 := (sx (.s 9#5) 1 s0)
def xlp : Args := args (.s 9#5) (.imm 0x4000#15) (.s 0#5)
def sample5 := (withRegs 0 4 s0)
def slate : State := s0.modC fun c => { c with pc := 16380#14 }
def xrb : Args := args (.s 0#5) (.imm 3#15) (.s 0#5)
def sample6 := (withRegs 3 4 s0)
def srep (pos pass : Nat) : State := s0.modSys fun y => { y with repst := BitVec.ofNat 64 (pass * 2^32 + 3 * 2^16 + 2 * 2^11 + 2 * 2^7 + pos * 16 + 1) }
def sample7 := (withRegs 7 0 s0)
def sample0 : Exc := ⟨0x06#8, 0x123#64, 0x77#12, true, false, false⟩
def hm (s : State) : State := s.modSys fun y => { y with mode := 0x9#64 }
def sample9 := (args (.s 0#5) (.imm 9#15) (.s 0#5))
def sample10 := ((hm s0).modSys fun y => {y with epc := 0x123#64, erepst := 5#64, cause := 0x8416#64, xfault := 0x8000000000000000#64})
def sample11 := (s0.modC fun c => {c with skip := true})
def c1 : Cause := ⟨5#8, 6#64, 7#12, false⟩
def sample12 := (s0.modC fun c => {c with deferred := [c1, c1], abortPend := true})
def sample13 := (s0.modC fun c => {c with abortPend := true, preemptPend := true})
def sample14 := (s0.modC fun c => {c with preemptPend := true})
def sampleHeld := (hm sample12)
def sampleIdle := (sample14.modC fun c => {c with run := .idle})
def sample15 := (args (.s 0#5) (.imm 0x7FFF#15) (.s 0#5))
def sal (k : Nat) (s : State) : State := (s.modSys fun y => {y with alost := BitVec.ofNat 64 (k * 2^61 + 5), aecho := 77#64}).modC fun c => { c with lostPlace := some 3 }
def sample16 := (sal 5 (hm s0))
def sample17 := (sal 0 (hm s0))
def sample18 := (sal 6 (hm s0))
def spre : State := (hm s0).modSys fun y => { y with cause := 0x16#64 }
def sample19 := ((hm s0).modC fun c => {c with chunk := some ⟨0,0,0,0,0,false⟩})
def sample20 := (s0.modC fun c => {c with fetched := [(3, 5#96)]})
def sinstr : State := s0.modC fun c => { c with stores := [{ space := 5#3, addr := 0#64, phys := 0, check := false, locked := false, sid := 0, kind := .bytes [1#8], hm := false }] }
def pa (num off : Nat) : Nat := 21 * 2^24 + num * 2^21 + off
def k1 : Core := { core0 with num := 1, fcn := 3, lcn := 4, run := .halted, regs := Vector.replicate 32 8#64, sys := {core0.sys with hasp := Vector.replicate 4 (BitVec.ofNat 64 (3*2^62 + 7 * 2^59 + 32768*2^26))} }
def s2 : State := { s0 with others := [k1] }
def sample21 := (withRegs (pa 1 121) 9 s2)
def sample22 := (withRegs (pa 1 120) 9 s2)
def st1 (s : State) : Store := { space := 5#3, addr := s.core.value x0.a, phys := 0, check := false, locked := false, sid := 3, kind := .start 9#64, hm := false }
def s3 : State := let s := (withRegs (pa 1 120) 9 s2); s.modC fun c => {c with stores := [st1 s]}
def pte (fl p : Nat) (size : Nat := 1) : Word := BitVec.ofNat 64 (fl + size * 64 + p * 1)
def stlb (fl : Nat) : State := { s0 with tlb := [⟨21, 0, 9, 0x10000, 1, pte (fl+1) 0x50000⟩], mem := Mem.putBytes [] 0x50100 [1#8,2#8,3#8,4#8,5#8,6#8,7#8,0x88#8] }
def sample23 := (withRegs 0x10008 0 (hm (stlb 6)))
def tl (l : List (Nat × Shape)) (s : State) : State := s.modC fun c => l.foldl (fun (c : Core) p => c.setTile (BitVec.ofNat 5 p.1) p.2) c
def rec0 (base rows cols rstr estr vr vc : Nat) : Shape := BitVec.ofNat 128 (base + (rows-1) * 2^21 + (cols-1) * 2^27 + rstr * 2^33 + (estr-1) * 2^49 + vr * 2^53 + vc * 2^60)
def bfm : Vector (BitVec 32) 16 := Vector.ofFn fun (i : Fin 16) => match i.val with | 0 => 0x1100#32 | 1 => 0x900#32 | 2 => 0x600#32 | 3 => 0x800#32 | 4 => 0x500#32 | 5 => 0x200#32 | _ => 0#32
def desc : List Byte := (toBytes 8 0x100 ++ toBytes 8 4 ++ toBytes 8 (4+2^16+2^32+2^48) ++ toBytes 8 16 ++ toBytes 8 0 ++ toBytes 8 0 ++ toBytes 8 0 ++ toBytes 8 (0x80000 + 2 * 2^56 + 4*2^28+2^35))
def sst0 : State := (tl [(5, rec0 0 1 4 4 1 1 4)] (withRegs 0x1000 0 s0)).modC fun c => { c with bfmt := bfm, ls := Mem.putBytes (Mem.putBytes [] 0x1000 desc) 0x100 [1#8,2#8,3#8,4#8] }
def strm : Stream := { tile := 5#5, saved := rec0 0 1 4 4 1 1 4, base := 0x100#64, space := 0#3, pitch := 4, cnt := [4,1,1,1], stride := [16#64, 0#64,0#64,0#64], depth := 2, entsz := 256, rbase := 0x80000, edger := 0, edgec := 0, next := 1, filled := 2, poison := none, raised := false }
def strmE : Stream := { strm with saved := rec0 0 1 4 4 1 0 4, filled := 1 }
def sstE : State := sst0.modC fun c => { c with streams := [strmE] }
def sample24 := (args (.t 5#5 false false false) (.s 10#5) (.s 11#5))
def st3 : State := tl [(2, rec0 0x20 8 8 8 1 8 8), (3, rec0 0x20100 4 4 4 1 3 2)] s0
def sample25 := (withRegs 0x123456 0x8 st3)
def xt (a b : Operand) : Args := args (.t 4#5 false false false) a b
def sample26 := (xt (.s 10#5) (.s 11#5))
def sample27 := (withRegs 0x123456 0x80000 st3)
def xin : Args := args (.s 9#5) (.t 2#5 false false true) (.s 0#5)
def sample28 := (withRegs 0 5 st3)
def xv : Args := xt (.t 2#5 false false false) (.s 11#5)
def sample29 := (withRegs 0 65 st3)
def sample30 := (withRegs 0 0x4105 st3)
def sample31 := (withRegs 0 0x305 st3)
def sample32 := (withRegs 0 0x203 st3)
def sample33 := (withRegs 0 0x903 st3)
def sample34 := (withRegs 0xF105 0 s0)
def sample35 := (withRegs 0xA00 0 s0)
def bankUser : MatrixEntry := ⟨.mma (rec0 0x60100 1 1 1 1 1 1) 0 0 ⟨false, false, false, false, false⟩, [], false, 0, 0, 0, 0, 0, [], []⟩
def sbusy : State := (withRegs 0x100 0 s0).modC fun c => { c with mq := [bankUser] }
def sample36 := (withRegs 0x3105 0 s0)
def ls1 (s : State) : State := s.modC fun c => { c with ls := Mem.putBytes [] 0x100 [1#8,2#8,3#8,4#8,5#8,6#8,7#8,0x88#8] }
def sample37 := (ls1 (withRegs 0xF0 0x17 s0))
def ld (sp w ord : Nat) (sx : Bool) : LdMod := ⟨BitVec.ofNat 3 sp, BitVec.ofNat 2 w, BitVec.ofNat 2 ord, sx⟩
def sample38 := { (withRegs 0x10000 0x100 (stlb 6)) with lossLoad := true }
def tm (s : State) : State := s.modC fun c => { c with timed := { active := true, leaving := false, comm := false, base := 4000#64, offset := 0, last := 4990#64, first := false } }
def sample39 := (tm (ls1 (withRegs 0xF0 0x10 s0)))
def isTiming {α : Type} (x : Chk α) : Bool := match x with | .error (.timing _) => true | _ => false
def sampleWeak := (sample39.modC fun c => { c with lsWeak := [0x20] })
def isOk {ε α : Type} (x : Except ε α) : Bool := match x with | .ok _ => true | .error _ => false
def sample40 := (ls1 (withRegs 0xF0 0x10 s0))
def sample41 := (ls1 (withRegs 0xF0 0x14 s0))
def sm (sp w ord : Nat) : StMod := ⟨BitVec.ofNat 3 sp, BitVec.ofNat 2 w, BitVec.ofNat 2 ord, 5#4⟩
def sample42 := (ls1 (withRegs 0xF0 0x15 s0))
def ea (cls i w : Nat) : Nat := 21 * 2^24 + cls * 2^12 + i * 16 + w * 8
def sev : State := s0.setLatch 42 { Latch.reset with lines := Vector.replicate 64 ⟨9#32, 0x17#32⟩, bars := Vector.replicate 16 { Bar.reset with e := 3, a := 1 }, mutexes := Vector.replicate 16 ⟨some 2, [1]⟩, counts := Vector.replicate 16 ⟨8#32, 5#32, true, 3#6⟩ }
def sample43 := (withRegs (ea 0 5 0) 0 sev)
def sample44 := (withRegs 0x10000 0x100 (stlb 6))
def sample45 := (tm (ls1 (withRegs 0xF0 0x14 s0)))
def ws (st : Store) (s : State) : State := s.modC fun c => { c with stores := [st], acks := [⟨5#8, 9#64, 0xFFF#12, false⟩] }
def store1 (sp a p : Nat) : Store := ⟨BitVec.ofNat 3 sp, BitVec.ofNat 64 a, p, false, false, 5, .bytes [1#8,2#8,3#8,4#8], false⟩
def sample46 := (ws (store1 5 (pa 1 0x100) 0) (s2))
def sample47 := (store1 5 (pa 1 0x100) 0)
def sw : State := { s0 with hostMem := Mem.putBytes [] 0x100100 [1#8,2#8], cxlMem := Mem.putBytes [] 0x200100 [3#8,4#8] }
def sample48 := (ws (store1 6 0x100100 80) (sw))
def sample49 := (store1 6 0x100100 80)
def sample50 := (ws (store1 7 0x200100 80) (sw))
def sample51 := (store1 7 0x200100 80)
def sample52 := (ws (store1 0 0x10100 0x50100) (stlb 6))
def sample53 := (store1 0 0x10100 0x50100)
def brk (s : State) : State := { s with chips := [(21, { chip0 with nsel := [(23, 0#16), (80, 0x4000#16)], links := Vector.replicate 4 ⟨3#2, 0#8⟩ }), (22, chip0), (80, chip0)] }
def sample54 := (brk (ws (store1 0 0x10100 0x50100) (stlb 6)))
def sample55 := (ws (store1 5 (pa 1 0x100) 0) ({s2 with others := [{k1 with sys := SysRegs.reset}]}))
def sample56 := {k1 with sys := SysRegs.reset}
def sample57 := (ws (store1 2 (pa 1 0x100) 0) (s2))
def sample58 := (store1 2 (pa 1 0x100) 0)
def sample59 := ((withRegs 0x10101 0xc0490fdb (stlb 0x16)))
def at_ (sp w ord : Nat) (u : Bool) : AtMod := ⟨BitVec.ofNat 3 sp, BitVec.ofNat 2 w, BitVec.ofNat 2 ord, 1#3, u⟩
def sample60 := (ls1 (withRegs 0x104 0x10 s0))
def sample61 := ((withRegs 0x10100 0xc0490fdb (stlb 6)))
def sample62 := (pte 7 0x50000)
def sample63 := {(withRegs 0x10100 0xc0490fdb (stlb 6)) with lossNext := true}
def sample64 := (at_ 0 3 1 true)
def vd : Shape := rec0 0x200 1 1 1 1 1 1
def stred : State := (tl [(4, vd)] (withRegs 0x100 0 (ls1 s0))).modC fun c => { c with bfmt := c.bfmt.set 0 0x1100#32, ls := Mem.putBytes c.ls 0x200 [0#8,0#8,0x80#8,0x3f#8] }
def xtr : Args := args (.t 4#5 false false false) (.s 10#5) (.s 11#5)
def sample65 := (ws (store1 6 0x100100 0) s0)
def sample66 := (s0.modC fun c => {c with wait := .scTick 5})
def sample67 := (withRegs 0x200000 0x100 sw)
def sample68 := (withRegs 0x10000 0x100 (stlb 6))
def sample69 := (withRegs 0x10000 0x100 {stlb 6 with race := [(.global (0x50100/64), ⟨3#12, 0#16, 0#8, 0#8, 0xFFF#12, false, false⟩), (.global 5, ⟨3#12, 0#16, 0#8, 0#8, 0xFFF#12, false, false⟩)], norep := [(0x50000/2048, 32, true)] })
def rr (w : Nat) : Race := ⟨BitVec.ofNat 12 w, 0#16, 0#8, 0#8, 0xFFF#12, false, false⟩
def srace : State := { s2 with race := [(.global 5, rr 4)] }
def swalk : State := { s0 with chips := [(21, {chip0 with troot := BitVec.ofNat 64 (2^63 + 0x200000)})], mem := Mem.store (Mem.store (Mem.store [] 0x200000 8 (0x210000 + 1)) 0x210000 8 (0x220000+1)) 0x220008 8 (0x50000 + 64 + 15) }
def sample70 := (swalk.modC fun c => {c with wait := .collapse 0x10100#64})
def tT (n : Nat) : Operand := .t (BitVec.ofNat 5 n) false false false
def XT : Args := args (tT 4) (tT 2) (tT 3)
def M0 : TMod := ⟨0#2, 0#4, 0#2, 0#4⟩
def stile (d a b : Shape) : State := (tl [(4, d), (2, a), (3, b)] (withRegs 0x3f800000 0x40490fdb s0)).modC fun c => { c with bfmt := bfm, ls := Mem.putBytes (Mem.putBytes [] 0x300 ((List.range 64).flatMap fun i => toBytes 4 (0x3f800000 + i * 0x123456))) 0x40000 (toBytes 4 1 ++ toBytes 4 2) }
def one (b : Nat) : Shape := rec0 b 1 1 1 1 1 1
def SA : State := stile (one 0x100) (one 0x300) (one 0x304)
def dk : TileCase := { args := x0, fovr := 0#4, d := core0.view x0.d, srcs := [], inRows := true, shape := false, fmt := false, last := false, code := none, scale := none, matrix := false, use := testUse (core0.view x0.d) }
def K (i : Instr) (s : State) : TileCase := (tileCase i (s.begun plainForm x0).core).getD dk
-- banks: 0 = fp32 (A,B,D), 1 = m1, 2 = i32, 3 = af56, 4 = i8
def sample71 := (K (.tor XT M0) SA)
def two (b : Nat) : Shape := rec0 b 2 2 2 1 2 2
def SF : State := stile (two 0x100) (two 0x300) (two 0x310)
def sample72 := (arithmetic (SF.begun plainForm XT).core XT M0 (fun _ a _ _ => a) 2)
/-- A timed sample whose B stands in a bank of its own. -/
def apart (s : State) (b : Shape) : State := tm ((tl [(3, b)] s).modC fun c => { c with bfmt := c.bfmt.set 6 0x1100#32 })
def SAt : State := apart SA (one 0xC0304)
def SFt : State := apart SF (two 0xC0310)
def sampleTimed := (arithmetic (SFt.begun plainForm XT).core XT M0 (fun _ a _ _ => a) 2)
def tmBusy (s : State) : State := (tm s).modC fun c => { c with board := { c.board with vector := 9999 } }
def sr (a b : Nat) (s : State) : State := s.modC fun c => (c.writeS 10#5 (BitVec.ofNat 64 a)).writeS 11#5 (BitVec.ofNat 64 b)
def sc1 : State := stile (two 0x100) (one 0x300) (one 0x40000)
def sc2 : State := (sr 0x40000000 0x101 sc1).modC fun c => {c with ls := Mem.putBytes c.ls 0x100 (toBytes 4 0x3f800000 ++ toBytes 4 0x3f800001 ++ toBytes 4 0x3f800002 ++ toBytes 4 0x3f800003)}
def sample73 := (sr 0 0x002 sc2)
def xtx : Args := args (.s 9#5) (tT 4) (.s 11#5)
def Mx (n : Nat) : TMod := ⟨0#2, BitVec.ofNat 4 n, 0#2, 0#4⟩
def sample74 := (sc2.begun plainForm xtx)
def sample75 := (sr 0x40000000 0x201 sc1)
def xins : Args := args (tT 4) (.s 10#5) (.s 11#5)
def sample76 := (sr 0x40000000 0x101 sc1)
def sample77 := ((sr 0x40000000 0x101 sc1).begun plainForm xins)
def sample78 := (sc1.begun plainForm XT)
def xm : Args := args (.o 2#4) (.o 1#4) (.o 3#4)
def withSlots (l : List (Nat × Slot)) (s : State) : State := s.modC fun c => l.foldl (fun (c : Core) p => c.setSlot (BitVec.ofNat 4 p.1) p.2) c
def slot (is ps : SlotState) (r : Option SlotRecord) (d : List Byte) : Slot := ⟨is, r, ps, r, d⟩
def rcd (f r cl by_ : Nat) : SlotRecord := ⟨BitVec.ofNat 4 f, 0#8, r, cl, r, cl, by_⟩
def sm1 := withSlots [(1, slot .ready .ready (some (rcd 5 1 2 2)) [3#8,4#8]), (2, slot .claimed .claimed none []), (3, slot .ready .ready (some (rcd 5 2 1 2)) [5#8,6#8])] SA
def xoi : Args := args (.s 9#5) (.o 1#4) (.s 0#5)
def xou : Args := args (tT 4) (.o 1#4) (.s 0#5)
def sou := tl [(4, two 0x80100)] sm1
def sample79 := (sou.begun plainForm xou)
def smm (r : Nat) := (tl [(4, rec0 0x60000 r r r 1 r r)] sm1)
def xmm : Args := args (tT 4) (.o 1#4) (.o 3#4)
def mm0 : MmaMod := ⟨false,false,false,false,false⟩
def sample80 := ((smm 1).begun plainForm xmm)
def sm2 := (tl [(4, two 0x60000), (5, two 0x80000)] sm1)
def xol : Args := args (.o 2#4) (tT 5) (.s 0#5)
def sample81 := (sm2.begun plainForm xol)
def mq (o : MatrixOp) (s : State) : State := s.modC fun c => {c with mq := [⟨o, [], false, 0, 0, 0, 0, 0, [], []⟩]}
def ml1 := mq (.load 2 (rcd 5 1 2 2) (two 0x80100) false (some [7#8,8#8])) sm1
def sample82 := (ml1.modC fun c => {c with mq := [⟨.release 5, [(0, 7)], false, 0, 0, 0, 0, 0, [], []⟩]})
def sample83 := (mq (.release 5) sm1)
def sample84 := (mq (.unload 1 0x80100) sm1)
def ml0 := mq (.load 2 (rcd 5 1 2 2) (two 0x80100) false none) sm1
def sample85 := (ml0.modC fun c => {c with lsBad := [0x10020]})
def sampleFull := (sm1.modC fun c => { c with mq := List.replicate 16 ⟨.release 5, [], false, 0, 0, 0, 0, 0, [], []⟩ })
def timedLoad (beat : Nat) : MatrixEntry := ⟨.load 2 (rcd 5 1 2 2) (two 0x80100) false none, [], false, 6000, 0, 5000, 1, beat, [(0x80100, [7#8, 8#8])], []⟩
def timedUnload : MatrixEntry := ⟨.unload 1 0x80100, [], false, 6000, 0, 5000, 1, 0, [], [(slot .ready .ready (some (rcd 5 1 2 2)) [3#8,4#8])]⟩
def tmq (e : MatrixEntry) : State := (tm sm1).modC fun c => { c with mq := [e] }
def sampleHeldSlot := (tm sm1).modC fun c => { c with mq := [⟨.mma (one 0x60000) 2 3 mm0, [], false, 6000, 5990, 5000, 1, 0, [], []⟩] }
def sqm : State := mq (.mma (one 0x60000) 1 3 mm0) ((smm 1).modC fun c => {c with ls := Mem.putBytes c.ls 0x60000 [5#8]})
def dv (s : State) (sh : Shape) : View := let bank := s.core.bank (recBank sh); { reg := 0#5, shape := sh, fmt := fmtOf (fmtCode bank), code := fmtCode bank, scale := 0, sat := fmtSat bank, neg := false, trn := false, alt := false }
def sample86 := (dv sqm (one 0x60000))
def sst1 : State := (sst0.modC fun c => {c with streams := [strm]})
def sst2 (n : Nat) := sst1.modC fun c => c.writeS 10#5 (BitVec.ofNat 64 n)
def xsb : Args := args (tT 5) (.s 10#5) (.s 11#5)
def xst : Args := args (.s 9#5) (tT 5) (.s 11#5)
def xsth : Args := { xst with head := { plainHead with ra := true } }
def sample87 := {xst with a := tT 6}
def strm' := (parseStream 5#5 (sst0.core.tile 5#5) desc)
def ee (d : Stream) : Stream := { d with entsz := entrySize (fmtOf (fmtCode (sst0.core.bank (d.rbase / 0x20000)))) d }
def sample88 := (ee (strm'.getD strm))
def strm2 := {strm with filled := 1}
def sst3 : State := (sst0.modC fun c => {c with streams := [strm2]})
def sst4 : State := { sst3 with tlb := [⟨21, 0, 9, 0, 1, pte (1+1) 0x50000⟩], mem := Mem.putBytes [] 0x50100 ((List.range 64).map fun n => BitVec.ofNat 8 n) }
def strm5 := {strm2 with saved := rec0 0 1 4 4 1 0 4 }
def sst5 : State := (sst4.modC fun c => {c with streams := [strm5]})
def sample89 := (sst3.core.view (tT 5))
def timed (s : State) : State := s.modC fun c => {c with timed := {c.timed with active := true}}
def sr3 (a b : Nat) (s : State) : State := s.modC fun c => (c.writeS 10#5 (BitVec.ofNat 64 a)).writeS 11#5 (BitVec.ofNat 64 b)
def stt : State := { stlb 15 with core := (stile (two 0x100) (two 0x300) (two 0x310)).core }
def sample90 := (sr3 0x10000 (2^48*3+1024) stt)
def xxl : Args := args (.s 9#5) (.s 10#5) (.s 11#5)
def stt1 := sr3 0x10100 16 stt
def sample91 := (tl [(4, rec0 0 4 64 64 1 5 64)] stt1)
def FX : Form := { plainForm with phase := .compute, reads := [.s 11#5] }
def xxc : Args := args (.s 9#5) (tT 4) (.s 10#5)
def xvt : Args := args (.s 9#5) (.s 10#5) (tT 4)
def xm0 : XMod := ⟨0#2, 2#2, 0#8⟩
def rte1 : BitVec 32 := BitVec.ofNat 32 (2^31 + 4 * 2^28 + 4 * 2^25 + 0 * 2^22 + 0 * 2^19)
def stc : State := sr3 (21 * 2^24 + 2^21 + 0x1000) (2^62 + 5 * 2^48 + 256) { tm (tl [(4, rec0 0x300 1 64 64 1 1 64)] stt) with others := [k1], chips := [(21, {chip0 with rte := [(5, rte1)]})] }
def stt3 := sr3 3 (2^62 + 2 * 2^36 + 16 * 2^21 + 0x1000) {stt with others := [k1]}
def someOr {α : Type} (d : α) (x : Option α) : α := match x with | some a => a | none => d
def setq (l : List Transfer) (s : State) : State := s.modC fun c => { c with xq := c.xq.set 2 l, xnext := c.xnext.set 2 8, sys := {c.sys with xdone := c.sys.xdone.set 2 7#64} }
def tr (k : TransferKind) : Transfer := { id := 7, kind := k, rows := 0, begun := false, done := false, skipped := none, timed := false, start := 0, issued := 0, finish := 0, need := [], hm := false }
def sample93 := (sr3 0 8 (setq [tr (.free 9#64)] s0))
def xq2 : Args := args (.s 9#5) (.x 0#3 2#6) (.s 11#5)
def sample94 := (sr3 0 7 (setq [tr (.free 9#64)] s0))
def sample95 := (sr3 0 6 (setq [tr (.free 9#64)] s0))
def tco := tr (.copyOut (one 0x300) false 0x10100#64 (BitVec.ofNat 64 (2^47 + 4*2^30)) 0#2)
def tcd := {tco with done := true}
def sten := setq [tco, tr (.free 9#64)] {stt with race := []}
def sample96 := (setq [tcd] sten)
def sample97 := (setq [tr (.free 9#64), tco] sten)
def sample98 := (tr (.free 9#64))
def sttb : State := { stlb 6 with core := (stile (two 0x100) (two 0x300) (two 0x310)).core }
def stenb := setq [tco, tr (.free 9#64)] {sttb with race := []}
def mp := (mapped stenb 0x10100#64 true).getD (0,0#64)
def tci := tr (.copyIn (one 0x300) false 0x10100#64 (BitVec.ofNat 64 (4*2^30)) 0#2)
def withQueue (l : List Transfer) : State := setq l {sttb with race := []}
def rootless (s : State) : State := { s with chips := [(21, { chip0 with troot := 0#64 }), (22, chip0), (80, chip0)], tlb := [] }
def tcol : Transfer := { tco with kind := .copyOut (one 0x300) false 0x10100#64 (BitVec.ofNat 64 (4*2^30)) 0#2 }
def tlease := tr (.lease 0x10000 1024 7)
def postedBroken : State := brk (setq [{ tco with done := true, kind := .copyOut (one 0x300) false 0x10100#64 (BitVec.ofNat 64 (2^47 + 4*2^30 + 22 * 2^37)) 0#2 }] sttb)
def sg (w : Nat) : State := sr3 0 w (stile (two 0x100) (two 0x300) (two 0x310))
def gm0 : GMod := ⟨2#2, 0#8⟩
def xg : Args := args (tT 4) (tT 2) (.s 11#5)
def tabl : List Byte := (toBytes 8 1) ++ toBytes 4 (3*65536) ++ List.replicate 116 0#8
def sgt : State := (sr3 0x1000 0 s0).modC fun c => {c with ls := Mem.putBytes [] 0x1000 tabl}
def xgt : Args := args (.s 0#5) (.s 10#5) (.imm 1#15)
def stn := (parseTable (sgt.core.lsBytes 0x1000 128)).getD ⟨0,false,[]⟩
def cw (extra : Nat) : Nat := 2^11 + 2^18 + extra
def sgT : State := tm (sg (cw 0))
def sgm := tl [(5, rec0 0x20000 2 8 8 1 2 8)] (sg (cw (2^38 + 5*2^39)))
def rd (k : RoodKind) : Rood := ⟨3, k, 0, false, false, false, 0, 0, [], false, []⟩
def sample99 := (rd (.table 1 stn))
def sgr2 : State := (stile (one 0x100) (one 0x300) (two 0x310)).modC fun c => {c with gt := c.gt.set 0 stn, gq := c.gq.set 2 [rd (.table 1 stn)]}
def pointEntry : StencilEntry := ⟨3, 0, 0, 0, 0⟩
def pointTable : State := sgr2.modC fun c => { c with gt := c.gt.set 0 ⟨1, false, [pointEntry]⟩ }
def sample100 := ({rd (.table 1 stn) with done := true, finish := 9999})
def sgq (l : List Rood) (s : State) : State := s.modC fun c => { c with gq := c.gq.set 2 l, gnext := c.gnext.set 2 8 }
def sample101 := (sgq [rd (.table 1 stn)] sgt)
def un (s : State) : State := s.modC fun c => { c with stores := [st1 s0] }
def srr (a b : Nat) (s : State) : State := s.modC fun c => (c.writeS 10#5 (BitVec.ofNat 64 a)).writeS 11#5 (BitVec.ofNat 64 b)
def sample102 := (un (srr 0 0 sev))
def xe (sub idx : Nat) : Args := args (.s 9#5) (.x (BitVec.ofNat 3 sub) (BitVec.ofNat 6 idx)) (.s 11#5)
def sample103 := (srr (ea 0 7 0) 5 sev)
def xep : Args := args (.s 9#5) (.s 10#5) (.s 11#5)
def ev7 : EventAddr := ((sev.clock plainHead).eventAddr (BitVec.ofNat 64 (ea 0 7 0))).getD ⟨0,0,0,0⟩
def bar (b : Bar) (s : State) : State := s.setLatch 42 { (s.latch 42) with bars := Vector.replicate 16 b }
def nb : State := s2.modSys fun y => {y with barst := 0#64}
def sample104 := (bar { Bar.reset with e := 3, a := 1 } nb)
def xb (sub idx : Nat) : Args := args (.s 9#5) (.x (BitVec.ofNat 3 sub) (BitVec.ofNat 6 idx)) (.s 0#5)
def sample105 := (bar { Bar.reset with e := 3, a := 2, joins := 1, drops := 1 } nb)
def sample106 := (bar { Bar.reset with e := 0, a := 0 } nb)
def sbr (ph : Bool) (s : State) : State := (bar {Bar.reset with e := 3, phase := ph } s).modSys fun y => {y with barst := barstWord (.object 42 4) true true}
def smu (m : Mutex) (s : State) : State := s.setLatch 42 { (s.latch 42) with mutexes := Vector.replicate 16 m }
def sample107 := (smu ⟨some 0, []⟩ s2)
def sample108 := (smu ⟨none, []⟩ s0)
def sample109 := (smu ⟨some 2, [1]⟩ s0)
def sample110 := (smu ⟨some 2, [1]⟩ (un s0))
def sample111 := (smu ⟨some 0, [1,2]⟩ s2)
def xc (a b : Nat) (s : State) : State := srr a b s
def cdesc (op fmt n : Nat) : Nat := 7 + op * 2^8 + fmt * 2^11 + 3 * 2^15 + n * 2^18
def kc (ab : Bool) (res : List (Nat × List Byte)) : Coll := { ctx := 21*2^20+9, id := 7, desc := BitVec.ofNat 64 (cdesc 0 5 2), members := [3,4], opened := [3,4], closed := [], parts := [], results := res.map fun r => ⟨r.1, 0, r.2⟩, sat := true, aborted := ab }
def oc (inj ext : Nat) : OpenColl := { id := 7, desc := BitVec.ofNat 64 (cdesc 0 5 2), injected := inj, extracted := ext, popped := 0, forming := [], delivered := ext }
def scc (inj ext : Nat) (ab : Bool) (res : List (Nat × List Byte)) (s : State) : State := ({ s with colls := [{kc ab res with ctx := s.core.ctx}] } : State).modC fun c => { c with colls := [oc inj ext], ls := Mem.putBytes [] 0x1000 ((List.range 64).map fun k => BitVec.ofNat 8 (k+1)) }
def schain (s : State) : State := { s with modState := { s.modState with chain := [ { level := 1, parent := 1, port := 2, pres := [0,1,2,3], host := 21, first := 0 }, { level := 2, parent := 0xFFF, port := 0, pres := [0,1,2,3], host := 21, first := 0 }] } }
def scj (a b : Nat) (inj ext : Nat) (ab : Bool) (res : List (Nat × List Byte)) := xc a b (scc inj ext ab res (schain s2))
def sample112 := (scj 0x1000 7 0 0 true [])
def xcc : Args := args (.q 0#4) (.s 10#5) (.s 11#5)
def K3 (s : State) : Coll := s.colls.headD (kc false [])
def sample113 := (K3 (scj 0x1000 7 0 0 true []))
def wv (n : Nat) : List Word := List.replicate 64 (BitVec.ofNat 64 n)
def scjf : State := let s := (scj 0x1000 7 0 0 false []).modC fun c => { c with cqin := List.replicate 4 ⟨7, 9, wv 5⟩ }; { s with colls := s.colls.map fun k => { k with parts := (List.range 64).map fun n => ⟨(((s.chainPath s.core.lcn).headD (0,0)).1), 3, n + 100, wv 5, none, n⟩ } }
def sample114 := (scj 0x1000 7 1 1 false [(1, List.replicate 64 3#8)])
def sample115 := (K3 (scj 0x1000 7 1 1 false [(1, List.replicate 64 3#8)]))
def dOpenColl : OpenColl := { id := 0, desc := 0#64, injected := 0, extracted := 0, popped := 0, forming := [], delivered := 0 }
def sample116 := (xc (cdesc 7 5 2) 0 s2)
def sample117 := (scj 7 7 0 0 true [])
def sample118 := (K3 (scj 7 7 0 0 true []))
def sample119 := (xc (cdesc 0 5 2) 0 s2)
def sample120 := (scj 7 7 2 2 false [(1, List.replicate 64 3#8)])
def sample121 := (K3 (scj 7 7 2 2 false [(1, List.replicate 64 3#8)]))
def sample122 := (scj 7 7 2 0 false [])
def sample123 := (K3 (scj 7 7 2 0 false []))
def sparts : State := let s := scj 0 0 0 0 false []; { s with colls := s.colls.map fun k => { k with parts := [⟨0,0,0,wv 5,none,0⟩, ⟨0,1,0,wv 6,none,1⟩, ⟨1,2,0,wv 9,none,2⟩] } }
def scq : State := let s := scj 0 0 1 0 false []; { s.modC (fun c => { c with cqin := [⟨7, 0, wv 5⟩] }) with others := [] }
def sample124 := (((scq.chainPath scq.core.lcn).headD (0,0)).1)
def sample125 := (((scq.chainPath scq.core.lcn).headD (0,0)).2)
def sample126 := ((scq.chainPath scq.core.lcn).tail)
def k50 : Core := { k1 with num := 5, lcn := 50 }
def sparts2 : State := let s : State := { sparts with others := k50 :: sparts.others, modState := { sparts.modState with chain := [ { level := 1, parent := 1, port := 2, pres := [0,1,2,3], host := 21, first := 0 }, { level := 2, parent := 0xFFF, port := 0, pres := [0,1,2,3], host := 21, first := 0 }, { level := 1, parent := 1, port := 3, pres := [0,1], host := 21, first := 40 }] } }; { s with colls := s.colls.map fun k => { k with members := [3, 4, 50] } }
def cnode : ChainNode := { level := 1, parent := 1, port := 2, pres := [0,1,2,3], host := 21, first := 0 }
def dChainNode : ChainNode := { level := 0, parent := 0, port := 0, pres := [], host := 0, first := 0 }
def xcy : Args := args (.s 9#5) (.s 0#5) (.s 0#5)
def timedb (cm : Bool) (s : State) : State := s.modC fun c => {c with timed := {active := true, leaving := false, comm := cm, base := 4000#64, offset := 3, last := 4900#64, first := false }, fbase := 0#64}
def sample127 := (timedb false s0)
def sfl (s : State) : State := { timedb true (tl [(4, rec0 0x100 1 64 64 1 1 64), (2, rec0 0x300 1 64 64 1 1 64)] s) with chips := [(21, {chip0 with rte := [(5, rte1)]})] }
def sfl0 : State := (sfl s0).modC fun c => { c with bfmt := c.bfmt.set 0 0x1100#32 }
def sflBusy : State := sfl0.modC fun c => { c with board := { c.board with sender := 99999, receiver := 99999 } }
def FC : Form := { plainForm with phase := .comm }
def xsd : Args := args (.t 4#5 false false false) (.t 2#5 false false false) (.s 0#5)
def lse : Lane := { act := .send, cycle := 5004, order := 4990, route := 5, tile := rec0 0x300 1 64 64 1 1 64, line := 0 }
def sample128 := {lse with act := .take}
def sample129 := (sfl0.modC fun c => {c with lanes := [{lse with act := .take}]})
def sample130 := {lse with act := .write (List.replicate 256 5#8)}
def sample131 := (List.replicate 256 5#8)
def fl (due : Nat) : Flit := ⟨5, 168, 21, 0, due, 4000, 3900, [], List.replicate 256 7#8, none, none, none⟩
def sample132 := { sfl0 with flits := [fl 5300] }
def sample133 := (sfl0.modC fun c => {c with rxbuf := [fl 5000], lanes := [{lse with act := .take}]})
def slse : State := sfl0.modC fun c => {c with lanes := [lse]}
def slw := ((slse.modC fun c => { c with lanes := c.lanes.erase lse }).reachCycle 5004).routeWalk 520 5 21 4
def sample134 := ((slw.2.getD (0,0)).1)
def sample135 := ((slw.2.getD (0,0)).2)
def mk1 : Mark := ⟨77#14, 0, false, Vector.replicate 16 3#64, s0.core.slots, Vector.replicate 16 9#32, Vector.replicate 4 0, Vector.replicate 4 0⟩
def srb : State := { (timedb false s0).modC (fun c => { c with mark := some mk1 }) with others := [] }
def dMark : Mark := ⟨0#14, 0, false, Vector.replicate 16 0#64, Core.reset 21 0 |>.slots, Vector.replicate 16 0#32, Vector.replicate 4 0, Vector.replicate 4 0⟩
def spr : State := ((timedb false s0).modC fun c => { c with preemptPend := true, preemptAt := 3000, timed := {c.timed with first := true} })
def srl (a : Bool) : State := s0.modC fun c => { c with wait := .release, timed := {c.timed with active := a, base := 5200#64}, savedTimed := false }
def fl0 (f : Field → Field) (s : State) : State := s.setField 0 (f (s.fieldAt 0))
def sjp (bs : List Byte) (cs : List Card) : State := fl0 (fun f => { f with cards := cs, stat := .running, serial := 55, rr := Vector.replicate 8 0 }) (srr 0x10140 0 { stlb 7 with tlb := [⟨21, l2Unit, 9, 0x10000, 1, pte 6 0x50000⟩], mem := Mem.putBytes [] 0x50140 bs })
def cwd (w0 rb rc ab dep dv cpl : Nat) : List Byte := toBytes 8 w0 ++ toBytes 8 rb ++ toBytes 8 rc ++ toBytes 8 ab ++ toBytes 8 0 ++ toBytes 8 dep ++ toBytes 8 dv ++ toBytes 8 cpl
def cw0 (prio gang scope div minch : Nat) : Nat := 1 * 2^48 + minch * 2^32 + div * 2^28 + prio * 2^20 + gang * 2^19 + scope * 2^16 + 321
def okc := cwd (cw0 2 0 3 2 4) 0x10200 20 0 0 0 0
def sx1 := sjp okc []
def badc := cwd (cw0 2 0 0 2 4) 0x10200 20 0 0 0 0
def crd (bs : List Byte) (n : Nat) (u : List (Nat × Nat)) (st : CardState) : Card := { serial := n, words := cardWords bs, level := 2, since := 100, due := none, inSlot := true, depDone := true, depTick := 1, ready := true, undealt := u, parts := 2, die := 21, quad := 0, state := st }
def sx4 := sjp okc ((List.range 64).map fun k => crd okc (k+100) [(0,4)] .queued)
def xrt : Args := args (.s 9#5) (.s 10#5) (.s 11#5)
def u1 := sx1.clock xrt.head
def rd1 : State × List Byte := match u1.dispatchRead 0 0x10140#64 64 with | .ok p => p | .error _ => (s0, [])
def sx3 := sjp okc ((List.range 64).map fun k => crd okc k [(0,4)] .queued)
def rd3 : State × List Byte := match (sx3.clock xrt.head).dispatchRead 0 0x10140#64 64 with | .ok p => p | .error _ => (s0, [])
def sx2 := sjp badc []
def rd2 : State × List Byte := match (sx2.clock xrt.head).dispatchRead 0 0x10140#64 64 with | .ok p => p | .error _ => (s0, [])
def acc1 : State × Word := match rd1.1.acceptCard 0 rd1.2 rd1.1.core.die rd1.1.core.quad false with | .accepted v h => (v, h) | _ => (s0, 0#64)
def sen (c : Option Chunk) (d : Card) (s : State := s0) : State := fl0 (fun f => { f with cards := [d] }) (s.modC fun k => { k with chunk := c, card := c.map fun _ => (0, 3) })
def ch (next left : Nat) : Chunk := { field := 0, serial := 3, next := next, left := left, size := 5, canc := false }
def sample136 := (sen (some (ch 7 3)) (crd okc 3 [(9, 2)] .dealing))
def xend : Args := args (.s 0#5) (.s 0#5) (.s 0#5)
def sample137 := (crd okc 3 [(9, 2)] .dealing)
def sample138 := (sen (some (ch 7 1)) (crd okc 3 [] .dealing))
def stk (cd : Option (Nat × Nat)) (c : Option Chunk) (d : Card) (s : State := s0) : State := fl0 (fun f => { f with cards := [d] }) (s.modC fun k => { k with chunk := c, card := cd })
def sample139 := (stk (some (0,3)) (some (ch 7 3)) (crd okc 3 [(9, 2)] .dealing))
def xjt : Args := args (.s 9#5) (.s 0#5) (.s 0#5)
def dChunk : Chunk := { field := 0, serial := 0, next := 0, left := 0, size := 0, canc := false }
def dCard : Card := { serial := 0, words := Vector.replicate 8 0#64, level := 0, since := 0, due := none, inSlot := true, depDone := true, depTick := 0, ready := true, undealt := [], parts := 1, die := 0, quad := 0, state := .queued }
def hd (die n : Nat) (c : Option Chunk) (d : Card) : State := srr (die * 2^48 + n) 0 (stk (c.map fun _ => (0,3)) c d)
def sample140 := (hd 21 4 (some (ch 7 3)) (crd okc 3 [(9, 2)] .dealing))
def xjc : Args := args (.s 9#5) (.s 10#5) (.s 0#5)
def sample141 := (hd 33 3 (some (ch 7 3)) (crd okc 3 [(9, 2)] .dealing))
def sample142 := (stk none none (crd okc 3 [(9, 2)] .dealing))
def hS := hd 21 3 (some (ch 7 3)) (crd okc 3 [(9, 2)] .dealing)
def hC := (crd okc 3 [(9, 2)] .dealing)
def sample143 := (crd okc 3 [(9, 2)] .dealing)
def hS3 := hd 21 3 none (crd okc 3 [] .finished)
def sample144 := (crd okc 3 [] .finished)
def sample145 := (stk (some (0,3)) none (crd okc 3 [(9, 2),(20,50)] .dealing))
def sample146 := (crd okc 3 [(9, 2),(20,50)] .dealing)
def idle (s : State) : State := s.modC fun k => { k with run := .idle, chunk := none, card := none }
def sdp (d : Card) : State := fl0 (fun f => { f with cards := [d], stat := .running }) (idle s0)
def sample147 := (sdp (crd okc 3 [(9, 20)] .queued))
def sample148 := (crd okc 3 [(9, 20)] .queued)
def late (s : State) : State := { s with cyc := 3 * 2^20 }
def sample149 := (late (sdp (crd okc 3 [(9, 20)] .queued)))
def dep (v : Nat) : Card := { crd (cwd (cw0 2 0 3 2 4) 0x10200 20 0 0x10140 v 0) 3 [] .queued with depDone := false, ready := false }
def sdep (v : Nat) : State := { late (sdp (dep v)) with tlb := [⟨21, l2Unit, 9, 0x10000, 1, pte 6 0x50000⟩], mem := Mem.putBytes [] 0x50140 [5#8] }
def rdd (v : Nat) : State × List Byte := match (sdep v).dispatchRead 0 0x10140#64 8 with | .ok p => p | .error _ => (s0, [])
def rw (l : List Nat) : List Byte := l.flatMap (toBytes 8)
-- base, elem 16 bytes cap 4, cons 1 eos pmask, tail/head, pbind..., cbind
def rdesc (cnt eos : Nat) (pm : Nat := 0b11) : List Byte := rw [0x10800, 4 + 1 * 2^32, 1 * 2^32 + eos * 2^16 + pm, (5 + cnt) * 2^32 + 5, 3 + 0xFFF * 2^12, 0, 0, 3]
def srg (cnt eos : Nat) (tags : List Nat) : State := srr 0x10140 0x1000 { s0 with tlb := [⟨21, 0, 9, 0x10000, 1, pte 6 0x50000⟩], mem := Mem.putBytes (Mem.putBytes [] 0x50140 (rdesc cnt eos)) 0x50800 ((List.range 64).map fun n => BitVec.ofNat 8 (n + 1)), ringTags := [(0x50140, tags)], core := { s0.core with ls := Mem.putBytes [] 0x1000 ((List.range 16).map fun n => BitVec.ofNat 8 (n + 100)) } }
def R0 := srg 2 0 [0, 1]
def RW := srg 0 1 []
def RE := srg 0 3 []
def R4 := srg 4 0 [0, 1, 0, 1]
def ringEntry (s : State) (w : Bool) : Nat × Word := (mapped (s.clock xrt.head) (s.core.value xrt.a) w).getD (0, 0#64)
def ringRead (s : State) (w : Bool) : Ring := ⟨(s.core.value xrt.a).toNat, (ringEntry s w).1, cardWords (Mem.getBytes (s.clock xrt.head).mem (ringEntry s w).1 64)⟩
def unboundRing (cnt : Nat) : State := { srg cnt 0 [0, 1] with mem := Mem.putBytes (srg cnt 0 [0, 1]).mem (0x50140 + 56) (toBytes 8 0xFFF) }
def unboundRing2 : State := unboundRing 2
def badRing : State := { R0 with mem := Mem.putBytes R0.mem 0x50140 (toBytes 8 1) }
def queuedRing : State := { R0 with
  rings := [(0x50140, true, 21 * 8 + 1), (0x50140, false, 21 * 8 + 2)]
  others := [{ core0 with num := 1, wait := .ringPut 0x10140 0 }, { core0 with num := 2, wait := .ringGet 0x10140 }] }
def sample152 := {s0 with cyc := 70 * 65536}
def tb (w : Wait) (s : State) : State := s.modC fun c => { c with wait := w }
def stt0 : State := { tb (.mutex 4) s0 with cyc := 70 * 65536, tumbler := [] }
def sdl : State := { stt0.setLatch 42 { Latch.reset with mutexes := Vector.replicate 16 ⟨some 0, [1]⟩ } with cyc := 70 * 65536 }
def sdl1 : State := { sdl with tumbler := [⟨sdl.core.ctx, 69, sdl.scan sdl.core.ctx⟩] }
def sample153 := ((sdl1.scan sdl1.core.ctx).headD ⟨0,0,none⟩)
def ssf : State := { s0 with modState := { s0.modState with lpt := [(21,0,false),(22,1,false)]} }
def ssg : State := ssf.setField 0 { f0 with valid := false }
def sbd : State := { s0 with chips := [(21, {chip0 with rte := [(3, 0x80000000#32 + 0x10000000#32), (4, 0x7#32)]}), (22, chip0), (80, chip0)] }
def swf : State := { s0 with ref := 100, chips := [(21, {Chip.reset with arrivals := [(1,80,50),(2,80,52)]}), (22, {chip0 with lockAt := some 60, croot := 80, bus := .clockLocked})] }
def sample154 := {swf with chips := [(21, {Chip.reset with arrivals := [(1,99,50)], croot := 99})]}
def sbt : State := { s0 with ref := 9000, chips := [(21, {chip0 with bus := .clockLocked, links := Vector.replicate 4 ⟨1#2, 0#8⟩, lockAt := some 5}), (22, {chip0 with bus := .clockLocked, lockAt := some 60, links := Vector.replicate 4 ⟨1#2, 0#8⟩})] }
def sample155 := {sbt with chips := sbt.chips.take 1}
def lockDue : State := { sample154 with ref := 74 }
def lockDead : State := { swf with ref := 74, chips := [(21, { Chip.reset with arrivals := [(1, 99, 50)], croot := 99, links := Vector.replicate 4 ⟨3#2, 0#8⟩ })] }
def partnerDark : State := { sample155 with ref := 4101 }
def trainDue : State := { sbt with ref := 100 }
def adoptDue : State := { swf with ref := 58 }
def sio : State := { s0 with chips := [(80, { Chip.reset with arrivals := [] })], modState := { s0.modState with images := [(80, { Module.reset.running with rootSet := 3#8 }), (99, { Module.reset.running with rootSet := 3#8 })] } }
def sample156 := {swf with chips := [(21, Chip.reset), (22, {chip0 with lockAt := some 60, croot := 80, bus := .clockLocked})]}
def waveDue : State := { sample156 with ref := 62 }
def sid : State := { s0 with modState := { s0.modState with collected := false }, chips := [(81, {chip0 with bus := .linksTrained}), (80, {chip0 with verdict := some true, bus := .linksTrained, croot := 80})] }
def collectDue : State := { sid with ref := 16389, modState := { Module.reset with collectFrom := some 5, master := some 80 } }
def noneEarly : State := { collectDue with ref := 6, chips := allDies.map fun d => (d, { chip0 with bus := .isolated }) }
def sce : State := { sid with ref := 20000, modState := { Module.reset with collectFrom := some 5, master := some 80 } }
def stw : State := { s0 with ref := 777, modState := { Module.reset with master := some 80, collected := true, lpt := [(21,0,false),(21,1,false)] }, chips := [(21, {chip0 with bus := .identified}), (80, {chip0 with bus := .identified, verdict := some true})] }
def stag : State := { stw with chips := (21, {chip0 with bus := .identified}) :: ioDies.map fun d => (d, {chip0 with bus := .identified, verdict := some true}) }
def sgo : State := { s0 with ref := 777, modState := { Module.reset with master := some 80, collected := true, lpt := [(21,0,false),(21,1,false)] }, chips := [(21, {chip0 with bus := .configured}), (80, {chip0 with bus := .configured})] ++ allDies.map fun d => (d, {chip0 with bus := .isolated}) }
def sample157 := {sgo with modState := {sgo.modState with go := some 3}}
def stimed : State := s0.modC fun c => { c with timed := { c.timed with active := true } }
def sfc : State := ({ s0 with chips := s0.chips ++ [(63, chip0), (62, chip0)] } : State)
def sfd : State := (s0.setField 0 { f0 with valid := false })
def rectW (x0 x1 y0 y1 ctx : Nat) : Word := BitVec.ofNat 64 (ctx + x0 * 2^48 + x1 * 2^43 + y0 * 2^38 + y1 * 2^33)
def sample158 := (rectW 3 4 3 4 7)
def sample159 := (rectW 1 2 1 1 7)
def fs (st : FieldState) (f : Field → Field := id) (s : State := s0) : State := let t := s.setField 0 (f { s.fieldAt 0 with stat := st }); { t with others := [] }
def cd1 : Card := { serial := 1, words := Vector.replicate 8 0#64, level := 2, since := 100, due := none, inSlot := true, depDone := true, depTick := 1, ready := true, undealt := [], parts := 2, die := 21, quad := 0, state := .queued }
def otherCore : State := { (fs .saved) with core := { core0 with field := none } }
def sample160 := (fs .running fun f => {f with cards := [cd1]})
def akc (s : State) : State := s.modC fun c => { c with run := .acked, fcn := 0 }
def sample161 := (akc (fs .preempting fun f => {f with fcmd := 0#64, since := 0}))
def later (s : State) : State := { s with cyc := 4096 * 100 }
def sample162 := (later (fs .preempting fun f => {f with fcmd := 5#64, since := 3}))
def A2 : Saved := ⟨7, [(fs .saved).core], [], [], Field.reset, 5#64, 0⟩
def sav2 : State := { (fs .restoring) with areas := [A2], mem := Mem.putBytes (Mem.putBytes [] 0 (blockBytes A2.seed 0 0x10000)) 0x10000 (blockBytes A2.seed 1 0x4000) }
def shu : State := { (fs .saved) with modState := { (fs .saved).modState with holdup := true } }
def sample163 := (A2.cores.headD s0.core)
def sample164 := ((akc (fs .copying fun f => {f with hold := true})))
def noArea : State := { (fs .restoring) with areas := [] }
def copyFree : State := akc (fs .copying fun f => { f with hold := false, creator := 1 })
def ste : State := { s0 with chips := s0.chips ++ [(2, chip0), (21*0+2, chip0)] }
def smc (r : RunState) : State := { ste with core := { s0.core with memc := true, die := 2, run := r } }
def off (s : State) : State := { s with modState := { s.modState with powered := false } }
def fsb (st : FieldState) (f : Field → Field := id) (s : State := s0) : State := let t := s.setField 0 (f { s.fieldAt 0 with stat := st }); { t with others := [], modState := { t.modState with powered := true, mains := true } }
def sample165 := (off (fsb .killed))
def spow : State := let s := s0.setField 0 { s0.fieldAt 0 with stat := .preempting }; { s with others := [], modState := { s.modState with holdup := true, mains := false } }
def hup (s : State) : State := { s with modState := { s.modState with holdup := true, mains := false } }
def sample166 := (hup (fsb .killed fun f => {f with huEnd := some 0x100, hurec := 0x8000000000000000#64}))
def sample167 := (fsb .running (fun f => {f with serial := 9, rpctl := 0xB000000000000F00#64}))
/-- A core of a field in replay waits for a turn that is not logged for it. -/
def divAt (cyc : Nat) : State := let s := fsb .running (fun f => {f with serial := 9, rpctl := 0x8000000000000F00#64}); { s with cyc := cyc, core := { s.core with wait := .replay 5 } }
def sample168 := (fsb .running (fun f => {f with serial := 1, rpctl := 0xB000000000000F00#64}))
def dst (len ctl : Nat) : State := let s := fsb .saved; { s with fields := State.reset.fields.set 0 (s.fieldAt 0), tlb := [⟨21, l2Unit, 9, 0x10000, 1, pte 6 0x50000⟩], mem := Mem.putBytes [] 0x50000 (toBytes 8 0x20000 ++ toBytes 8 len ++ toBytes 8 0 ++ toBytes 8 ctl) }
def sample169 := (dst 0x10000 0)
def dsv : Word := BitVec.ofNat 64 (2^63 + 0 * 2^52 + 0x10000 )
def sample170 := (dst 0x10000 1)
/-- Every HBM stack is FENCED. -/
def fencedStacks : List (Nat × Chip) := (allDies.filter fun d => kindOf d == some 2).map fun d => (d, { chip0 with bus := .fenced })
def sev1 : State := fsb .saved id { s0 with chips := fencedStacks ++ [(21, { chip0 with troot := 0#64 })] }
def sev2 : State := { sev1 with chips := fencedStacks ++ [(21, {chip0 with troot := BitVec.ofNat 64 (2^63 + 0x200000)})], mem := Mem.store (Mem.store (Mem.store [] 0x200000 8 (0x410000 + 1)) 0x410000 8 (0x420000+1)) 0x420008 8 (0x50000 + 64 + 15) }
def sev3 : State := sev2.setField 0 { sev2.fieldAt 0 with stat := .running }
def pg2 : Leaf := ⟨9, 0x420008, 1, 0x5004f#64, 65536⟩
def he (f : Endpoint → Endpoint) (s : State) : State := s.setHost 1 (f { s.hostAt 1 with up := true })
def sample171 := ((he id s0).setSem 3 2#2)
def sample172 := (he id (fsb .killed))
def spo (bs : List Byte) (l : List Card) : State := let s := he id (fsb .running fun f => {f with cards := l, serial := 88}); {s with tlb := [⟨21, l2Unit, 9, 0x10000, 1, pte 6 0x50000⟩], mem := Mem.putBytes [] 0x50140 bs }
def okcb : List Byte := toBytes 8 (1 * 2^48 + 4 * 2^32 + 2 * 2^28 + 2 * 2^20 + 3 * 2^16 + 321) ++ toBytes 8 0x10200 ++ toBytes 8 20 ++ toBytes 8 0 ++ toBytes 8 0 ++ toBytes 8 0 ++ toBytes 8 0 ++ toBytes 8 0
def sample173 := (spo (0#8 :: okcb) [])
def rdx (s : State) : State × List Byte := match s.dispatchRead 0 0x10140#64 64 with | .ok p => p | .error _ => (s0, [])
def sample174 := (rdx (spo (0#8 :: okcb) []))
def sample175 := ((he (fun h => {h with dqhead := 3#32, dqtail := 6#32, dqctl := 0x100000000#64, running := [(1,[]),(2,[])]}) s0).setSem 3 2#2)
def sample176 := (rdx (spo okcb []))
def acc (s : State) : State × Word := match (rdx s).1.acceptCard 0 (rdx s).2 0 0 true with | .accepted v h => (v, h) | _ => (s0, 0#64)
def sample177 := (acc (spo okcb []))
def sample178 := (he id (fsb .running))
def spof : State := spo okcb ((List.range 64).map fun k => crd okcb k [(0,4)] .queued)
def sdm (ds : List Byte) : State := { he (fun h => {h with dqbase := 0x5003#64, dqctl := 0x100000000#64, dqhead := 3#32, dqtail := 5#32, dqdone := 3#32 }) s0 with hostMem := Mem.putBytes (Mem.putBytes [] 0x5060 ds) 0x9000 [1#8,2#8,3#8] }
def sdr (ds : List Byte) : State := let s := sdm ds; s.setHost 1 { s.hostAt 1 with dqhead := 4#32, running := [(3, ds)] }
def d0 (gpa hba len ctl : Nat) : List Byte := toBytes 8 gpa ++ toBytes 8 hba ++ toBytes 8 len ++ toBytes 8 ctl
def sample179 := (sdr (d0 0x40001 0x9000 64 1))
def sample180 := (sdr (d0 0x40000 0x9000 64 2))
def sample181 := (d0 0x40000 0x9000 64 2)
def sample182 := (he (fun h => {h with dqbase := 0x5003#64}) s0)
def sample183 := (d0 0x40001 0x9000 64 1)
def sample184 := (sdm (d0 0x40000 0x9000 64 4))
def sample185 := ((sdm (d0 0x40000 0x9000 64 4)).setHost 1 {(sdm (d0 0x40000 0x9000 64 4)).hostAt 1 with running := [(2, [])]})
def sample186 := (sdr (d0 0x40000 0x9000 64 1))
def sample187 := (d0 0x40000 0x9000 64 1)
def sample188 := (he (fun h => {h with attBusy := true}) s0)
def pw (rec : Bool) : State := {s0 with modState := {s0.modState with powered := true, recovery := rec}}
def img0 : Image := ⟨3#8, 0x0F#8, 9#32, 77⟩
def pwu (left : List Nat) : State := { s0 with modState := { s0.modState with powered := true, update := some (img0, left) } }
def sample189 := (he (fun e => { e with nonce := List.replicate 32 5#8 }) s0)
def s0m : State := {s0 with modState := {s0.modState with master := none}}
def swin : State := { s0 with chips := [(21, { chip0 with hwin := [(3, (0#64, BitVec.ofNat 64 (20 * 2^44)))] })] }

theorem fields_all {p : Nat → Field → Prop} (s : State) (h : ∀ i : Fin 16, p i (s.fieldAt i)) (hr : ∀ j, 16 ≤ j → p j Field.reset)
    (j : Nat) : p j (s.fieldAt j) := by
  by_cases hj : j < 16
  · exact h ⟨j, hj⟩
  · have : s.fieldAt j = Field.reset := by simp [State.fieldAt, hj]
    rw [this]; exact hr j (by omega)
theorem lookupD_all {α : Type} {p : α → Prop} (l : List (Nat × α)) (k : Nat) (d : α) (h : ∀ e ∈ l, p e.2) (hd : p d) :
    p (lookupD l k d) := by
  induction l with
  | nil => exact hd
  | cons e l ih =>
    unfold lookupD; split
    · exact h e (by simp)
    · exact ih fun x hx => h x (List.mem_cons_of_mem _ hx)
theorem getBytes_putBytes (m : Mem) (a : Nat) (bs : List Byte) (w : Mem.wf m = true) : Mem.getBytes (Mem.putBytes m a bs) a bs.length = bs := by
  apply List.ext_getElem (by simp [Mem.getBytes])
  intro i h1 h2
  simp only [Mem.getBytes, List.getElem_map, List.getElem_range]
  exact Mem.get_putBytes_inside bs m a i w h2
theorem getBytes_putBytes_above (m : Mem) (a b n : Nat) (bs : List Byte) (w : Mem.wf m = true) (h : a + n ≤ b) :
    Mem.getBytes (Mem.putBytes m b bs) a n = Mem.getBytes m a n := by
  apply List.map_congr_left
  intro k hk
  have := List.mem_range.1 hk
  exact Mem.get_putBytes_outside bs m b (a + k) w (by omega)
theorem areaHere_one (s : State) (a : Saved) (k : Core) (pa banks : Nat) (h : a.cores = [k])
    (hm : s.mem = Mem.putBytes (Mem.putBytes [] pa (blockBytes a.seed 0 0x10000)) (pa + 0x10000) (blockBytes a.seed 1 0x4000)) :
    s.areaHere pa banks a = true := by
  have l0 : (blockBytes a.seed 0 0x10000).length = 0x10000 := by simp [blockBytes]
  have l1 : (blockBytes a.seed 1 0x4000).length = 0x4000 := by simp [blockBytes]
  have w0 : Mem.wf (Mem.putBytes [] pa (blockBytes a.seed 0 0x10000)) = true := Mem.putBytes_wf _ _ _ rfl
  have inner := getBytes_putBytes [] pa (blockBytes a.seed 0 0x10000) rfl
  have outer := getBytes_putBytes _ (pa + 0x10000) (blockBytes a.seed 1 0x4000) w0
  rw [l0] at inner; rw [l1] at outer
  have above := getBytes_putBytes_above _ pa (pa + 0x10000) 0x10000 (blockBytes a.seed 1 0x4000) w0 (by omega)
  simp [State.areaHere, h, hm, above, inner, outer]
theorem get_gap (m : Mem) (lo hi x : Nat) (h : ∀ c ∈ m, c.1 < lo ∨ hi ≤ c.1) (h1 : lo ≤ x) (h2 : x < hi) : Mem.get m x = 0#8 := by
  induction m with
  | nil => rfl
  | cons c m ih =>
    unfold Mem.get
    have := h c (by simp)
    split
    · omega
    · split
      · rfl
      · exact ih fun d hd => h d (List.mem_cons_of_mem _ hd)
theorem load_gap (m : Mem) (lo hi a : Nat) (h : ∀ c ∈ m, c.1 < lo ∨ hi ≤ c.1) (h1 : lo ≤ a) (h2 : a + 8 ≤ hi) : Mem.load m a 8 = 0 := by
  have : Mem.getBytes m a 8 = List.replicate 8 0#8 := by
    apply List.ext_getElem (by simp [Mem.getBytes])
    intro i h3 h4
    simp only [Mem.getBytes, List.getElem_map, List.getElem_range, List.getElem_replicate]
    have : i < 8 := by simpa using h4
    exact get_gap m lo hi _ h (by omega) (by omega)
  unfold Mem.load; rw [this]; decide
theorem flatMap_first {α : Type} (n : Nat) (f : Nat → List α) (h : ∀ i, 0 < i → i ≤ n → f i = []) : (List.range (n + 1)).flatMap f = f 0 := by
  rw [List.range_succ_eq_map, List.flatMap_cons, List.flatMap_eq_nil_iff.2]; simp
  intro x hx
  obtain ⟨k, hk, rfl⟩ := List.mem_map.1 hx
  exact h _ (by omega) (by have := List.mem_range.1 hk; omega)

theorem sev2_pages : sev2.allPages = [pg2] := by
  have hc : sev2.contexts = [(9, 9223372036856872960#64)] := by decide +kernel
  have hl : sev2.leaves 9223372036856872960#64 = [(0x420008, 1, 0x5004f#64, 65536)] := by
    unfold State.leaves
    rw [if_neg (by decide)]
    refine (flatMap_first 262143 _ ?_).trans (by decide +kernel)
    intro i h1 h2
    dsimp only
    rw [load_gap sev2.mem 0x200008 0x400000 _ (by decide +kernel) (by simp [bits]; omega) (by simp [bits]; omega)]
    rfl
  unfold State.allPages
  rw [hc]; simp [hl, pg2]
theorem sev3_pages : sev3.allPages = [pg2] := by
  rw [← sev2_pages]
  unfold State.allPages
  rw [show sev3.contexts = sev2.contexts by decide +kernel]
  rfl

/-- A state and operands that meet the hypotheses of `Obligations.StepRunsTheDecodedInstruction`, part 1. -/
theorem witness_StepRunsTheDecodedInstruction :
  (sample1.agenda = [Turn.issue, Turn.pass 1 1]) ∧
  ({ sample1 with agenda := [Turn.pass 1 1] }.canIssue = true) ∧
  (List.find? (fun f => f.1 == sample1.core.pc.toNat) sample1.core.fetched = none) ∧
  (decode (wordOfBytes (sample1.core.istore.getBytes (12 * sample1.core.pc.toNat) 12)) = Except.ok (Instr.nop (args (Operand.s 0#5) (Operand.s 0#5) (Operand.s 0#5)))) := by
  refine ⟨?_, ?_, ?_, ?_⟩ <;> decide +kernel

/-- A state and operands that meet the hypotheses of `Obligations.StepRunsTheDecodedInstruction`, part 2. -/
theorem witness_StepIssuesWhenNothingElseCan :
  (sample2.agenda = []) ∧
  (sample2.canIssue = true) ∧
  (sample2.core.ganged = false) ∧
  (sample2.core.wait = Wait.none) ∧
  (sample2.leases = []) ∧
  (sample2.race = []) ∧
  (sample2.stint % roundLength ≠ 0) ∧
  ({ sample2 with stint := sample2.stint + 1 }.dueFirst = none) ∧
  ({ sample2 with stint := sample2.stint + 1 }.unitEvents = []) ∧
  ({ sample2 with stint := sample2.stint + 1 }.aroundEvents = []) ∧
  (List.find? (fun f => f.1 == sample2.core.pc.toNat) sample2.core.fetched = none) ∧
  (decode (wordOfBytes (sample2.core.istore.getBytes (12 * sample2.core.pc.toNat) 12)) = Except.ok (Instr.nop (args (Operand.s 0#5) (Operand.s 0#5) (Operand.s 0#5)))) := by
  refine ⟨?_, ?_, ?_, ?_, ?_, ?_, ?_, ?_, ?_, ?_, ?_, ?_⟩ <;> decide +kernel

/-- A state and operands that meet the hypotheses of `Obligations.StepRunsTheDecodedInstruction`, part 3. -/
theorem witness_RefusedWordRaisesReservedField :
  (sic.agenda = [Turn.issue, Turn.pass 1 1]) ∧
  ({ sic with agenda := [Turn.pass 1 1] }.canIssue = true) ∧
  (sic.core.ganged = false) ∧
  (List.find? (fun f => f.1 == sic.core.pc.toNat) sic.core.fetched = none) ∧
  (14855280471424563298789556480#96 = wordOfBytes (sic.core.istore.getBytes (12 * sic.core.pc.toNat) 12)) ∧
  (decode 14855280471424563298789556480#96 = Except.error Reject.reservedBits) := by
  refine ⟨?_, ?_, ?_, ?_, ?_, ?_⟩ <;> decide +kernel

/-- A state and operands that meet the hypotheses of `Obligations.StepRunsTheDecodedInstruction`, part 4. -/
theorem witness_StepRunsTheScheduledEvent :
  (sample3.agenda = [Turn.event Instr.go, Turn.issue]) ∧
  (isWord Instr.go = false) ∧
  (sample3.modState.powered = true ∨ Instr.go = Instr.powerOn) := by
  refine ⟨?_, ?_, ?_⟩ <;> decide +kernel

/-- A state and operands that meet the hypotheses of `Obligations.IssueFrame`, part 1. -/
theorem witness_IssueAndRetirementFrame :
  (s0.core.timed.active = false) ∧
  (repAct s0.core.sys.repst = false) ∧
  (s0.core.pc ≠ 16383#14) := by
  refine ⟨?_, ?_, ?_⟩ <;> decide +kernel

/-- A state and operands that meet the hypotheses of `Obligations.IssueFrame`, part 2. -/
theorem witness_FalseGuardHasNoEffect :
  (WellFormed (Instr.nop { (args (Operand.s 0#5) (Operand.s 0#5) (Operand.s 0#5)) with head := { plainHead with gp := 1#3 } }) = true) ∧
  (encode (Instr.nop { (args (Operand.s 0#5) (Operand.s 0#5) (Operand.s 0#5)) with head := { plainHead with gp := 1#3 } }) = some (14855280471424563298789490944#96 + 1#96 <<< 82)) ∧
  (notAnInstruction (14855280471424563298789490944#96 + 1#96 <<< 82) = false) ∧
  (s0.core.ganged = false) ∧
  (s0.core.memc = false) ∧
  (s0.preemptDue (headOf (14855280471424563298789490944#96 + 1#96 <<< 82)) = false) ∧
  (s0.core.skip = false) ∧
  (s0.core.guard (headOf (14855280471424563298789490944#96 + 1#96 <<< 82)) = false) ∧
  (s0.core.timed.active = false ∨ (s0.clock (headOf (14855280471424563298789490944#96 + 1#96 <<< 82))).core.earlyScalar (Operand.p (headOf (14855280471424563298789490944#96 + 1#96 <<< 82)).gp false) = false) := by
  refine ⟨?_, ?_, ?_, ?_, ?_, ?_, ?_, ?_, ?_⟩ <;> decide +kernel

/-- A state and operands that meet the hypotheses of `Obligations.IllegalAndPrivilegedWords`, part 1. -/
theorem witness_PrivilegedInUserModeRaisesPriv :
  (Instr.eret z0 = Instr.eret z0 ∨ Instr.eret z0 = Instr.ackpre z0 ∨ Instr.eret z0 = Instr.haltc z0 ∨ Instr.eret z0 = Instr.vinvPage z0 ∨ Instr.eret z0 = Instr.vinvAll z0 ∨ Instr.eret z0 = Instr.dflush z0 ∨ Instr.eret z0 = Instr.syswr z0 0#12 ∨ Instr.eret z0 = Instr.aechoRead z0 ∨ Instr.eret z0 = Instr.aechoWrite z0 ∨ Instr.eret z0 = Instr.sysrd z0 0#12 ∧ userReadable (0#12).toNat = false) ∧
  (s0.core.ganged = false) ∧
  (s0.preemptDue z0.head = false) ∧
  (s0.core.skip = false) ∧
  (s0.core.guard z0.head = true) ∧
  (s0.core.handler = false) ∧
  (s0.core.timed.active = false) ∧
  (repAct s0.core.sys.repst = false) := by
  refine ⟨?_, ?_, ?_, ?_, ?_, ?_, ?_, ?_⟩ <;> decide +kernel

/-- A state and operands that meet the hypotheses of `Obligations.IllegalAndPrivilegedWords`, part 2. -/
theorem witness_NoInstructionRaisesIllegalOp :
  (s0.core.ganged = false) := by decide +kernel

/-- A state and operands that meet the hypotheses of `Obligations.RegistersReadAsWritten`, part 3. -/
theorem witness_ScalarWriteFrame :
  (∀ (age : BitVec 4), Operand.s 9#5 ≠ Operand.q age) := by decide +kernel

/-- A state and operands that meet the hypotheses of `Obligations.IntegerResults`. -/
theorem witness_IntegerResults :
  (s0.issues plainForm xi = true) := by decide +kernel

/-- A state and operands that meet the hypotheses of `Obligations.PredicateResults`. -/
theorem witness_PredicateResults :
  ((∃ m, Instr.pxor xp = Instr.cmp xp m) ∨ (∃ k inv, xp.a = Operand.p k inv) ∧ ((∃ k inv, xp.b = Operand.p k inv) ∨ Instr.pxor xp = Instr.pnot xp)) ∧
  (s0.issues plainForm xp = true) := by
  refine ⟨?_, ?_⟩ <;> decide +kernel

/-- A state and operands that meet the hypotheses of `Obligations.SelectAndFusedResults`. -/
theorem witness_SelectAndFusedResults :
  (s0.issues (readsBack xsel 1) xsel = true) ∧
  (s0.issues (readsBack xq 1) xq = true) ∧
  (s0.issues (readsBack xq 4) xq = true) := by
  refine ⟨?_, ?_, ?_⟩ <;> decide +kernel

/-- A state and operands that meet the hypotheses of `Obligations.FloatResults`. -/
theorem witness_FloatResults :
  (sf.issues (takesCycles 4) x0 = true) := by decide +kernel

/-- A state and operands that meet the hypotheses of `Obligations.ControlTransfers`, part 1. -/
theorem witness_TransfersGoToTheirTarget :
  (s0.issues controlForm xi = true) ∧
  (BitVec.toNat (s0.core.value xi.a) < 16384) ∧
  (s0.issues controlForm x0 = true) ∧
  (16384 ≤ BitVec.toNat (s0.core.value x0.a)) := by
  refine ⟨?_, ?_, ?_, ?_⟩ <;> decide +kernel

/-- A state and operands that meet the hypotheses of `Obligations.ControlTransfers`, part 2. -/
theorem witness_LoopCountsDown :
  (9#5 ≠ 0#5) ∧
  (sample4.issues { controlForm with reads := [xi.d] } xi = true) ∧
  (sample4.core.readS 9#5 - 1#64 = 0#64) ∧
  (s0.issues { controlForm with reads := [xi.d] } xi = true) ∧
  (s0.core.readS 9#5 - 1#64 ≠ 0#64) ∧
  ((200#15).toNat < 16384) ∧
  (s0.issues { controlForm with reads := [xlp.d] } xlp = true) ∧
  (16384 ≤ (16384#15).toNat) := by
  refine ⟨?_, ?_, ?_, ?_, ?_, ?_, ?_, ?_⟩ <;> decide +kernel

/-- A state and operands that meet the hypotheses of `Obligations.NopHasNoEffect`. -/
theorem witness_NopHasNoEffect :
  (decode 14855280471424563298789490944#96 = Except.ok (Instr.nop (args (Operand.s 0#5) (Operand.s 0#5) (Operand.s 0#5)))) ∧
  (s0.issues plainForm (args (Operand.s 0#5) (Operand.s 0#5) (Operand.s 0#5)) = true) := by
  refine ⟨?_, ?_⟩ <;> decide +kernel

/-- A state and operands that meet the hypotheses of `Obligations.Repetition`, part 1. -/
theorem witness_RepStartsItsBody :
  (s0.issues controlForm x0 = true) ∧
  (65535 < BitVec.toNat (s0.core.value x0.a)) ∧
  (sample5.issues controlForm x0 = true) ∧
  (BitVec.toNat (sample5.core.value x0.a) = 0) ∧
  (sample5.core.pc.toNat + ((1#3).toNat + 1) + 1 ≤ 16383) ∧
  (slate.issues controlForm xrb = true) ∧
  (BitVec.toNat (slate.core.value xrb.a) ≤ 65535) ∧
  (16383 < slate.core.pc.toNat + ((7#3).toNat + 1)) ∧
  (sample6.issues controlForm x0 = true) ∧
  (1 ≤ BitVec.toNat (sample6.core.value x0.a)) ∧
  (BitVec.toNat (sample6.core.value x0.a) ≤ 65535) ∧
  (sample6.core.pc.toNat + ((1#3).toNat + 1) ≤ 16383) := by
  refine ⟨?_, ?_, ?_, ?_, ?_, ?_, ?_, ?_, ?_, ?_, ?_, ?_⟩ <;> decide +kernel

/-- A state and operands that meet the hypotheses of `Obligations.Repetition`, part 2. -/
theorem witness_RepetitionCounts :
  (repAct (srep 0 1).core.sys.repst = true) ∧
  ((srep 0 1).core.pc ≠ 16383#14) ∧
  (bits (srep 0 1).core.sys.repst 6 4 + 1 < bits (srep 0 1).core.sys.repst 10 7) ∧
  (repAct (srep 1 1).core.sys.repst = true) ∧
  ((srep 1 1).core.pc ≠ 16383#14) ∧
  (bits (srep 1 1).core.sys.repst 6 4 + 1 = bits (srep 1 1).core.sys.repst 10 7) ∧
  (bits (srep 1 1).core.sys.repst 47 32 + 1 < bits (srep 1 1).core.sys.repst 31 16) ∧
  (repAct (srep 1 2).core.sys.repst = true) ∧
  ((srep 1 2).core.pc ≠ 16383#14) ∧
  (bits (srep 1 2).core.sys.repst 6 4 + 1 = bits (srep 1 2).core.sys.repst 10 7) ∧
  (bits (srep 1 2).core.sys.repst 47 32 + 1 = bits (srep 1 2).core.sys.repst 31 16) := by
  refine ⟨?_, ?_, ?_, ?_, ?_, ?_, ?_, ?_, ?_, ?_, ?_⟩ <;> decide +kernel

/-- A state and operands that meet the hypotheses of `Obligations.Repetition`, part 3. -/
theorem witness_RepetitionRenumbers :
  (repAct (srep 1 2).core.sys.repst = true) := by decide +kernel

/-- A state and operands that meet the hypotheses of `Obligations.ControlTransfers`, part 3. -/
theorem witness_WaitcAndYieldWaitForACycle :
  (sample7.issues freeForm x0 = true) ∧
  (sample7.core.rank = 0) ∧
  (sample7.core.wait = Wait.none) := by
  refine ⟨?_, ?_, ?_⟩ <;> decide +kernel

/-- A state and operands that meet the hypotheses of `Obligations.TrapEntry`, part 1. -/
theorem witness_TrapEntrySavesAndVectors :
  (sample0.code ≠ 22#8) := by decide +kernel

/-- A state and operands that meet the hypotheses of `Obligations.Containment`, part 1. -/
theorem witness_ResetContainTrapsTheCore :
  (s0.core.sys.contain = 2852126805#64) ∧
  (s0.core.handler = false) ∧
  (s0.core.timed.active = false) ∧
  (s0.core.run ≠ RunState.killed) := by
  refine ⟨?_, ?_, ?_, ?_⟩ <;> decide +kernel

/-- A state and operands that meet the hypotheses of `Obligations.Containment`, part 2. -/
theorem witness_HandlerFaultKillsTheField :
  ((hm s0).core.sys.contain = 2852126805#64) ∧
  ((hm s0).core.handler = true) ∧
  (causeClass sample0.code = some 0) ∧
  ((hm s0).core.run ≠ RunState.killed) := by
  refine ⟨?_, ?_, ?_, ?_⟩ <;> decide +kernel

/-- A state and operands that meet the hypotheses of `Obligations.Containment`, part 4. -/
theorem witness_KilledCoreTakesNoCause :
  ((s0.modC fun c => { c with run := .killed }).core.run = RunState.killed) := by
  decide +kernel

/-- A state and operands that meet the hypotheses of `Obligations.TrapAndBkpt`. -/
theorem witness_TrapAndBkpt :
  (s0.core.wait = Wait.none) ∧
  (s0.issues { freeForm with alone := true } sample9 = true) ∧
  (s0.core.handler = false) ∧
  (s0.issues freeForm sample9 = true) ∧
  (s0.core.brken = true) ∧
  ((hm s0).core.wait = Wait.none) ∧
  ((hm s0).issues { freeForm with alone := true } sample9 = true) ∧
  ((hm s0).core.handler = true) ∧
  ((hm s0).issues freeForm sample9 = true) ∧
  ((hm s0).core.handler = true ∨ (hm s0).core.brken = false) ∧
  (s0.core.run ≠ RunState.killed) ∧
  ((hm s0).core.run ≠ RunState.killed) := by
  refine ⟨?_, ?_, ?_, ?_, ?_, ?_, ?_, ?_, ?_, ?_, ?_, ?_⟩ <;> decide +kernel

/-- A state and operands that meet the hypotheses of `Obligations.ReturnAndPendingCauses`, part 1. -/
theorem witness_EretReturns :
  (sample10.issuesFree { privForm with alone := true } z0 = true) ∧
  ((hm s0).issuesFree { privForm with alone := true } z0 = true) ∧
  ((hm s0).core.sys.xfault.getLsbD 62 = false) ∧
  ((hm s0).core.sys.cause.getLsbD 15 = false) := by
  refine ⟨?_, ?_, ?_, ?_⟩ <;> decide +kernel

/-- A state and operands that meet the hypotheses of `Obligations.ReturnAndPendingCauses`, part 2. -/
theorem witness_SkippedInstructionHasNoEffect :
  (sample11.core.ganged = false) ∧
  (sample11.preemptDue x0.head = false) ∧
  (sample11.core.skip = true) := by
  refine ⟨?_, ?_, ?_⟩ <;> decide +kernel

/-- A state and operands that meet the hypotheses of `Obligations.ReturnAndPendingCauses`, part 3. -/
theorem witness_PendingCausesAreServedInOrder :
  (sample12.core.ganged = false) ∧
  (sample12.core.run = RunState.running) ∧
  (sample12.core.handler = false) ∧
  (sample12.core.wake = none) ∧
  (sample12.core.timed.active = false) ∧
  (sample12.core.wait = Wait.none) ∧
  (sample12.core.sys.contain = 2852126805#64) ∧
  (sample12.core.deferred = [c1, c1]) ∧
  (s0.core.ganged = false) ∧
  (s0.core.run = RunState.running) ∧
  (s0.core.handler = false) ∧
  (s0.core.wake = none) ∧
  (s0.core.timed.active = false) ∧
  (s0.core.wait = Wait.none) ∧
  (s0.core.sys.contain = 2852126805#64) ∧
  (s0.core.deferred = []) ∧
  (s0.core.abortRaise = false) ∧
  (s0.core.abortPend = false) ∧
  (sample13.core.ganged = false) ∧
  (sample13.core.run = RunState.running) ∧
  (sample13.core.handler = false) ∧
  (sample13.core.wake = none) ∧
  (sample13.core.timed.active = false) ∧
  (sample13.core.wait = Wait.none) ∧
  (sample13.core.sys.contain = 2852126805#64) ∧
  (sample13.core.deferred = []) ∧
  (sample13.core.abortRaise = false) ∧
  (sample13.core.abortPend = true) ∧
  (sample14.core.ganged = false) ∧
  (sample14.core.run = RunState.running) ∧
  (sample14.core.handler = false) ∧
  (sample14.core.wake = none) ∧
  (sample14.core.timed.active = false) ∧
  (sample14.core.wait = Wait.none) ∧
  (sample14.core.sys.contain = 2852126805#64) ∧
  (sample14.core.deferred = []) ∧
  (sample14.core.abortRaise = false) ∧
  (sample14.core.abortPend = false) ∧
  (sample14.core.preemptPend = true) ∧
  (sample14.core.wholeChunks = true) ∧
  (s0.core.preemptPend = false ∨ s0.core.wholeChunks = false) := by
  refine ⟨?_, ?_, ?_, ?_, ?_, ?_, ?_, ?_, ?_, ?_, ?_, ?_, ?_, ?_, ?_, ?_, ?_, ?_, ?_, ?_, ?_, ?_, ?_, ?_, ?_, ?_, ?_, ?_, ?_, ?_, ?_, ?_, ?_, ?_, ?_, ?_, ?_, ?_, ?_, ?_, ?_⟩ <;> decide +kernel

/-- A state and operands that meet the hypotheses of `Obligations.ReturnAndPendingCauses`, part 4. -/
theorem witness_PendingCausesAreHeld :
  (sampleHeld.core.ganged = false) ∧
  (sampleHeld.core.wait = Wait.none) ∧
  (sampleHeld.core.wake = none) ∧
  (sampleHeld.core.run = RunState.running) ∧
  (sampleHeld.core.handler = true) ∧
  (∀ d ∈ sampleHeld.core.deferred, d.hm = false) ∧
  (stimed.core.ganged = false) ∧
  (stimed.core.wait = Wait.none) ∧
  (stimed.core.wake = none) ∧
  (stimed.core.run = RunState.running) ∧
  (stimed.core.handler = false) ∧
  (stimed.core.timed.active = true) ∧
  (stimed.core.deferred = []) ∧
  (stimed.core.abortRaise = false) ∧
  (stimed.core.abortPend = false) ∧
  (sampleIdle.core.ganged = false) ∧
  (sampleIdle.core.wait = Wait.none) ∧
  (sampleIdle.core.wake = none) ∧
  (sampleIdle.core.run = RunState.idle ∨ sampleIdle.core.run = RunState.halted) ∧
  (sampleIdle.core.preemptPend = true) ∧
  (sampleIdle.core.wholeChunks = true) := by
  refine ⟨?_, ?_, ?_, ?_, ?_, ?_, ?_, ?_, ?_, ?_, ?_, ?_, ?_, ?_, ?_, ?_, ?_, ?_, ?_, ?_, ?_⟩ <;> decide +kernel

/-- A state and operands that meet the hypotheses of `Obligations.SystemRegisters`, part 1. -/
theorem witness_SysrdReadsEveryRegister :
  (userRegisters.contains (4#12).toNat = true) ∧
  (s0.issuesFree freeForm x0 = true) ∧
  ((hm s0).issuesFree privForm x0 = true) ∧
  (userRegisters.contains (67#12).toNat = false) ∧
  (s0.core.handler = false) := by
  refine ⟨?_, ?_, ?_, ?_, ?_⟩ <;> decide +kernel

/-- A state and operands that meet the hypotheses of `Obligations.SystemRegisters`, part 2. -/
theorem witness_SyswrWritesRwFields :
  ((hm s0).issuesFree privForm sample15 = true) := by decide +kernel

/-- A state and operands that meet the hypotheses of `Obligations.SystemRegisters`, part 3. -/
theorem witness_AtomicEcho :
  (sample16.issuesFree privForm x0 = true) ∧
  (BitVec.getLsbD sample16.core.sys.alost 63 = true) ∧
  (bits sample16.core.sys.alost 62 61 = 1) ∧
  (sample17.issuesFree privForm x0 = true) ∧
  (BitVec.getLsbD sample17.core.sys.alost 63 = false) ∧
  (sample18.issuesFree privForm x0 = true) ∧
  (BitVec.getLsbD sample18.core.sys.alost 63 = true) ∧
  (bits sample18.core.sys.alost 62 61 = 2) := by
  refine ⟨?_, ?_, ?_, ?_, ?_, ?_, ?_, ?_⟩ <;> decide +kernel

/-- A state and operands that meet the hypotheses of `Obligations.HaltingAndStarting`, part 1. -/
theorem witness_AckpreAcknowledges :
  ((hm s0).issuesFree privForm z0 = true) ∧
  (bits (hm s0).core.sys.cause 7 0 ≠ 22) ∧
  (spre.issuesFree privForm z0 = true) ∧
  (bits spre.core.sys.cause 7 0 = 22) ∧
  (spre.core.mq = []) ∧
  (spre.core.cqin = []) ∧
  (spre.core.lanes = []) ∧
  (spre.core.field = some 0) ∧
  (0 < 16) ∧
  (spre.colls = []) ∧
  (spre.core.works = []) ∧
  (spre.flits = []) := by
  refine ⟨?_, ?_, ?_, ?_, ?_, ?_, ?_, ?_, ?_, ?_, ?_, ?_⟩ <;> decide +kernel

/-- A state and operands that meet the hypotheses of `Obligations.HaltingAndStarting`, part 2. -/
theorem witness_HaltcHalts :
  (sample19.issuesFree privForm z0 = true) ∧
  (sample19.core.chunk ≠ none) ∧
  ((hm s0).issuesFree privForm z0 = true) ∧
  ((hm s0).core.chunk = none) := by
  refine ⟨?_, ?_, ?_, ?_⟩ <;> decide +kernel

/-- A state and operands that meet the hypotheses of `Obligations.IsfenceDiscardsFetchedWords`. -/
theorem witness_IsfenceDiscardsFetchedWords :
  (sample20.issues freeForm z0 = true) ∧
  (∀ t ∈ sample20.core.stores, t.space ≠ 5#3) ∧
  (sinstr.issues freeForm (args (Operand.s 0#5) (Operand.s 0#5) (Operand.s 0#5)) = true) ∧
  (∃ t ∈ sinstr.core.stores, t.space = 5#3) := by
  refine ⟨?_, ?_, ?_, ?_⟩ <;> decide +kernel

/-- A state and operands that meet the hypotheses of `Obligations.HaltingAndStarting`, part 3. -/
theorem witness_StartBeginsAHaltedCore :
  (sample21.issuesFree freeForm x0 = true) ∧
  (peerOff (sample21.core.value x0.a) % 12 ≠ 0) ∧
  (sample22.issuesFree freeForm x0 = true) ∧
  (peerOff (sample22.core.value x0.a) % 12 = 0) ∧
  (peerOff (sample22.core.value x0.a) < 196608) ∧
  (sample22.peer (sample22.core.value x0.a) = some k1) ∧
  (sample22.reach sample22.core.die k1.die (BitVec.toNat (sample22.core.value x0.a)) ≠ some 6#8) ∧
  (sample22.core.stores.length + sample22.core.acks.length < 64) ∧
  (s3.core.stores = [{ space := (5#3), addr := (s3.core.value x0.a), phys := (0), check := false, locked := false, sid := ((3#4).toNat), kind := StoreKind.start 9#64, hm := s3.core.handler }]) ∧
  (s3.find (peerDie (s3.core.value x0.a)) (peerNum (s3.core.value x0.a)) = some k1) ∧
  (s3.reach s3.core.die k1.die (BitVec.toNat (s3.core.value x0.a)) = none) ∧
  (haspOk s3.core k1 (peerOff (s3.core.value x0.a)) false false true = true) ∧
  (k1.is s3.core.die s3.core.num = false) := by
  refine ⟨?_, ?_, ?_, ?_, ?_, ?_, ?_, ?_, ?_, ?_, ?_, ?_, ?_⟩ <;> decide +kernel

/-- A state and operands that meet the hypotheses of `Obligations.InvalidationAndFlush`, part 1. -/
theorem witness_InvalidationCompletes :
  (sample23.issuesFree privForm x0 = true) ∧
  (sample23.core.stores = []) ∧
  (sample23.core.acks = []) ∧
  (∀ c ∈ sample23.others, c.stores = []) := by
  refine ⟨?_, ?_, ?_, ?_⟩ <;> decide +kernel

/-- A state and operands that meet the hypotheses of `Obligations.TdefWritesTheRecord`. -/
theorem witness_TdefWritesTheRecord :
  (sstE.issues plainForm sample24 = true) ∧
  (inStream sstE.core (passArgs sample24 sstE.core.sys.repst).d = true) ∧
  (sample25.issues plainForm sample26 = true) ∧
  (inStream sample25.core (passArgs sample26 sample25.core.sys.repst).d = false) ∧
  (bits (sample25.core.value (passArgs sample26 sample25.core.sys.repst).b) 63 16 = 0) ∧
  (sample27.issues plainForm sample26 = true) ∧
  (inStream sample27.core (passArgs sample26 sample27.core.sys.repst).d = false) ∧
  (bits (sample27.core.value (passArgs sample26 sample27.core.sys.repst).b) 63 16 ≠ 0) := by
  refine ⟨?_, ?_, ?_, ?_, ?_, ?_, ?_, ?_⟩ <;> decide +kernel

/-- A state and operands that meet the hypotheses of `Obligations.ShapeAndBankInstructions`, part 1. -/
theorem witness_ShapeInstructions :
  (st3.issues plainForm xin = true) ∧
  (st3.core.stream 2#5 = none) ∧
  (infoRow (1#4).toNat (st3.core.tile 2#5) (st3.core.bank (bits (st3.core.tile 2#5) 20 17)) true = some 8) ∧
  (sample28.issues plainForm xv = true) ∧
  (sample28.core.hintOk (passArgs xv sample28.core.sys.repst) = true) ∧
  (inStream sample28.core (passArgs xv sample28.core.sys.repst).d = false) ∧
  (inStream sample28.core (passArgs xv sample28.core.sys.repst).a = false) ∧
  (1 ≤ BitVec.toNat (sample28.core.value (passArgs xv sample28.core.sys.repst).b)) ∧
  (BitVec.toNat (sample28.core.value (passArgs xv sample28.core.sys.repst).b) ≤ 64) ∧
  (sample29.issues plainForm xv = true) ∧
  (sample29.core.hintOk (passArgs xv sample29.core.sys.repst) = true) ∧
  (inStream sample29.core (passArgs xv sample29.core.sys.repst).d = false) ∧
  (inStream sample29.core (passArgs xv sample29.core.sys.repst).a = false) ∧
  (BitVec.toNat (sample29.core.value (passArgs xv sample29.core.sys.repst).b) < 1 ∨ 64 < BitVec.toNat (sample29.core.value (passArgs xv sample29.core.sys.repst).b)) ∧
  (sample30.issues plainForm xv = true) ∧
  (sample30.core.hintOk (passArgs xv sample30.core.sys.repst) = true) ∧
  (inStream sample30.core (passArgs xv sample30.core.sys.repst).d = false) ∧
  (inStream sample30.core (passArgs xv sample30.core.sys.repst).a = false) ∧
  ((0#4).toNat ≤ 2) ∧
  (0#4 ≠ 2#4) ∧
  (65536 ≤ BitVec.toNat (sample30.core.value (passArgs xv sample30.core.sys.repst).b) ∨ 64 < BitVec.toNat (sample30.core.value (passArgs xv sample30.core.sys.repst).b) / 256 ∨ 64 < BitVec.toNat (sample30.core.value (passArgs xv sample30.core.sys.repst).b) % 256) ∧
  (sample31.issues plainForm xv = true) ∧
  (sample31.core.hintOk (passArgs xv sample31.core.sys.repst) = true) ∧
  (inStream sample31.core (passArgs xv sample31.core.sys.repst).d = false) ∧
  (inStream sample31.core (passArgs xv sample31.core.sys.repst).a = false) ∧
  (0#4 = 2#4 ∨ BitVec.toNat (sample31.core.value (passArgs xv sample31.core.sys.repst).b) < 65536 ∧ BitVec.toNat (sample31.core.value (passArgs xv sample31.core.sys.repst).b) / 256 ≤ 64 ∧ BitVec.toNat (sample31.core.value (passArgs xv sample31.core.sys.repst).b) % 256 ≤ 64) := by
  refine ⟨?_, ?_, ?_, ?_, ?_, ?_, ?_, ?_, ?_, ?_, ?_, ?_, ?_, ?_, ?_, ?_, ?_, ?_, ?_, ?_, ?_, ?_, ?_, ?_, ?_, ?_⟩ <;> decide +kernel

/-- A state and operands that meet the hypotheses of `Obligations.ShapeAndBankInstructions`, part 2. -/
theorem witness_TviewOriginMovesTheOrigin :
  (sample32.issues plainForm xv = true) ∧
  (sample32.core.hintOk (passArgs xv sample32.core.sys.repst) = true) ∧
  (inStream sample32.core (passArgs xv sample32.core.sys.repst).d = false) ∧
  (inStream sample32.core (passArgs xv sample32.core.sys.repst).a = false) ∧
  (BitVec.toNat (sample32.core.value (passArgs xv sample32.core.sys.repst).b) < 65536 ∧ BitVec.toNat (sample32.core.value (passArgs xv sample32.core.sys.repst).b) / 256 < recRows (sample32.core.tileOf (passArgs xv sample32.core.sys.repst).a) ∧ BitVec.toNat (sample32.core.value (passArgs xv sample32.core.sys.repst).b) % 256 < recCols (sample32.core.tileOf (passArgs xv sample32.core.sys.repst).a) ∧ ((BitVec.toNat (sample32.core.value (passArgs xv sample32.core.sys.repst).b) / 256 * recRstr (sample32.core.tileOf (passArgs xv sample32.core.sys.repst).a) + BitVec.toNat (sample32.core.value (passArgs xv sample32.core.sys.repst).b) % 256 * recEstr (sample32.core.tileOf (passArgs xv sample32.core.sys.repst).a)) % match fmtOf (bits (sample32.core.bank (recBank (sample32.core.tileOf (passArgs xv sample32.core.sys.repst).a))) 11 8) with | Fmt.t6 => 4 | Fmt.m1 => 8 | x => 1) = 0 ∧ elemByte (fmtOf (bits (sample32.core.bank (recBank (sample32.core.tileOf (passArgs xv sample32.core.sys.repst).a))) 11 8)) (recBase (sample32.core.tileOf (passArgs xv sample32.core.sys.repst).a)) (BitVec.toNat (sample32.core.value (passArgs xv sample32.core.sys.repst).b) / 256 * recRstr (sample32.core.tileOf (passArgs xv sample32.core.sys.repst).a) + BitVec.toNat (sample32.core.value (passArgs xv sample32.core.sys.repst).b) % 256 * recEstr (sample32.core.tileOf (passArgs xv sample32.core.sys.repst).a)) / 131072 = recBank (sample32.core.tileOf (passArgs xv sample32.core.sys.repst).a)) ∧
  (sample33.issues plainForm xv = true) ∧
  (sample33.core.hintOk (passArgs xv sample33.core.sys.repst) = true) ∧
  (inStream sample33.core (passArgs xv sample33.core.sys.repst).d = false) ∧
  (inStream sample33.core (passArgs xv sample33.core.sys.repst).a = false) ∧
  (¬(BitVec.toNat (sample33.core.value (passArgs xv sample33.core.sys.repst).b) < 65536 ∧ BitVec.toNat (sample33.core.value (passArgs xv sample33.core.sys.repst).b) / 256 < recRows (sample33.core.tileOf (passArgs xv sample33.core.sys.repst).a) ∧ BitVec.toNat (sample33.core.value (passArgs xv sample33.core.sys.repst).b) % 256 < recCols (sample33.core.tileOf (passArgs xv sample33.core.sys.repst).a) ∧ ((BitVec.toNat (sample33.core.value (passArgs xv sample33.core.sys.repst).b) / 256 * recRstr (sample33.core.tileOf (passArgs xv sample33.core.sys.repst).a) + BitVec.toNat (sample33.core.value (passArgs xv sample33.core.sys.repst).b) % 256 * recEstr (sample33.core.tileOf (passArgs xv sample33.core.sys.repst).a)) % match fmtOf (bits (sample33.core.bank (recBank (sample33.core.tileOf (passArgs xv sample33.core.sys.repst).a))) 11 8) with | Fmt.t6 => 4 | Fmt.m1 => 8 | x => 1) = 0 ∧ elemByte (fmtOf (bits (sample33.core.bank (recBank (sample33.core.tileOf (passArgs xv sample33.core.sys.repst).a))) 11 8)) (recBase (sample33.core.tileOf (passArgs xv sample33.core.sys.repst).a)) (BitVec.toNat (sample33.core.value (passArgs xv sample33.core.sys.repst).b) / 256 * recRstr (sample33.core.tileOf (passArgs xv sample33.core.sys.repst).a) + BitVec.toNat (sample33.core.value (passArgs xv sample33.core.sys.repst).b) % 256 * recEstr (sample33.core.tileOf (passArgs xv sample33.core.sys.repst).a)) / 131072 = recBank (sample33.core.tileOf (passArgs xv sample33.core.sys.repst).a))) := by
  refine ⟨?_, ?_, ?_, ?_, ?_, ?_, ?_, ?_, ?_, ?_⟩ <;> decide +kernel

/-- A state and operands that meet the hypotheses of `Obligations.ShapeAndBankInstructions`, part 4. -/
theorem witness_BankFormatInstructions :
  (sample34.issues plainForm x0 = true) ∧
  (bits (sample34.core.value x0.a) 63 14 ≠ 0) ∧
  (sample35.issues plainForm x0 = true) ∧
  (bits (sample35.core.value x0.a) 63 14 = 0) ∧
  (¬(bits (sample35.core.value x0.a) 11 8 ≤ 9 ∧ (bits (sample35.core.value x0.a) 7 0 = 0 ∨ bits (sample35.core.value x0.a) 11 8 ≠ 0 ∧ bits (sample35.core.value x0.a) 11 8 ≠ 7 ∧ bits (sample35.core.value x0.a) 11 8 ≠ 8 ∧ bits (sample35.core.value x0.a) 11 8 ≠ 9))) ∧
  (sbusy.issues plainForm x0 = true) ∧
  (bits (sbusy.core.value x0.a) 63 14 = 0) ∧
  (bits (sbusy.core.value x0.a) 11 8 ≤ 9 ∧ (bits (sbusy.core.value x0.a) 7 0 = 0 ∨ bits (sbusy.core.value x0.a) 11 8 ≠ 0 ∧ bits (sbusy.core.value x0.a) 11 8 ≠ 7 ∧ bits (sbusy.core.value x0.a) 11 8 ≠ 8 ∧ bits (sbusy.core.value x0.a) 11 8 ≠ 9)) ∧
  ((sbusy.begun plainForm x0).core.bankBusy (3#4).toNat = true) ∧
  (sample36.issues plainForm x0 = true) ∧
  (bits (sample36.core.value x0.a) 63 14 = 0) ∧
  (bits (sample36.core.value x0.a) 11 8 ≤ 9 ∧ (bits (sample36.core.value x0.a) 7 0 = 0 ∨ bits (sample36.core.value x0.a) 11 8 ≠ 0 ∧ bits (sample36.core.value x0.a) 11 8 ≠ 7 ∧ bits (sample36.core.value x0.a) 11 8 ≠ 8 ∧ bits (sample36.core.value x0.a) 11 8 ≠ 9)) ∧
  ((sample36.begun plainForm x0).core.bankBusy (3#4).toNat = false) := by
  refine ⟨?_, ?_, ?_, ?_, ?_, ?_, ?_, ?_, ?_, ?_, ?_, ?_, ?_⟩ <;> decide +kernel

/-- A state and operands that meet the hypotheses of `Obligations.LoadsReadTheirBytes`. -/
theorem witness_LoadsReadTheirBytes :
  (sample37.issues (memForm (ld 1 1 1 true).space (ld 1 1 1 true).ord) x0 = true) ∧
  (BitVec.toNat (sample37.core.value x0.a + sample37.core.value x0.b) % 2 ^ (ld 1 1 1 true).w.toNat ≠ 0) ∧
  (sample37.issues (memForm (ld 1 0 0 true).space (ld 1 0 0 true).ord) x0 = true) ∧
  (sample37.core.timed.active = false) ∧
  (quietCore sample37.core) ∧
  (sample37.race = []) ∧
  (BitVec.toNat (sample37.core.value x0.a + sample37.core.value x0.b) % 2 ^ (ld 1 0 0 true).w.toNat = 0) ∧
  ((ld 1 0 0 true).space = 3#3 → 2 ^ (ld 1 0 0 true).w.toNat = 8) ∧
  (loaded (sample37.begun (memForm (ld 1 0 0 true).space (ld 1 0 0 true).ord) x0) (ld 1 0 0 true).space (sample37.core.value x0.a + sample37.core.value x0.b) (2 ^ (ld 1 0 0 true).w.toNat) ((ld 1 0 0 true).ord != 0#2) = some 136) ∧
  ((ld 1 0 0 true).space ≠ 1#3 ∧ (ld 1 0 0 true).space ≠ 3#3 → sample37.lossLoad = false) ∧
  (sample38.issues (memForm (ld 0 3 0 false).space (ld 0 3 0 false).ord) x0 = true) ∧
  (quietCore sample38.core) ∧
  (sample38.race = []) ∧
  (BitVec.toNat (sample38.core.value x0.a + sample38.core.value x0.b) % 2 ^ (ld 0 3 0 false).w.toNat = 0) ∧
  ((loaded (sample38.begun (memForm (ld 0 3 0 false).space (ld 0 3 0 false).ord) x0) (ld 0 3 0 false).space (sample38.core.value x0.a + sample38.core.value x0.b) (2 ^ (ld 0 3 0 false).w.toNat) ((ld 0 3 0 false).ord != 0#2)).isSome = true) ∧
  ((ld 0 3 0 false).space ≠ 1#3 ∧ (ld 0 3 0 false).space ≠ 3#3) ∧
  (sample38.lossLoad = true) ∧
  (sample39.issues (memForm (ld 1 3 0 false).space (ld 1 3 0 false).ord) x0 = true) ∧
  (sample39.core.timed.active = true) ∧
  ((ld 1 3 0 false).space = 1#3) ∧
  (sample39.core.lsBad = []) ∧
  (BitVec.toNat (sample39.core.value x0.a + sample39.core.value x0.b) % 2 ^ (ld 1 3 0 false).w.toNat = 0) ∧
  (BitVec.toNat (sample39.core.value x0.a + sample39.core.value x0.b) < 2097152) ∧
  (isOk ((sample39.begun (memForm (ld 1 3 0 false).space (ld 1 3 0 false).ord) x0).core.lineAccess [bytesExtent (BitVec.toNat (sample39.core.value x0.a + sample39.core.value x0.b)) (2 ^ (ld 1 3 0 false).w.toNat)] 0 false 0) = true) ∧
  (sample40.issues (memForm (1#3) (0#2)) x0 = true) ∧
  (sample40.core.timed.active = false) ∧
  (quietCore sample40.core) ∧
  (sample40.race = []) ∧
  (BitVec.toNat (sample40.core.value x0.a + sample40.core.value x0.b) % 2 ^ (3#2).toNat = 0) ∧
  ((1#3) = 3#3 → 2 ^ (3#2).toNat = 8) ∧
  ((loaded (sample40.begun (memForm (1#3) (0#2)) x0) (1#3) (sample40.core.value x0.a + sample40.core.value x0.b) (2 ^ (3#2).toNat) ((0#2) != 0#2)).isSome = true) ∧
  ((1#3) ≠ 1#3 ∧ (1#3) ≠ 3#3 → sample40.lossLoad = false) ∧
  (sample39.core.weakAt (BitVec.toNat (sample39.core.value x0.a + sample39.core.value x0.b)) (2 ^ (ld 1 3 0 false).w.toNat) = false) ∧
  (sample39.core.stores = []) ∧
  (sampleWeak.issues (memForm (ld 1 3 0 false).space (ld 1 3 0 false).ord) x0 = true) ∧
  (sampleWeak.core.timed.active = true) ∧
  (sampleWeak.core.lsBad = []) ∧
  (BitVec.toNat (sampleWeak.core.value x0.a + sampleWeak.core.value x0.b) % 2 ^ (ld 1 3 0 false).w.toNat = 0) ∧
  (BitVec.toNat (sampleWeak.core.value x0.a + sampleWeak.core.value x0.b) < 2097152) ∧
  (isOk ((sampleWeak.begun (memForm (ld 1 3 0 false).space (ld 1 3 0 false).ord) x0).core.lineAccess [bytesExtent (BitVec.toNat (sampleWeak.core.value x0.a + sampleWeak.core.value x0.b)) (2 ^ (ld 1 3 0 false).w.toNat)] 0 false 0) = true) ∧
  (sampleWeak.core.weakAt (BitVec.toNat (sampleWeak.core.value x0.a + sampleWeak.core.value x0.b)) (2 ^ (ld 1 3 0 false).w.toNat) = true) ∧
  (sampleWeak.core.stores = []) := by
  refine ⟨?_, ?_, ?_, ?_, by unfold quietCore; decide +kernel, ?_, ?_, ?_, ?_, ?_, ?_, by unfold quietCore; decide +kernel, ?_, ?_, ?_, ?_, ?_, ?_, ?_, ?_, ?_, ?_, ?_, ?_, ?_, ?_, by unfold quietCore; decide +kernel, ?_, ?_, ?_, ?_, ?_, ?_, ?_, ?_, ?_, ?_, ?_, ?_, ?_, ?_, ?_⟩ <;> decide +kernel

/-- A state and operands that meet the hypotheses of `Obligations.StoresWriteTheirBytes`, part 1. -/
theorem witness_StoresWriteTheirBytes :
  (sample41.issues { (memForm (sm 1 2 0).space (sm 1 2 0).ord) with reads := [x0.d], lat := 0 } x0 = true) ∧
  ((sm 1 2 0).space = 1#3) ∧
  (sample41.core.timed.active = false) ∧
  (quietCore sample41.core) ∧
  (sample41.race = []) ∧
  ((sm 1 2 0).ord = 0#2 ∨ sample41.core.settled = true) ∧
  (BitVec.toNat (sample41.core.value x0.a + sample41.core.value x0.b) % 2 ^ (sm 1 2 0).w.toNat = 0) ∧
  (BitVec.toNat (sample41.core.value x0.a + sample41.core.value x0.b) < 2097152) ∧
  (sample41.core.wideBank (BitVec.toNat (sample41.core.value x0.a + sample41.core.value x0.b)) = false ∨ 2 ^ (sm 1 2 0).w.toNat = 8) ∧
  (sample41.core.ls.wf = true) ∧
  (sample41.core.wideBank (BitVec.toNat (sample41.core.value x0.a + sample41.core.value x0.b)) = false) ∧
  (sample42.issues { (memForm (sm 1 2 0).space (sm 1 2 0).ord) with reads := [x0.d], lat := 0 } x0 = true) ∧
  (BitVec.toNat (sample42.core.value x0.a + sample42.core.value x0.b) % 2 ^ (sm 1 2 0).w.toNat ≠ 0) ∧
  (sample43.issues { (memForm (sm 3 3 0).space (sm 3 3 0).ord) with reads := [x0.d], lat := 0 } x0 = true) ∧
  ((sm 3 3 0).space = 3#3) ∧
  (2 ^ (sm 3 3 0).w.toNat = 8) ∧
  (BitVec.toNat (sample43.core.value x0.a + sample43.core.value x0.b) % 8 = 0) ∧
  (sample43.core.settled = true) ∧
  ((sample43.begun { (memForm (sm 3 3 0).space (sm 3 3 0).ord) with reads := [x0.d], lat := 0 } x0).eventAddr (sample43.core.value x0.a + sample43.core.value x0.b) = some { latch := 42, cls := 0, index := 5, word := 0 }) ∧
  ((42) = sample43.core.latch) ∧
  ((0) = 0) ∧
  (sample44.issues { (memForm (sm 0 3 0).space (sm 0 3 0).ord) with reads := [x0.d], lat := 0 } x0 = true) ∧
  (BitVec.toNat (sample44.core.value x0.a + sample44.core.value x0.b) % 2 ^ (sm 0 3 0).w.toNat = 0) ∧
  ((sm 0 3 0).ord = 0#2 ∨ sample44.core.settled = true) ∧
  (sample44.core.stores.length + sample44.core.acks.length < 64) ∧
  ((stored (sample44.begun { (memForm (sm 0 3 0).space (sm 0 3 0).ord) with reads := [x0.d], lat := 0 } x0) (sm 0 3 0) (sample44.core.value x0.a + sample44.core.value x0.b) (sample44.core.value x0.d)).isSome = true) ∧
  (sample45.issues { (memForm (sm 1 2 0).space (sm 1 2 0).ord) with reads := [x0.d], lat := 0 } x0 = true) ∧
  (sample45.core.timed.active = true) ∧
  (BitVec.toNat (sample45.core.value x0.a + sample45.core.value x0.b) % 2 ^ (sm 1 2 0).w.toNat = 0) ∧
  (BitVec.toNat (sample45.core.value x0.a + sample45.core.value x0.b) < 2097152) ∧
  (sample45.core.wideBank (BitVec.toNat (sample45.core.value x0.a + sample45.core.value x0.b)) = false ∨ 2 ^ (sm 1 2 0).w.toNat = 8) ∧
  (isOk (((sample45.begun { (memForm (sm 1 2 0).space (sm 1 2 0).ord) with reads := [x0.d], lat := 0 } x0).core.storeLs (BitVec.toNat (sample45.core.value x0.a + sample45.core.value x0.b)) (toBytes (2 ^ (sm 1 2 0).w.toNat) (BitVec.toNat (sample45.core.value x0.d)))).lineAccess [bytesExtent (BitVec.toNat (sample45.core.value x0.a + sample45.core.value x0.b)) (2 ^ (sm 1 2 0).w.toNat)] 0 true 1) = true) ∧
  (sample45.core.stores = []) := by
  refine ⟨?_, ?_, ?_, by unfold quietCore; decide +kernel, ?_, ?_, ?_, ?_, ?_, ?_, ?_, ?_, ?_, ?_, ?_, ?_, ?_, ?_, ?_, ?_, ?_, ?_, ?_, ?_, ?_, ?_, ?_, ?_, ?_, ?_, ?_, ?_, ?_⟩ <;> decide +kernel

/-- A state and operands that meet the hypotheses of `Obligations.StoresWriteTheirBytes`, part 2. -/
theorem witness_StoresArriveAndAreAcknowledged :
  (sample46.core.stores = [sample47]) ∧
  (sample47.kind = StoreKind.bytes [1#8, 2#8, 3#8, 4#8]) ∧
  (sample46.core.acks = [{ code := 5#8, addr := 9#64, other := 4095#12, hm := false }]) ∧
  (sample48.core.stores = [sample49]) ∧
  (sample49.kind = StoreKind.bytes [1#8, 2#8, 3#8, 4#8]) ∧
  (sample49.space = 6#3) ∧
  (sample48.reach sample48.core.die sample49.phys (BitVec.toNat sample49.addr) = none) ∧
  (sample50.core.stores = [sample51]) ∧
  (sample51.kind = StoreKind.bytes [1#8, 2#8, 3#8, 4#8]) ∧
  (sample51.space = 7#3) ∧
  (sample50.reach sample50.core.die sample51.phys (BitVec.toNat sample51.addr) = none) ∧
  (sample52.core.stores = [sample53]) ∧
  (sample53.kind = StoreKind.bytes [1#8, 2#8, 3#8, 4#8]) ∧
  (sample53.space = 0#3) ∧
  (sample53.check = false) ∧
  (sample52.reach sample52.core.die (sample52.homeOf sample52.core.die sample53.phys) sample53.phys = none) ∧
  (sample54.core.stores = [sample53]) ∧
  (sample53.space = 0#3 ∧ (sample54.reach sample54.core.die (sample54.homeOf sample54.core.die sample53.phys) sample53.phys).isSome = true ∨ (sample53.space = 6#3 ∨ sample53.space = 7#3) ∧ (sample54.reach sample54.core.die sample53.phys (BitVec.toNat sample53.addr)).isSome = true) ∧
  (sample55.core.stores = [sample47]) ∧
  (sample47.space = 2#3 ∨ sample47.space = 5#3) ∧
  (sample47.check = false) ∧
  (sample55.find (peerDie sample47.addr) (peerNum sample47.addr) = some sample56) ∧
  (sample56.is sample55.core.die sample55.core.num = false) ∧
  (sample55.reach sample55.core.die sample56.die (BitVec.toNat sample47.addr) = none) ∧
  (haspOk sample55.core sample56 (peerOff sample47.addr) false (!sample47.space == 5#3) (sample47.space == 5#3) = false) ∧
  (sample57.core.stores = [sample58]) ∧
  (sample58.kind = StoreKind.bytes [1#8, 2#8, 3#8, 4#8]) ∧
  (sample58.space = 2#3 ∨ sample58.space = 5#3) ∧
  (sample58.check = false) ∧
  (sample57.find (peerDie sample58.addr) (peerNum sample58.addr) = some k1) ∧
  (k1.is sample57.core.die sample57.core.num = false) ∧
  (sample57.reach sample57.core.die k1.die (BitVec.toNat sample58.addr) = none) ∧
  (haspOk sample57.core k1 (peerOff sample58.addr) false (!sample58.space == 5#3) (sample58.space == 5#3) = true) ∧
  ((sample58.space == 5#3) = true ∨ k1.wideBank (peerOff sample58.addr) = false ∨ [1#8, 2#8, 3#8, 4#8].length = 8) := by
  refine ⟨?_, ?_, ?_, ?_, ?_, ?_, ?_, ?_, ?_, ?_, ?_, ?_, ?_, ?_, ?_, ?_, ?_, ?_, ?_, ?_, ?_, ?_, ?_, ?_, ?_, ?_, ?_, ?_, ?_, ?_, ?_, ?_, ?_, ?_⟩ <;> decide +kernel

/-- A state and operands that meet the hypotheses of `Obligations.Atomics`, part 1. -/
theorem witness_AtomicsReplaceAndReturnTheOldValue :
  (sample59.issuesFree { freeForm with reads := [] } x0 = true) ∧
  (sample59.core.wait = Wait.none) ∧
  (BitVec.toNat (sample59.core.value x0.a) % 2 ^ (at_ 0 3 3 true).w.toNat ≠ 0) ∧
  (sample60.issuesFree { freeForm with reads := [] } x0 = true) ∧
  (sample60.core.wait = Wait.none) ∧
  ((at_ 1 2 3 true).space = 1#3) ∧
  (quietCore sample60.core) ∧
  (sample60.core.acks = []) ∧
  (sample60.race = []) ∧
  (BitVec.toNat (sample60.core.value x0.a) % 2 ^ (at_ 1 2 3 true).w.toNat = 0) ∧
  (BitVec.toNat (sample60.core.value x0.a) < 2097152) ∧
  (sample60.core.wideBank (BitVec.toNat (sample60.core.value x0.a)) = false) ∧
  (sample61.issuesFree { freeForm with reads := [] } x0 = true) ∧
  (sample61.core.wait = Wait.none) ∧
  ((at_ 0 3 0 true).space = 0#3) ∧
  (quietCore sample61.core) ∧
  (sample61.core.acks = []) ∧
  (sample61.lossNext = false) ∧
  (BitVec.toNat (sample61.core.value x0.a) % 2 ^ (at_ 0 3 0 true).w.toNat = 0) ∧
  (mapped (sample61.clock x0.head) (sample61.core.value x0.a) true = some (327936, sample62)) ∧
  (BitVec.getLsbD sample62 1 = true) ∧
  ((at_ 0 3 0 true).ord ≠ 0#2 ∨ BitVec.getLsbD sample62 4 = false) := by
  refine ⟨?_, ?_, ?_, ?_, ?_, ?_, by unfold quietCore; decide +kernel, ?_, ?_, ?_, ?_, ?_, ?_, ?_, ?_, by unfold quietCore; decide +kernel, ?_, ?_, ?_, ?_, ?_, ?_⟩ <;> decide +kernel

/-- A state and operands that meet the hypotheses of `Obligations.Atomics`, part 2. -/
theorem witness_LostAtomicIsReported :
  (sample63.lossNext = true) ∧
  (sample63.issuesFree freeForm x0 = true) ∧
  (sample63.core.wait = Wait.none) ∧
  (sample64.space = 0#3) ∧
  (sample64.ord = 1#2) ∧
  (quietCore sample63.core) ∧
  (sample63.core.acks = []) ∧
  (sample63.core.handler = false) ∧
  (sample63.core.sys.contain = 2852126805#64) ∧
  (BitVec.toNat (sample63.core.value x0.a) % 2 ^ sample64.w.toNat = 0) ∧
  (mapped (sample63.clock x0.head) (sample63.core.value x0.a) true = some (327936, sample62)) ∧
  (BitVec.getLsbD sample62 1 = true) ∧
  (sample63.core.run ≠ RunState.killed) := by
  refine ⟨?_, ?_, ?_, ?_, ?_, by unfold quietCore; decide +kernel, ?_, ?_, ?_, ?_, ?_, ?_, ?_⟩ <;> decide +kernel

/-- A state and operands that meet the hypotheses of `Obligations.TredFencesAndLines`, part 1. -/
theorem witness_TredAppliesItsElements :
  (stred.issuesFree freeForm xtr = true) ∧
  (stred.core.wait = Wait.none) ∧
  (stred.core.streams = []) ∧
  ((stred.core.view xtr.d).shapeOk = true) ∧
  (stred.core.mirrorOk (stred.core.view xtr.d) = true) ∧
  (tredFmtOk (stred.core.view xtr.d) (7#4) = true) ∧
  (BitVec.toNat (stred.core.value xtr.a) % (stred.core.view xtr.d).fmt.bytes = 0) ∧
  (BitVec.toNat (stred.core.value xtr.b) % (stred.core.view xtr.d).fmt.bytes = 0) ∧
  (quietCore stred.core) ∧
  (stred.core.acks = []) ∧
  (stred.race = []) ∧
  (stred.core.tprog = 0) ∧
  (stred.core.tredCause = none) ∧
  (stred.core.rowLimit = none) ∧
  ((stred.core.view xtr.d).vrows = 1) ∧
  ((stred.core.view xtr.d).vcols = 1) ∧
  ((0#2) ≠ 3#2) ∧
  (isOk (((stred.clock xtr.head).atomicAt (1#3) (stred.core.value xtr.a) (stred.core.view xtr.d).fmt.bytes ((0#2) != 0#2) fun old => atomicNew (aopOf (7#4)) (stred.core.view xtr.d).fmt.bytes old (if (stred.core.view xtr.d).fmt.isFloat = true then 0 else (wrapInt 32 (storedInt stred.core (stred.core.view xtr.d) 0 0)).toNat) 0 (if (stred.core.view xtr.d).fmt.isFloat = true then stred.core.elem (stred.core.view xtr.d) 0 0 else Val.zero))) = true) := by
  refine ⟨?_, ?_, ?_, ?_, ?_, ?_, ?_, ?_, by unfold quietCore; decide +kernel, ?_, ?_, ?_, ?_, ?_, ?_, ?_, ?_, ?_⟩ <;> decide +kernel

/-- A state and operands that meet the hypotheses of `Obligations.TredFencesAndLines`, part 2. -/
theorem witness_FencesWaitForEarlierStores :
  (s0.issuesFree freeForm x0 = true) ∧
  (s0.core.settled = true) ∧
  (sample65.issuesFree freeForm x0 = true) ∧
  (sample65.core.settled = false) ∧
  (s0.core.wait = Wait.none) ∧
  (sample66.core.ganged = false) ∧
  (sample66.core.wait = Wait.scTick 5) ∧
  (∀ k ∈ sample66.others, scEdge k = none) := by
  refine ⟨?_, ?_, ?_, ?_, ?_, ?_, ?_, ?_⟩ <;> decide +kernel

/-- A state and operands that meet the hypotheses of `Obligations.TredFencesAndLines`, part 3. -/
theorem witness_LineOperations :
  (sample67.issuesFree freeForm x0 = true) ∧
  (sample67.core.stores = []) ∧
  (7#3 ≠ 0#3) ∧
  (windowed (sample67.clock x0.head) true (sample67.core.value x0.a + sample67.core.value x0.b) false = true) ∧
  (sample68.issuesFree freeForm x0 = true) ∧
  (sample68.core.stores = []) ∧
  (mapped (sample68.clock x0.head) (sample68.core.value x0.a + sample68.core.value x0.b) false = some (327936, sample62)) ∧
  (sample69.issuesFree freeForm x0 = true) ∧
  (sample69.core.stores = []) ∧
  (mapped (sample69.clock x0.head) (sample69.core.value x0.a + sample69.core.value x0.b) false = some (327936, sample62)) ∧
  (sample69.leased 327936 = false) := by
  refine ⟨?_, ?_, ?_, ?_, ?_, ?_, ?_, ?_, ?_, ?_, ?_⟩ <;> decide +kernel

/-- A state and operands that meet the hypotheses of `Obligations.RaceDetection`, part 1. -/
theorem witness_RaceRecordsDetectConflicts :
  (findRace srace.race (Place.global 7) = none) ∧
  (findRace srace.race (Place.global 5) = some (rr 4)) ∧
  ((rr 4).writer ≠ 4095#12) ∧
  ((rr 4).writer ≠ BitVec.ofNat 12 core0.lcn) ∧
  (srace.coreOf (rr 4).writer = some k1) ∧
  (k1.field = core0.field) ∧
  (srace.fgen core0 = (rr 4).fgen) ∧
  (srace.dgen core0 = (rr 4).dgen) ∧
  (srace.qgen core0 = (rr 4).qgen) ∧
  (((rr 4).locked && true) = false) ∧
  (BitVec.getLsbD core0.sys.racest 0 = false) := by
  refine ⟨?_, ?_, ?_, ?_, ?_, ?_, ?_, ?_, ?_, ?_, ?_⟩ <;> decide +kernel

/-- A state and operands that meet the hypotheses of `Obligations.RaceDetection`, part 2. -/
theorem witness_WalkCollapseAndSweep :
  (sample70.core.ganged = false) ∧
  (sample70.core.wait = Wait.collapse 65792#64) ∧
  (isOk (sample70.walk sample70.core.die sample70.core.ctx 65792#64) = true) ∧
  (BitVec.getLsbD sample70.core.sys.collctl 63 = false) ∧
  (swalk.cached swalk.core.die swalk.core.num swalk.core.ctx 65792#64 = none) ∧
  (swalk.cached swalk.core.die 8 swalk.core.ctx 65792#64 = none) ∧
  (isOk (swalk.walk swalk.core.die swalk.core.ctx 65792#64) = true) ∧
  (sample70.core.stores = []) ∧
  (∀ c ∈ sample70.others, c.stores = []) := by
  refine ⟨?_, ?_, ?_, ?_, ?_, ?_, ?_, ?_, ?_⟩ <;> decide +kernel

/-- A state and operands that meet the hypotheses of `Obligations.TileInstructionsGiveTheirElement`. -/
theorem witness_TileInstructionsGiveTheirElement :
  ((tileCase (Instr.tor XT M0) (SA.begun plainForm XT).core).isSome = true) ∧
  (XT = sample71.args) ∧
  (SA.issues plainForm XT = true) ∧
  (tileReady SA sample71) ∧
  (sample71.d.vrows = 1) ∧
  (sample71.d.vcols = 1) ∧
  (SA.core.timed.active = false) ∧
  ((tileCase (Instr.tor XT M0) (SAt.begun plainForm XT).core).isSome = true) ∧
  (XT = (K (.tor XT M0) SAt).args) ∧
  (SAt.issues plainForm XT = true) ∧
  (tileReady SAt (K (.tor XT M0) SAt)) ∧
  (SAt.core.timed.active = true) ∧
  (isOk ((K (.tor XT M0) SAt).taken (SAt.begun plainForm XT).core (passArgs XT SAt.core.sys.repst)) = true) := by
  refine ⟨?_, ?_, ?_, by unfold tileReady; decide +kernel, ?_, ?_, ?_, ?_, ?_, ?_, by unfold tileReady; decide +kernel, ?_, ?_⟩ <;> decide +kernel

/-- A state and operands that meet the hypotheses of `Obligations.TileInstructionsCompleteWithinD`. -/
theorem witness_TileInstructionsCompleteWithinD :
  (XT = sample72.args) ∧
  (SF.issues plainForm XT = true) ∧
  (tileReady SF sample72) ∧
  (SF.core.timed.active = false) ∧
  (isOk (sample72.taken (SF.begun plainForm XT).core (passArgs XT SF.core.sys.repst)) = true) ∧
  (XT = sampleTimed.args) ∧
  (SFt.issues plainForm XT = true) ∧
  (tileReady SFt sampleTimed) ∧
  (SFt.core.timed.active = true) ∧
  (isOk (sampleTimed.taken (SFt.begun plainForm XT).core (passArgs XT SFt.core.sys.repst)) = true) ∧
  (sampleTimed.taken ((tmBusy SFt).begun plainForm XT).core (passArgs XT SFt.core.sys.repst) = .error (.timing 2)) ∧
  (tileReady (tmBusy SFt) sampleTimed) ∧
  ((tmBusy SFt).issues plainForm XT = true) := by
  refine ⟨?_, ?_, by unfold tileReady; decide +kernel, ?_, ?_, ?_, ?_, by unfold tileReady; decide +kernel, ?_, ?_, ?_, by unfold tileReady; decide +kernel, ?_⟩ <;> decide +kernel

/-- A state and operands that meet the hypotheses of `Obligations.ElementMovesAndMasks`, part 1. -/
theorem witness_SingleElementMoves :
  (sample73.core.streams = []) ∧
  (sample73.core.mq = []) ∧
  (sample73.race = []) ∧
  (sample73.core.lsBad = []) ∧
  (sample73.issues elemForm xtx = true) ∧
  ((sample73.core.view (passArgs xtx sample73.core.sys.repst).a).shapeOk = true) ∧
  (sample73.core.mirrorOk (sample73.core.view (passArgs xtx sample73.core.sys.repst).a) = true) ∧
  ((Mx 1).aux.getLsbD 0 = true ∨ (sample73.core.view (passArgs xtx sample73.core.sys.repst).a).code ≠ 0) ∧
  (bits (sample73.core.value (passArgs xtx sample73.core.sys.repst).b) 63 16 = 0) ∧
  ((sample73.core.view (passArgs xtx sample73.core.sys.repst).a).rows ≤ bits (sample73.core.value (passArgs xtx sample73.core.sys.repst).b) 15 8 ∨ (sample73.core.view (passArgs xtx sample73.core.sys.repst).a).cols ≤ bits (sample73.core.value (passArgs xtx sample73.core.sys.repst).b) 7 0) ∧
  (sc2.core.streams = []) ∧
  (sc2.core.mq = []) ∧
  (sc2.race = []) ∧
  (sc2.core.lsBad = []) ∧
  (sc2.issues elemForm xtx = true) ∧
  ((sc2.core.view (passArgs xtx sc2.core.sys.repst).a).shapeOk = true) ∧
  (sc2.core.mirrorOk (sc2.core.view (passArgs xtx sc2.core.sys.repst).a) = true) ∧
  (M0.aux.getLsbD 0 = true ∨ (sc2.core.view (passArgs xtx sc2.core.sys.repst).a).code ≠ 0) ∧
  (bits (sc2.core.value (passArgs xtx sc2.core.sys.repst).b) 63 16 = 0) ∧
  (bits (sc2.core.value (passArgs xtx sc2.core.sys.repst).b) 15 8 < (sc2.core.view (passArgs xtx sc2.core.sys.repst).a).rows) ∧
  (bits (sc2.core.value (passArgs xtx sc2.core.sys.repst).b) 7 0 < (sc2.core.view (passArgs xtx sc2.core.sys.repst).a).cols) ∧
  (sc2.core.timed.active = false) ∧
  (sample75.core.streams = []) ∧
  (sample75.core.mq = []) ∧
  (sample75.race = []) ∧
  (sample75.core.lsBad = []) ∧
  (sample75.issues plainForm xins = true) ∧
  ((destView sample75.core (passArgs xins sample75.core.sys.repst) M0.fovr).shapeOk = true) ∧
  (sample75.core.mirrorOk (destView sample75.core (passArgs xins sample75.core.sys.repst) M0.fovr) = true) ∧
  (M0.fovr.toNat ≤ 9) ∧
  (M0.aux.getLsbD 0 = true ∨ (destView sample75.core (passArgs xins sample75.core.sys.repst) M0.fovr).code ≠ 0) ∧
  (bits (sample75.core.value (passArgs xins sample75.core.sys.repst).b) 63 16 = 0) ∧
  ((destView sample75.core (passArgs xins sample75.core.sys.repst) M0.fovr).rows ≤ bits (sample75.core.value (passArgs xins sample75.core.sys.repst).b) 15 8 ∨ (destView sample75.core (passArgs xins sample75.core.sys.repst) M0.fovr).cols ≤ bits (sample75.core.value (passArgs xins sample75.core.sys.repst).b) 7 0) ∧
  (sample76.core.streams = []) ∧
  (sample76.core.mq = []) ∧
  (sample76.race = []) ∧
  (sample76.core.lsBad = []) ∧
  (sample76.issues plainForm xins = true) ∧
  ((destView sample76.core (passArgs xins sample76.core.sys.repst) M0.fovr).shapeOk = true) ∧
  (sample76.core.mirrorOk (destView sample76.core (passArgs xins sample76.core.sys.repst) M0.fovr) = true) ∧
  (M0.aux.getLsbD 0 = true ∨ (destView sample76.core (passArgs xins sample76.core.sys.repst) M0.fovr).code ≠ 0) ∧
  (bits (sample76.core.value (passArgs xins sample76.core.sys.repst).b) 63 16 = 0) ∧
  (bits (sample76.core.value (passArgs xins sample76.core.sys.repst).b) 15 8 < (destView sample76.core (passArgs xins sample76.core.sys.repst) M0.fovr).rows) ∧
  (bits (sample76.core.value (passArgs xins sample76.core.sys.repst).b) 7 0 < (destView sample76.core (passArgs xins sample76.core.sys.repst) M0.fovr).cols) ∧
  (sample76.core.timed.active = false) ∧
  (sc1.core.streams = []) ∧
  (sc1.core.mq = []) ∧
  (sc1.race = []) ∧
  (sc1.core.lsBad = []) ∧
  (sc1.issues plainForm XT = true) ∧
  ([(movePair (sc1.core.view (passArgs XT sc1.core.sys.repst).a) (destView sc1.core (passArgs XT sc1.core.sys.repst) M0.fovr)).1, (movePair (sc1.core.view (passArgs XT sc1.core.sys.repst).a) (destView sc1.core (passArgs XT sc1.core.sys.repst) M0.fovr)).2, sc1.core.view (passArgs XT sc1.core.sys.repst).b].all View.shapeOk = true) ∧
  ([(movePair (sc1.core.view (passArgs XT sc1.core.sys.repst).a) (destView sc1.core (passArgs XT sc1.core.sys.repst) M0.fovr)).1, (movePair (sc1.core.view (passArgs XT sc1.core.sys.repst).a) (destView sc1.core (passArgs XT sc1.core.sys.repst) M0.fovr)).2, sc1.core.view (passArgs XT sc1.core.sys.repst).b].all sc1.core.mirrorOk = true) ∧
  ((sc1.core.view (passArgs XT sc1.core.sys.repst).b).code = 5 ∨ (sc1.core.view (passArgs XT sc1.core.sys.repst).b).code = 6) ∧
  (sameShape (movePair (sc1.core.view (passArgs XT sc1.core.sys.repst).a) (destView sc1.core (passArgs XT sc1.core.sys.repst) M0.fovr)).1 [sc1.core.view (passArgs XT sc1.core.sys.repst).b] = true) ∧
  ((movePair (sc1.core.view (passArgs XT sc1.core.sys.repst).a) (destView sc1.core (passArgs XT sc1.core.sys.repst) M0.fovr)).1.vrows = 1) ∧
  ((movePair (sc1.core.view (passArgs XT sc1.core.sys.repst).a) (destView sc1.core (passArgs XT sc1.core.sys.repst) M0.fovr)).1.vcols = 1) ∧
  ((sc1.core.view (passArgs XT sc1.core.sys.repst).b).vrows = 1) ∧
  ((sc1.core.view (passArgs XT sc1.core.sys.repst).b).vcols = 1) ∧
  (sc1.core.timed.active = false) ∧
  ((tm sc2).core.streams = []) ∧
  ((tm sc2).core.mq = []) ∧
  ((tm sc2).race = []) ∧
  ((tm sc2).core.lsBad = []) ∧
  ((tm sc2).issues elemForm xtx = true) ∧
  (((tm sc2).core.view (passArgs xtx (tm sc2).core.sys.repst).a).shapeOk = true) ∧
  ((tm sc2).core.mirrorOk ((tm sc2).core.view (passArgs xtx (tm sc2).core.sys.repst).a) = true) ∧
  (M0.aux.getLsbD 0 = true ∨ ((tm sc2).core.view (passArgs xtx (tm sc2).core.sys.repst).a).code ≠ 0) ∧
  (bits ((tm sc2).core.value (passArgs xtx (tm sc2).core.sys.repst).b) 63 16 = 0) ∧
  (bits ((tm sc2).core.value (passArgs xtx (tm sc2).core.sys.repst).b) 15 8 < ((tm sc2).core.view (passArgs xtx (tm sc2).core.sys.repst).a).rows) ∧
  (bits ((tm sc2).core.value (passArgs xtx (tm sc2).core.sys.repst).b) 7 0 < ((tm sc2).core.view (passArgs xtx (tm sc2).core.sys.repst).a).cols) ∧
  ((tm sc2).core.timed.active = true) ∧
  (isOk (((tm sc2).begun elemForm xtx).core.lineAccess ((tm sc2).core.view (passArgs xtx (tm sc2).core.sys.repst).a).extents 5 false 0 ((tm sc2).core.unserved (passArgs xtx (tm sc2).core.sys.repst) [Beats.lines ((tm sc2).core.view (passArgs xtx (tm sc2).core.sys.repst).a) 0 1]).isEmpty) = true) ∧
  ((tm sample76).core.streams = []) ∧
  ((tm sample76).core.mq = []) ∧
  ((tm sample76).race = []) ∧
  ((tm sample76).core.lsBad = []) ∧
  ((tm sample76).issues plainForm xins = true) ∧
  ((destView (tm sample76).core (passArgs xins (tm sample76).core.sys.repst) M0.fovr).shapeOk = true) ∧
  ((tm sample76).core.mirrorOk (destView (tm sample76).core (passArgs xins (tm sample76).core.sys.repst) M0.fovr) = true) ∧
  (M0.aux.getLsbD 0 = true ∨ (destView (tm sample76).core (passArgs xins (tm sample76).core.sys.repst) M0.fovr).code ≠ 0) ∧
  (bits ((tm sample76).core.value (passArgs xins (tm sample76).core.sys.repst).b) 63 16 = 0) ∧
  (bits ((tm sample76).core.value (passArgs xins (tm sample76).core.sys.repst).b) 15 8 < (destView (tm sample76).core (passArgs xins (tm sample76).core.sys.repst) M0.fovr).rows) ∧
  (bits ((tm sample76).core.value (passArgs xins (tm sample76).core.sys.repst).b) 7 0 < (destView (tm sample76).core (passArgs xins (tm sample76).core.sys.repst) M0.fovr).cols) ∧
  ((tm sample76).core.timed.active = true) ∧
  (isOk (((tm sample76).begun plainForm xins).core.lineAccess (destView (tm sample76).core (passArgs xins (tm sample76).core.sys.repst) M0.fovr).extents 5 true 6) = true) ∧
  ((tm sc1).core.streams = []) ∧
  ((tm sc1).core.mq = []) ∧
  ((tm sc1).race = []) ∧
  ((tm sc1).core.lsBad = []) ∧
  ((tm sc1).issues plainForm XT = true) ∧
  ([(movePair ((tm sc1).core.view (passArgs XT (tm sc1).core.sys.repst).a) (destView (tm sc1).core (passArgs XT (tm sc1).core.sys.repst) M0.fovr)).1, (movePair ((tm sc1).core.view (passArgs XT (tm sc1).core.sys.repst).a) (destView (tm sc1).core (passArgs XT (tm sc1).core.sys.repst) M0.fovr)).2, (tm sc1).core.view (passArgs XT (tm sc1).core.sys.repst).b].all View.shapeOk = true) ∧
  ([(movePair ((tm sc1).core.view (passArgs XT (tm sc1).core.sys.repst).a) (destView (tm sc1).core (passArgs XT (tm sc1).core.sys.repst) M0.fovr)).1, (movePair ((tm sc1).core.view (passArgs XT (tm sc1).core.sys.repst).a) (destView (tm sc1).core (passArgs XT (tm sc1).core.sys.repst) M0.fovr)).2, (tm sc1).core.view (passArgs XT (tm sc1).core.sys.repst).b].all (tm sc1).core.mirrorOk = true) ∧
  (((tm sc1).core.view (passArgs XT (tm sc1).core.sys.repst).b).code = 5 ∨ ((tm sc1).core.view (passArgs XT (tm sc1).core.sys.repst).b).code = 6) ∧
  (sameShape (movePair ((tm sc1).core.view (passArgs XT (tm sc1).core.sys.repst).a) (destView (tm sc1).core (passArgs XT (tm sc1).core.sys.repst) M0.fovr)).1 [(tm sc1).core.view (passArgs XT (tm sc1).core.sys.repst).b] = true) ∧
  ((movePair ((tm sc1).core.view (passArgs XT (tm sc1).core.sys.repst).a) (destView (tm sc1).core (passArgs XT (tm sc1).core.sys.repst) M0.fovr)).1.vrows = 1) ∧
  ((movePair ((tm sc1).core.view (passArgs XT (tm sc1).core.sys.repst).a) (destView (tm sc1).core (passArgs XT (tm sc1).core.sys.repst) M0.fovr)).1.vcols = 1) ∧
  (((tm sc1).core.view (passArgs XT (tm sc1).core.sys.repst).b).vrows = 1) ∧
  (((tm sc1).core.view (passArgs XT (tm sc1).core.sys.repst).b).vcols = 1) ∧
  ((tm sc1).core.timed.active = true) ∧
  (isOk (((tm sc1).begun plainForm XT).core.vector (passArgs XT (tm sc1).core.sys.repst) (wholeUse (movePair ((tm sc1).core.view (passArgs XT (tm sc1).core.sys.repst).a) (destView (tm sc1).core (passArgs XT (tm sc1).core.sys.repst) M0.fovr)).2 [(movePair ((tm sc1).core.view (passArgs XT (tm sc1).core.sys.repst).a) (destView (tm sc1).core (passArgs XT (tm sc1).core.sys.repst) M0.fovr)).1, (tm sc1).core.view (passArgs XT (tm sc1).core.sys.repst).b])) = true) := by
  refine ⟨?_, ?_, ?_, ?_, ?_, ?_, ?_, ?_, ?_, ?_, ?_, ?_, ?_, ?_, ?_, ?_, ?_, ?_, ?_, ?_, ?_, ?_, ?_, ?_, ?_, ?_, ?_, ?_, ?_, ?_, ?_, ?_, ?_, ?_, ?_, ?_, ?_, ?_, ?_, ?_, ?_, ?_, ?_, ?_, ?_, ?_, ?_, ?_, ?_, ?_, ?_, ?_, ?_, ?_, ?_, ?_, ?_, ?_, ?_, ?_, ?_, ?_, ?_, ?_, ?_, ?_, ?_, ?_, ?_, ?_, ?_, ?_, ?_, ?_, ?_, ?_, ?_, ?_, ?_, ?_, ?_, ?_, ?_, ?_, ?_, ?_, ?_, ?_, ?_, ?_, ?_, ?_, ?_, ?_, ?_, ?_, ?_, ?_, ?_, ?_⟩ <;> decide +kernel

/-- A state and operands that meet the hypotheses of `Obligations.ElementMovesAndMasks`, part 2. -/
theorem witness_MaskResults :
  (sc2.issues plainForm xtx = true) ∧
  (sc2.core.streams = []) ∧
  (sc2.core.mq = []) ∧
  (sc2.race = []) ∧
  (sc2.core.lsBad = []) ∧
  ((sc2.core.view (passArgs xtx sc2.core.sys.repst).a).shapeOk = true) ∧
  (sc2.core.mirrorOk (sc2.core.view (passArgs xtx sc2.core.sys.repst).a) = true) ∧
  (sc2.core.timed.active = false) ∧
  ((tm sc2).issues plainForm xtx = true) ∧
  ((tm sc2).core.streams = []) ∧
  ((tm sc2).core.mq = []) ∧
  ((tm sc2).race = []) ∧
  ((tm sc2).core.lsBad = []) ∧
  (((tm sc2).core.view (passArgs xtx (tm sc2).core.sys.repst).a).shapeOk = true) ∧
  ((tm sc2).core.mirrorOk ((tm sc2).core.view (passArgs xtx (tm sc2).core.sys.repst).a) = true) ∧
  ((tm sc2).core.timed.active = true) ∧
  (isOk (((tm sc2).begun plainForm xtx).core.vector (passArgs xtx (tm sc2).core.sys.repst) (testUse ((tm sc2).core.view (passArgs xtx (tm sc2).core.sys.repst).a))) = true) := by
  refine ⟨?_, ?_, ?_, ?_, ?_, ?_, ?_, ?_, ?_, ?_, ?_, ?_, ?_, ?_, ?_, ?_, ?_⟩ <;> decide +kernel

/-- A state and operands that meet the hypotheses of `Obligations.MatrixUnit`, part 1. -/
theorem witness_MatrixInstructionsEnterTheQueue :
  (s0.issues plainForm xm = true) ∧
  (s0.core.memc = false) ∧
  ((s0.core.slotAt (slotOf (passArgs xm s0.core.sys.repst).d)).issue = SlotState.free) ∧
  (sm1.issues plainForm xm = true) ∧
  (sm1.core.memc = false) ∧
  ((sm1.core.slotAt (slotOf (passArgs xm sm1.core.sys.repst).d)).issue ≠ SlotState.free) ∧
  (sm1.issues plainForm xoi = true) ∧
  ((sm1.core.slotAt (slotOf (passArgs xoi sm1.core.sys.repst).a)).record = some (rcd 5 1 2 2)) ∧
  (sm1.core.mq = []) ∧
  (sm1.core.timed.active = true → ∀ e ∈ sm1.core.mq, e.op.reads (slotOf (passArgs xm sm1.core.sys.repst).d).toNat = true → e.due ≠ 0 ∧ e.free ≤ (sm1.begun plainForm xm).core.now) ∧
  ((if sm1.core.timed.active = true then (List.filter (fun e => !e.over (sm1.begun plainForm xm).core.now) sm1.core.mq).length else sm1.core.mq.length) < 16) ∧
  (SA.issues plainForm xou = true) ∧
  (SA.core.memc = false) ∧
  (SA.core.streams = []) ∧
  (SA.race = []) ∧
  (SA.core.wideBank (recBase (SA.core.tileOf (passArgs xou SA.core.sys.repst).d)) = false) ∧
  (recBase (SA.core.tileOf (passArgs xou SA.core.sys.repst).d) % 256 = 0) ∧
  ((SA.core.slotAt (slotOf (passArgs xou SA.core.sys.repst).a)).bytes = 0 ∨ (recBase (SA.core.tileOf (passArgs xou SA.core.sys.repst).d) + (SA.core.slotAt (slotOf (passArgs xou SA.core.sys.repst).a)).bytes - 1) / 131072 = recBase (SA.core.tileOf (passArgs xou SA.core.sys.repst).d) / 131072) ∧
  ((SA.core.slotAt (slotOf (passArgs xou SA.core.sys.repst).a)).issue = SlotState.free ∨ (SA.core.slotAt (slotOf (passArgs xou SA.core.sys.repst).a)).issue = SlotState.claimed) ∧
  (sou.issues plainForm xou = true) ∧
  (sou.core.memc = false) ∧
  (sou.core.streams = []) ∧
  (sou.race = []) ∧
  (sou.core.wideBank (recBase (sou.core.tileOf (passArgs xou sou.core.sys.repst).d)) = false) ∧
  (recBase (sou.core.tileOf (passArgs xou sou.core.sys.repst).d) % 256 = 0) ∧
  ((sou.core.slotAt (slotOf (passArgs xou sou.core.sys.repst).a)).bytes = 0 ∨ (recBase (sou.core.tileOf (passArgs xou sou.core.sys.repst).d) + (sou.core.slotAt (slotOf (passArgs xou sou.core.sys.repst).a)).bytes - 1) / 131072 = recBase (sou.core.tileOf (passArgs xou sou.core.sys.repst).d) / 131072) ∧
  ((sou.core.slotAt (slotOf (passArgs xou sou.core.sys.repst).a)).issue = SlotState.loading ∨ (sou.core.slotAt (slotOf (passArgs xou sou.core.sys.repst).a)).issue = SlotState.ready) ∧
  ((if sou.core.timed.active = true then (List.filter (fun e => !e.over (sou.begun plainForm xou).core.now) sou.core.mq).length else sou.core.mq.length) < 16) ∧
  (sou.core.timed.active = false) ∧
  ((smm 1).issues plainForm xmm = true) ∧
  ((smm 1).core.memc = false) ∧
  (((smm 1).core.slotAt (slotOf (passArgs xmm (smm 1).core.sys.repst).a)).record = some (rcd 5 1 2 2)) ∧
  (((smm 1).core.slotAt (slotOf (passArgs xmm (smm 1).core.sys.repst).b)).record = some (rcd 5 2 1 2)) ∧
  ((smm 1).core.streams = []) ∧
  ((smm 1).race = []) ∧
  ((if (smm 1).core.timed.active = true then (List.filter (fun e => !e.over ((smm 1).begun plainForm xmm).core.now) (smm 1).core.mq).length else (smm 1).core.mq.length) < 16) ∧
  (((smm 1).core.view (passArgs xmm (smm 1).core.sys.repst).d).shapeOk = true) ∧
  (recEstr ((smm 1).core.view (passArgs xmm (smm 1).core.sys.repst).d).shape = 1) ∧
  (((smm 1).core.view (passArgs xmm (smm 1).core.sys.repst).d).alt = false) ∧
  ((smm 1).core.mirrorOk ((smm 1).core.view (passArgs xmm (smm 1).core.sys.repst).d) = true) ∧
  (((smm 1).core.view (passArgs xmm (smm 1).core.sys.repst).d).fmt = if (rcd 5 1 2 2).fmt = 5#4 ∧ (rcd 5 2 1 2).fmt = 5#4 then Fmt.ai56 else Fmt.af56) ∧
  ((if mm0.ta = true then (rcd 5 1 2 2).rows else (rcd 5 1 2 2).cols) = if mm0.tb = true then (rcd 5 2 1 2).cols else (rcd 5 2 1 2).rows) ∧
  (((smm 1).core.view (passArgs xmm (smm 1).core.sys.repst).d).rows = if mm0.ta = true then (rcd 5 1 2 2).cols else (rcd 5 1 2 2).rows) ∧
  (((smm 1).core.view (passArgs xmm (smm 1).core.sys.repst).d).cols = if mm0.tb = true then (rcd 5 2 1 2).rows else (rcd 5 2 1 2).cols) ∧
  (((smm 1).core.slotAt (slotOf (passArgs xmm (smm 1).core.sys.repst).a)).issue = SlotState.loading ∨ ((smm 1).core.slotAt (slotOf (passArgs xmm (smm 1).core.sys.repst).a)).issue = SlotState.ready) ∧
  (((smm 1).core.slotAt (slotOf (passArgs xmm (smm 1).core.sys.repst).b)).issue = SlotState.loading ∨ ((smm 1).core.slotAt (slotOf (passArgs xmm (smm 1).core.sys.repst).b)).issue = SlotState.ready) ∧
  ((smm 1).core.timed.active = false) ∧
  (sm2.issues plainForm xol = true) ∧
  (sm2.core.memc = false) ∧
  (sm2.core.streams = []) ∧
  (sm2.core.mq = []) ∧
  (sm2.race = []) ∧
  (sm2.core.lsBad = []) ∧
  ((sm2.core.view (passArgs xol sm2.core.sys.repst).a).shapeOk = true) ∧
  ((sm2.core.view (passArgs xol sm2.core.sys.repst).a).trn = false) ∧
  (sm2.core.mirrorOk (sm2.core.view (passArgs xol sm2.core.sys.repst).a) = true) ∧
  ((sm2.core.view (passArgs xol sm2.core.sys.repst).a).fmt = Fmt.fp16 ∨ (sm2.core.view (passArgs xol sm2.core.sys.repst).a).fmt = Fmt.t8 ∨ (sm2.core.view (passArgs xol sm2.core.sys.repst).a).fmt = Fmt.t6 ∨ (sm2.core.view (passArgs xol sm2.core.sys.repst).a).fmt = Fmt.i8) ∧
  ((packedSize (sm2.core.view (passArgs xol sm2.core.sys.repst).a).fmt ((sm2.core.view (passArgs xol sm2.core.sys.repst).a).rows * (sm2.core.view (passArgs xol sm2.core.sys.repst).a).cols)) ≤ 4096) ∧
  ((sm2.core.slotAt (slotOf (passArgs xol sm2.core.sys.repst).d)).issue ≠ SlotState.free) ∧
  (sm2.core.timed.active = false) ∧
  ((tm sou).issues plainForm xou = true) ∧
  ((tm sou).core.memc = false) ∧
  ((tm sou).core.streams = []) ∧
  ((tm sou).race = []) ∧
  ((tm sou).core.wideBank (recBase ((tm sou).core.tileOf (passArgs xou (tm sou).core.sys.repst).d)) = false) ∧
  (recBase ((tm sou).core.tileOf (passArgs xou (tm sou).core.sys.repst).d) % 256 = 0) ∧
  (((tm sou).core.slotAt (slotOf (passArgs xou (tm sou).core.sys.repst).a)).bytes = 0 ∨ (recBase ((tm sou).core.tileOf (passArgs xou (tm sou).core.sys.repst).d) + ((tm sou).core.slotAt (slotOf (passArgs xou (tm sou).core.sys.repst).a)).bytes - 1) / 131072 = recBase ((tm sou).core.tileOf (passArgs xou (tm sou).core.sys.repst).d) / 131072) ∧
  (((tm sou).core.slotAt (slotOf (passArgs xou (tm sou).core.sys.repst).a)).issue = SlotState.loading ∨ ((tm sou).core.slotAt (slotOf (passArgs xou (tm sou).core.sys.repst).a)).issue = SlotState.ready) ∧
  ((if (tm sou).core.timed.active = true then (List.filter (fun e => !e.over ((tm sou).begun plainForm xou).core.now) (tm sou).core.mq).length else (tm sou).core.mq.length) < 16) ∧
  ((tm sou).core.timed.active = true) ∧
  ((tm sou).core.timed.active = true → ((tm sou).begun plainForm xou).core.earlySlot (slotOf (passArgs xou (tm sou).core.sys.repst).a).toNat = false) ∧
  (isOk (((tm sou).begun plainForm xou).core.unloadTimes (bytesExtent (recBase ((tm sou).core.tileOf (passArgs xou (tm sou).core.sys.repst).d)) ((tm sou).core.slotAt (slotOf (passArgs xou (tm sou).core.sys.repst).a)).bytes) ((((tm sou).core.slotAt (slotOf (passArgs xou (tm sou).core.sys.repst).a)).bytes + 255) / 256)) = true) ∧
  ((tm (smm 1)).issues plainForm xmm = true) ∧
  ((tm (smm 1)).core.memc = false) ∧
  (((tm (smm 1)).core.slotAt (slotOf (passArgs xmm (tm (smm 1)).core.sys.repst).a)).record = some (rcd 5 1 2 2)) ∧
  (((tm (smm 1)).core.slotAt (slotOf (passArgs xmm (tm (smm 1)).core.sys.repst).b)).record = some (rcd 5 2 1 2)) ∧
  ((tm (smm 1)).core.streams = []) ∧
  ((tm (smm 1)).race = []) ∧
  ((if (tm (smm 1)).core.timed.active = true then (List.filter (fun e => !e.over ((tm (smm 1)).begun plainForm xmm).core.now) (tm (smm 1)).core.mq).length else (tm (smm 1)).core.mq.length) < 16) ∧
  (((tm (smm 1)).core.view (passArgs xmm (tm (smm 1)).core.sys.repst).d).shapeOk = true) ∧
  (recEstr ((tm (smm 1)).core.view (passArgs xmm (tm (smm 1)).core.sys.repst).d).shape = 1) ∧
  (((tm (smm 1)).core.view (passArgs xmm (tm (smm 1)).core.sys.repst).d).alt = false) ∧
  ((tm (smm 1)).core.mirrorOk ((tm (smm 1)).core.view (passArgs xmm (tm (smm 1)).core.sys.repst).d) = true) ∧
  (((tm (smm 1)).core.view (passArgs xmm (tm (smm 1)).core.sys.repst).d).fmt = if (rcd 5 1 2 2).fmt = 5#4 ∧ (rcd 5 2 1 2).fmt = 5#4 then Fmt.ai56 else Fmt.af56) ∧
  (((tm (smm 1)).core.view (passArgs xmm (tm (smm 1)).core.sys.repst).d).rows = if mm0.ta = true then (rcd 5 1 2 2).cols else (rcd 5 1 2 2).rows) ∧
  (((tm (smm 1)).core.view (passArgs xmm (tm (smm 1)).core.sys.repst).d).cols = if mm0.tb = true then (rcd 5 2 1 2).rows else (rcd 5 2 1 2).cols) ∧
  (((tm (smm 1)).core.slotAt (slotOf (passArgs xmm (tm (smm 1)).core.sys.repst).a)).issue = SlotState.loading ∨ ((tm (smm 1)).core.slotAt (slotOf (passArgs xmm (tm (smm 1)).core.sys.repst).a)).issue = SlotState.ready) ∧
  (((tm (smm 1)).core.slotAt (slotOf (passArgs xmm (tm (smm 1)).core.sys.repst).b)).issue = SlotState.loading ∨ ((tm (smm 1)).core.slotAt (slotOf (passArgs xmm (tm (smm 1)).core.sys.repst).b)).issue = SlotState.ready) ∧
  ((tm (smm 1)).core.timed.active = true) ∧
  ((tm (smm 1)).core.timed.active = true → ((tm (smm 1)).begun plainForm xmm).core.earlySlot (slotOf (passArgs xmm (tm (smm 1)).core.sys.repst).a).toNat = false) ∧
  ((tm (smm 1)).core.timed.active = true → ((tm (smm 1)).begun plainForm xmm).core.earlySlot (slotOf (passArgs xmm (tm (smm 1)).core.sys.repst).b).toNat = false) ∧
  (isOk (((tm (smm 1)).begun plainForm xmm).core.mmaTimes ((tm (smm 1)).core.view (passArgs xmm (tm (smm 1)).core.sys.repst).d) (mmaCycles ((tm (smm 1)).core.view (passArgs xmm (tm (smm 1)).core.sys.repst).d) (rcd 5 1 2 2) (rcd 5 2 1 2) mm0) (updateBeats ((tm (smm 1)).core.view (passArgs xmm (tm (smm 1)).core.sys.repst).d))) = true) ∧
  ((tm sm2).issues plainForm xol = true) ∧
  ((tm sm2).core.memc = false) ∧
  ((tm sm2).core.streams = []) ∧
  ((tm sm2).core.mq = []) ∧
  ((tm sm2).race = []) ∧
  ((tm sm2).core.lsBad = []) ∧
  (((tm sm2).core.view (passArgs xol (tm sm2).core.sys.repst).a).shapeOk = true) ∧
  (((tm sm2).core.view (passArgs xol (tm sm2).core.sys.repst).a).trn = false) ∧
  ((tm sm2).core.mirrorOk ((tm sm2).core.view (passArgs xol (tm sm2).core.sys.repst).a) = true) ∧
  (((tm sm2).core.view (passArgs xol (tm sm2).core.sys.repst).a).fmt = Fmt.fp16 ∨ ((tm sm2).core.view (passArgs xol (tm sm2).core.sys.repst).a).fmt = Fmt.t8 ∨ ((tm sm2).core.view (passArgs xol (tm sm2).core.sys.repst).a).fmt = Fmt.t6 ∨ ((tm sm2).core.view (passArgs xol (tm sm2).core.sys.repst).a).fmt = Fmt.i8) ∧
  ((packedSize ((tm sm2).core.view (passArgs xol (tm sm2).core.sys.repst).a).fmt (((tm sm2).core.view (passArgs xol (tm sm2).core.sys.repst).a).rows * ((tm sm2).core.view (passArgs xol (tm sm2).core.sys.repst).a).cols)) ≤ 4096) ∧
  (((tm sm2).core.slotAt (slotOf (passArgs xol (tm sm2).core.sys.repst).d)).issue ≠ SlotState.free) ∧
  ((tm sm2).core.timed.active = true) ∧
  (isOk (((tm sm2).begun plainForm xol).core.loadTimes (passArgs xol (tm sm2).core.sys.repst) (slotOf (passArgs xol (tm sm2).core.sys.repst).d).toNat ((tm sm2).core.view (passArgs xol (tm sm2).core.sys.repst).a) (if ((tm sm2).core.view (passArgs xol (tm sm2).core.sys.repst).a).lines.2 ≤ 12 then 16 else ((tm sm2).core.view (passArgs xol (tm sm2).core.sys.repst).a).lines.2 + 4)) = true) ∧
  (sampleFull.issues plainForm xm = true) ∧
  (sampleFull.core.memc = false) ∧
  ((sampleFull.core.slotAt (slotOf (passArgs xm sampleFull.core.sys.repst).d)).issue ≠ SlotState.free) ∧
  (sampleFull.core.timed.active = false) ∧
  (16 ≤ sampleFull.core.mq.length) ∧
  (sampleHeldSlot.issues plainForm xm = true) ∧
  (sampleHeldSlot.core.memc = false) ∧
  ((sampleHeldSlot.core.slotAt (slotOf (passArgs xm sampleHeldSlot.core.sys.repst).d)).issue ≠ SlotState.free) ∧
  (¬(sampleHeldSlot.core.timed.active = true → ∀ e ∈ sampleHeldSlot.core.mq, e.op.reads (slotOf (passArgs xm sampleHeldSlot.core.sys.repst).d).toNat = true → e.due ≠ 0 ∧ e.free ≤ (sampleHeldSlot.begun plainForm xm).core.now)) ∧
  (s0.issues plainForm xoi = true) ∧
  ((s0.core.slotAt (slotOf (passArgs xoi s0.core.sys.repst).a)).record = none) := by
  refine ⟨?_, ?_, ?_, ?_, ?_, ?_, ?_, ?_, ?_, ?_, ?_, ?_, ?_, ?_, ?_, ?_, ?_, ?_, ?_, ?_, ?_, ?_, ?_, ?_, ?_, ?_, ?_, ?_, ?_, ?_, ?_, ?_, ?_, ?_, ?_, ?_, ?_, ?_, ?_, ?_, ?_, ?_, ?_, ?_, ?_, ?_, ?_, ?_, ?_, ?_, ?_, ?_, ?_, ?_, ?_, ?_, ?_, ?_, ?_, ?_, ?_, ?_, ?_, ?_, ?_, ?_, ?_, ?_, ?_, ?_, ?_, ?_, ?_, ?_, ?_, ?_, ?_, ?_, ?_, ?_, ?_, ?_, ?_, ?_, ?_, ?_, ?_, ?_, ?_, ?_, ?_, ?_, ?_, ?_, ?_, ?_, ?_, ?_, ?_, ?_, ?_, ?_, ?_, ?_, ?_, ?_, ?_, ?_, ?_, ?_, ?_, ?_, ?_, ?_, ?_, ?_, ?_⟩ <;> decide +kernel

/-- A state and operands that meet the hypotheses of `Obligations.MatrixUnit`, part 2. -/
theorem witness_MatrixQueuePerformsItsHead :
  (sample82.core.needDone [(0, 7)] = false) ∧
  (sample83.core.needDone [] = true) ∧
  (sample83.core.slots[5].issue = SlotState.free) ∧
  (sample84.core.needDone [] = true) ∧
  (sample84.core.slots[1].precord = some (rcd 5 1 2 2)) ∧
  (ml1.core.needDone [] = true) ∧
  (sample85.core.needDone [] = true) ∧
  ((MatrixOp.load 2 (rcd 5 1 2 2) (two 524544) false none) = MatrixOp.load 2 (rcd 5 1 2 2) (two 524544) false none) ∧
  (sample85.core.readSource (rcd 5 1 2 2) (two 524544) false = Except.error 524544) ∧
  (ml0.core.needDone [] = true) ∧
  (isOk (ml0.core.readSource (rcd 5 1 2 2) (two 524544) false) = true) ∧
  (sqm.core.needDone [] = true) ∧
  (sqm.core.slots[1].precord = some (rcd 5 1 2 2)) ∧
  (sqm.core.slots[3].precord = some (rcd 5 2 1 2)) ∧
  (sqm.core.lsBad = []) ∧
  (2 = if mm0.ta = true then (rcd 5 1 2 2).rows else (rcd 5 1 2 2).cols) ∧
  (1 ≤ 2) ∧
  (2 ≤ 8) ∧
  (sample86 = { reg := 0#5, shape := one 393216, fmt := fmtOf (fmtCode (sqm.core.bank (recBank (one 393216)))), code := fmtCode (sqm.core.bank (recBank (one 393216))), scale := 0, sat := fmtSat (sqm.core.bank (recBank (one 393216))), neg := false, trn := false, alt := false }) ∧
  (sample86.vrows = 1) ∧
  (sample86.vcols = 1) ∧
  (∀ t ∈ [sample82, sample83, sample84, ml1, sample85, ml0, sqm], ∀ e ∈ t.core.mq, e.due = 0) ∧
  (∀ t ∈ [sample82, sample83, sample84, ml1, sample85, ml0, sqm], t.core.mq.length = 1) := by
  refine ⟨?_, ?_, ?_, ?_, ?_, ?_, ?_, ?_, ?_, ?_, ?_, ?_, ?_, ?_, ?_, ?_, ?_, ?_, ?_, ?_, ?_, ?_, ?_⟩ <;> decide +kernel

/-- A state and operands that meet the hypotheses of `Obligations.MatrixUnit`, part 3. -/
theorem witness_TimedMatrixOperationsHaveTheirBeats :
  ((tmq (timedLoad 0)).core.mq = [timedLoad 0]) ∧
  ((timedLoad 0).due ≠ 0) ∧
  ((tmq (timedLoad 0)).core.needDone (timedLoad 0).need = true) ∧
  ((timedLoad 0).beat < (timedLoad 0).beats) ∧
  ((timedLoad 0).op = .load 2 (rcd 5 1 2 2) (two 0x80100) false none) ∧
  ((tmq (timedLoad 0)).core.weakAt (256 * ((loadView (rcd 5 1 2 2) (two 0x80100) false).lines.1 + 0)) 256 = false) ∧
  ((tmq (timedLoad 0)).core.lsBadAt (256 * ((loadView (rcd 5 1 2 2) (two 0x80100) false).lines.1 + 0)) 256 = none) ∧
  ((tmq timedUnload).core.mq = [timedUnload]) ∧
  (timedUnload.due ≠ 0) ∧
  ((tmq timedUnload).core.needDone timedUnload.need = true) ∧
  (timedUnload.beat < timedUnload.beats) ∧
  (timedUnload.op = .unload 1 0x80100) ∧
  (timedUnload.held = [slot .ready .ready (some (rcd 5 1 2 2)) [3#8,4#8]]) ∧
  ((slot .ready .ready (some (rcd 5 1 2 2)) [3#8,4#8]).precord = some (rcd 5 1 2 2)) ∧
  ((tmq (timedLoad 1)).core.mq = [timedLoad 1]) ∧
  ((timedLoad 1).due ≠ 0) ∧
  ((tmq (timedLoad 1)).core.needDone (timedLoad 1).need = true) ∧
  ((timedLoad 1).beats ≤ (timedLoad 1).beat) ∧
  ((timedLoad 1).op = .load 2 (rcd 5 1 2 2) (two 0x80100) false none) := by
  refine ⟨?_, ?_, ?_, ?_, ?_, ?_, ?_, ?_, ?_, ?_, ?_, ?_, ?_, ?_, ?_, ?_, ?_, ?_, ?_⟩ <;> decide +kernel

/-- A state and operands that meet the hypotheses of `Obligations.Streams`, part 1. -/
theorem witness_StreamInstructions :
  ((sst2 3).issuesFree freeForm xsb = true) ∧
  ((sst2 3).core.stream (regOf xsb.d) = some strm) ∧
  (BitVec.toNat ((sst2 3).core.value xsb.a) ≤ strm.total - strm.next) ∧
  (sst1.issuesFree freeForm xsb = true) ∧
  (sst1.core.stream (regOf xsb.d) ≠ none) ∧
  ((sst2 4).issuesFree freeForm xsth = true) ∧
  ((sst2 4).core.hintOk xsth = false) ∧
  ((sst2 4).issuesFree freeForm xst = true) ∧
  ((sst2 4).core.stream (regOf xst.a) = some strm) ∧
  ((sst2 4).core.hintOk xst = true) ∧
  ((sst2 4).issuesFree freeForm sample87 = true) ∧
  ((sst2 4).core.stream (regOf sample87.a) = none) ∧
  ((sst2 4).core.hintOk sample87 = true) ∧
  ((sst2 4).issuesFree freeForm xsb = true) ∧
  ((sst2 4).core.stream (regOf xsb.d) = some strm) ∧
  (strm.total - strm.next < BitVec.toNat ((sst2 4).core.value xsb.a)) ∧
  (sst0.issuesFree freeForm xsb = true) ∧
  (sst0.core.stream (regOf xsb.d) = none) ∧
  (sst0.core.streams.length < 8) ∧
  (BitVec.toNat (sst0.core.value xsb.a) % 64 = 0) ∧
  (BitVec.toNat (sst0.core.value xsb.a) < 2097152) ∧
  (sst0.core.settled = true) ∧
  (sst0.core.mq = []) ∧
  (sst0.race = []) ∧
  (sst0.core.lsBad = []) ∧
  (parseStream (regOf xsb.d) (sst0.core.tile (regOf xsb.d)) (sst0.core.lsBytes (BitVec.toNat (sst0.core.value xsb.a)) 64) = some (strm'.getD strm)) ∧
  (sample88 = { (strm'.getD strm) with entsz := entrySize (fmtOf (fmtCode (sst0.core.bank ((strm'.getD strm).rbase / 131072)))) (strm'.getD strm) }) ∧
  (sst0.core.ringOk (fmtOf (fmtCode (sst0.core.bank ((strm'.getD strm).rbase / 131072)))) sample88 = true) := by
  refine ⟨?_, ?_, ?_, ?_, ?_, ?_, ?_, ?_, ?_, ?_, ?_, ?_, ?_, ?_, ?_, ?_, ?_, ?_, ?_, ?_, ?_, ?_, ?_, ?_, ?_, ?_, ?_, ?_⟩ <;> decide +kernel

/-- A state and operands that meet the hypotheses of `Obligations.Streams`, part 2. -/
theorem witness_StreamFillsItsRing :
  (sst5.core.streams = [strm5]) ∧
  (strm5.tile = 5#5) ∧
  (sst5.core.timed.active = false) ∧
  (strm5.poison = none) ∧
  (strm5.filled < strm5.next + strm5.depth) ∧
  (strm5.filled < strm5.total) ∧
  (isOk (sst5.fillEntry strm5 (fmtOf (fmtCode (sst5.core.bank (strm5.rbase / 131072))))) = true) ∧
  (recVrows strm5.saved = 0) ∧
  (strm5.edger = 0) ∧
  (sst1.core.streams = [strm]) ∧
  (strm.tile = 5#5) ∧
  (sst1.core.timed.active = false) ∧
  (strm.poison = none) ∧
  (strm.filled < strm.next + strm.depth) ∧
  (strm.filled < strm.total) ∧
  (sst3.core.streams = [strm2]) ∧
  (strm2.tile = 5#5) ∧
  (sample89.reg = 5#5) ∧
  ((timed sst4).core.streams = [strm2]) ∧
  (strm2.poison.isSome = true ∨ strm2.total ≤ strm2.filled ∨ strm2.next + strm2.depth ≤ strm2.filled ∨ (timed sst4).core.timed.active = true ∨ (timed sst4).core.run = RunState.killed) ∧
  (sst5.core.fills = true) ∧
  (sst1.core.fills = true) := by
  refine ⟨?_, ?_, ?_, ?_, ?_, ?_, ?_, ?_, ?_, ?_, ?_, ?_, ?_, ?_, ?_, ?_, ?_, ?_, ?_, ?_, ?_, ?_⟩ <;> decide +kernel

/-- A state and operands that meet the hypotheses of `Obligations.TransferQueues`, part 1. -/
theorem witness_TransferInstructionsQueueTheirCommand :
  ((sample90.core.xq.get (2#2).toFin).length < 16) ∧
  (sample90.issuesFree freeForm xxl = true) ∧
  (BitVec.toNat (sample90.core.value xxl.a) % 1024 = 0) ∧
  (bits (sample90.core.value xxl.b) 63 48 ≠ 0) ∧
  (bits (sample90.core.value xxl.b) 47 32 = 0) ∧
  (bits (sample90.core.value xxl.b) 31 0 ≠ 0) ∧
  (bits (sample90.core.value xxl.b) 31 0 % 1024 = 0) ∧
  ((sample91.core.xq.get (2#2).toFin).length < 16) ∧
  (sample91.issues FX xxc = true) ∧
  (regOf xxc.b = regOf (passArgs xxc sample91.core.sys.repst).b) ∧
  (sample91.core.timed.active = false) ∧
  (sample91.core.streams = []) ∧
  ((sample91.core.view (passArgs xxc sample91.core.sys.repst).a).shapeOk = false) ∧
  ((stt1.core.xq.get (2#2).toFin).length < 16) ∧
  (regOf xvt.a = regOf (passArgs xvt stt1.core.sys.repst).a) ∧
  (stt1.issues { plainForm with phase := Phase.free, soff := xm0.soff, reads := [Operand.s (regOf (passArgs xvt stt1.core.sys.repst).a + 1#5)] } xvt = true) ∧
  (engineTile stt1.core (stt1.core.view (passArgs xvt stt1.core.sys.repst).b)) ∧
  (copyCtlOk (stt1.core.readS (regOf (passArgs xvt stt1.core.sys.repst).a + 1#5)) false false = true) ∧
  (BitVec.toNat (stt1.core.value (passArgs xvt stt1.core.sys.repst).a) % alignWidth (stt1.core.view (passArgs xvt stt1.core.sys.repst).b).fmt = 0) ∧
  (bits (stt1.core.readS (regOf (passArgs xvt stt1.core.sys.repst).a + 1#5)) 29 0 % alignWidth (stt1.core.view (passArgs xvt stt1.core.sys.repst).b).fmt = 0) ∧
  (bits (stt1.core.readS (regOf (passArgs xvt stt1.core.sys.repst).a + 1#5)) 63 61 = 0) ∧
  (BitVec.getLsbD (stt1.core.readS (regOf (passArgs xvt stt1.core.sys.repst).a + 1#5)) 47 = false) ∧
  ((stt1.clock xvt.head).rawRowsOk (stt1.core.view (passArgs xvt stt1.core.sys.repst).b) (bits (stt1.core.readS (regOf (passArgs xvt stt1.core.sys.repst).a + 1#5)) 63 61) (stt1.core.value (passArgs xvt stt1.core.sys.repst).a) (bits (stt1.core.readS (regOf (passArgs xvt stt1.core.sys.repst).a + 1#5)) 29 0) = true) ∧
  ((stc.core.xq.get (2#2).toFin).length < 16) ∧
  (stc.issues FX xxc = true) ∧
  (regOf xxc.b = regOf (passArgs xxc stc.core.sys.repst).b) ∧
  (engineTile stc.core (stc.core.view (passArgs xxc stc.core.sys.repst).a)) ∧
  (copyCtlOk (stc.core.readS (regOf (passArgs xxc stc.core.sys.repst).b + 1#5)) true stc.core.timed.active = true) ∧
  (BitVec.toNat (stc.core.value (passArgs xxc stc.core.sys.repst).b) % alignWidth (stc.core.view (passArgs xxc stc.core.sys.repst).a).fmt = 0) ∧
  (bits (stc.core.readS (regOf (passArgs xxc stc.core.sys.repst).b + 1#5)) 29 0 % alignWidth (stc.core.view (passArgs xxc stc.core.sys.repst).a).fmt = 0) ∧
  ((stc.begun FX xxc).peer (stc.core.value (passArgs xxc stc.core.sys.repst).b) = some k1) ∧
  ((stc.begun FX xxc).reach (stc.begun FX xxc).core.die k1.die (BitVec.toNat (stc.core.value (passArgs xxc stc.core.sys.repst).b)) ≠ some 6#8) ∧
  (BitVec.getLsbD (stc.core.readS (regOf (passArgs xxc stc.core.sys.repst).b + 1#5)) 47 = false) ∧
  ((stc.begun FX xxc).rawRowsOk (stc.core.view (passArgs xxc stc.core.sys.repst).a) (bits (stc.core.readS (regOf (passArgs xxc stc.core.sys.repst).b + 1#5)) 63 61) (stc.core.value (passArgs xxc stc.core.sys.repst).b) (bits (stc.core.readS (regOf (passArgs xxc stc.core.sys.repst).b + 1#5)) 29 0) = true) ∧
  (stc.core.timed.active = true → bits (stc.core.readS (regOf (passArgs xxc stc.core.sys.repst).b + 1#5)) 63 61 = 2 ∧ timedShapeOk (stc.core.view (passArgs xxc stc.core.sys.repst).a) (bits (stc.core.readS (regOf (passArgs xxc stc.core.sys.repst).b + 1#5)) 29 0) (peerOff (stc.core.value (passArgs xxc stc.core.sys.repst).b)) = true ∧ (stc.begun FX xxc).routeStarts (stc.begun FX xxc).core (bits (stc.core.readS (regOf (passArgs xxc stc.core.sys.repst).b + 1#5)) 55 48) = true) ∧
  (isOk ((stc.begun FX xxc).bookCopy (stc.core.view (passArgs xxc stc.core.sys.repst).a) (if stc.core.timed.active = true then (stc.begun FX xxc).core.now + xm0.soff.toNat else 0) [bits (stc.core.readS (regOf (passArgs xxc stc.core.sys.repst).b + 1#5)) 55 48] (peerOff (stc.core.value (passArgs xxc stc.core.sys.repst).b))) = true) ∧
  ((stt3.core.xq.get (2#2).toFin).length < 16) ∧
  (stt3.issues FX xxc = true) ∧
  (regOf xxc.b = regOf (passArgs xxc stt3.core.sys.repst).b) ∧
  (engineTile stt3.core (stt3.core.view (passArgs xxc stt3.core.sys.repst).a)) ∧
  (castCtlOk (stt3.core.readS (regOf (passArgs xxc stt3.core.sys.repst).b + 1#5)) stt3.core.timed.active = true) ∧
  (bits (stt3.core.readS (regOf (passArgs xxc stt3.core.sys.repst).b + 1#5)) 20 0 % alignWidth (stt3.core.view (passArgs xxc stt3.core.sys.repst).a).fmt = 0) ∧
  (bits (stt3.core.readS (regOf (passArgs xxc stt3.core.sys.repst).b + 1#5)) 35 21 % alignWidth (stt3.core.view (passArgs xxc stt3.core.sys.repst).a).fmt = 0) ∧
  (((stt3.begun FX xxc).castTargets (stt3.core.value (passArgs xxc stt3.core.sys.repst).b) (stt3.core.readS (regOf (passArgs xxc stt3.core.sys.repst).b + 1#5))).isSome = true) ∧
  (∀ t ∈ someOr [] ((stt3.begun FX xxc).castTargets (stt3.core.value (passArgs xxc stt3.core.sys.repst).b) (stt3.core.readS (regOf (passArgs xxc stt3.core.sys.repst).b + 1#5))), (stt3.begun FX xxc).reach (stt3.begun FX xxc).core.die t.die (bits (stt3.core.readS (regOf (passArgs xxc stt3.core.sys.repst).b + 1#5)) 20 0) ≠ some 6#8) ∧
  (∀ t ∈ someOr [] ((stt3.begun FX xxc).castTargets (stt3.core.value (passArgs xxc stt3.core.sys.repst).b) (stt3.core.readS (regOf (passArgs xxc stt3.core.sys.repst).b + 1#5))), (stt3.begun FX xxc).rawRowsOk (stt3.core.view (passArgs xxc stt3.core.sys.repst).a) 2 (peerAddress t (bits (stt3.core.readS (regOf (passArgs xxc stt3.core.sys.repst).b + 1#5)) 20 0)) (bits (stt3.core.readS (regOf (passArgs xxc stt3.core.sys.repst).b + 1#5)) 35 21) = true) ∧
  (stt3.core.timed.active = true → timedShapeOk (stt3.core.view (passArgs xxc stt3.core.sys.repst).a) (bits (stt3.core.readS (regOf (passArgs xxc stt3.core.sys.repst).b + 1#5)) 35 21) (bits (stt3.core.readS (regOf (passArgs xxc stt3.core.sys.repst).b + 1#5)) 20 0) = true ∧ ∀ n ∈ List.map (fun n => (bits (stt3.core.readS (regOf (passArgs xxc stt3.core.sys.repst).b + 1#5)) 55 48 + n) % 256) (List.range (someOr [] ((stt3.begun FX xxc).castTargets (stt3.core.value (passArgs xxc stt3.core.sys.repst).b) (stt3.core.readS (regOf (passArgs xxc stt3.core.sys.repst).b + 1#5)))).length), (stt3.begun FX xxc).routeStarts (stt3.begun FX xxc).core n = true) ∧
  (isOk ((stt3.begun FX xxc).bookCopy (stt3.core.view (passArgs xxc stt3.core.sys.repst).a) (if stt3.core.timed.active = true then (stt3.begun FX xxc).core.now + xm0.soff.toNat else 0) (List.map (fun n => (bits (stt3.core.readS (regOf (passArgs xxc stt3.core.sys.repst).b + 1#5)) 55 48 + n) % 256) (List.range (someOr [] ((stt3.begun FX xxc).castTargets (stt3.core.value (passArgs xxc stt3.core.sys.repst).b) (stt3.core.readS (regOf (passArgs xxc stt3.core.sys.repst).b + 1#5)))).length)) (bits (stt3.core.readS (regOf (passArgs xxc stt3.core.sys.repst).b + 1#5)) 20 0)) = true) := by
  refine ⟨?_, ?_, ?_, ?_, ?_, ?_, ?_, ?_, ?_, ?_, ?_, ?_, ?_, ?_, ?_, ?_, by unfold engineTile; decide +kernel, ?_, ?_, ?_, ?_, ?_, ?_, ?_, ?_, ?_, by unfold engineTile; decide +kernel, ?_, ?_, ?_, ?_, ?_, ?_, ?_, ?_, ?_, ?_, ?_, ?_, by unfold engineTile; decide +kernel, ?_, ?_, ?_, ?_, ?_, ?_, ?_, ?_⟩ <;> decide +kernel

/-- A state and operands that meet the hypotheses of `Obligations.TransferQueues`, part 2. -/
theorem witness_QueueJoinsAndWaits :
  (sample93.issuesFree freeForm xq2 = true) ∧
  (sample93.core.queueNext xq2.a ≤ BitVec.toNat (sample93.core.value xq2.b)) ∧
  (sample94.issuesFree freeForm xq2 = true) ∧
  (BitVec.toNat (sample94.core.value xq2.b) < sample94.core.queueNext xq2.a) ∧
  (sample94.core.queueDone xq2.a ≤ BitVec.toNat (sample94.core.value xq2.b)) ∧
  (sample95.issuesFree freeForm xq2 = true) ∧
  (BitVec.toNat (sample95.core.value xq2.b) < sample95.core.queueNext xq2.a) ∧
  (BitVec.toNat (sample95.core.value xq2.b) < sample95.core.queueDone xq2.a) := by
  refine ⟨?_, ?_, ?_, ?_, ?_, ?_, ?_, ?_⟩ <;> decide +kernel

/-- A state and operands that meet the hypotheses of `Obligations.TransferEngineServesItsQueue`. -/
theorem witness_TransferEngineServesItsQueue :
  (sample96.flits = []) ∧
  (tcd.skipped = none) ∧
  (sample97.core.engineRuns = true) ∧
  (sample97.core.xstop = none) ∧
  (sample98.done = false) ∧
  (sample97.core.needDone sample98.need = true) ∧
  (stenb.core.engineRuns = true) ∧
  (stenb.core.xstop = none) ∧
  (tco.done = false) ∧
  (stenb.core.needDone tco.need = true) ∧
  (tco.rows = 0) ∧
  (tco.skipped = none) ∧
  ((stenb.core.viewOf (one 768) false).fmt = Fmt.fp32) ∧
  ((stenb.core.viewOf (one 768) false).code = 1) ∧
  ((stenb.core.viewOf (one 768) false).vrows = 1) ∧
  ((stenb.core.viewOf (one 768) false).vcols = 1) ∧
  (stenb.core.lsBad = []) ∧
  (stenb.race = []) ∧
  (stenb.core.stores = []) ∧
  (bits (BitVec.ofNat 64 (2 ^ 47 + 4 * 2 ^ 30)) 63 61 = 0) ∧
  ((BitVec.ofNat 64 (2 ^ 47 + 4 * 2 ^ 30)).getLsbD 60 = false) ∧
  ((65792#64).toNat % 4 = 0) ∧
  (mapped stenb (65792#64) true = some (mp.1, mp.2)) ∧
  (BitVec.getLsbD mp.2 4 = false) ∧
  (1 ≤ 3) ∧
  (((withQueue [tci]).core.xq.get (2#2).toFin).head? = some tci) ∧
  (tci.timed = false) ∧
  ((withQueue [tci]).core.stores = []) ∧
  ((withQueue [tci]).core.engineRuns = true) ∧
  ((withQueue [tci]).core.xstop = none) ∧
  (tci.done = false) ∧
  ((withQueue [tci]).core.needDone tci.need = true) ∧
  (tci.rows = 0) ∧
  (tci.skipped = none) ∧
  (((withQueue [tci]).core.viewOf (one 768) false).fmt = Fmt.fp32) ∧
  (((withQueue [tci]).core.viewOf (one 768) false).code = 1) ∧
  (((withQueue [tci]).core.viewOf (one 768) false).vrows = 1) ∧
  (((withQueue [tci]).core.viewOf (one 768) false).vcols = 1) ∧
  ((withQueue [tci]).core.lsBad = []) ∧
  ((withQueue [tci]).race = []) ∧
  (((mapped (withQueue [tci]) (65792#64) false).any fun p => !p.2.getLsbD 4) = true) ∧
  (((rootless (withQueue [tcol])).core.xq.get (2#2).toFin).head? = some tcol) ∧
  (tcol.timed = false) ∧
  ((rootless (withQueue [tcol])).core.stores = []) ∧
  ((rootless (withQueue [tcol])).core.engineRuns = true) ∧
  ((rootless (withQueue [tcol])).core.xstop = none) ∧
  (tcol.done = false) ∧
  ((rootless (withQueue [tcol])).core.needDone tcol.need = true) ∧
  (tcol.rows = 0) ∧
  (tcol.skipped = none) ∧
  (((rootless (withQueue [tcol])).core.viewOf (one 768) false).fmt = Fmt.fp32) ∧
  (((rootless (withQueue [tcol])).core.viewOf (one 768) false).code = 1) ∧
  (((rootless (withQueue [tcol])).core.viewOf (one 768) false).vrows = 1) ∧
  (((rootless (withQueue [tcol])).core.viewOf (one 768) false).vcols = 1) ∧
  ((rootless (withQueue [tcol])).core.lsBad = []) ∧
  ((rootless (withQueue [tcol])).race = []) ∧
  ((rootless (withQueue [tcol])).rootOk 21 (65792#64) = false) ∧
  ((rootless (withQueue [tcol])).core.xfaulted = false) ∧
  (((withQueue [tlease]).core.xq.get (2#2).toFin).head? = some tlease) ∧
  (tlease.timed = false) ∧
  ((withQueue [tlease]).core.stores = []) ∧
  ((withQueue [tlease]).core.engineRuns = true) ∧
  ((withQueue [tlease]).core.xstop = none) ∧
  (tlease.done = false) ∧
  ((withQueue [tlease]).core.needDone tlease.need = true) ∧
  (tlease.kind = .lease 0x10000 1024 7) ∧
  ((mapped (withQueue [tlease]) (BitVec.ofNat 64 0x10000) false).isSome = true) ∧
  ((setq [tcd, tcol] sttb).core.xq.get (2#2).toFin = [tcd, tcol]) ∧
  (tcd.timed = false) ∧
  ((setq [tcd, tcol] sttb).core.stores = []) ∧
  (tcd.done = true) ∧
  (∀ r ∈ [tcol], r.timed = false) ∧
  (postedBroken.flits = []) ∧
  (postedBroken.reach 21 22 (postAddress (BitVec.ofNat 64 (2^47 + 4*2^30 + 22 * 2^37))).toNat ≠ none) ∧
  (postedBroken.core.xfaulted = false) ∧
  (tco.done = false) ∧
  ({ tcd with skipped := some 9#64, kind := .free 9#64 }.kind.post = none) ∧
  (sttb.core.xfaulted = false) ∧
  ({ tcd with skipped := some 9#64, kind := .free 9#64 }.skipped = some 9#64) := by
  refine ⟨?_, ?_, ?_, ?_, ?_, ?_, ?_, ?_, ?_, ?_, ?_, ?_, ?_, ?_, ?_, ?_, ?_, ?_, ?_, ?_, ?_, ?_, ?_, ?_, ?_, ?_, ?_, ?_, ?_, ?_, ?_, ?_, ?_, ?_, ?_, ?_, ?_, ?_, ?_, ?_, ?_, ?_, ?_, ?_, ?_, ?_, ?_, ?_, ?_, ?_, ?_, ?_, ?_, ?_, ?_, ?_, ?_, ?_, ?_, ?_, ?_, ?_, ?_, ?_, ?_, ?_, ?_, ?_, ?_, ?_, ?_, ?_, ?_, ?_, ?_, ?_, ?_, ?_, ?_⟩ <;> decide +kernel

/-- A state and operands that meet the hypotheses of `Obligations.RoodEngine`, part 1. -/
theorem witness_RoodInstructionsQueueTheirCommand :
  ((sg 5).core.memc = false) ∧
  ((sg 5).issues { plainForm with phase := Phase.compute, soff := gm0.soff } xg = true) ∧
  (((sg 5).core.gq.get (2#2).toFin).length < 8) ∧
  (cwOk RoodOp.convert ((sg 5).core.value (passArgs xg (sg 5).core.sys.repst).b) = false) ∧
  (sgt.core.memc = false) ∧
  (sgt.issues { plainForm with phase := Phase.compute, soff := gm0.soff } xgt = true) ∧
  ((sgt.core.gq.get (2#2).toFin).length < 8) ∧
  ((passArgs xgt sgt.core.sys.repst).b = Operand.imm 1#15) ∧
  (BitVec.toNat (sgt.core.value (passArgs xgt sgt.core.sys.repst).a) % 128 = 0) ∧
  (BitVec.toNat (sgt.core.value (passArgs xgt sgt.core.sys.repst).a) < 2097152) ∧
  (sgt.core.mq = []) ∧
  (sgt.core.stores = []) ∧
  (sgt.race = []) ∧
  (sgt.core.lsBad = []) ∧
  (parseTable (sgt.core.lsBytes (BitVec.toNat (sgt.core.value (passArgs xgt sgt.core.sys.repst).a)) 128) = some stn) ∧
  (sgT.core.memc = false) ∧
  (sgT.issues { plainForm with phase := Phase.compute, soff := gm0.soff } xg = true) ∧
  ((sgT.core.gq.get (2#2).toFin).length < 8) ∧
  (cwOk RoodOp.prolong (sgT.core.value (passArgs xg sgT.core.sys.repst).b) = true ∧ sgT.core.streams = [] ∧ roodShapeOk RoodOp.prolong (sgT.core.roodView (sgT.core.tileOf (passArgs xg sgT.core.sys.repst).d) (cwOvd (sgT.core.value (passArgs xg sgT.core.sys.repst).b))) (sgT.core.roodView (sgT.core.tileOf (passArgs xg sgT.core.sys.repst).a) (cwOvs (sgT.core.value (passArgs xg sgT.core.sys.repst).b))) (sgT.core.viewOf (sgT.core.tile (cwMtile (sgT.core.value (passArgs xg sgT.core.sys.repst).b))) false) (sgT.core.value (passArgs xg sgT.core.sys.repst).b) = true ∧ cwFmtOk (sgT.core.value (passArgs xg sgT.core.sys.repst).b) = true ∧ (sgT.core.roodView (sgT.core.tileOf (passArgs xg sgT.core.sys.repst).d) (cwOvd (sgT.core.value (passArgs xg sgT.core.sys.repst).b))).code ≠ 0 ∧ (sgT.core.roodView (sgT.core.tileOf (passArgs xg sgT.core.sys.repst).a) (cwOvs (sgT.core.value (passArgs xg sgT.core.sys.repst).b))).code ≠ 0 ∧ sgT.core.mirrorOk (sgT.core.roodView (sgT.core.tileOf (passArgs xg sgT.core.sys.repst).d) (cwOvd (sgT.core.value (passArgs xg sgT.core.sys.repst).b))) = true ∧ sgT.core.mirrorOk (sgT.core.roodView (sgT.core.tileOf (passArgs xg sgT.core.sys.repst).a) (cwOvs (sgT.core.value (passArgs xg sgT.core.sys.repst).b))) = true ∧ (cwMen (sgT.core.value (passArgs xg sgT.core.sys.repst).b) = true → (sgT.core.viewOf (sgT.core.tile (cwMtile (sgT.core.value (passArgs xg sgT.core.sys.repst).b))) false).fmt = Fmt.m1 ∧ sgT.core.mirrorOk (sgT.core.viewOf (sgT.core.tile (cwMtile (sgT.core.value (passArgs xg sgT.core.sys.repst).b))) false) = true)) ∧
  (isOk ((sgT.begun { plainForm with phase := Phase.compute, soff := gm0.soff } xg).bookRood (RoodKind.prolong (sgT.core.roodView (sgT.core.tileOf (passArgs xg sgT.core.sys.repst).d) (cwOvd (sgT.core.value (passArgs xg sgT.core.sys.repst).b))).shape (sgT.core.roodView (sgT.core.tileOf (passArgs xg sgT.core.sys.repst).a) (cwOvs (sgT.core.value (passArgs xg sgT.core.sys.repst).b))).shape (sgT.core.viewOf (sgT.core.tile (cwMtile (sgT.core.value (passArgs xg sgT.core.sys.repst).b))) false).shape (sgT.core.value (passArgs xg sgT.core.sys.repst).b)) (sgT.core.roodView (sgT.core.tileOf (passArgs xg sgT.core.sys.repst).d) (cwOvd (sgT.core.value (passArgs xg sgT.core.sys.repst).b))) (sgT.core.roodView (sgT.core.tileOf (passArgs xg sgT.core.sys.repst).a) (cwOvs (sgT.core.value (passArgs xg sgT.core.sys.repst).b)) :: if cwMen (sgT.core.value (passArgs xg sgT.core.sys.repst).b) = true then [sgT.core.viewOf (sgT.core.tile (cwMtile (sgT.core.value (passArgs xg sgT.core.sys.repst).b))) false] else []) (if sgT.core.timed.active = true then (sgT.begun { plainForm with phase := Phase.compute, soff := gm0.soff } xg).core.now + gm0.soff.toNat else 0)) = true) ∧
  (cwOk RoodOp.convert (sgT.core.value (passArgs xg sgT.core.sys.repst).b) = true ∧ sgT.core.streams = [] ∧ roodShapeOk RoodOp.convert (sgT.core.roodView (sgT.core.tileOf (passArgs xg sgT.core.sys.repst).d) (cwOvd (sgT.core.value (passArgs xg sgT.core.sys.repst).b))) (sgT.core.roodView (sgT.core.tileOf (passArgs xg sgT.core.sys.repst).a) (cwOvs (sgT.core.value (passArgs xg sgT.core.sys.repst).b))) (sgT.core.viewOf (sgT.core.tile (cwMtile (sgT.core.value (passArgs xg sgT.core.sys.repst).b))) false) (sgT.core.value (passArgs xg sgT.core.sys.repst).b) = true ∧ cwFmtOk (sgT.core.value (passArgs xg sgT.core.sys.repst).b) = true ∧ (sgT.core.roodView (sgT.core.tileOf (passArgs xg sgT.core.sys.repst).d) (cwOvd (sgT.core.value (passArgs xg sgT.core.sys.repst).b))).code ≠ 0 ∧ (sgT.core.roodView (sgT.core.tileOf (passArgs xg sgT.core.sys.repst).a) (cwOvs (sgT.core.value (passArgs xg sgT.core.sys.repst).b))).code ≠ 0 ∧ sgT.core.mirrorOk (sgT.core.roodView (sgT.core.tileOf (passArgs xg sgT.core.sys.repst).d) (cwOvd (sgT.core.value (passArgs xg sgT.core.sys.repst).b))) = true ∧ sgT.core.mirrorOk (sgT.core.roodView (sgT.core.tileOf (passArgs xg sgT.core.sys.repst).a) (cwOvs (sgT.core.value (passArgs xg sgT.core.sys.repst).b))) = true ∧ (cwMen (sgT.core.value (passArgs xg sgT.core.sys.repst).b) = true → (sgT.core.viewOf (sgT.core.tile (cwMtile (sgT.core.value (passArgs xg sgT.core.sys.repst).b))) false).fmt = Fmt.m1 ∧ sgT.core.mirrorOk (sgT.core.viewOf (sgT.core.tile (cwMtile (sgT.core.value (passArgs xg sgT.core.sys.repst).b))) false) = true)) ∧
  (isOk ((sgT.begun { plainForm with phase := Phase.compute, soff := gm0.soff } xg).bookRood (RoodKind.convert (sgT.core.roodView (sgT.core.tileOf (passArgs xg sgT.core.sys.repst).d) (cwOvd (sgT.core.value (passArgs xg sgT.core.sys.repst).b))).shape (sgT.core.roodView (sgT.core.tileOf (passArgs xg sgT.core.sys.repst).a) (cwOvs (sgT.core.value (passArgs xg sgT.core.sys.repst).b))).shape (sgT.core.viewOf (sgT.core.tile (cwMtile (sgT.core.value (passArgs xg sgT.core.sys.repst).b))) false).shape (sgT.core.value (passArgs xg sgT.core.sys.repst).b)) (sgT.core.roodView (sgT.core.tileOf (passArgs xg sgT.core.sys.repst).d) (cwOvd (sgT.core.value (passArgs xg sgT.core.sys.repst).b))) (sgT.core.roodView (sgT.core.tileOf (passArgs xg sgT.core.sys.repst).a) (cwOvs (sgT.core.value (passArgs xg sgT.core.sys.repst).b)) :: if cwMen (sgT.core.value (passArgs xg sgT.core.sys.repst).b) = true then [sgT.core.viewOf (sgT.core.tile (cwMtile (sgT.core.value (passArgs xg sgT.core.sys.repst).b))) false] else []) (if sgT.core.timed.active = true then (sgT.begun { plainForm with phase := Phase.compute, soff := gm0.soff } xg).core.now + gm0.soff.toNat else 0)) = true) ∧
  (sgm.core.memc = false) ∧
  (sgm.issues { plainForm with phase := Phase.compute, soff := gm0.soff } xg = true) ∧
  ((sgm.core.gq.get (2#2).toFin).length < 8) ∧
  (cwOk RoodOp.restrict (sgm.core.value (passArgs xg sgm.core.sys.repst).b) = true ∧ sgm.core.streams = [] ∧ roodShapeOk RoodOp.restrict (sgm.core.roodView (sgm.core.tileOf (passArgs xg sgm.core.sys.repst).d) (cwOvd (sgm.core.value (passArgs xg sgm.core.sys.repst).b))) (sgm.core.roodView (sgm.core.tileOf (passArgs xg sgm.core.sys.repst).a) (cwOvs (sgm.core.value (passArgs xg sgm.core.sys.repst).b))) (sgm.core.viewOf (sgm.core.tile (cwMtile (sgm.core.value (passArgs xg sgm.core.sys.repst).b))) false) (sgm.core.value (passArgs xg sgm.core.sys.repst).b) = true ∧ cwFmtOk (sgm.core.value (passArgs xg sgm.core.sys.repst).b) = true ∧ (sgm.core.roodView (sgm.core.tileOf (passArgs xg sgm.core.sys.repst).d) (cwOvd (sgm.core.value (passArgs xg sgm.core.sys.repst).b))).code ≠ 0 ∧ (sgm.core.roodView (sgm.core.tileOf (passArgs xg sgm.core.sys.repst).a) (cwOvs (sgm.core.value (passArgs xg sgm.core.sys.repst).b))).code ≠ 0 ∧ sgm.core.mirrorOk (sgm.core.roodView (sgm.core.tileOf (passArgs xg sgm.core.sys.repst).d) (cwOvd (sgm.core.value (passArgs xg sgm.core.sys.repst).b))) = true ∧ sgm.core.mirrorOk (sgm.core.roodView (sgm.core.tileOf (passArgs xg sgm.core.sys.repst).a) (cwOvs (sgm.core.value (passArgs xg sgm.core.sys.repst).b))) = true ∧ (cwMen (sgm.core.value (passArgs xg sgm.core.sys.repst).b) = true → (sgm.core.viewOf (sgm.core.tile (cwMtile (sgm.core.value (passArgs xg sgm.core.sys.repst).b))) false).fmt = Fmt.m1 ∧ sgm.core.mirrorOk (sgm.core.viewOf (sgm.core.tile (cwMtile (sgm.core.value (passArgs xg sgm.core.sys.repst).b))) false) = true)) ∧
  (isOk ((sgm.begun { plainForm with phase := Phase.compute, soff := gm0.soff } xg).bookRood (RoodKind.restrict (sgm.core.roodView (sgm.core.tileOf (passArgs xg sgm.core.sys.repst).d) (cwOvd (sgm.core.value (passArgs xg sgm.core.sys.repst).b))).shape (sgm.core.roodView (sgm.core.tileOf (passArgs xg sgm.core.sys.repst).a) (cwOvs (sgm.core.value (passArgs xg sgm.core.sys.repst).b))).shape (sgm.core.viewOf (sgm.core.tile (cwMtile (sgm.core.value (passArgs xg sgm.core.sys.repst).b))) false).shape (sgm.core.value (passArgs xg sgm.core.sys.repst).b)) (sgm.core.roodView (sgm.core.tileOf (passArgs xg sgm.core.sys.repst).d) (cwOvd (sgm.core.value (passArgs xg sgm.core.sys.repst).b))) (sgm.core.roodView (sgm.core.tileOf (passArgs xg sgm.core.sys.repst).a) (cwOvs (sgm.core.value (passArgs xg sgm.core.sys.repst).b)) :: if cwMen (sgm.core.value (passArgs xg sgm.core.sys.repst).b) = true then [sgm.core.viewOf (sgm.core.tile (cwMtile (sgm.core.value (passArgs xg sgm.core.sys.repst).b))) false] else []) (if sgm.core.timed.active = true then (sgm.begun { plainForm with phase := Phase.compute, soff := gm0.soff } xg).core.now + gm0.soff.toNat else 0)) = true) ∧
  (sgt.core.timed.active = false) ∧
  ((tm sgt).core.memc = false) ∧
  ((tm sgt).issues { plainForm with phase := Phase.compute, soff := gm0.soff } xgt = true) ∧
  (((tm sgt).core.gq.get (2#2).toFin).length < 8) ∧
  ((passArgs xgt (tm sgt).core.sys.repst).b = Operand.imm 1#15) ∧
  (BitVec.toNat ((tm sgt).core.value (passArgs xgt (tm sgt).core.sys.repst).a) % 128 = 0) ∧
  (BitVec.toNat ((tm sgt).core.value (passArgs xgt (tm sgt).core.sys.repst).a) < 2097152) ∧
  ((tm sgt).core.mq = []) ∧
  ((tm sgt).core.stores = []) ∧
  ((tm sgt).race = []) ∧
  ((tm sgt).core.lsBad = []) ∧
  (parseTable ((tm sgt).core.lsBytes (BitVec.toNat ((tm sgt).core.value (passArgs xgt (tm sgt).core.sys.repst).a)) 128) = some stn) ∧
  ((tm sgt).core.weakAt (BitVec.toNat ((tm sgt).core.value (passArgs xgt (tm sgt).core.sys.repst).a)) 128 = false) ∧
  (isOk (((tm sgt).begun { plainForm with phase := Phase.compute, soff := gm0.soff } xgt).lineAccess [bytesExtent (BitVec.toNat ((tm sgt).core.value (passArgs xgt (tm sgt).core.sys.repst).a)) 128] 0 false 0) = true) := by
  refine ⟨?_, ?_, ?_, ?_, ?_, ?_, ?_, ?_, ?_, ?_, ?_, ?_, ?_, ?_, ?_, ?_, ?_, ?_, ?_, ?_, ?_, ?_, ?_, ?_, ?_, ?_, ?_, ?_, ?_, ?_, ?_, ?_, ?_, ?_, ?_, ?_, ?_, ?_, ?_, ?_, ?_⟩ <;> decide +kernel

/-- A state and operands that meet the hypotheses of `Obligations.RoodEngine`, part 2. -/
theorem witness_RoodEngineServesItsQueue :
  (sample99.timed = false) ∧
  (sample99.seen = []) ∧
  (cwH (BitVec.ofNat 64 (cw 0)) = 0) ∧
  (cwNzs (BitVec.ofNat 64 (cw 0)) = 1) ∧
  (cwNzd (BitVec.ofNat 64 (cw 0)) = 1) ∧
  (cwMen (BitVec.ofNat 64 (cw 0)) = false) ∧
  (sgr2.core.lsBad = []) ∧
  (sgr2.race = []) ∧
  (sgr2.core.ls.wf = true) ∧
  (recRows (one 768) = 1) ∧
  (recVrows (one 768) = 1) ∧
  (recVcols (one 768) = 1) ∧
  (recRows (one 256) = 1) ∧
  (recVrows (one 256) = 1) ∧
  (recVcols (one 256) = 1) ∧
  (sample100.done = true) ∧
  (sample99.kind = RoodKind.table 1 stn) ∧
  (sample99.done = false) ∧
  (sample101.core.engineRuns = true) ∧
  (sample101.core.xstop = none) ∧
  (sample101.core.needDone sample99.need = true) ∧
  (sample101.roodNext sample101.core.die = some (sample101.core.num, (2#2).toNat)) ∧
  (sample101.core.gq.get (2#2).toFin = [sample99]) ∧
  (∀ r ∈ ([] : List Rood), r.timed = false ∧ r.id ≠ sample99.id) ∧
  (pointTable.core.gt[cwTab (BitVec.ofNat 64 (cw 0))]? = some ⟨1, false, [pointEntry]⟩) ∧
  (pointEntry.dz = 0) ∧
  (pointEntry.dy = 0) ∧
  (pointEntry.dx = 0) ∧
  (cwAdd (BitVec.ofNat 64 (cw 0)) = false) ∧
  (pointTable.core.lsBad = []) ∧
  (pointTable.race = []) ∧
  (Mem.wf pointTable.core.ls = true) := by
  refine ⟨?_, ?_, ?_, ?_, ?_, ?_, ?_, ?_, ?_, ?_, ?_, ?_, ?_, ?_, ?_, ?_, ?_, ?_, ?_, ?_, ?_, ?_, ?_, ?_, ?_, ?_, ?_, ?_, ?_, ?_, ?_, ?_⟩ <;> decide +kernel

/-- A state and operands that meet the hypotheses of `Obligations.EventInstructions`. -/
theorem witness_EventInstructions :
  (sample102.issuesFree freeForm (xe 4 63) = true) ∧
  (sample102.core.settled = false) ∧
  (specialIndex (xe 4 63).a < 64) ∧
  (specialSub (xe 4 63).a ≠ 2) ∧
  ((srr 0 3 sev).issuesFree freeForm (xe 2 5) = true) ∧
  ((srr 0 3 sev).core.settled = true) ∧
  (specialIndex (xe 2 5).a < 64) ∧
  (specialSub (xe 2 5).a = 2) ∧
  (1 ≤ BitVec.toNat ((srr 0 3 sev).core.value (xe 2 5).b)) ∧
  (BitVec.toNat ((srr 0 3 sev).core.value (xe 2 5).b) ≤ 2 ^ 31) ∧
  ((srr 0 0 sev).issuesFree freeForm (xe 4 5) = true) ∧
  (BitVec.toNat ((srr 0 0 sev).core.value (xe 4 5).b) = 0 ∨ 2 ^ 31 < BitVec.toNat ((srr 0 0 sev).core.value (xe 4 5).b)) ∧
  (sample103.issuesFree freeForm xep = true) ∧
  (BitVec.toNat (sample103.core.value xep.a) % 8 = 0) ∧
  ((sample103.clock xep.head).eventAddr (sample103.core.value xep.a) = some ev7) ∧
  (ev7.cls = 0) ∧
  (ev7.word = 0) ∧
  (ev7.latch = sample103.core.latch) ∧
  (sample103.core.settled = true) ∧
  (sample103.reach sample103.core.die (ev7.latch / 2) (BitVec.toNat (sample103.core.value xep.a)) = none) ∧
  ((srr 0 3 sev).core.wait = Wait.none) ∧
  ((srr 0 3 sev).core.wake = none) ∧
  (((((srr 0 3 sev).latch (srr 0 3 sev).core.latch).line (specialIndex (xe 2 5).a)).count - if true = true then BitVec.setWidth 32 ((srr 0 3 sev).core.value (xe 2 5).b) else (((srr 0 3 sev).latch (srr 0 3 sev).core.latch).line (specialIndex (xe 2 5).a)).target).toNat < 2 ^ 31) ∧
  ((srr 0 30 sev).issuesFree freeForm (xe 2 5) = true) ∧
  ((srr 0 30 sev).core.wait = Wait.none) ∧
  ((srr 0 30 sev).core.wake = none) ∧
  (2 ^ 31 ≤ ((((srr 0 30 sev).latch (srr 0 30 sev).core.latch).line (specialIndex (xe 2 5).a)).count - if false = true then BitVec.setWidth 32 ((srr 0 30 sev).core.value (xe 2 5).b) else (((srr 0 30 sev).latch (srr 0 30 sev).core.latch).line (specialIndex (xe 2 5).a)).target).toNat) := by
  refine ⟨?_, ?_, ?_, ?_, ?_, ?_, ?_, ?_, ?_, ?_, ?_, ?_, ?_, ?_, ?_, ?_, ?_, ?_, ?_, ?_, ?_, ?_, ?_, ?_, ?_, ?_, ?_⟩ <;> decide +kernel

/-- A state and operands that meet the hypotheses of `Obligations.Barriers`, part 1. -/
theorem witness_BarrierArrivals :
  (sample104.issuesFree freeForm (xb 3 4) = true) ∧
  ((4#6).toNat < 16) ∧
  (sample104.core.settled = true) ∧
  (BitVec.getLsbD sample104.core.sys.barst 0 = false) ∧
  ((sample104.bar sample104.core (BarRef.object sample104.core.latch (4#6).toNat)).e ≠ 0) ∧
  ((sample104.bar sample104.core (BarRef.object sample104.core.latch (4#6).toNat)).timed = 0) ∧
  ((sample104.bar sample104.core (BarRef.object sample104.core.latch (4#6).toNat)).a + 1 ≠ (sample104.bar sample104.core (BarRef.object sample104.core.latch (4#6).toNat)).e) ∧
  (sample105.issuesFree freeForm (xb 3 4) = true) ∧
  (sample105.core.settled = true) ∧
  (BitVec.getLsbD sample105.core.sys.barst 0 = false) ∧
  ((sample105.bar sample105.core (BarRef.object sample105.core.latch (4#6).toNat)).e ≠ 0) ∧
  ((sample105.bar sample105.core (BarRef.object sample105.core.latch (4#6).toNat)).timed = 0) ∧
  ((sample105.bar sample105.core (BarRef.object sample105.core.latch (4#6).toNat)).a + 1 = (sample105.bar sample105.core (BarRef.object sample105.core.latch (4#6).toNat)).e) ∧
  (sample106.issuesFree freeForm (xb 3 4) = true) ∧
  (sample106.core.settled = true) ∧
  (BitVec.getLsbD sample106.core.sys.barst 0 = false) ∧
  ((sample106.bar sample106.core (BarRef.object sample106.core.latch (4#6).toNat)).e = 0) ∧
  ((sample106.bar sample106.core (BarRef.object sample106.core.latch (4#6).toNat)).a = 0) ∧
  (∀ s ∈ [sample104, sample105, sample106], s.core.arrived = false ∧ s.core.num < 8) := by
  refine ⟨?_, ?_, ?_, ?_, ?_, ?_, ?_, ?_, ?_, ?_, ?_, ?_, ?_, ?_, ?_, ?_, ?_, ?_, ?_⟩ <;> decide +kernel

/-- A state and operands that meet the hypotheses of `Obligations.Barriers`, part 2. -/
theorem witness_TimedBarrierAndBwait :
  (nb.issuesFree freeForm (xb 3 4) = true) ∧
  (s0.issuesFree freeForm (xb 2 (24 + 2)) = true) ∧
  (BitVec.getLsbD s0.core.sys.barst 0 = false) ∧
  ((sbr true s0).issuesFree freeForm (xb 2 (24 + 2)) = true) ∧
  (BitVec.getLsbD (sbr true s0).core.sys.barst 0 = true) ∧
  ((sbr true s0).core.wake = none) ∧
  (((sbr true s0).bar (sbr true s0).core (barstRef (sbr true s0).core.sys.barst)).phase = BitVec.getLsbD (sbr true s0).core.sys.barst 8) ∧
  ((sbr false s0).issuesFree freeForm (xb 2 (24 + 2)) = true) ∧
  (BitVec.getLsbD (sbr false s0).core.sys.barst 0 = true) ∧
  ((sbr false s0).core.wake = none) ∧
  (((sbr false s0).bar (sbr false s0).core (barstRef (sbr false s0).core.sys.barst)).phase ≠ BitVec.getLsbD (sbr false s0).core.sys.barst 8) ∧
  (∀ s ∈ [nb, s0, sbr true s0, sbr false s0], s.core.arrived = false) ∧
  (s0.core.memc = false) ∧
  (s0.core.settled = true) ∧
  (s0.core.enginesIdle = true) ∧
  ((26#6).toNat / 8 = 3) ∧
  ((s0.bar s0.core (.scope 3 2)).e = s0.fieldCount) ∧
  ((s0.bar s0.core (.scope 3 2)).a + 1 = (s0.bar s0.core (.scope 3 2)).e) ∧
  ((s0.bar s0.core (.scope 3 2)).timed = (s0.bar s0.core (.scope 3 2)).a) := by
  refine ⟨?_, ?_, ?_, ?_, ?_, ?_, ?_, ?_, ?_, ?_, ?_, ?_, ?_, ?_, ?_, ?_, ?_, ?_, ?_⟩ <;> decide +kernel

/-- A state and operands that meet the hypotheses of `Obligations.MutexInstructions`. -/
theorem witness_MutexInstructions :
  (sample107.issuesFree mutexForm (xb 3 4) = true) ∧
  (sample107.core.wake = none) ∧
  (∀ (i : ℕ), sample107.core.field = some i → (sample107.fieldAt i).replayMode = 0) ∧
  (specialIndex (xb 3 4).a < 16) ∧
  (((sample107.latch sample107.core.latch).mutex (specialIndex (xb 3 4).a)).holder = some (sample107.core.num % 4)) ∧
  (sample107.core.settled = true) ∧
  (((sample107.latch sample107.core.latch).mutex (specialIndex (xb 3 4).a)).waiters = []) ∧
  (sample108.issuesFree mutexForm (xb 3 4) = true) ∧
  (sample108.core.wake = none) ∧
  (∀ (i : ℕ), sample108.core.field = some i → (sample108.fieldAt i).replayMode = 0) ∧
  (((sample108.latch sample108.core.latch).mutex (specialIndex (xb 3 4).a)).holder = none) ∧
  (((sample108.latch sample108.core.latch).mutex (specialIndex (xb 3 4).a)).waiters = []) ∧
  (((sample108.latch sample108.core.latch).mutex (specialIndex (xb 3 4).a)).holder ≠ some (sample108.core.num % 4)) ∧
  (sample108.core.settled = true) ∧
  (sample109.issuesFree mutexForm (xb 3 4) = true) ∧
  (sample109.core.wake = none) ∧
  (∀ (i : ℕ), sample109.core.field = some i → (sample109.fieldAt i).replayMode = 0) ∧
  (((sample109.latch sample109.core.latch).mutex (specialIndex (xb 3 4).a)).holder = some 2) ∧
  (2 ≠ sample109.core.num % 4) ∧
  (((sample109.latch sample109.core.latch).mutex (specialIndex (xb 3 4).a)).waiters.contains (sample109.core.num % 4) = false) ∧
  (sample110.issuesFree mutexForm (xb 3 4) = true) ∧
  (sample110.core.wake = none) ∧
  (∀ (i : ℕ), sample110.core.field = some i → (sample110.fieldAt i).replayMode = 0) ∧
  (((sample110.latch sample110.core.latch).mutex (specialIndex (xb 3 4).a)).holder = some (someOr 0 ((sample110.latch sample110.core.latch).mutex (specialIndex (xb 3 4).a)).holder)) ∧
  (someOr 0 ((sample110.latch sample110.core.latch).mutex (specialIndex (xb 3 4).a)).holder ≠ sample110.core.num % 4) ∧
  (((sample110.latch sample110.core.latch).mutex (specialIndex (xb 3 4).a)).waiters.contains (sample110.core.num % 4) = false) ∧
  (sample111.issuesFree mutexForm (xb 3 4) = true) ∧
  (sample111.core.wake = none) ∧
  (∀ (i : ℕ), sample111.core.field = some i → (sample111.fieldAt i).replayMode = 0) ∧
  (((sample111.latch sample111.core.latch).mutex (specialIndex (xb 3 4).a)).holder = some (sample111.core.num % 4)) ∧
  (sample111.core.settled = true) ∧
  (((sample111.latch sample111.core.latch).mutex (specialIndex (xb 3 4).a)).waiters = [1, 2]) ∧
  (sample111.coreAt sample111.core.latch 1 = some k1) ∧
  (∀ (i : ℕ), k1.field = some i → (sample111.fieldAt i).replayMode = 0) := by
  refine ⟨?_, ?_, ?_, ?_, ?_, ?_, ?_, ?_, ?_, ?_, ?_, ?_, ?_, ?_, ?_, ?_, ?_, ?_, ?_, ?_, ?_, ?_, ?_, ?_, ?_, ?_, ?_, ?_, ?_, ?_, ?_, ?_, ?_, ?_⟩ <;> decide +kernel

/-- A state and operands that meet the hypotheses of `Obligations.Collectives`, part 1. -/
theorem witness_CollectiveInstructions :
  (sample112.issuesFree freeForm xcc = true) ∧
  (sample112.core.coll (BitVec.toNat (sample112.core.value xcc.b)) = some (oc 0 0)) ∧
  (sample112.openOf sample112.core (BitVec.toNat (sample112.core.value xcc.b)) = some 0) ∧
  (sample112.colls[0]? = some sample113) ∧
  (BitVec.toNat (sample112.core.value xcc.b) < 256) ∧
  (BitVec.toNat (sample112.core.value xcc.a) % 64 = 0) ∧
  (BitVec.toNat (sample112.core.value xcc.a) < 2097152) ∧
  (sample113.aborted = true) ∧
  (scjf.issuesFree freeForm xcc = true) ∧
  (scjf.core.coll (BitVec.toNat (scjf.core.value xcc.b)) = some (oc 0 0)) ∧
  (scjf.openOf scjf.core (BitVec.toNat (scjf.core.value xcc.b)) = some 0) ∧
  (scjf.colls[0]? = some (K3 scjf)) ∧
  (BitVec.toNat (scjf.core.value xcc.b) < 256) ∧
  (BitVec.toNat (scjf.core.value xcc.a) % 64 = 0) ∧
  (BitVec.toNat (scjf.core.value xcc.a) < 2097152) ∧
  ((K3 scjf).aborted = false) ∧
  ((oc 0 0).injected < bits (oc 0 0).desc 33 18) ∧
  (4 ≤ (scjf.clock xcc.head).settleChain.core.cqin.length) ∧
  ((oc 0 0).popped = 0) ∧
  (scjf.core.wideBank (BitVec.toNat (scjf.core.value xcc.a)) = false ∨ collFmt (oc 0 0).desc = Fmt.af56 ∨ collFmt (oc 0 0).desc = Fmt.ai56) ∧
  ((K3 scjf).result (oc 0 0).extracted = none) ∧
  (sample114.issuesFree freeForm xcc = true) ∧
  (sample114.core.coll (BitVec.toNat (sample114.core.value xcc.b)) = some (oc 1 1)) ∧
  (sample114.openOf sample114.core (BitVec.toNat (sample114.core.value xcc.b)) = some 0) ∧
  (sample114.colls[0]? = some sample115) ∧
  (BitVec.toNat (sample114.core.value xcc.b) < 256) ∧
  (BitVec.toNat (sample114.core.value xcc.a) % 64 = 0) ∧
  (BitVec.toNat (sample114.core.value xcc.a) < 2097152) ∧
  (sample115.aborted = false) ∧
  ((oc 1 1).injected < bits (oc 1 1).desc 33 18) ∧
  ((sample114.clock xcc.head).settleChain.core.cqin.length < 4) ∧
  (quietCore (sample114.clock xcc.head).settleChain.core) ∧
  ((sample114.clock xcc.head).settleChain.race = []) ∧
  ((oc 1 1).popped = 0) ∧
  (sample114.core.wideBank (BitVec.toNat (sample114.core.value xcc.a)) = false ∨ collFmt (oc 1 1).desc = Fmt.af56 ∨ collFmt (oc 1 1).desc = Fmt.ai56) ∧
  (quietCore sample114.core) ∧
  (sample114.race = []) ∧
  ((((sample114.clock xcc.head).fillCqout 4).core.coll (BitVec.toNat (sample114.core.value xcc.b))).isSome = true) ∧
  ((sample115.result (someOr dOpenColl (((sample114.clock xcc.head).fillCqout 4).core.coll (BitVec.toNat (sample114.core.value xcc.b)))).extracted).isSome = true) ∧
  ((someOr dOpenColl (((sample114.clock xcc.head).fillCqout 4).core.coll (BitVec.toNat (sample114.core.value xcc.b)))).extracted < (someOr dOpenColl (((sample114.clock xcc.head).fillCqout 4).core.coll (BitVec.toNat (sample114.core.value xcc.b)))).delivered) ∧
  (sample116.issuesFree freeForm xcc = true) ∧
  (descOk (sample116.core.value xcc.a) = false) ∧
  (sample117.issuesFree freeForm xcc = true) ∧
  (sample117.core.coll (BitVec.toNat (sample117.core.value xcc.a)) = some (oc 0 0)) ∧
  (sample117.openOf sample117.core (BitVec.toNat (sample117.core.value xcc.a)) = some 0) ∧
  (sample117.colls[0]? = some sample118) ∧
  (sample118.aborted = true) ∧
  (sample119.issuesFree freeForm xcc = true) ∧
  (descOk (sample119.core.value xcc.a) = true) ∧
  (sample119.core.colls.length < 8) ∧
  (sample119.core.coll (bits (sample119.core.value xcc.a) 7 0) = none) ∧
  (∀ k ∈ sample119.colls, k.ctx ≠ sample119.core.ctx ∨ k.id ≠ bits (sample119.core.value xcc.a) 7 0) ∧
  (sample120.issuesFree freeForm xcc = true) ∧
  (sample120.core.coll (BitVec.toNat (sample120.core.value xcc.a)) = some (oc 2 2)) ∧
  (sample120.openOf sample120.core (BitVec.toNat (sample120.core.value xcc.a)) = some 0) ∧
  (sample120.colls[0]? = some sample121) ∧
  (sample121.aborted = false) ∧
  (bits (oc 2 2).desc 33 18 ≤ (oc 2 2).injected) ∧
  ((sample121.result (bits (oc 2 2).desc 33 18 - 1)).isSome = true) ∧
  (sample122.issuesFree freeForm xcc = true) ∧
  (sample122.core.coll (BitVec.toNat (sample122.core.value xcc.a)) = some (oc 2 0)) ∧
  (sample122.openOf sample122.core (BitVec.toNat (sample122.core.value xcc.a)) = some 0) ∧
  (sample122.colls[0]? = some sample123) ∧
  (sample123.aborted = false) ∧
  (bits (oc 2 0).desc 33 18 ≤ (oc 2 0).injected) ∧
  ((sample123.result (bits (oc 2 0).desc 33 18 - 1)).isSome = false) := by
  refine ⟨?_, ?_, ?_, ?_, ?_, ?_, ?_, ?_, ?_, ?_, ?_, ?_, ?_, ?_, ?_, ?_, ?_, ?_, ?_, ?_, ?_, ?_, ?_, ?_, ?_, ?_, ?_, ?_, ?_, ?_, ?_, by unfold quietCore; decide +kernel, ?_, ?_, ?_, by unfold quietCore; decide +kernel, ?_, ?_, ?_, ?_, ?_, ?_, ?_, ?_, ?_, ?_, ?_, ?_, ?_, ?_, ?_, ?_, ?_, ?_, ?_, ?_, ?_, ?_, ?_, ?_, ?_, ?_, ?_, ?_, ?_, ?_⟩ <;> decide +kernel

/-- A state and operands that meet the hypotheses of `Obligations.Collectives`, part 2. -/
theorem witness_ChainNodesCombine :
  (sparts.colls = [K3 sparts]) ∧
  ((K3 sparts).ctx = sparts.core.ctx) ∧
  ((K3 sparts).aborted = false) ∧
  (∀ c ∈ sparts.cores, c.cqin = []) ∧
  (∀ p ∈ (K3 sparts).parts, p.spill = none ∧ (p.node = 0 → 0 ≤ p.chunk)) ∧
  ((sparts.collPorts (K3 sparts) 0).isEmpty = false) ∧
  (sparts.partsAt (K3 sparts) 0 0 = some [wv 5, wv 6]) ∧
  (sparts.collRoot (K3 sparts) = some 0) ∧
  (scq.others = []) ∧
  (scq.colls = [K3 scq]) ∧
  (scq.core.cqin = [{ id := 7, chunk := 0, vals := wv 5 }]) ∧
  (∀ p ∈ (K3 scq).parts, p.spill = none) ∧
  (scq.openOf scq.core (7) = some 0) ∧
  (scq.chainPath scq.core.lcn = (sample124, sample125) :: sample126) ∧
  (scq.slotFree sample124 = true) ∧
  (200 ≠ (K3 scq).id) ∧
  (sparts2.colls = [K3 sparts2]) ∧
  ((K3 sparts2).ctx = sparts2.core.ctx) ∧
  ((K3 sparts2).aborted = false) ∧
  (∀ c ∈ sparts2.cores, c.cqin = []) ∧
  (∀ p ∈ (K3 sparts2).parts, p.spill = none ∧ (p.node = 0 → 0 ≤ p.chunk)) ∧
  ((sparts2.collPorts (K3 sparts2) 0).isEmpty = false) ∧
  (sparts2.partsAt (K3 sparts2) 0 0 = some [wv 5, wv 6]) ∧
  (sparts2.collRoot (K3 sparts2) ≠ some 0) ∧
  (sparts2.modState.chain[0]? = some cnode) ∧
  (sparts2.slotFree cnode.parent = true) ∧
  (sparts2.modState.chain[0]? = some (someOr dChainNode sparts2.modState.chain[0]?)) ∧
  (sparts2.slotFree (someOr dChainNode sparts2.modState.chain[0]?).parent = true) := by
  refine ⟨?_, ?_, ?_, ?_, ?_, ?_, ?_, ?_, ?_, ?_, ?_, ?_, ?_, ?_, ?_, ?_, ?_, ?_, ?_, ?_, ?_, ?_, ?_, ?_, ?_, ?_, ?_, ?_⟩ <;> decide +kernel

/-- A state and operands that meet the hypotheses of `Obligations.TimetableInstructions`, part 1. -/
theorem witness_PhaseAndCyc :
  (s0.issues { plainForm with alone := true } xcy = true) ∧
  (s0.core.timed.active = false) ∧
  (s0.issues plainForm xcy = true) ∧
  (sample127.issues { plainForm with alone := true } xcy = true) ∧
  (sample127.core.timed.active = true) ∧
  (sample127.issues plainForm xcy = true) := by
  refine ⟨?_, ?_, ?_, ?_, ?_, ?_⟩ <;> decide +kernel

/-- A state and operands that meet the hypotheses of `Obligations.TimetableInstructions`, part 2. -/
theorem witness_StaticFlits :
  (sfl0.issues FC xsd = true) ∧
  (((sfl0.begun FC xsd).core.view (passArgs xsd sfl0.core.sys.repst).d).shapeOk = true) ∧
  (denseTile ((sfl0.begun FC xsd).core.view (passArgs xsd sfl0.core.sys.repst).d) = true) ∧
  (sfl0.core.streams = []) ∧
  ((sfl0.begun FC xsd).routeArrives (sfl0.begun FC xsd).core (5#8).toNat = true) ∧
  (isOk ((sfl0.begun FC xsd).core.bookRecv ((sfl0.begun FC xsd).core.view (passArgs xsd sfl0.core.sys.repst).d) (5#8).toNat) = true) ∧
  (((sfl0.begun FC xsd).core.view (passArgs xsd sfl0.core.sys.repst).a).shapeOk = true) ∧
  (denseTile ((sfl0.begun FC xsd).core.view (passArgs xsd sfl0.core.sys.repst).a) = true) ∧
  (sfl0.core.lsBad = []) ∧
  ((sfl0.begun FC xsd).routeStarts (sfl0.begun FC xsd).core (5#8).toNat = true) ∧
  (isOk ((sfl0.begun FC xsd).core.bookSend (passArgs xsd sfl0.core.sys.repst) ((sfl0.begun FC xsd).core.view (passArgs xsd sfl0.core.sys.repst).a) (5#8).toNat) = true) ∧
  (s0.core.ganged = false) ∧
  (s0.preemptDue xsd.head = false) ∧
  (s0.core.skip = false) ∧
  (s0.core.guard xsd.head = true) ∧
  ((s0.core.timed.active && s0.core.timed.comm) = false) ∧
  (s0.core.timed.active = true → (s0.clock xsd.head).core.earlyScalar (Operand.p xsd.head.gp false) = false) ∧
  (sample128.act = LaneAct.take) ∧
  (∀ f ∈ ((sample129.modC fun c => { c with lanes := c.lanes.erase sample128 }).reachCycle sample128.cycle).core.rxbuf, f.route ≠ sample128.route) ∧
  (sample130.act = LaneAct.write sample131) ∧
  (sample132.flits = [fl 5300]) ∧
  ((fl 5300).copy = none) ∧
  ((fl 5300).lost = none) ∧
  (sample132.core.is (fl 5300).die (fl 5300).core = true) ∧
  (sample132.others = []) ∧
  (sample132.core.rxbuf = []) ∧
  ((List.find? (fun f => f.route == sample128.route) ((sample133.modC fun c => { c with lanes := c.lanes.erase sample128 }).reachCycle sample128.cycle).core.rxbuf).isSome = true) ∧
  (lse.act = LaneAct.send) ∧
  (((slse.modC fun c => { c with lanes := c.lanes.erase lse }).reachCycle lse.cycle).core.lsWeak = []) ∧
  (((slse.modC fun c => { c with lanes := c.lanes.erase lse }).reachCycle lse.cycle).core.lsBad = []) ∧
  (((slse.modC fun c => { c with lanes := c.lanes.erase lse }).reachCycle lse.cycle).flits = []) ∧
  (((slse.modC fun c => { c with lanes := c.lanes.erase lse }).reachCycle lse.cycle).routeWalk 520 lse.route ((slse.modC fun c => { c with lanes := c.lanes.erase lse }).reachCycle lse.cycle).core.die 4 = (slw.1, some (sample134, sample135))) ∧
  (∀ k ∈ slw.1, ((slse.modC fun c => { c with lanes := c.lanes.erase lse }).reachCycle lse.cycle).linkDown k = false) ∧
  ((((slse.modC fun c => { c with lanes := c.lanes.erase lse }).reachCycle lse.cycle).chip sample134).barred = false) ∧
  (sflBusy.issues FC xsd = true) ∧
  (((sflBusy.begun FC xsd).core.view (passArgs xsd sflBusy.core.sys.repst).d).shapeOk = true) ∧
  (denseTile ((sflBusy.begun FC xsd).core.view (passArgs xsd sflBusy.core.sys.repst).d) = true) ∧
  (sflBusy.core.streams = []) ∧
  ((sflBusy.begun FC xsd).routeArrives (sflBusy.begun FC xsd).core (5#8).toNat = true) ∧
  (((sflBusy.begun FC xsd).core.view (passArgs xsd sflBusy.core.sys.repst).a).shapeOk = true) ∧
  (denseTile ((sflBusy.begun FC xsd).core.view (passArgs xsd sflBusy.core.sys.repst).a) = true) ∧
  (sflBusy.core.lsBad = []) ∧
  ((sflBusy.begun FC xsd).routeStarts (sflBusy.begun FC xsd).core (5#8).toNat = true) ∧
  (isTiming ((sflBusy.begun FC xsd).core.bookSend (passArgs xsd sflBusy.core.sys.repst) ((sflBusy.begun FC xsd).core.view (passArgs xsd sflBusy.core.sys.repst).a) (5#8).toNat) = true) ∧
  (isTiming ((sflBusy.begun FC xsd).core.bookRecv ((sflBusy.begun FC xsd).core.view (passArgs xsd sflBusy.core.sys.repst).d) (5#8).toNat) = true) := by
  refine ⟨?_, ?_, ?_, ?_, ?_, ?_, ?_, ?_, ?_, ?_, ?_, ?_, ?_, ?_, ?_, ?_, ?_, ?_, ?_, ?_, ?_, ?_, ?_, ?_, ?_, ?_, ?_, ?_, ?_, ?_, ?_, ?_, ?_, ?_, ?_, ?_, ?_, ?_, ?_, ?_, ?_, ?_, ?_, ?_, ?_⟩ <;> decide +kernel

/-- A state and operands that meet the hypotheses of `Obligations.RollbackAndRelease`, part 1. -/
theorem witness_RollbackReturnsToTheRestartPoint :
  (s0.others = []) ∧
  (s0.core.timed.active = false) ∧
  (srb.others = []) ∧
  (srb.core.timed.active = true) ∧
  (1 ≤ (5#4).toNat) ∧
  ((5#4).toNat ≤ 9) ∧
  (srb.core.field = some 0) ∧
  (srb.core.mark = some mk1) ∧
  (srb.core.pmark = none) ∧
  (srb.core.rbTarget = none) ∧
  (srb.core.preemptPend = false) ∧
  (srb.core.fcn < 4096) ∧
  (srb.core.field = some (someOr 0 srb.core.field)) ∧
  (srb.core.mark = some (someOr dMark srb.core.mark)) := by
  refine ⟨?_, ?_, ?_, ?_, ?_, ?_, ?_, ?_, ?_, ?_, ?_, ?_, ?_, ?_⟩ <;> decide +kernel

/-- A state and operands that meet the hypotheses of `Obligations.RollbackAndRelease`, part 2. -/
theorem witness_ReleasesAndPreemption :
  (spr.others = []) ∧
  (spr.core.field = some 0) ∧
  (spr.core.memc = false) ∧
  (spr.core.run = RunState.running) ∧
  (spr.core.ganged = false) ∧
  (spr.core.wait ≠ Wait.release) ∧
  (spr.preemptDue spr.core.headAt = true) ∧
  ((srl false).others = []) ∧
  ((srl false).core.field = some 0) ∧
  ((srl false).core.memc = false) ∧
  ((srl false).core.run = RunState.running) ∧
  ((srl false).core.wait = Wait.release) ∧
  ((srl false).core.timed.active = false) ∧
  (((srl false).fieldAt 0).noTimed = false) ∧
  ((srl true).others = []) ∧
  ((srl true).core.field = some 0) ∧
  ((srl true).core.memc = false) ∧
  ((srl true).core.run = RunState.running) ∧
  ((srl true).core.wait = Wait.release) ∧
  ((srl true).core.timed.active = true) ∧
  ((srl true).core.savedTimed = false) ∧
  ((srl true).core.hwImage = none) := by
  refine ⟨?_, ?_, ?_, ?_, ?_, ?_, ?_, ?_, ?_, ?_, ?_, ?_, ?_, ?_, ?_, ?_, ?_, ?_, ?_, ?_, ?_, ?_⟩ <;> decide +kernel

/-- A state and operands that meet the hypotheses of `Obligations.PostingAndEnding`, part 1. -/
theorem witness_CardsArePosted :
  (0 < 16) ∧
  (∀ c ∈ (sx1.fieldAt 0).cards, c.serial ≠ (sx1.fieldAt 0).serial) ∧
  ((postedCard sx1 0 badc 21 0).ok false = false) ∧
  (∀ c ∈ (sx4.fieldAt 0).cards, c.serial ≠ (sx4.fieldAt 0).serial) ∧
  ((postedCard sx4 0 okc 21 0).ok false = true) ∧
  (64 ≤ ((sx4.fieldAt 0).atLevel (postedCard sx4 0 okc 21 0).prio).length) ∧
  ((postedCard sx1 0 okc 21 0).ok false = true) ∧
  (((sx1.fieldAt 0).atLevel (postedCard sx1 0 okc 21 0).prio).length < 64) ∧
  ((postedCard sx1 0 okc 21 0).depAddr = 0#64) ∧
  ((postedCard sx1 0 okc 21 0).abase = 0#64) ∧
  (sx1.issues freeForm xrt = true) ∧
  (sx1.core.value xrt.b = 0#64) ∧
  (sx1.core.field = some 0) ∧
  ((sx1.fieldAt 0).stat ≠ FieldState.killed) ∧
  (sx1.core.settled = true) ∧
  (BitVec.toNat (sx1.core.value xrt.a) % 64 = 0) ∧
  ((sx1.clock xrt.head).dispatchRead 0 (sx1.core.value xrt.a) 64 = Except.ok (rd1.1, rd1.2)) ∧
  (sx3.issues freeForm xrt = true) ∧
  (sx3.core.value xrt.b = 0#64) ∧
  (sx3.core.field = some 0) ∧
  ((sx3.fieldAt 0).stat ≠ FieldState.killed) ∧
  (sx3.core.settled = true) ∧
  (BitVec.toNat (sx3.core.value xrt.a) % 64 = 0) ∧
  ((sx3.clock xrt.head).dispatchRead 0 (sx3.core.value xrt.a) 64 = Except.ok (rd3.1, rd3.2)) ∧
  (rd3.1.acceptCard 0 rd3.2 rd3.1.core.die rd3.1.core.quad false = Posted.full) ∧
  (sx2.issues freeForm xrt = true) ∧
  (sx2.core.value xrt.b = 0#64) ∧
  (sx2.core.field = some 0) ∧
  ((sx2.fieldAt 0).stat ≠ FieldState.killed) ∧
  (sx2.core.settled = true) ∧
  (BitVec.toNat (sx2.core.value xrt.a) % 64 = 0) ∧
  ((sx2.clock xrt.head).dispatchRead 0 (sx2.core.value xrt.a) 64 = Except.ok (rd2.1, rd2.2)) ∧
  (rd2.1.acceptCard 0 rd2.2 rd2.1.core.die rd2.1.core.quad false = Posted.refused) ∧
  (rd1.1.acceptCard 0 rd1.2 rd1.1.core.die rd1.1.core.quad false = Posted.accepted acc1.1 acc1.2) := by
  refine ⟨?_, ?_, ?_, ?_, ?_, ?_, ?_, ?_, ?_, ?_, ?_, ?_, ?_, ?_, ?_, ?_, by rfl, ?_, ?_, ?_, ?_, ?_, ?_, by rfl, ?_, ?_, ?_, ?_, ?_, ?_, ?_, by rfl, ?_, by rfl⟩ <;> decide +kernel

/-- A state and operands that meet the hypotheses of `Obligations.PostingAndEnding`, part 2. -/
theorem witness_EndGoesOnOrIdles :
  (sample136.issues { freeForm with alone := true, leads := Lead.leader } xend = true) ∧
  (sample136.core.drained = true) ∧
  (sample136.others = []) ∧
  (sample136.core.memc = false) ∧
  (sample136.core.chunk = some (ch 7 3)) ∧
  (1 < (ch 7 3).left) ∧
  ((sample136.fieldAt (ch 7 3).field).card (ch 7 3).serial = some sample137) ∧
  (sample138.issues { freeForm with alone := true, leads := Lead.leader } xend = true) ∧
  (sample138.core.drained = true) ∧
  (sample138.others = []) ∧
  (sample138.core.memc = false) ∧
  ((∃ ch d, sample138.core.chunk = some ch ∧ ch.left ≤ 1 ∧ sample138.core.card = some (ch.field, ch.serial) ∧ (sample138.fieldAt ch.field).card ch.serial = some d ∧ d.undealt = [] ∧ d.cplAddr = 0#64) ∨ sample138.core.chunk = none ∧ sample138.core.card = none) := by
  refine ⟨?_, ?_, ?_, ?_, ?_, ?_, ?_, ?_, ?_, ?_, ?_, by exact .inl ⟨_, _, rfl, by decide +kernel, by decide +kernel, rfl, by decide +kernel, by decide +kernel⟩⟩ <;> decide +kernel

/-- A state and operands that meet the hypotheses of `Obligations.Dealing`, part 1. -/
theorem witness_ChunksAreTakenAndRetired :
  (sample139.issues partyForm xjt = true) ∧
  (sample139.core.chunk.isSome = true) ∧
  (sample139.core.chunk = some (someOr dChunk sample139.core.chunk)) ∧
  (sample139.core.drained = true) ∧
  (sample139.others = []) ∧
  (((sample139.fieldAt (someOr dChunk sample139.core.chunk).field).card (someOr dChunk sample139.core.chunk).serial).isSome = true) ∧
  ((someOr dCard ((sample139.fieldAt (someOr dChunk sample139.core.chunk).field).card (someOr dChunk sample139.core.chunk).serial)).cplAddr = 0#64) ∧
  (xjt.a = Operand.s 0#5) ∧
  (sample140.issues freeForm xjc = true) ∧
  (sample140.handleField (sample140.core.value xjc.a) = Except.ok 0) ∧
  (0 < 16) ∧
  (xjc.a ≠ Operand.s 0#5) ∧
  ((sample140.fieldAt 0).card (BitVec.toNat (sample140.core.value xjc.a) % 2 ^ 48) = none) ∧
  (sample141.issues freeForm xjc = true) ∧
  (sample141.handleField (sample141.core.value xjc.a) = Except.error (Stop.exc (cause 6#8))) ∧
  (sample139.core.chunk = some (ch 7 3)) ∧
  (((sample139.fieldAt (ch 7 3).field).card (ch 7 3).serial).isSome = true) ∧
  ((someOr dCard ((sample139.fieldAt (ch 7 3).field).card (ch 7 3).serial)).cplAddr = 0#64) ∧
  (sample142.issues partyForm xjt = true) ∧
  (sample142.core.chunk = none) ∧
  (sample142.core.card = none) ∧
  (hS.issues freeForm xjc = true) ∧
  (hS.handleField (hS.core.value xjc.a) = Except.ok 0) ∧
  ((hS.fieldAt 0).cards = [hC]) ∧
  (hC.serial = BitVec.toNat (hS.core.value xjc.a) % 2 ^ 48) ∧
  ((sample139.fieldAt (ch 7 3).field).card (ch 7 3).serial = some sample143) ∧
  (sample143.cplAddr = 0#64) ∧
  ((hS.fieldAt 0).card (BitVec.toNat (hS.core.value xjc.a) % 2 ^ 48) = some hC) ∧
  (hC.level < 8) ∧
  (hC.left < 2 ^ 32) ∧
  (hS3.issues freeForm xjc = true) ∧
  (hS3.handleField (hS3.core.value xjc.a) = Except.ok 0) ∧
  ((hS3.fieldAt 0).cards = [sample144]) ∧
  (sample144.serial = BitVec.toNat (hS3.core.value xjc.a) % 2 ^ 48) ∧
  (sample144.state = CardState.finished ∨ sample144.state = CardState.cancelled) ∧
  (hC.state = CardState.queued ∨ hC.state = CardState.dealing) ∧
  (xjc.d = Operand.s 9#5) ∧
  (9#5 ≠ 0#5) ∧
  (sample145.issues partyForm xjt = true) ∧
  (sample145.core.chunk = none) ∧
  (sample145.core.card = some (0, 3)) ∧
  ((sample145.fieldAt 0).card 3 = some sample146) ∧
  (sample146.inSlot = true) ∧
  (sample146.ready = true) ∧
  (sample146.undealt = [(9, 2), (20, 50)]) ∧
  (0 < sample146.div * sample146.parts) ∧
  (sample145.chunkGrantable sample145.core sample146 = true) ∧
  (xjt.d = Operand.s 9#5) ∧
  (((hS.fieldAt 0).card (BitVec.toNat (hS.core.value xjc.a) % 2 ^ 48)).isSome = true) ∧
  ((someOr dCard ((hS.fieldAt 0).card (BitVec.toNat (hS.core.value xjc.a) % 2 ^ 48))).level < 8) ∧
  ((someOr dCard ((hS.fieldAt 0).card (BitVec.toNat (hS.core.value xjc.a) % 2 ^ 48))).left < 2 ^ 32) := by
  refine ⟨?_, ?_, ?_, ?_, ?_, ?_, ?_, ?_, ?_, ?_, ?_, ?_, ?_, ?_, ?_, ?_, ?_, ?_, ?_, ?_, ?_, ?_, ?_, ?_, ?_, ?_, ?_, ?_, ?_, ?_, ?_, ?_, ?_, ?_, ?_, ?_, ?_, ?_, ?_, ?_, ?_, ?_, ?_, ?_, ?_, ?_, ?_, ?_, ?_, ?_, ?_⟩ <;> decide +kernel

/-- A state and operands that meet the hypotheses of `Obligations.Dealing`, part 2. -/
theorem witness_DispatcherServesPromotesAndReads :
  (0 < 16) ∧
  ((sample147.fieldAt 0).valid = true) ∧
  ((sample147.fieldAt 0).stat = FieldState.running) ∧
  ((sample147.fieldAt 0).cards = [sample148]) ∧
  (sample147.cyc < sample148.since + 2 ^ 20) ∧
  (sample147.tick ≤ sample148.depTick) ∧
  ((sample149.fieldAt 0).valid = true) ∧
  ((sample149.fieldAt 0).stat = FieldState.running) ∧
  ((sample149.fieldAt 0).cards = [sample148]) ∧
  (sample148.inSlot = true) ∧
  (sample148.level < 7) ∧
  (sample148.due = none) ∧
  (sample148.since + 2 ^ 20 ≤ sample149.cyc) ∧
  (((sdep 6).fieldAt 0).valid = true) ∧
  (((sdep 6).fieldAt 0).stat = FieldState.running) ∧
  (((sdep 6).fieldAt 0).cards = [dep 6]) ∧
  ((dep 6).inSlot = true) ∧
  ((dep 6).depDone = false) ∧
  ((dep 6).depAddr ≠ 0#64) ∧
  ((dep 6).depTick < (sdep 6).tick) ∧
  ((sdep 6).dispatchRead 0 (dep 6).depAddr 8 = Except.ok ((rdd 6).1, (rdd 6).2)) ∧
  ((rdd 6).1.fieldAt 0 = (sdep 6).fieldAt 0) ∧
  (2 ^ 63 ≤ (BitVec.ofNat 64 (ofBytes (rdd 6).2) - (dep 6).depVal).toNat) ∧
  (((sdep 4).fieldAt 0).valid = true) ∧
  (((sdep 4).fieldAt 0).stat = FieldState.running) ∧
  (((sdep 4).fieldAt 0).cards = [dep 4]) ∧
  ((dep 4).inSlot = true) ∧
  ((dep 4).depDone = false) ∧
  ((dep 4).depAddr ≠ 0#64) ∧
  ((dep 4).depTick < (sdep 4).tick) ∧
  ((sdep 4).dispatchRead 0 (dep 4).depAddr 8 = Except.ok ((rdd 4).1, (rdd 4).2)) ∧
  ((rdd 4).1.fieldAt 0 = (sdep 4).fieldAt 0) ∧
  ((BitVec.ofNat 64 (ofBytes (rdd 4).2) - (dep 4).depVal).toNat < 2 ^ 63) ∧
  ((dep 4).abase = 0#64) ∧
  (sample147.others = []) ∧
  (sample147.core.field = some 0) ∧
  (sample147.core.memc = false) ∧
  (sample147.core.run = RunState.idle) ∧
  (sample147.core.heldCard = none) ∧
  (sample148.ready = true) ∧
  (sample148.level < 8) ∧
  (sample148.holds 0 sample147.core = true) ∧
  (sample148.gang = false) ∧
  (sample148.undealt = [(9, 20)]) ∧
  (0 < sample148.div * sample148.parts) ∧
  (sample147.chunkGrantable sample147.core sample148 = true) := by
  refine ⟨?_, ?_, ?_, ?_, ?_, ?_, ?_, ?_, ?_, ?_, ?_, ?_, ?_, ?_, ?_, ?_, ?_, ?_, ?_, ?_, by rfl, ?_, ?_, ?_, ?_, ?_, ?_, ?_, ?_, ?_, by rfl, ?_, ?_, ?_, ?_, ?_, ?_, ?_, ?_, ?_, ?_, ?_, ?_, ?_, ?_, ?_⟩ <;> decide +kernel

/-- A state and operands that meet the hypotheses of `Obligations.RingInstructions`. -/
theorem witness_RingInstructions :
  (R0.issues freeForm xrt = true) ∧
  (R0.core.stores = []) ∧
  (BitVec.toNat (R0.core.value xrt.a) % 64 = 0) ∧
  ((mapped (R0.clock xrt.head) (R0.core.value xrt.a) true).isSome = true) ∧
  ((ringEntry R0 true).2.getLsbD 1 = true) ∧
  ((ringRead R0 true).ok = true) ∧
  ((ringRead R0 true).pmask / 2 ^ (0#4).toNat % 2 = 1) ∧
  ((ringRead R0 true).producer (0#4).toNat ≠ 0xFFF) ∧
  ((ringRead R0 true).producer (0#4).toNat = R0.core.lcn % 4096) ∧
  (R0.core.acks = []) ∧
  (BitVec.toNat (R0.core.value xrt.b) % 8 = 0) ∧
  (BitVec.toNat (R0.core.value xrt.b) + (ringRead R0 true).elemSize ≤ 0x200000) ∧
  (R0.core.mq = []) ∧
  (R0.core.lsBad = []) ∧
  ((ringRead R0 true).ended (0#4).toNat = false) ∧
  ((ringRead R0 true).count < (ringRead R0 true).cap) ∧
  ((R0.clock xrt.head).ringPlace (ringEntry R0 true).1 true = 0) ∧
  (elementMapped (R0.clock xrt.head) ((ringRead R0 true).element (ringRead R0 true).tail) (ringRead R0 true).elemSize true) ∧
  (0 < (ringRead R0 true).cons) ∧
  ((ringRead R0 true).consumer 0 = R0.core.lcn % 4096) ∧
  (0 < (ringRead R0 true).count) ∧
  ((R0.clock xrt.head).ringPlace (ringEntry R0 true).1 false = 0) ∧
  (elementMapped (R0.clock xrt.head) ((ringRead R0 true).element (ringRead R0 true).head) (ringRead R0 true).elemSize false) ∧
  ((R0.fieldAt 0).replayMode ≠ 2) ∧
  (R0.core.field = some 0) ∧
  ((mapped (R0.clock xrt.head) (R0.core.value xrt.a) false).isSome = true) ∧
  ((ringRead R0 false).ok = true) ∧
  (badRing.issues freeForm xrt = true) ∧
  (badRing.core.stores = []) ∧
  (BitVec.toNat (badRing.core.value xrt.a) % 64 = 0) ∧
  ((mapped (badRing.clock xrt.head) (badRing.core.value xrt.a) false).isSome = true) ∧
  ((ringRead badRing false).ok = false) ∧
  (unboundRing2.issues freeForm xrt = true) ∧
  (unboundRing2.core.stores = []) ∧
  (BitVec.toNat (unboundRing2.core.value xrt.a) % 64 = 0) ∧
  ((mapped (unboundRing2.clock xrt.head) (unboundRing2.core.value xrt.a) true).isSome = true) ∧
  ((ringEntry unboundRing2 true).2.getLsbD 1 = true) ∧
  ((ringRead unboundRing2 true).ok = true) ∧
  ((ringRead unboundRing2 true).pmask / 2 ^ (1#4).toNat % 2 = 1) ∧
  ((ringRead unboundRing2 true).producer (1#4).toNat = 0xFFF) ∧
  (unboundRing2.core.acks = []) ∧
  (BitVec.toNat (unboundRing2.core.value xrt.b) % 8 = 0) ∧
  (BitVec.toNat (unboundRing2.core.value xrt.b) + (ringRead unboundRing2 true).elemSize ≤ 0x200000) ∧
  (unboundRing2.core.mq = []) ∧
  (unboundRing2.core.lsBad = []) ∧
  (((ringRead unboundRing2 true).bindProducer (1#4).toNat unboundRing2.core.lcn).ended (1#4).toNat = false) ∧
  (((ringRead unboundRing2 true).bindProducer (1#4).toNat unboundRing2.core.lcn).count < ((ringRead unboundRing2 true).bindProducer (1#4).toNat unboundRing2.core.lcn).cap) ∧
  ((unboundRing2.clock xrt.head).ringPlace (ringEntry unboundRing2 true).1 true = 0) ∧
  (elementMapped (unboundRing2.clock xrt.head) (((ringRead unboundRing2 true).bindProducer (1#4).toNat unboundRing2.core.lcn).element ((ringRead unboundRing2 true).bindProducer (1#4).toNat unboundRing2.core.lcn).tail) (ringRead unboundRing2 true).elemSize true) ∧
  (0 < (ringRead unboundRing2 true).cons) ∧
  ((ringRead unboundRing2 true).consumer 0 = 0xFFF) ∧
  (∀ j, j < (ringRead unboundRing2 true).cons → (ringRead unboundRing2 true).consumer j ≠ unboundRing2.core.lcn % 4096) ∧
  (0 < ((ringRead unboundRing2 true).bindConsumer 0 unboundRing2.core.lcn).count) ∧
  (elementMapped (unboundRing2.clock xrt.head) (((ringRead unboundRing2 true).bindConsumer 0 unboundRing2.core.lcn).element ((ringRead unboundRing2 true).bindConsumer 0 unboundRing2.core.lcn).head) (ringRead unboundRing2 true).elemSize false) ∧
  (R4.issues freeForm xrt = true) ∧
  (R4.core.stores = []) ∧
  (BitVec.toNat (R4.core.value xrt.a) % 64 = 0) ∧
  ((mapped (R4.clock xrt.head) (R4.core.value xrt.a) true).isSome = true) ∧
  ((ringEntry R4 true).2.getLsbD 1 = true) ∧
  ((ringRead R4 true).ok = true) ∧
  ((ringRead R4 true).pmask / 2 ^ (0#4).toNat % 2 = 1) ∧
  ((ringRead R4 true).producer (0#4).toNat ≠ 0xFFF) ∧
  ((ringRead R4 true).producer (0#4).toNat = R4.core.lcn % 4096) ∧
  (R4.core.acks = []) ∧
  (BitVec.toNat (R4.core.value xrt.b) % 8 = 0) ∧
  (BitVec.toNat (R4.core.value xrt.b) + (ringRead R4 true).elemSize ≤ 0x200000) ∧
  (R4.core.mq = []) ∧
  (R4.core.lsBad = []) ∧
  ((ringRead R4 true).ended (0#4).toNat = false) ∧
  ((ringRead R4 true).cap ≤ (ringRead R4 true).count ∨ (R4.clock xrt.head).ringPlace (ringEntry R4 true).1 true ≠ 0) ∧
  (queuedRing.issues freeForm xrt = true) ∧
  (queuedRing.core.stores = []) ∧
  (BitVec.toNat (queuedRing.core.value xrt.a) % 64 = 0) ∧
  ((mapped (queuedRing.clock xrt.head) (queuedRing.core.value xrt.a) true).isSome = true) ∧
  ((ringEntry queuedRing true).2.getLsbD 1 = true) ∧
  ((ringRead queuedRing true).ok = true) ∧
  ((ringRead queuedRing true).pmask / 2 ^ (0#4).toNat % 2 = 1) ∧
  ((ringRead queuedRing true).producer (0#4).toNat ≠ 0xFFF) ∧
  ((ringRead queuedRing true).producer (0#4).toNat = queuedRing.core.lcn % 4096) ∧
  (queuedRing.core.acks = []) ∧
  (BitVec.toNat (queuedRing.core.value xrt.b) % 8 = 0) ∧
  (BitVec.toNat (queuedRing.core.value xrt.b) + (ringRead queuedRing true).elemSize ≤ 0x200000) ∧
  (queuedRing.core.mq = []) ∧
  (queuedRing.core.lsBad = []) ∧
  ((queuedRing.clock xrt.head).ringPlace (ringEntry queuedRing true).1 true ≠ 0) ∧
  ((ringRead queuedRing true).consumer 0 = queuedRing.core.lcn % 4096) ∧
  (0 < (ringRead queuedRing true).count ∧ (queuedRing.clock xrt.head).ringPlace (ringEntry queuedRing true).1 false ≠ 0) ∧
  (RW.issues freeForm xrt = true) ∧
  (RW.core.stores = []) ∧
  (BitVec.toNat (RW.core.value xrt.a) % 64 = 0) ∧
  ((mapped (RW.clock xrt.head) (RW.core.value xrt.a) true).isSome = true) ∧
  ((ringEntry RW true).2.getLsbD 1 = true) ∧
  ((ringRead RW true).ok = true) ∧
  (BitVec.toNat (RW.core.value xrt.b) % 8 = 0) ∧
  (BitVec.toNat (RW.core.value xrt.b) + (ringRead RW true).elemSize ≤ 0x200000) ∧
  (RW.core.mq = []) ∧
  ((ringRead RW true).consumer 0 = RW.core.lcn % 4096) ∧
  ((ringRead RW true).count = 0) ∧
  ((ringRead RW true).allEnded = false) ∧
  (RE.issues freeForm xrt = true) ∧
  (RE.core.stores = []) ∧
  (BitVec.toNat (RE.core.value xrt.a) % 64 = 0) ∧
  ((mapped (RE.clock xrt.head) (RE.core.value xrt.a) true).isSome = true) ∧
  ((ringEntry RE true).2.getLsbD 1 = true) ∧
  ((ringRead RE true).ok = true) ∧
  (BitVec.toNat (RE.core.value xrt.b) % 8 = 0) ∧
  (BitVec.toNat (RE.core.value xrt.b) + (ringRead RE true).elemSize ≤ 0x200000) ∧
  (RE.core.mq = []) ∧
  ((ringRead RE true).consumer 0 = RE.core.lcn % 4096) ∧
  ((ringRead RE true).count = 0) ∧
  ((ringRead RE true).allEnded = true) := by
  refine ⟨?_, ?_, ?_, ?_, ?_, ?_, ?_, ?_, ?_, ?_, ?_, ?_, ?_, ?_, ?_, ?_, ?_, by unfold elementMapped; decide +kernel, ?_, ?_, ?_, ?_, by unfold elementMapped; decide +kernel, ?_, ?_, ?_, ?_, ?_, ?_, ?_, ?_, ?_, ?_, ?_, ?_, ?_, ?_, ?_, ?_, ?_, ?_, ?_, ?_, ?_, ?_, ?_, ?_, ?_, by unfold elementMapped; decide +kernel, ?_, ?_, ?_, ?_, by unfold elementMapped; decide +kernel, ?_, ?_, ?_, ?_, ?_, ?_, ?_, ?_, ?_, ?_, ?_, ?_, ?_, ?_, ?_, ?_, ?_, ?_, ?_, ?_, ?_, ?_, ?_, ?_, ?_, ?_, ?_, ?_, ?_, ?_, ?_, ?_, ?_, ?_, ?_, ?_, ?_, ?_, ?_, ?_, ?_, ?_, ?_, ?_, ?_, ?_, ?_, ?_, ?_, ?_, ?_, ?_, ?_, ?_, ?_, ?_, ?_⟩ <;> decide +kernel

/-- A state and operands that meet the hypotheses of `Obligations.TumblerScansFindDeadlocks`. -/
theorem witness_TumblerScansFindDeadlocks :
  (s0.others = []) ∧
  (s0.tumbler = []) ∧
  (s0.tick / 16 = 0) ∧
  (sample152.others = []) ∧
  (sample152.tumbler = []) ∧
  (0 < sample152.tick / 16) ∧
  (sample152.scan s0.core.ctx = []) ∧
  (sdl1.others = []) ∧
  (sdl1.core.ganged = false) ∧
  (sdl1.tumbler = [{ ctx := sdl1.core.ctx, edge := 69, blocked := sdl1.scan sdl1.core.ctx }]) ∧
  (sdl1.tick / 16 = 69 + 1) ∧
  (sdl1.scan sdl1.core.ctx = [sample153]) ∧
  (sample153.lcn = sdl1.core.lcn % 4096) ∧
  (sample153.blkst = sdl1.blkst sdl1.core) ∧
  (sdl1.blkst sdl1.core ≠ 0#64) ∧
  (sample153.by_ = some [sample153.lcn]) ∧
  (sdl1.core.sys.contain = 2852126805#64) ∧
  (sdl1.core.handler = false) := by
  refine ⟨?_, ?_, ?_, ?_, ?_, ?_, ?_, ?_, ?_, ?_, ?_, ?_, ?_, ?_, ?_, ?_, ?_, ?_⟩ <;> decide +kernel

/-- A state and operands that meet the hypotheses of `Obligations.ChipletLossAndRoutes`, part 1. -/
theorem witness_BondsAndChipletsFail :
  (ssg.online 21 = true) ∧
  (isCompute 21 = false ∨ ssg.fieldsOver 21 = []) ∧
  (ssf.online 80 = true) ∧
  (isCompute 80 = false ∨ ssf.fieldsOver 80 = []) ∧
  ((sbd.chip 21).linkState 1 = 2#2) ∧
  (ssf.online 21 = true) ∧
  (isCompute 21 = true) ∧
  (ssf.fieldsOver 21 = [0]) ∧
  (neighbourChip 21 1 = some 22) ∧
  (22 ≠ 21) ∧
  (ssf.online 22 = true) ∧
  (isCompute 22 = true) ∧
  (ssf.fieldsOver 22 ≠ []) ∧
  ((3, 0x90000000#32) ∈ (sbd.chip 21).rte) ∧
  (rteValid 0x90000000#32 = true) ∧
  (usesPort 1 0x90000000#32 = true) ∧
  (3 < 252) ∧
  (rteField 0x90000000#32 < 16) := by
  refine ⟨?_, ?_, ?_, ?_, ?_, ?_, ?_, ?_, ?_, ?_, ?_, ?_, ?_, ?_, ?_, ?_, ?_, ?_⟩ <;> decide +kernel

/-- A state and operands that meet the hypotheses of `Obligations.ClocksLockAndBondsTrain`. -/
theorem witness_ClocksLockAndBondsTrain :
  ((lockDue.chip 21).arrivals = [(1, 99, 50)]) ∧
  ((lockDue.chip 21).bus = BusState.dark) ∧
  ((lockDue.chip 21).croot ≠ 1023) ∧
  (50 + 24 = lockDue.ref) ∧
  (∃ p ∈ presentPorts 21, (lockDue.chip 21).linkState p = 0#2) ∧
  ((lockDead.chip 21).arrivals = [(1, 99, 50)]) ∧
  ((lockDead.chip 21).bus = BusState.dark) ∧
  ((lockDead.chip 21).croot ≠ 1023) ∧
  (50 + 24 = lockDead.ref) ∧
  (∀ p ∈ presentPorts 21, (lockDead.chip 21).linkState p = 3#2) ∧
  (1 < 4) ∧
  (neighbourChip 21 1 = some 22) ∧
  (22 ≠ 21) ∧
  ((partnerDark.chip 21).linkState 1 = 1#2) ∧
  ((partnerDark.chip 21).lockAt = some 5) ∧
  ((partnerDark.chip 22).bus = BusState.dark) ∧
  (5 + 4096 = partnerDark.ref) ∧
  ((trainDue.chip 21).linkState 1 = 1#2) ∧
  ((trainDue.chip 21).lockAt = some 5) ∧
  ((trainDue.chip 22).lockAt = some 60) ∧
  ((trainDue.chip 22).linkState ((1 + 2) % 4) = 1#2) ∧
  (max 5 60 + 40 = trainDue.ref) ∧
  (sio.modState.powered = true) ∧
  (sio.modState.holdup = false) ∧
  (∃ p ∈ presentPorts 80, (sio.chip 80).linkState p = 0#2) ∧
  (80 ∈ ioDies) ∧
  ((sio.chip 80).verdict = none) ∧
  ((sio.chip 80).bus = BusState.dark) ∧
  (sio.inRootSet 80 = true) ∧
  (∃ d ∈ ioDies, d ≠ 80 ∧ sio.inRootSet d = true ∧ (sio.chip d).verdict ≠ some false) ∧
  ((kindOf 21).isSome = true) ∧
  ((sample156.chip 22).lockAt = some 60) ∧
  ((sample156.chip 22).croot = 80) ∧
  (60 + 2 ≠ sample156.ref) ∧
  ((waveDue.chip 22).lockAt = some 60) ∧
  ((waveDue.chip 22).croot = 80) ∧
  ((waveDue.chip 21).bus = BusState.dark) ∧
  ((waveDue.chip 21).croot = 1023) ∧
  ((waveDue.chip 21).arrivals = []) ∧
  (60 + 2 = waveDue.ref) ∧
  ((sample156.chip 21).bus = BusState.dark) ∧
  ((sample156.chip 21).croot = 1023) ∧
  ((sample156.chip 21).arrivals = []) ∧
  ((adoptDue.chip 21).arrivals = [(1, 80, 50), (2, 80, 52)]) ∧
  ((adoptDue.chip 21).bus = BusState.dark) ∧
  ((adoptDue.chip 21).croot = 1023) ∧
  (adoptDue.listens 21 = true) ∧
  ((1, 80, 50).2.1 < 1023) ∧
  ((2, 80, 52).2.1 < 1023) ∧
  ((1, 80, 50).1 < 4) ∧
  ((2, 80, 52).1 < 4) ∧
  ((1, 80, 50).2.2 ≤ (2, 80, 52).2.2) ∧
  ((1, 80, 50).2.2 + 8 = adoptDue.ref) ∧
  (∀ w ∈ adoptDue.wavefronts 21, (1, 80, 50).2.2 + 7 < w.2.2) := by
  refine ⟨?_, ?_, ?_, ?_, ?_, ?_, ?_, ?_, ?_, ?_, ?_, ?_, ?_, ?_, ?_, ?_, ?_, ?_, ?_, ?_, ?_, ?_, ?_, ?_, ?_, ?_, ?_, ?_, ?_, ?_, ?_, ?_, ?_, ?_, ?_, ?_, ?_, ?_, ?_, ?_, ?_, ?_, ?_, ?_, ?_, ?_, ?_, ?_, ?_, ?_, ?_, ?_, ?_, ?_⟩ <;> decide +kernel

/-- A state and operands that meet the hypotheses of `Obligations.ChipletsAreIdentifiedAndGoOnline`. -/
theorem witness_ChipletsAreIdentifiedAndGoOnline :
  ((sid.chip 81).bus = BusState.linksTrained) ∧
  (sid.modState.collected = false) ∧
  (sid.nearestRoot 81 = some (80, 1)) ∧
  (collectDue.modState.collectFrom = some 5) ∧
  (collectDue.modState.collected = false) ∧
  (collectDue.modState.master = some 80) ∧
  (5 + 16384 = collectDue.ref ∨ ∀ d ∈ allDies, (collectDue.chip d).early = false) ∧
  (noneEarly.modState.collectFrom = some 5) ∧
  (noneEarly.modState.collected = false) ∧
  (noneEarly.modState.master = some 80) ∧
  (5 + 16384 = noneEarly.ref ∨ ∀ d ∈ allDies, (noneEarly.chip d).early = false) ∧
  (stw.modState.master = some 80) ∧
  (stw.modState.collected = true) ∧
  (stw.modState.recovery = false) ∧
  (21 ∈ allDies) ∧
  ((stw.chip 21).bus = BusState.identified) ∧
  (∀ (e : ℕ), (stw.chip e).bus ≠ BusState.configured) ∧
  (stw.copiesAgree 80 = false) ∧
  (stag.modState.master = some 80) ∧
  (stag.modState.collected = true) ∧
  (stag.modState.recovery = false) ∧
  ((stag.chip 21).bus = BusState.identified) ∧
  (∀ (e : ℕ), (stag.chip e).bus ≠ BusState.configured) ∧
  (stag.copiesAgree 80 = true) ∧
  (∀ d ∈ allDies, (sgo.chip d).bus ≠ .configured → (sgo.chip d).bus = .fenced ∨ (sgo.chip d).bus = .isolated) ∧
  (∃ d ∈ allDies, (sgo.chip d).bus = BusState.configured) ∧
  (sgo.modState.shortfall = false) ∧
  (sgo.modState.recovery = false) ∧
  (sgo.modState.holdup = false) ∧
  (sgo.modState.go = none) ∧
  (∀ d ∈ allDies, (sample157.chip d).bus ≠ .configured → (sample157.chip d).bus = .fenced ∨ (sample157.chip d).bus = .isolated) ∧
  (∃ d ∈ allDies, (sample157.chip d).bus = BusState.configured) ∧
  (sample157.modState.shortfall = false) ∧
  (sample157.modState.recovery = false) ∧
  (sample157.modState.holdup = false) ∧
  (sample157.modState.go ≠ none) := by
  refine ⟨?_, ?_, ?_, ?_, ?_, ?_, by exact .inl rfl, ?_, ?_, ?_, ?_, ?_, ?_, ?_, ?_, ?_, by exact fun e => lookupD_all (p := fun (c : Chip) => c.bus ≠ .configured) _ e _ (by decide +kernel) (by decide), ?_, ?_, ?_, ?_, ?_, by exact fun e => lookupD_all (p := fun (c : Chip) => c.bus ≠ .configured) _ e _ (by decide +kernel) (by decide), ?_, ?_, ?_, ?_, ?_, ?_, ?_, ?_, ?_, ?_, ?_, ?_, ?_⟩ <;> decide +kernel

/-- A state and operands that meet the hypotheses of `Obligations.ChipletLossAndRoutes`, part 2. -/
theorem witness_RoutingTablesAreWritten :
  (s0.answers 21 = true) ∧
  (5 < 1024) ∧
  (bits (16387#16) 12 10 = 0) ∧
  (¬(bits (16387#16) 15 14 = 2 ∧ (16387#16).getLsbD 13 = true)) ∧
  (bits (40963#16) 12 10 ≠ 0 ∨ bits (40963#16) 15 14 = 2 ∧ (40963#16).getLsbD 13 = true) ∧
  (stimed.answers 21 = true) ∧
  (5 < 256) ∧
  (stimed.timedOn 21 = true) ∧
  (BitVec.ofNat 32 (2 ^ 31 + 4 * 2 ^ 28 + 1 * 2 ^ 25 + 2 ^ 15) &&& 4294934528#32 ≠ stimed.rteAt 21 5) ∧
  (rteValid (BitVec.ofNat 32 (2 ^ 31 + 6 * 2 ^ 28 + 1 * 2 ^ 25 + 5) &&& 4294934528#32) = true) ∧
  (5 ≤ rteIn (BitVec.ofNat 32 (2 ^ 31 + 6 * 2 ^ 28 + 1 * 2 ^ 25 + 5) &&& 4294934528#32) ∨ 5 ≤ rteOut (BitVec.ofNat 32 (2 ^ 31 + 6 * 2 ^ 28 + 1 * 2 ^ 25 + 5) &&& 4294934528#32) ∨ rteIn (BitVec.ofNat 32 (2 ^ 31 + 6 * 2 ^ 28 + 1 * 2 ^ 25 + 5) &&& 4294934528#32) = rteOut (BitVec.ofNat 32 (2 ^ 31 + 6 * 2 ^ 28 + 1 * 2 ^ 25 + 5) &&& 4294934528#32) ∧ rteIn (BitVec.ofNat 32 (2 ^ 31 + 6 * 2 ^ 28 + 1 * 2 ^ 25 + 5) &&& 4294934528#32) < 4) ∧
  (s0.timedOn 21 = false) ∧
  (rteValid (BitVec.ofNat 32 (2 ^ 31 + 4 * 2 ^ 28 + 1 * 2 ^ 25 + 5) &&& 4294934528#32) = false ∨ rteIn (BitVec.ofNat 32 (2 ^ 31 + 4 * 2 ^ 28 + 1 * 2 ^ 25 + 5) &&& 4294934528#32) = 4 ∧ rteOut (BitVec.ofNat 32 (2 ^ 31 + 4 * 2 ^ 28 + 1 * 2 ^ 25 + 5) &&& 4294934528#32) < 4 ∧ hasCores 21 = true ∧ ((s0.chip 21).linkState (rteOut (BitVec.ofNat 32 (2 ^ 31 + 4 * 2 ^ 28 + 1 * 2 ^ 25 + 5) &&& 4294934528#32)) = 1#2 ∨ (s0.chip 21).linkState (rteOut (BitVec.ofNat 32 (2 ^ 31 + 4 * 2 ^ 28 + 1 * 2 ^ 25 + 5) &&& 4294934528#32)) = 2#2)) := by
  refine ⟨?_, ?_, ?_, ?_, ?_, ?_, ?_, ?_, ?_, ?_, ?_, ?_, ?_⟩ <;> decide +kernel

/-- A state and operands that meet the hypotheses of `Obligations.FieldCreation`, part 1. -/
theorem witness_FieldsAreCreated :
  (0 < 16) ∧
  (sfc.modState.go.isSome = true) ∧
  (sfc.modState.holdup = false) ∧
  ((sfc.fieldAt 0).valid = true) ∧
  (5 < 16) ∧
  (sfd.modState.go.isSome = true) ∧
  (sfd.modState.holdup = false) ∧
  ((sfd.fieldAt 5).valid = false) ∧
  ((sfd.fieldAt 5).res ≠ 1#3) ∧
  (rectOk (sample158 &&& 9007190664871935#64) = true) ∧
  (((List.range 16).any fun j => j != 5 && (sfd.fieldAt j).valid && rectsMeet (sample158 &&& 9007190664871935#64) (sfd.fieldAt j).rect) = false) ∧
  (List.filter (fun d => isCompute d && sfd.online d) (rectDies (sample158 &&& 9007190664871935#64)) = []) ∧
  (rectOk (sample159 &&& 9007190664871935#64) = true) ∧
  (((List.range 16).any fun j => j != 5 && (sfd.fieldAt j).valid && rectsMeet (sample159 &&& 9007190664871935#64) (sfd.fieldAt j).rect) = false) ∧
  (List.filter (fun d => isCompute d && sfd.online d) (rectDies (sample159 &&& 9007190664871935#64)) = [21, 22]) ∧
  ((sfc.fieldAt 5).valid = false) ∧
  ((sfc.fieldAt 5).res ≠ 1#3) ∧
  (rectOk (sample159 &&& 9007190664871935#64) = false ∨ ((List.range 16).any fun j => j != 5 && (sfc.fieldAt j).valid && rectsMeet (sample159 &&& 9007190664871935#64) (sfc.fieldAt j).rect) = true) := by
  refine ⟨?_, ?_, ?_, ?_, ?_, ?_, ?_, ?_, ?_, ?_, ?_, ?_, ?_, ?_, ?_, ?_, ?_, ?_⟩ <;> decide +kernel

/-- A state and operands that meet the hypotheses of `Obligations.FieldCreation`, part 2. -/
theorem witness_FieldsAreDeleted :
  (3 < 16) ∧
  (((fs FieldState.copying).fieldAt 3).valid = false) ∧
  (0 < 16) ∧
  ((sample160.fieldAt 0).valid = true) ∧
  ((sample160.fieldAt 0).stat = FieldState.preempting ∨ (sample160.fieldAt 0).stat = FieldState.copying ∨ (sample160.fieldAt 0).stat = FieldState.restoring ∨ (sample160.fieldAt 0).stat = FieldState.running ∧ (((sample160.fieldAt 0).cards.all fun c => !c.inSlot) && sample160.cores.all fun c => c.field != some 0 || c.chunk.isNone) = false) ∧
  (((fs FieldState.saved).fieldAt 0).valid = true) ∧
  (((fs FieldState.saved).fieldAt 0).stat = FieldState.saved ∨ ((fs FieldState.saved).fieldAt 0).stat = FieldState.killed ∨ ((fs FieldState.saved).fieldAt 0).stat = FieldState.running ∧ ((((fs FieldState.saved).fieldAt 0).cards.all fun c => !c.inSlot) && (fs FieldState.saved).cores.all fun c => c.field != some 0 || c.chunk.isNone) = true) ∧
  ((fs FieldState.saved).others = []) ∧
  ((fs FieldState.saved).core.stores = []) ∧
  ((otherCore.fieldAt 0).valid = true) ∧
  ((otherCore.fieldAt 0).stat = .saved) ∧
  (otherCore.others = []) ∧
  (otherCore.core.stores = []) ∧
  (otherCore.core.field ≠ some 0) ∧
  (otherCore.scopeBars = []) := by
  refine ⟨?_, ?_, ?_, ?_, ?_, ?_, ?_, ?_, ?_, ?_, ?_, ?_, ?_, ?_, ?_⟩ <;> decide +kernel

theorem area_only (s : State) (f : Field) (a : Saved) (pa : Nat) (hp : fsavePa f.fsave = pa) (hs : s.areas = [a])
    (h : s.areaHere pa (cmdBanks f.fcmd) a = true) : s.areaAt f = some a := by
  subst hp; simp [State.areaAt, hs, h]

theorem area_found : sav2.areaAt (sav2.fieldAt 0) = some A2 :=
  area_only sav2 _ A2 0 (by decide +kernel) (by simp only [sav2]) (areaHere_one sav2 A2 sample163 0 _ (by simp only [A2, sample163]; rfl) (by simp only [sav2]))

/-- A state and operands that meet the hypotheses of `Obligations.FieldsAreSavedRestoredAndKilled`. -/
theorem witness_FieldsAreSavedRestoredAndKilled :
  (0 < 16) ∧
  (((fs FieldState.running).fieldAt 0).valid = true) ∧
  (((fs FieldState.running).fieldAt 0).stat = .running) ∧
  ((fs FieldState.running).core.field = some 0 ∧ (fs FieldState.running).core.run ≠ RunState.killed) ∧
  (((fs FieldState.running).fieldAt 0).stat ≠ .killed) ∧
  ((sample161.fieldAt 0).valid = true) ∧
  ((sample161.fieldAt 0).stat ≠ .running) ∧
  ((sample161.fieldAt 0).stat = .preempting) ∧
  (sample161.allAcked 0 = true) ∧
  (bits (sample161.fieldAt 0).fcmd 15 0 = 0) ∧
  ((sample162.fieldAt 0).valid = true) ∧
  ((sample162.fieldAt 0).stat = .preempting) ∧
  (sample162.allAcked 0 = false) ∧
  (bits (sample162.fieldAt 0).fcmd 15 0 ≠ 0) ∧
  ((sample162.fieldAt 0).since + bits (sample162.fieldAt 0).fcmd 15 0 ≤ sample162.tick) ∧
  (sample162.core.field = some 0 ∧ sample162.core.run ≠ RunState.killed) ∧
  ((copyFree.fieldAt 0).valid = true) ∧
  ((copyFree.fieldAt 0).stat = .copying) ∧
  ((copyFree.fieldAt 0).creator < 2) ∧
  ((copyFree.fieldAt 0).hold = false) ∧
  (copyFree.modState.holdup = false) ∧
  ((sample164.fieldAt 0).valid = true) ∧
  ((sample164.fieldAt 0).stat = .copying) ∧
  ((sample164.fieldAt 0).hold = true) ∧
  (sample164.core.field = some 0) ∧
  (sample164.core.fcn = 0) ∧
  (sample164.core.memc = false) ∧
  (sample164.core.run = RunState.acked) ∧
  ((shu.fieldAt 0).valid = true) ∧
  ((shu.fieldAt 0).stat = .saved) ∧
  (shu.modState.holdup = true) ∧
  (((fs FieldState.saved).fieldAt 0).valid = true) ∧
  (((fs FieldState.saved).fieldAt 0).stat = .saved) ∧
  ((fs FieldState.saved).modState.holdup = false) ∧
  ((noArea.fieldAt 0).valid = true) ∧
  ((noArea.fieldAt 0).stat = .restoring) ∧
  (noArea.areaAt (noArea.fieldAt 0) = none) ∧
  ((sav2.fieldAt 0).valid = true) ∧
  ((sav2.fieldAt 0).stat = .restoring) ∧
  (sav2.areaAt (sav2.fieldAt 0) = some A2) ∧
  (sav2.blockOrder 0 = [sav2.core]) ∧
  (A2.cores = [sample163]) ∧
  (sample163.die = sav2.core.die) ∧
  (sample163.num = sav2.core.num) ∧
  (sample163.run ≠ RunState.killed) ∧
  (A2.latches = []) ∧
  (A2.bars = []) ∧
  (sav2.others = []) ∧
  (sav2.modState.holdup = false) ∧
  (((fs FieldState.killed).fieldAt 0).valid = true) ∧
  (((fs FieldState.killed).fieldAt 0).stat = .killed ∨ ∀ c ∈ (fs FieldState.killed).cores, c.field = some 0 → c.run = .killed) := by
  refine ⟨?_, ?_, ?_, ?_, ?_, ?_, ?_, ?_, ?_, ?_, ?_, ?_, ?_, ?_, ?_, ?_, ?_, ?_, ?_, ?_, ?_, ?_, ?_, ?_, ?_, ?_, ?_, ?_, ?_, ?_, ?_, ?_, ?_, ?_, ?_, ?_, by rfl, ?_, ?_, by exact area_found, ?_, by rfl, ?_, ?_, ?_, ?_, ?_, ?_, ?_, ?_, by exact .inl rfl⟩ <;> decide +kernel

/-- A state and operands that meet the hypotheses of `Obligations.ChipletLossAndRoutes`, part 3. -/
theorem witness_RootsAndMemoryCoresAreAttached :
  ((smc RunState.halted).answers 2 = true) ∧
  (hasCores 2 = true) ∧
  (kindOf 2 = some 2) ∧
  (∀ c ∈ (smc RunState.halted).cores, c.die = 2 → c.memc = true → c.run = RunState.halted) ∧
  (ste.answers 80 = true) ∧
  (hasCores 80 = false) ∧
  ((smc RunState.running).answers 2 = true) ∧
  ((smc RunState.running).core ∈ (smc RunState.running).cores) ∧
  ((smc RunState.running).core.die = 2) ∧
  ((smc RunState.running).core.memc = true) ∧
  ((smc RunState.running).core.run ≠ RunState.halted) := by
  refine ⟨?_, ?_, ?_, ?_, ?_, ?_, ?_, ?_, ?_, ?_, ?_⟩ <;> decide +kernel

/-- A state and operands that meet the hypotheses of `Obligations.PowerAndDurability`, part 1. -/
theorem witness_PowerComesAndGoes :
  (sample165.modState.powered = false) ∧
  ((fsb FieldState.killed).modState.powered = true) ∧
  (spow.modState.powered = true) ∧
  (spow.modState.holdup = true) ∧
  (spow.holdupOver = false) ∧
  (spow.modState.mains = false) ∧
  (sample166.modState.powered = true) ∧
  (sample166.modState.holdup = true) ∧
  (sample166.modState.mains = false) ∧
  (sample166.holdupOver = true) ∧
  ((fsb FieldState.saved).modState.powered = true) ∧
  ((fsb FieldState.saved).modState.mains = true) ∧
  (0 < 16) ∧
  (((fsb FieldState.saved).fieldAt 0).valid = true) ∧
  (∀ (j : ℕ), j ≠ 0 → ((fsb FieldState.saved).fieldAt j).valid = false) := by
  refine ⟨?_, ?_, ?_, ?_, ?_, ?_, ?_, ?_, ?_, ?_, ?_, ?_, ?_, ?_, by exact fields_all (p := fun j f => j ≠ 0 → f.valid = false) _ (by decide +kernel) (fun _ _ _ => rfl)⟩ <;> decide +kernel

/-- A state and operands that meet the hypotheses of `Obligations.PowerAndDurability`, part 2. -/
theorem witness_ReplayAndDurableSetControl :
  (0 < 16) ∧
  ((sample167.fieldAt 0).valid = true) ∧
  (bits (6917529027641081855#64) 63 62 ≠ 3) ∧
  ((6917529027641081855#64).getLsbD 63 = false) ∧
  ((sample168.fieldAt 0).valid = true) ∧
  (bits (14987979559889010688#64) 63 62 = 3) ∧
  ((sample169.fieldAt 0).valid = true) ∧
  (BitVec.getLsbD dsv 63 = true) ∧
  (sample169.durableSet 0 (dsv &&& 9227875636482146303#64) = some [[131072, 65536, 0, 0]]) ∧
  (100 * 2 ^ 30 < (List.map (fun d => d[1]?.getD 0) [[131072, 65536, 0, 0]]).sum ∨ ([[131072, 65536, 0, 0]].any fun d => d[3]?.getD 0 % 2 == 1) = false) ∧
  ((sample170.fieldAt 0).valid = true) ∧
  (sample170.durableSet 0 (dsv &&& 9227875636482146303#64) = some [[131072, 65536, 0, 1]]) ∧
  (∀ (j : ℕ), j ≠ 0 → (sample170.fieldAt j).dsetLen = 0) ∧
  ((List.map (fun d => d[1]?.getD 0) [[131072, 65536, 0, 1]]).sum ≤ 100 * 2 ^ 30) ∧
  (([[131072, 65536, 0, 1]].any fun d => d[3]?.getD 0 % 2 == 1) = true) ∧
  (((divAt (2 ^ 20)).fieldAt 0).valid = true) ∧
  ((divAt (2 ^ 20)).diverges 0 = true) ∧
  (((divAt 5000).fieldAt 0).valid = true) ∧
  ((divAt 5000).diverges 0 = false) := by
  refine ⟨?_, ?_, ?_, ?_, ?_, ?_, ?_, ?_, ?_, ?_, ?_, ?_, by exact fields_all (p := fun j f => j ≠ 0 → f.dsetLen = 0) _ (by decide +kernel) (fun _ _ _ => rfl), ?_, ?_, ?_, ?_, ?_, ?_⟩ <;> decide +kernel

/-- Every page of HBM stands on one of the FENCED stacks, and not on another. -/
theorem stack_places : ∀ n : Fin 36, (let die := (allDies.filter fun d => kindOf d == some 2)[n.val]?.getD 0
    kindOf die = some 2 ∧ (sev2.chip die).bus = .fenced) ∧
    (let d := ((allDies.filter fun d => kindOf d == some 2)[n.val]?.getD 0); ∃ e ∈ [2, 3], kindOf e = some 2 ∧ (sev2.chip e).bus = .fenced ∧ (d == e) = false) := by
  decide +kernel

theorem stack_holds (phys : Nat) (h : phys < hbmBytes) : ∃ die, kindOf die = some 2 ∧ (sev2.chip die).bus = .fenced ∧ onStack die phys = true := by
  have q := (stack_places ⟨Config.stackOf phys % 36, Nat.mod_lt _ (by decide)⟩).1
  refine ⟨stackDie phys, q.1, q.2, ?_⟩
  rw [onStack, show kindOf (stackDie phys) = some 2 from q.1]
  simp [h]

theorem stack_else (phys : Nat) (_h : phys < hbmBytes) : ∃ die, kindOf die = some 2 ∧ (sev2.chip die).bus = .fenced ∧ onStack die phys = false := by
  obtain ⟨e, -, k, f, n⟩ := (stack_places ⟨Config.stackOf phys % 36, Nat.mod_lt _ (by decide)⟩).2
  exact ⟨e, k, f, by simp only [onStack, stackDie, Bool.and_eq_false_iff]; exact .inr n⟩

theorem sev3_stack : ∃ die, kindOf die = some 2 ∧ (sev3.chip die).bus = .fenced ∧ pg2 ∈ sev3.stackPages die := by
  obtain ⟨d, h, f, o⟩ := stack_holds pg2.phys (by decide +kernel)
  exact ⟨d, h, f, by unfold State.stackPages; rw [sev3_pages]; simp [-BitVec.getLsbD_eq_getElem, o, show (!pg2.pte.getLsbD 5) = true by decide +kernel, show remotePhys pg2.phys = false by decide +kernel]⟩

/-- A state and operands that meet the hypotheses of `Obligations.PowerAndDurability`, part 3. -/
theorem witness_EvacuationMovesOrLosesPages :
  (kindOf 2 = some 2) ∧
  ((sev1.chip 2).bus = BusState.fenced) ∧
  ((sev1.hostAt 0).running = []) ∧
  ((sev1.hostAt 1).running = []) ∧
  (∀ (i : ℕ), (sev1.fieldAt i).valid = true → (sev1.fieldAt i).stat = FieldState.saved ∨ (sev1.fieldAt i).stat = FieldState.killed) ∧
  (sev1.allPages = []) ∧
  ((sev2.chip 2).bus = BusState.fenced) ∧
  ((sev2.hostAt 0).running = []) ∧
  ((sev2.hostAt 1).running = []) ∧
  (∀ (i : ℕ), (sev2.fieldAt i).valid = true → (sev2.fieldAt i).stat = FieldState.saved ∨ (sev2.fieldAt i).stat = FieldState.killed) ∧
  (sev2.allPages = [pg2]) ∧
  (BitVec.getLsbD pg2.pte 5 = false) ∧
  (remotePhys pg2.phys = false) ∧
  (sev2.poison = []) ∧
  (∃ die, kindOf die = some 2 ∧ (sev2.chip die).bus = .fenced ∧ onStack die pg2.phys = true) ∧
  (∃ die, kindOf die = some 2 ∧ (sev2.chip die).bus = .fenced ∧ onStack die pg2.phys = false) ∧
  ((sev3.fieldAt 0).valid = true) ∧
  ((sev3.fieldAt 0).stat = .running) ∧
  (pg2.ctx = (sev3.fieldAt 0).ctx) ∧
  (∃ die, kindOf die = some 2 ∧ (sev3.chip die).bus = .fenced ∧ pg2 ∈ sev3.stackPages die) := by
  refine ⟨?_, ?_, ?_, ?_, by exact fields_all (p := fun _ f => f.valid = true → f.stat = .saved ∨ f.stat = .killed) _ (by decide +kernel) (fun _ _ h => by cases h), ?_, ?_, ?_, ?_, by exact fields_all (p := fun _ f => f.valid = true → f.stat = .saved ∨ f.stat = .killed) _ (by decide +kernel) (fun _ _ h => by cases h), by exact sev2_pages, ?_, ?_, ?_, stack_holds _ (by decide +kernel), stack_else _ (by decide +kernel), ?_, ?_, ?_, sev3_stack⟩ <;> decide +kernel

/-- A state and operands that meet the hypotheses of `Obligations.HostSemaphoresAndPosts`. -/
theorem witness_SemaphoresPostsAndLinkDown :
  (1 < 2) ∧
  ((sample171.hostAt 1).up = true) ∧
  (sample171.sem ↑3 ≠ 0#2) ∧
  (sample171.sem ↑3 = BitVec.ofNat 2 (1 + 1)) ∧
  (((he id s0).hostAt 1).up = true) ∧
  ((he id s0).sem ↑3 = 0#2) ∧
  ((he id s0).semTie < 2) ∧
  ((sample172.hostAt 1).up = true) ∧
  (sample172.fieldNamed (bits (BitVec.ofNat 64 (21 * 2 ^ 16 + 9)) 25 16) (bits (BitVec.ofNat 64 (21 * 2 ^ 16 + 9)) 15 0) = some 0) ∧
  ((sample172.fieldAt 0).stat = FieldState.killed) ∧
  ((sample173.hostAt 1).up = true) ∧
  (sample173.fieldNamed (bits (BitVec.ofNat 64 (21 * 2 ^ 16 + 9)) 25 16) (bits (BitVec.ofNat 64 (21 * 2 ^ 16 + 9)) 15 0) = some 0) ∧
  ((sample173.fieldAt 0).stat ≠ FieldState.killed) ∧
  ((65856#64).toNat % 64 = 0) ∧
  (sample173.dispatchRead 0 (65856#64) 64 = Except.ok (sample174.1, sample174.2)) ∧
  (sample174.1.acceptCard 0 sample174.2 0 0 true = Posted.refused) ∧
  ((sample172.fieldNamed (bits (BitVec.ofNat 64 (21 * 2 ^ 16 + 9)) 25 16) (bits (BitVec.ofNat 64 (21 * 2 ^ 16 + 9)) 15 0)).isSome = true) ∧
  ((sample172.fieldAt (someOr 0 (sample172.fieldNamed (bits (BitVec.ofNat 64 (21 * 2 ^ 16 + 9)) 25 16) (bits (BitVec.ofNat 64 (21 * 2 ^ 16 + 9)) 15 0)))).stat = FieldState.killed) ∧
  ((sample175.hostAt 1).up = true) ∧
  ((he id s0).sem ↑3 ≠ BitVec.ofNat 2 (1 + 1) ∨ 5#64 ≠ 0#64) ∧
  ((he id s0).fieldNamed (bits (BitVec.ofNat 64 (21 * 2 ^ 16 + 8)) 25 16) (bits (BitVec.ofNat 64 (21 * 2 ^ 16 + 8)) 15 0) = none) ∧
  (((spo okcb []).hostAt 1).up = true) ∧
  ((spo okcb []).fieldNamed (bits (BitVec.ofNat 64 (21 * 2 ^ 16 + 9)) 25 16) (bits (BitVec.ofNat 64 (21 * 2 ^ 16 + 9)) 15 0) = some 0) ∧
  (((spo okcb []).fieldAt 0).stat ≠ FieldState.killed) ∧
  ((spo okcb []).dispatchRead 0 (65856#64) 64 = Except.ok (sample176.1, sample176.2)) ∧
  (sample176.1.acceptCard 0 sample176.2 0 0 true = Posted.accepted sample177.1 sample177.2) ∧
  ((sample178.hostAt 1).up = true) ∧
  (sample178.fieldNamed (bits (BitVec.ofNat 64 (21 * 2 ^ 16 + 9)) 25 16) (bits (BitVec.ofNat 64 (21 * 2 ^ 16 + 9)) 15 0) = some 0) ∧
  ((sample178.fieldAt 0).stat ≠ FieldState.killed) ∧
  ((65857#64).toNat % 64 ≠ 0) ∧
  ((spof.hostAt 1).up = true) ∧
  (spof.fieldNamed (bits (BitVec.ofNat 64 (21 * 2 ^ 16 + 9)) 25 16) (bits (BitVec.ofNat 64 (21 * 2 ^ 16 + 9)) 15 0) = some 0) ∧
  ((spof.fieldAt 0).stat ≠ FieldState.killed) ∧
  (spof.dispatchRead 0 (65856#64) 64 = Except.ok ((rdx spof).1, (rdx spof).2)) ∧
  ((rdx spof).1.acceptCard 0 (rdx spof).2 0 0 true = Posted.full) ∧
  (sample172.serves 1 = true) ∧
  (sample173.serves 1 = true) ∧
  ((he id s0).serves 1 = true) ∧
  ((spo okcb []).serves 1 = true) ∧
  (sample178.serves 1 = true) ∧
  (spof.serves 1 = true) ∧
  ((hup (he id s0)).serves 1 = false) ∧
  (sample171.exposed 1 = true) ∧
  ((he id s0).exposed 1 = true) ∧
  (((he id (pw true)).hostAt 1).up = true) ∧
  ((he id (pw true)).exposed 1 = false) := by
  refine ⟨?_, ?_, ?_, ?_, ?_, ?_, ?_, ?_, ?_, ?_, ?_, ?_, ?_, ?_, by rfl, ?_, ?_, ?_, ?_, ?_, ?_, ?_, ?_, ?_, by rfl, by rfl, ?_, ?_, ?_, ?_, ?_, ?_, ?_, by rfl, ?_, ?_, ?_, ?_, ?_, ?_, ?_, ?_, ?_, ?_, ?_, ?_⟩ <;> decide +kernel

/-- A state and operands that meet the hypotheses of `Obligations.HostDmaAndBar4`. -/
theorem witness_HostDmaAndBar4 :
  (1 < 2) ∧
  (sample179.serves 1 = true) ∧
  (4660 + [4#8, 5#8].length ≤ 1728 * 10 ^ 9) ∧
  (sample179.poison = []) ∧
  ((sample180.hostAt 1).running = [(3, sample181)]) ∧
  ((sample180.hostAt 1).finished = []) ∧
  ((sample180.hostAt 1).dqdone.toNat = 3) ∧
  (descOkDma sample181 = true) ∧
  (descWord sample181 0 + descWord sample181 2 ≤ 1728 * 10 ^ 9) ∧
  (sample180.poison = []) ∧
  (descWord sample181 3 % 2 = 0) ∧
  ((4294967296#64).getLsbD 32 = true) ∧
  (((he id s0).hostAt 1).dqbase = 0#64) ∧
  ((9223372041149743104#64).getLsbD 32 = false ∨ (sample182.hostAt 1).dqbase ≠ 0#64) ∧
  ((sample179.hostAt 1).running = [(3, sample183)]) ∧
  ((sample179.hostAt 1).finished = []) ∧
  ((sample179.hostAt 1).dqdone.toNat = 3) ∧
  (descOkDma sample183 = false) ∧
  (sample184.serves 1 = true) ∧
  (BitVec.getLsbD (sample184.hostAt 1).dqctl 32 = true) ∧
  ((sample184.hostAt 1).dqhead ≠ (sample184.hostAt 1).dqtail) ∧
  (descWord (sample184.hostMem.getBytes (bits (sample184.hostAt 1).dqbase 63 12 * 4096 + (sample184.hostAt 1).dqhead.toNat % 2 ^ bits (sample184.hostAt 1).dqbase 4 0 * 32) 32) 3 / 4 % 2 = 0 ∨ (sample184.hostAt 1).running = []) ∧
  (sample185.serves 1 = true) ∧
  (BitVec.getLsbD (sample185.hostAt 1).dqctl 32 = true) ∧
  ((sample185.hostAt 1).dqhead = (sample185.hostAt 1).dqtail ∨ descWord (sample185.hostMem.getBytes (bits (sample185.hostAt 1).dqbase 63 12 * 4096 + (sample185.hostAt 1).dqhead.toNat % 2 ^ bits (sample185.hostAt 1).dqbase 4 0 * 32) 32) 3 / 4 % 2 = 1 ∧ (sample185.hostAt 1).running ≠ []) ∧
  ((sample186.hostAt 1).running = [(3, sample187)]) ∧
  ((sample186.hostAt 1).finished = []) ∧
  ((sample186.hostAt 1).dqdone.toNat = 3) ∧
  (descOkDma sample187 = true) ∧
  (descWord sample187 0 + descWord sample187 2 ≤ 1728 * 10 ^ 9) ∧
  (sample186.poison = []) ∧
  (descWord sample187 3 % 2 = 1) ∧
  (sample180.serves 1 = true) ∧
  (sample186.serves 1 = true) ∧
  ((he id s0).exposed 1 = true) ∧
  (sample182.exposed 1 = true) ∧
  ((he id (pw true)).exposed 1 = false) := by
  refine ⟨?_, ?_, ?_, ?_, ?_, ?_, ?_, ?_, ?_, ?_, ?_, ?_, ?_, ?_, ?_, ?_, ?_, ?_, ?_, ?_, ?_, ?_, ?_, ?_, ?_, ?_, ?_, ?_, ?_, ?_, ?_, ?_, ?_, ?_, ?_, ?_, ?_⟩ <;> decide +kernel

/-- A state and operands that meet the hypotheses of `Obligations.HostAndConfigurationRegisters`, part 1. -/
theorem witness_AttestationAndFirmware :
  (1 < 2) ∧
  (sample188.serves 1 = true) ∧
  ((sample188.hostAt 1).attBusy = true) ∧
  ((pw true).modState.powered = true) ∧
  ((pw true).modState.recovery = true) ∧
  ((pw false).modState.powered = true) ∧
  ((pw false).modState.recovery = false) ∧
  ((pw false).modState.master.isSome = true) ∧
  ((pw true).modState.holdup = false) ∧
  ((pw false).modState.holdup = false) ∧
  ((pwu [0, 4]).modState.powered = true) ∧
  ((pwu [0, 4]).modState.holdup = false) ∧
  ((pwu [0, 4]).modState.recovery = false) ∧
  ((pwu [0, 4]).modState.master.isSome = true) ∧
  ((pwu [0, 4]).modState.update = some (img0, [0, 4])) := by
  refine ⟨?_, ?_, ?_, ?_, ?_, ?_, ?_, ?_, ?_, ?_, ?_, ?_, ?_, ?_, ?_⟩ <;> decide +kernel

/-- A state and operands that meet the hypotheses of `Obligations.HostAndConfigurationRegisters`, part 2. -/
theorem witness_ConfigurationRegistersAreWritten :
  (s0.answers 21 = true) ∧
  (hasCores 21 = true) ∧
  (3 < 16) ∧
  (BitVec.toNat (1311768467463790320#64 &&& 18446744073709486080#64) % 2 ^ bits (lookupD (s0.chip 21).hwin 3 (0#64, 0#64)).2 49 44 = 0) ∧
  (isCompute 21 = true) ∧
  ((s0.fieldAnchored 21).isSome = true) ∧
  ((s0.fieldAt (someOr 0 (s0.fieldAnchored 21))).stat = FieldState.running) ∧
  (1 < 2) ∧
  (sample189.exposed 1 = true) ∧
  ((sample189.hostAt 1).nonce.length = 32) ∧
  (s0m.answers 80 = true) ∧
  (kindOf 80 = some 3) ∧
  (s0m.modState.master ≠ some 80) ∧
  (s0.answers 23 = false) ∧
  (s0.answers 80 = true) ∧
  (s0.modState.master = some 80) ∧
  (s0.fieldAnchored 21 = some 0) ∧
  ((s0.fieldAt 0).stat = FieldState.running) ∧
  (swin.answers 21 = true) ∧
  (BitVec.toNat (65536#64 &&& 18446744073709486080#64) % 2 ^ bits (lookupD (swin.chip 21).hwin 3 (0#64, 0#64)).2 49 44 ≠ 0) ∧
  ((swin.fieldAnchored 21).isSome = true) ∧
  ((swin.fieldAt (someOr 0 (swin.fieldAnchored 21))).stat = FieldState.running) ∧
  (s0.answers 23 = false ∧ 0x10 ≤ 0x200) ∧
  (0x4000 ≤ 0x4000 ∧ 0x4000 < 0x6000) ∧
  ((kindOf 21).isSome = true) := by
  refine ⟨?_, ?_, ?_, ?_, ?_, ?_, ?_, ?_, ?_, ?_, ?_, ?_, ?_, ?_, ?_, ?_, ?_, ?_, ?_, ?_, ?_, ?_, ?_, ?_, ?_⟩ <;> decide +kernel

end Sys2Proof.Tests
end

section
/-!
SUPPORT. What an instruction that issues reads and writes: the scalar operands keep their values from before its issue, and
repetition does not renumber them.
-/

namespace Sys2Proof.Machine

/-! ### What booking a result and issuing leave -/

/-- A scalar result under way is noted on the timetable only (spec/08 R155). -/
theorem Core.deliverIn_board (c : Core) (d : Operand) (lat : Nat) : ∃ b, c.deliverIn d lat = { c with board := b } := by
  unfold Core.deliverIn
  split
  · split <;> exact ⟨_, rfl⟩
  · exact ⟨_, rfl⟩

/-- Booking an instruction changes the timetable only. -/
theorem Core.book_board (c : Core) (f : Form) (x : Args) : ∃ b, c.book f x = { c with board := b } := by
  obtain ⟨b, hb⟩ : ∃ b, (if f.lat = 0 then c else c.deliverIn x.d f.lat) = { c with board := b } := by
    split
    · exact ⟨_, rfl⟩
    · exact c.deliverIn_board x.d f.lat
  simp only [Core.book, hb]
  split <;> exact ⟨_, rfl⟩

/-- The issue of an instruction changes the clocked core in its timetable only. -/
theorem State.begun_board (s : State) (f : Form) (x : Args) :
    ∃ b, (s.begun f x).core = { (s.clock x.head).core with board := b } := by
  simp only [State.begun, State.modC_core]
  split
  · exact Core.book_board ..
  · exact ⟨_, rfl⟩

/-- Neither the clock nor the timetable touches what scalar operands are read from. -/
theorem State.begun_scalars (s : State) (f : Form) (x : Args) :
    (s.begun f x).core.regs = s.core.regs ∧ (s.begun f x).core.preds = s.core.preds ∧ (s.begun f x).core.q = s.core.q := by
  obtain ⟨b, hb⟩ := s.begun_board f x
  rw [hb, s.clock_eq]
  exact ⟨rfl, rfl, rfl⟩

/-! ### Scalar operands -/

/-- A scalar operand's value depends on the registers, the predicates and the queue only (R178). -/
theorem Core.value_congr {c d : Core} (hr : c.regs = d.regs) (hp : c.preds = d.preds) (hq : c.q = d.q) (o : Operand) :
    c.value o = d.value o := by
  cases o <;> simp [Core.value, Core.readS, Core.readP, Core.readQ, hr, hp, hq]

theorem Core.alternative_congr {c d : Core} (hr : c.regs = d.regs) (hq : c.q = d.q) (o : Operand) :
    c.alternative o = d.alternative o := by
  cases o <;> simp [Core.alternative, Core.readS, Core.readQ, hr, hq]

/-- Operands have at issue the values they had before it. -/
@[simp] theorem State.begun_value (s : State) (f : Form) (x : Args) (o : Operand) :
    (s.begun f x).core.value o = s.core.value o :=
  have ⟨hr, hp, hq⟩ := s.begun_scalars f x
  Core.value_congr hr hp hq o

@[simp] theorem State.begun_alternative (s : State) (f : Form) (x : Args) (o : Operand) :
    (s.begun f x).core.alternative o = s.core.alternative o :=
  have ⟨hr, _, hq⟩ := s.begun_scalars f x
  Core.alternative_congr hr hq o

/-! ### The operands of a pass -/

/-- Only tiles and slots are renumbered (R47), and no scalar is read from them. -/
theorem Core.value_renumber (c : Core) (r : Word) (o : Operand) : c.value (renumber r o) = c.value o := by
  cases o <;> rfl

theorem Core.alternative_renumber (c : Core) (r : Word) (o : Operand) : c.alternative (renumber r o) = c.alternative o := by
  cases o <;> rfl

theorem Core.writeD_renumber (c : Core) (r : Word) (o : Operand) (v : Word) : c.writeD (renumber r o) v = c.writeD o v := by
  cases o <;> rfl

theorem f32Value_renumber (r : Word) (o : Operand) (w : Word) : f32Value (renumber r o) w = f32Value o w := by
  cases o <;> rfl

/-- The operands of a pass are those of the word, or these renumbered (R47). -/
theorem passArgs_cases (x : Args) (r : Word) :
    passArgs x r = x ∨ passArgs x r = { x with d := renumber r x.d, a := renumber r x.a, b := renumber r x.b } := by
  unfold passArgs
  split
  · exact .inr rfl
  · exact .inl rfl

@[simp] theorem Core.value_passArgs_a (c : Core) (x : Args) (r : Word) : c.value (passArgs x r).a = c.value x.a := by
  obtain h | h := passArgs_cases x r <;> simp [h, Core.value_renumber]
@[simp] theorem Core.value_passArgs_b (c : Core) (x : Args) (r : Word) : c.value (passArgs x r).b = c.value x.b := by
  obtain h | h := passArgs_cases x r <;> simp [h, Core.value_renumber]
@[simp] theorem Core.alternative_passArgs_d (c : Core) (x : Args) (r : Word) :
    c.alternative (passArgs x r).d = c.alternative x.d := by
  obtain h | h := passArgs_cases x r <;> simp [h, Core.alternative_renumber]
@[simp] theorem Core.writeD_passArgs_d (c : Core) (x : Args) (r v : Word) :
    c.writeD (passArgs x r).d v = c.writeD x.d v := by
  obtain h | h := passArgs_cases x r <;> simp [h, Core.writeD_renumber]
@[simp] theorem f32Value_passArgs_a (x : Args) (r w : Word) : f32Value (passArgs x r).a w = f32Value x.a w := by
  obtain h | h := passArgs_cases x r <;> simp [h, f32Value_renumber]
@[simp] theorem f32Value_passArgs_b (x : Args) (r w : Word) : f32Value (passArgs x r).b w = f32Value x.b w := by
  obtain h | h := passArgs_cases x r <;> simp [h, f32Value_renumber]

/-! ### Instructions whose only effect is on the core -/

/-- An instruction that issues and whose body only changes the core: the change counts as it is on the core at issue. -/
theorem issue_modC {form : Form} {x : Args} {s : State} {g : Args → Core → Core} {k : Core → Core}
    (h : s.issues form x = true)
    (hg : g (passArgs x s.core.sys.repst) (s.begun form x).core = k (s.begun form x).core) :
    issue form x s (fun y t => .done (t.modC (g y))) = .next (s.finishes form x k) := by
  rw [issue_eq form x s _ h]
  simp only [Res.settle, State.finishes, State.modC, hg]

/-- A scalar instruction that issues: the result of its operands' values goes to D (R178). -/
theorem scalarOp_eq (x : Args) (s : State) (f : Word → Word → Word) (form : Form) (h : s.issues form x = true) :
    scalarOp x s f form = .next (s.finishes form x fun c => c.writeD x.d (f (s.core.value x.a) (s.core.value x.b))) :=
  issue_modC (g := fun y c => c.writeD y.d (f (c.value y.a) (c.value y.b))) h (by simp)

end Sys2Proof.Machine
end

section
/-!
SUPPORT. The result functions of the integer instructions, each as the table of R180 has it.
-/

namespace Sys2Proof.Claims

open Sys2Proof.Machine

/-- MULH: the high half of the signed product (R180). -/
theorem mulHigh_eq_extract (a b : Word) :
    mulHigh a b = (a.signExtend 128 * b.signExtend 128).extractLsb' 64 64 := by
  have product : a.signExtend 128 * b.signExtend 128 = BitVec.ofInt 128 (a.toInt * b.toInt) :=
    (BitVec.ofInt_mul ..).symm
  rw [product, mulHigh]
  generalize a.toInt * b.toInt = p
  apply BitVec.eq_of_toNat_eq
  simp only [BitVec.toNat_ofInt, BitVec.extractLsb'_toNat, Nat.shiftRight_eq_div_pow]
  omega

/-- MULHN: the high half of the unsigned product (R180). -/
theorem mulHighN_eq_extract (a b : Word) :
    mulHighN a b = (a.zeroExtend 128 * b.zeroExtend 128).extractLsb' 64 64 := by
  have product : a.zeroExtend 128 * b.zeroExtend 128 = BitVec.ofNat 128 (a.toNat * b.toNat) := by
    apply BitVec.eq_of_toNat_eq
    simp
  rw [product, mulHighN]
  generalize a.toNat * b.toNat = p
  apply BitVec.eq_of_toNat_eq
  simp only [BitVec.toNat_ofNat, BitVec.extractLsb'_toNat, Nat.shiftRight_eq_div_pow]
  omega

/-- DIV and MOD are divide(a, b, 1) of R181: the one quotient that does not fit in 64 bits wraps to the value R181 names. -/
theorem divideSigned_eq (a b : Word) : divideSigned a b = divide a b true := by
  unfold divideSigned divide
  split
  · rfl
  · split
    next h =>
      obtain ⟨-, rfl, rfl⟩ := h
      decide
    next => rw [if_pos rfl, Int.tmod_def, Int.mul_comm]

/-- DIVN and MODN are divide(a, b, 0) of R181. -/
theorem divideUnsigned_eq (a b : Word) : divideUnsigned a b = divide a b false := by
  have quotient : a / b = BitVec.ofNat 64 (a.toNat / b.toNat) := by
    rw [← BitVec.toNat_udiv, BitVec.ofNat_toNat, BitVec.setWidth_eq]
  have remainder : a % b = BitVec.ofNat 64 (a.toNat - a.toNat / b.toNat * b.toNat) := by
    rw [Nat.mul_comm, ← Nat.mod_eq_sub, ← BitVec.toNat_umod, BitVec.ofNat_toNat, BitVec.setWidth_eq]
  simp [divideUnsigned, divide, quotient, remainder]

/-- SHA rounds toward minus infinity: a floor division by a power of two. -/
theorem sshiftRight_eq_div (a : Word) (n : Nat) : a.sshiftRight n = BitVec.ofInt 64 (a.toInt / 2 ^ n) := by
  rw [BitVec.sshiftRight, Int.shiftRight_eq_div_pow]
  rfl

/-- ROL as two shifts; by 0 the right one, by 64, is zero. -/
theorem rotateLeft_eq_shifts (a : Word) (n : Nat) :
    a.rotateLeft (n % 64) = (a <<< (n % 64)) ||| (a >>> (64 - n % 64)) := by
  rw [BitVec.rotateLeft_def, Nat.mod_mod]

theorem minSigned_eq (a b : Word) : minSigned a b = if a.toInt ≤ b.toInt then a else b := by
  simp only [minSigned, BitVec.slt_iff_toInt_lt, ← Int.not_le, ite_not]

theorem minUnsigned_eq (a b : Word) : minUnsigned a b = if a.toNat ≤ b.toNat then a else b := by
  simp only [minUnsigned, BitVec.ult_iff_lt, BitVec.lt_def, ← Nat.not_le, ite_not]

/-- MAX takes a where the two are equal, the table b: the same word. -/
theorem maxSigned_eq (a b : Word) : maxSigned a b = if a.toInt ≤ b.toInt then b else a := by
  by_cases h : a.toInt = b.toInt
  · obtain rfl := BitVec.eq_of_toInt_eq h
    simp [maxSigned]
  · simp [maxSigned, BitVec.slt_iff_toInt_lt, Int.lt_iff_le_and_ne, h]

theorem maxUnsigned_eq (a b : Word) : maxUnsigned a b = if a.toNat ≤ b.toNat then b else a := by
  by_cases h : a.toNat = b.toNat
  · obtain rfl := BitVec.eq_of_toNat_eq h
    simp [maxUnsigned]
  · simp [maxUnsigned, BitVec.ult_iff_lt, BitVec.lt_def, Nat.lt_iff_le_and_ne, h]

/-! ### Counting bits -/

/-- Of the numbers below n, those before the first that fails a test. -/
theorem length_takeWhile_range {n k : Nat} {p : Nat → Bool} (hk : k ≤ n) (pass : ∀ j < k, p j = true)
    (fail : k < n → p k = false) : ((List.range n).takeWhile p).length = k := by
  obtain ⟨m, rfl⟩ := Nat.exists_eq_add_of_le hk
  rw [List.range_add, List.takeWhile_append_of_pos fun j hj => pass j (List.mem_range.mp hj)]
  cases m with
  | zero => simp
  | succ m => simp [List.range_succ_eq_map, fail]

/-- CLZ: the highest set bit of a word is at the binary logarithm of its value. -/
theorem leadingZeros_eq (a : Word) :
    leadingZeros a = BitVec.ofNat 64 ((List.range 64).takeWhile fun k => !a.getLsbD (63 - k)).length := by
  have count : ((List.range 64).takeWhile fun k => !a.getLsbD (63 - k)).length =
      if a = 0#64 then 64 else 63 - Nat.log2 a.toNat := by
    split
    next h =>
      subst h
      exact length_takeWhile_range (Nat.le_refl 64) (by simp) (by simp)
    next h =>
      have pos : a.toNat ≠ 0 := fun e => h (BitVec.eq_of_toNat_eq e)
      have top : Nat.log2 a.toNat < 64 := (Nat.log2_lt pos).mpr a.isLt
      refine length_takeWhile_range (by omega) (fun j hj => ?_) (fun _ => ?_)
      · have above : a.toNat < 2 ^ (63 - j) := (Nat.log2_lt pos).mp (by omega)
        simp [BitVec.getLsbD, Nat.testBit_lt_two_pow above]
      · rw [show 63 - (63 - Nat.log2 a.toNat) = Nat.log2 a.toNat by omega]
        simp [BitVec.getLsbD, Nat.testBit_log2 pos]
  rw [leadingZeros, count]

/-- CTZ: the first set bit, or 64. -/
theorem trailingZeros_eq (a : Word) :
    trailingZeros a = BitVec.ofNat 64 ((List.range 64).takeWhile fun k => !a.getLsbD k).length := by
  have count : ((List.range 64).takeWhile fun k => !a.getLsbD k).length =
      ((List.range 64).find? fun k => a.getLsbD k).getD 64 := by
    cases h : (List.range 64).find? fun k => a.getLsbD k with
    | none => exact length_takeWhile_range (Nat.le_refl 64) (List.find?_range_eq_none.mp h) (by simp)
    | some k =>
      obtain ⟨found, inWord, before⟩ := List.find?_range_eq_some.mp h
      exact length_takeWhile_range (List.mem_range.mp inWord).le before (by simp [found])
  rw [trailingZeros, count]

theorem popCount_eq (a : Word) : popCount a = BitVec.ofNat 64 ((List.range 64).countP fun k => a.getLsbD k) := by
  rw [popCount, List.countP_eq_length_filter]

/-! ### Bit fields -/

/-- A LEN field of 0 is written as a word and as a number. -/
theorem lenOf_eq_len (m : BitVec 6) : lenOf m = len m := by
  simp [lenOf, len, ← BitVec.toNat_inj]

/-- The signed value of the low n bits. -/
theorem signed_eq_toInt (a : Word) (n : Nat) : signed a.toNat n = (a.setWidth n).toInt := by
  simp [signed, BitVec.toInt_eq_toNat_cond]

theorem signExtendLen_eq (a : Word) (m : BitVec 6) :
    signExtendLen a (lenOf m) = (a.setWidth (len m)).signExtend 64 := by
  rw [signExtendLen, signed_eq_toInt, lenOf_eq_len]
  rfl

theorem zeroExtendLen_eq (a : Word) (m : BitVec 6) :
    zeroExtendLen a (lenOf m) = (a.setWidth (len m)).setWidth 64 := by
  apply BitVec.eq_of_toNat_eq
  simp [zeroExtendLen, lenOf_eq_len]

theorem insertMask_eq_fieldMask (m : PosLen) : insertMask m = fieldMask m := by
  rw [insertMask, lenOf_eq_len, fieldMask]

/-! ### The table -/

/-- The timed figures of a multiply and of a divide (spec/08 R155), as the table has them. -/
theorem mulForm_eq : mulForm = takesCycles 3 := rfl
theorem divForm_eq : divForm = { takesCycles 20 with divides := true } := rfl

/-- Each integer instruction is the shared scalar operation with the form and the result function of its row; an instruction
without a row is none of them. -/
theorem exec_of_integerRow {i : Instr} {form : Form} {x : Args} {f : Word → Word → Word}
    (row : integerRow i = some (form, x, f)) (s : State) : exec i s = scalarOp x s f form := by
  cases i <;> cases row
  case add_ | sub_ | mul_ | and_ | or_ | xor_ | andn | orn | shl | shr | mov | lea | liw => rfl
  case mulh => show execMulh x s = _; simp only [execMulh, mulHigh_eq_extract, mulForm_eq]
  case mulhn => show execMulhn x s = _; simp only [execMulhn, mulHighN_eq_extract, mulForm_eq]
  case div_ => show execDiv x s = _; simp only [execDiv, divideSigned_eq, divForm_eq]
  case divn => show execDivn x s = _; simp only [execDivn, divideUnsigned_eq, divForm_eq]
  case mod_ => show execMod x s = _; simp only [execMod, divideSigned_eq, divForm_eq]
  case modn => show execModn x s = _; simp only [execModn, divideUnsigned_eq, divForm_eq]
  case sha => show execSha x s = _; simp only [execSha, sshiftRight_eq_div]
  case rol => show execRol x s = _; simp only [execRol, rotateLeft_eq_shifts]
  case min_ => show execMin x s = _; simp only [execMin, minSigned_eq]
  case max_ => show execMax x s = _; simp only [execMax, maxSigned_eq]
  case minn => show execMinn x s = _; simp only [execMinn, minUnsigned_eq]
  case maxn => show execMaxn x s = _; simp only [execMaxn, maxUnsigned_eq]
  case clz => show execClz x s = _; simp only [execClz, leadingZeros_eq]
  case ctz => show execCtz x s = _; simp only [execCtz, trailingZeros_eq]
  case popc => show execPopc x s = _; simp only [execPopc, popCount_eq]
  case sext m => show execSext x m s = _; simp only [execSext, signExtendLen_eq]
  case zext m => show execZext x m s = _; simp only [execZext, zeroExtendLen_eq]
  case bfx m => show execBfx x m s = _; simp only [execBfx, extractField, zeroExtendLen_eq]
  case bfi m => show execBfi x m s = _; simp only [execBfi, insertField, insertMask_eq_fieldMask]

/-- Settles O12: the result functions of the model are those of R180 and R181, and the shared scalar operation delivers them. -/
theorem integerResults : Obligations.IntegerResults := by
  intro i s form x f row issues
  rw [exec_of_integerRow row, scalarOp_eq x s f form issues]

end Sys2Proof.Claims
end

section
/-!
SUPPORT. The instructions that read their destination (R183, R185), and the values a push leaves in the queue (R46).
-/

namespace Sys2Proof.Claims

open Sys2Proof.Machine

/-- A push puts its value at age 0 and makes every other value one older (R46). -/
theorem readQ_push (c : Core) (v : Word) (age : BitVec 4) :
    (c.push v).readQ age = if age = 0#4 then v else c.readQ (age - 1#4) := by
  have newest : age.toFin.val = 0 ↔ age = 0#4 := by simp [← BitVec.toNat_inj]
  rw [Core.readQ, Core.push, Vector.get_ofFn]
  simp only [newest]
  rfl

/-- A scalar instruction that also reads its destination: S[D] or Q(0) as it stands before the issue. -/
theorem scalarOpD_eq (x : Args) (s : State) (f : Word → Word → Word → Word) (h : s.issues (readsBack x 1) x = true) :
    scalarOpD x s f = .next (s.finishes (readsBack x 1) x fun c =>
      c.writeD x.d (f (s.core.value x.a) (s.core.value x.b) (s.core.alternative x.d))) :=
  issue_modC (g := fun y c => c.writeD y.d (f (c.value y.a) (c.value y.b) (c.alternative y.d))) h (by simp)

/-- SEL takes b where its predicate holds (R183). -/
theorem exec_sel {x : Args} {s : State} {n : BitVec 3} {inv : Bool} (ha : x.a = .p n inv)
    (h : s.issues (readsBack x 1) x = true) :
    exec (.sel x) s = .next (s.finishes (readsBack x 1) x fun c =>
      c.writeD x.d (if s.core.readP n != inv then s.core.value x.b else s.core.alternative x.d)) := by
  have taken (b alt : Word) : (if s.core.value x.a = 1#64 then b else alt) = if s.core.readP n != inv then b else alt := by
    rw [ha, Core.value]
    cases s.core.readP n != inv <;> rfl
  have e := scalarOpD_eq x s (fun a b alt => if a = 1#64 then b else alt) h
  simp only [taken] at e
  exact e

/-- FFMA rounds once (R185). -/
theorem exec_ffma {x : Args} {s : State} (m : BitVec 2) (h : s.issues (readsBack x 4) x = true) :
    exec (.ffma x m) s = .next (s.finishes (readsBack x 4) x fun c =>
      c.writeD x.d (toF32 (roundingOf m) (((f32 s.core x.a).mul (f32 s.core x.b)).add (roundingOf m)
        (binary32.decode ((s.core.alternative x.d).toNat % 2 ^ 32))))) :=
  issue_modC (g := fun y c => c.writeD y.d (toF32 (roundingOf m) (((f32 c y.a).mul (f32 c y.b)).add (roundingOf m)
    (binary32.decode ((c.alternative y.d).toNat % 2 ^ 32))))) h (by simp [f32])

/-- Settles O14: both instructions read the destination before they write it. -/
theorem selectAndFusedResults : Obligations.SelectAndFusedResults := by
  refine ⟨fun c v => ⟨rfl, readQ_push c v 0#4, readQ_push c v 1#4⟩, fun s x hd issues => ?_⟩
  intro alt
  have destination : s.core.alternative x.d = alt := by
    obtain ⟨n, hd⟩ | hd := hd <;> simp [alt, hd, Core.alternative]
  rw [← destination]
  exact ⟨fun n inv ha => exec_sel ha issues, fun m issues4 => exec_ffma m issues4⟩

end Sys2Proof.Claims
end

section
/-!
SUPPORT. What a decoded word says about its fields, and NOP (R192).
-/

namespace Sys2Proof

/-- A decoded instruction is a word that is none, or well formed with this word as its encoding. -/
theorem decode_ok {w : InstrWord} {i : Instr} (h : decode w = .ok i) :
    i = .wordNotInstruction w ∨ (encode i = some w ∧ WellFormed i = true) := by
  unfold decode at h
  split at h
  · exact .inl (Except.ok.inj h).symm
  · split at h
    · cases h
    · split at h
      next encoded =>
        split at h
        next wf =>
          cases h
          exact .inr ⟨encoded, wf⟩
        · cases h
      · cases h

/-- The low bits of an append, where they reach into its upper part. -/
theorem extractLsb'_append_low {n m : Nat} (k : Nat) (a : BitVec n) (b : BitVec m) :
    (a ++ b).extractLsb' 0 (k + m) = a.extractLsb' 0 k ++ b := by
  ext i hi
  simp only [BitVec.getElem_extractLsb', BitVec.getLsbD_append, BitVec.getElem_append, Nat.zero_add]
  split <;> rfl

/-- OP stands in the top ten bits of a word (spec/07 R139), above the seven other parts. -/
theorem pack_op (op : BitVec 10) (x : Args) (m : BitVec 12) : (pack op x m).extractLsb' 86 10 = op := by
  unfold pack
  iterate 7 refine (BitVec.extractLsb'_append_eq_of_le (by decide)).trans ?_
  exact BitVec.extractLsb'_eq_self

/-- D, A, B and MOD stand in bits 81..16 of a word (spec/07 R139), above HINT. -/
theorem pack_fields (op : BitVec 10) (x : Args) (m : BitVec 12) :
    (pack op x m).extractLsb' 16 66 = encodeOperand x.d ++ encodeOperand x.a ++ encodeOperand x.b ++ m := by
  unfold pack
  refine (BitVec.extractLsb'_append_eq_of_le (by decide)).trans ?_
  refine (extractLsb'_append_low 54 _ m).trans (congrArg (· ++ m) ?_)
  refine (extractLsb'_append_low 36 _ (encodeOperand x.b)).trans (congrArg (· ++ encodeOperand x.b) ?_)
  refine (extractLsb'_append_low 18 _ (encodeOperand x.a)).trans (congrArg (· ++ encodeOperand x.a) ?_)
  exact BitVec.extractLsb'_append_eq_right

/-- An unused field is the s0 encoding (spec/07 R142). -/
theorem Operand.isNone_iff (o : Operand) : o.isNone = true ↔ o = .s 0#5 := by
  simp [Operand.isNone]

end Sys2Proof

namespace Sys2Proof.Claims

open Sys2Proof.Machine

/-- NOP's body leaves the state as it is at issue (R192). -/
theorem exec_nop {s : State} {x : Args} (h : s.issues plainForm x = true) :
    exec (.nop x) s = .next (s.finishes plainForm x id) :=
  issue_eq plainForm x s _ h

theorem wellFormed_nop (x : Args) :
    WellFormed (.nop x) = (x.reuseOk && x.d.isNone && x.a.isNone && x.b.isNone) := rfl

/-- A word that decodes as NOP has NOP's OP, and zeros in D, A, B and MOD. -/
theorem fields_of_decode_nop {w : InstrWord} {x : Args} (h : decode w = .ok (.nop x)) :
    w.extractLsb' 86 10 = 0x0C0#10 ∧ w.extractLsb' 16 66 = 0#66 := by
  obtain notOne | ⟨encoded, wf⟩ := decode_ok h
  · cases notOne
  · obtain rfl : pack 0x0c0#10 x 0#12 = w := Option.some.inj encoded
    obtain ⟨⟨⟨-, hd⟩, ha⟩, hb⟩ : ((x.reuseOk ∧ x.d = .s 0#5) ∧ x.a = .s 0#5) ∧ x.b = .s 0#5 := by
      simpa only [wellFormed_nop, Bool.and_eq_true, Operand.isNone_iff] using wf
    rw [pack_op, pack_fields, hd, ha, hb]
    exact ⟨rfl, rfl⟩

/-- Settles O17: the frame around NOP's empty body, the layout of its word, and two words decoded. -/
theorem nopHasNoEffect : Obligations.NopHasNoEffect := by
  refine ⟨fun s x issues => exec_nop issues, fun w x decoded => fields_of_decode_nop decoded, rfl, fun x h => ?_⟩
  have blank : decode 0#96 = .ok (.wordNotInstruction 0#96) := rfl
  cases blank.symm.trans h

end Sys2Proof.Claims
end

section
/-!
SUPPORT. Shape records as TDEF writes them (R200), and an instruction whose own check finds a cause.
-/

namespace Sys2Proof.Machine

/-! ### Bits of a register -/

/-- Bits of an append that stand in its upper part. -/
theorem bits_append_high {n m : Nat} (b : BitVec n) (a : BitVec m) (hi lo : Nat) :
    bits (b ++ a) (hi + m) (lo + m) = bits b hi lo := by
  have upper : (b ++ a).toNat / 2 ^ m = b.toNat := by
    rw [BitVec.toNat_append, ← Nat.shiftRight_eq_div_pow, Nat.shiftRight_or_distrib, Nat.shiftLeft_shiftRight,
      Nat.shiftRight_eq_div_pow, Nat.div_eq_of_lt a.isLt, Nat.or_zero]
  rw [bits, bits, Nat.add_comm lo m, Nat.pow_add, ← Nat.div_div_eq_div_mul, upper]
  congr 2
  omega

/-! ### Shape records -/

@[simp] theorem Core.tile_setTile_same (c : Core) (n : BitVec 5) (r : Shape) : (c.setTile n r).tile n = r :=
  Vector.getElem_set_self n.isLt

@[simp] theorem Core.tile_writeShape_same (c : Core) (n : BitVec 5) (r : Shape) : (c.writeShape n r).tile n = r :=
  c.tile_setTile_same n r

/-- Retirement leaves the shape records. -/
@[simp] theorem State.retire_tile (s : State) (n : BitVec 5) : s.retire.core.tile n = s.core.tile n :=
  congrArg (fun tiles => tiles.get n.toFin) s.retire_core_tiles

/-- An instruction that writes a shape record leaves it in its register when it completes. -/
theorem State.finishes_writeShape_tile (s : State) (f : Form) (x : Args) (n : BitVec 5) (r : Shape) :
    (s.finishes f x fun c => c.writeShape n r).core.tile n = r := by
  simp [State.finishes]

/-! ### Streams at issue -/

/-- The issue of an instruction binds no stream and frees none. -/
@[simp] theorem State.begun_streams (s : State) (f : Form) (x : Args) : (s.begun f x).core.streams = s.core.streams := by
  obtain ⟨b, hb⟩ := s.begun_board f x
  rw [hb]
  exact s.clock_core_streams x.head

@[simp] theorem State.begun_inStream (s : State) (f : Form) (x : Args) (o : Operand) :
    inStream (s.begun f x).core o = inStream s.core o := by
  simp [inStream, Core.stream]

/-! ### The checks of an instruction's body -/

/-- A check that passes. -/
theorem finish_demand_true (s : State) (code : BitVec 8) (k : Unit → Chk State) :
    finish s (demand true code >>= k) = finish s (k ()) := rfl

/-- A check that fails ends the body with its cause. -/
theorem finish_demand_false (s : State) (code : BitVec 8) (k : Unit → Chk State) :
    finish s (demand false code >>= k) = .trap (cause code) s := rfl

theorem finish_pure (s t : State) : finish s (pure t) = .done t := rfl

/-- An instruction that issues and whose body stops for a cause found at its own core. -/
theorem issue_stops {form : Form} {x : Args} {s : State} {body : Args → State → Res} (code : BitVec 8)
    (h : s.issues form x = true)
    (hb : body (passArgs x s.core.sys.repst) (s.begun form x) = .trap (cause code) (s.begun form x)) :
    issue form x s body = .next (s.stops form x (cause code)) := by
  rw [issue_eq form x s body h, hb]
  rfl

/-! ### TDEF -/

/-- TDEF's body on the operands of a pass. -/
def tdefBody (x : Args) (s : State) : Res :=
  finish s do
    demand (!inStream s.core x.d) streamCause
    demand (bits (s.core.value x.b) 63 16 == 0) reservedField
    pure (s.modC fun c => c.writeShape (regOf x.d) (s.core.value x.b ++ s.core.value x.a))

theorem exec_tdef (x : Args) (s : State) : exec (.tdef x) s = issue plainForm x s tdefBody := rfl

/-- A destination in stream mode comes first (R198). -/
theorem tdefBody_stream {x : Args} {s : State} (stream : inStream s.core x.d = true) :
    tdefBody x s = .trap (cause streamCause) s := by
  simp only [tdefBody, stream, Bool.not_true, finish_demand_false]

theorem tdefBody_reserved {x : Args} {s : State} (stream : inStream s.core x.d = false)
    (reserved : bits (s.core.value x.b) 63 16 ≠ 0) : tdefBody x s = .trap (cause reservedField) s := by
  simp only [tdefBody, stream, Bool.not_false, finish_demand_true, beq_false_of_ne reserved, finish_demand_false]

theorem tdefBody_done {x : Args} {s : State} (stream : inStream s.core x.d = false)
    (reserved : bits (s.core.value x.b) 63 16 = 0) :
    tdefBody x s = .done (s.modC fun c => c.writeShape (regOf x.d) (s.core.value x.b ++ s.core.value x.a)) := by
  simp only [tdefBody, stream, Bool.not_false, finish_demand_true, reserved, beq_self_eq_true, finish_pure]

end Sys2Proof.Machine

namespace Sys2Proof.Claims

open Sys2Proof.Machine

/-- Settles O60: STREAM before RESERVED_FIELD, and else the record b ++ a, whose upper bits are those of b. -/
theorem tdefWritesTheRecord : Obligations.TdefWritesTheRecord := by
  intro s x issues y a b
  have stream : inStream (s.begun plainForm x).core y.d = inStream s.core y.d := s.begun_inStream plainForm x y.d
  have value (o : Operand) : (s.begun plainForm x).core.value o = s.core.value o := s.begun_value plainForm x o
  refine ⟨fun hd hb => ⟨_, ?_, rfl, ?_⟩, fun hd hb => ?_, fun hd => ?_⟩
  · rw [exec_tdef, issue_eq plainForm x s tdefBody issues, tdefBody_done (stream.trans hd) (by rwa [value]), value, value]
    rfl
  · rw [State.finishes_writeShape_tile]
    exact ⟨BitVec.extractLsb'_append_eq_right, BitVec.extractLsb'_append_eq_left, (bits_append_high b a 63 16).trans hb⟩
  · exact issue_stops reservedField issues (tdefBody_reserved (stream.trans hd) (by rwa [value]))
  · exact issue_stops streamCause issues (tdefBody_stream (stream.trans hd))

end Sys2Proof.Claims
end

section
/-!
SUPPORT. Instructions of free phases, and a cause that an instruction raises there without asking containment (spec/21 R364
to R367).
-/

namespace Sys2Proof.Machine

/-! ### Issue in a free phase -/

/-- An instruction of free phases that issues is in a free phase (spec/07 R152 check 3). -/
theorem State.issues_untimed {s : State} {f : Form} {x : Args} (issues : s.issues f x = true) (free : f.phase = .free) :
    s.core.timed.active = false := by
  obtain ⟨-, -, -, -, passes, -⟩ := (s.issues_iff f x).mp issues
  cases timed : s.core.timed.active
  · rfl
  · simp [Core.check, Core.phaseOk, free, timed] at passes

/-- In a free phase the clock leaves the whole core. -/
theorem State.clock_core_untimed {s : State} (h : Head) (untimed : s.core.timed.active = false) :
    (s.clock h).core = s.core := by
  simp [State.clock, untimed, State.freeCycle]

/-- In a free phase no restart point is recorded that a cause would take back (spec/07 R152). -/
theorem State.clock_unmark_untimed {s : State} (h : Head) (untimed : s.core.timed.active = false) :
    (s.clock h).unmark s.core = s.clock h := by
  rw [← State.clock_core_untimed h untimed]
  rfl

/-- An instruction of free phases that issues: its body acts on the clocked state. -/
theorem issue_untimed {f : Form} {x : Args} {s : State} (body : Args → State → Res) (issues : s.issues f x = true)
    (free : f.phase = .free) :
    issue f x s body = .next ((body (passArgs x s.core.sys.repst) (s.clock x.head)).settle s.core) := by
  rw [issue_eq f x s body issues, State.begun_free _ _ _ (State.issues_untimed issues free)]

/-- The clock leaves the values of scalar operands. -/
@[simp] theorem State.clock_value (s : State) (h : Head) (o : Operand) : (s.clock h).core.value o = s.core.value o :=
  Core.value_congr (s.clock_core_regs h) (s.clock_core_preds h) (s.clock_core_q h) o

@[simp] theorem State.clock_handler (s : State) (h : Head) : (s.clock h).core.handler = s.core.handler := by
  simp [Core.handler]

@[simp] theorem State.clock_brken (s : State) (h : Head) : (s.clock h).core.brken = s.core.brken := by
  simp [Core.brken]

/-! ### CAUSE at a trap entry -/

/-- CAUSE holds the code in bits 7..0 and DEFERRED in bit 8, below all its other fields (R364). -/
theorem causeWord_eq (e : Exc) (timed sibling done hold : Bool) :
    ∃ above, causeWord e timed sibling done hold = BitVec.ofNat 64 (e.code.toNat + e.deferred.toNat * 2 ^ 8 + above * 2 ^ 9) :=
  ⟨sibling.toNat + done.toNat * 2 + timed.toNat * 2 ^ 2 + (causeClass e.code).getD 0 * 2 ^ 3 + hold.toNat * 2 ^ 5
    + e.other.toNat * 2 ^ 23, by
    rw [causeWord]
    congr 1
    simp only [Bool.toNat, Bool.cond_eq_ite]
    split_ifs <;> omega⟩

theorem bits_causeWord_code (e : Exc) (timed sibling done hold : Bool) :
    bits (causeWord e timed sibling done hold) 7 0 = e.code.toNat := by
  obtain ⟨above, eq⟩ := causeWord_eq e timed sibling done hold
  have code := e.code.isLt
  rw [eq, bits, BitVec.toNat_ofNat]
  omega

theorem getLsbD_causeWord_deferred (e : Exc) (timed sibling done hold : Bool) :
    (causeWord e timed sibling done hold).getLsbD 8 = e.deferred := by
  obtain ⟨above, eq⟩ := causeWord_eq e timed sibling done hold
  have code := e.code.isLt
  have bit : (e.code.toNat + e.deferred.toNat * 2 ^ 8 + above * 2 ^ 9) / 2 ^ 8 % 2 = e.deferred.toNat := by
    have deferred := e.deferred.toNat_lt
    omega
  rw [eq, BitVec.getLsbD_ofNat, Nat.testBit_eq_decide_div_mod_eq, bit]
  simp

/-! ### Trap entry -/

/-- Bit 0 of a register set to 1. -/
theorem getLsbD_setBits_zero (w : Word) : (setBits w 0 0 1).getLsbD 0 = true := by
  have odd : (w.toNat - bits w 0 0 * 2 ^ 0 + 1 % 2 ^ (0 + 1 - 0) * 2 ^ 0) / 2 ^ 0 % 2 = 1 := by
    rw [bits]
    omega
  rw [setBits, BitVec.getLsbD_ofNat, Nat.testBit_eq_decide_div_mod_eq, odd]
  rfl

/-- A trap entry is to handler mode (R364). -/
@[simp] theorem Core.trapEntry_handler (c : Core) (e : Exc) (sibling done : Bool) :
    (c.trapEntry e sibling done).handler = true :=
  getLsbD_setBits_zero c.sys.mode

/-- A core that waits for nothing has no wait to leave. -/
theorem State.leaveWait_idle {s : State} (idle : s.core.wait = .none) : s.leaveWait = s := by
  rw [State.leaveWait, idle]

/-- A cause taken at its own instruction by a core that waits for nothing. -/
theorem State.enter_idle {s : State} {e : Exc} (here : e.next = false) (idle : s.core.wait = .none) (sibling done : Bool) :
    s.enter e sibling done = s.modC fun c => c.trapEntry e sibling done := by
  simp [State.enter, here, State.leaveWait_idle idle]

/-- A cause of class "—" in user mode traps without consulting containment (R366). -/
theorem State.raise_unclassed {s : State} {e : Exc} (alive : s.core.run ≠ .killed) (user : s.core.handler = false)
    (unclassed : causeClass e.code = none) (sibling done : Bool) : s.raise e sibling done = s.enter e sibling done := by
  simp [State.raise, alive, unclassed, user]

/-- In a free phase a live core in user mode that waits for nothing takes a precise cause of class "—". -/
theorem settle_trap_unclassed {s : State} {h : Head} {code : BitVec 8} (n : Word) (untimed : s.core.timed.active = false)
    (idle : s.core.wait = .none) (alive : s.core.run ≠ .killed) (user : s.core.handler = false)
    (unclassed : causeClass code = none) :
    (Res.trap (causeAt code n) (s.clock h)).settle s.core =
      (s.clock h).modC fun c => c.trapEntry (causeAt code n) false false := by
  calc (Res.trap (causeAt code n) (s.clock h)).settle s.core
      = ((s.clock h).unmark s.core).raise (causeAt code n) false false := rfl
    _ = (s.clock h).raise (causeAt code n) false false := by rw [State.clock_unmark_untimed h untimed]
    _ = (s.clock h).enter (causeAt code n) false false :=
        State.raise_unclassed (by simpa using alive) (by simpa using user) unclassed false false
    _ = _ := State.enter_idle rfl (by simpa using idle) false false

end Sys2Proof.Machine
end

section
/-!
SUPPORT. TRAP and BKPT (R293), with what their causes leave in the special registers.
-/

namespace Sys2Proof.Claims

open Sys2Proof.Machine

/-! ### What the two instructions answer -/

/-- TRAP in user mode raises its cause with EVA the immediate. -/
theorem exec_trap_user {s : State} {x : Args} (issues : s.issues { freeForm with alone := true } x = true)
    (user : s.core.handler = false) :
    exec (.trap x) s = .next ((Res.trap (causeAt trapCause (s.core.value x.a)) (s.clock x.head)).settle s.core) := by
  refine (issue_untimed _ issues rfl).trans ?_
  simp [user]

/-- TRAP in handler mode escalates the cause being handled (spec/21 R367). -/
theorem exec_trap_handler {s : State} {x : Args} (issues : s.issues { freeForm with alone := true } x = true)
    (handler : s.core.handler = true) :
    exec (.trap x) s = .next ((s.clock x.head).contain (cause (BitVec.ofNat 8 (bits s.core.sys.cause 7 0)))
      ((s.core.value x.a).toNat % 4) false false) := by
  refine (issue_untimed _ issues rfl).trans ?_
  simp [handler, Res.settle]

/-- BKPT in user mode raises its cause while MODE.BRKEN is 1. -/
theorem exec_bkpt_enabled {s : State} {x : Args} (issues : s.issues freeForm x = true) (user : s.core.handler = false)
    (enabled : s.core.brken = true) :
    exec (.bkpt x) s = .next ((Res.trap (causeAt breakCause (s.core.value x.a)) (s.clock x.head)).settle s.core) := by
  refine (issue_untimed _ issues rfl).trans ?_
  simp [user, enabled]

/-- Else BKPT only takes its slot. -/
theorem exec_bkpt_idle {s : State} {x : Args} (issues : s.issues freeForm x = true)
    (idle : s.core.handler = true ∨ s.core.brken = false) :
    exec (.bkpt x) s = .next (s.completes x.head id) := by
  have slot : (s.core.handler || !s.core.brken) = true := by simpa using idle
  refine (issue_untimed _ issues rfl).trans ?_
  simp only [State.clock_handler, State.clock_brken, slot, if_true]
  rfl

/-! ### What their causes leave -/

/-- An instruction with the head `h` takes a precise cause with EVA `n` at itself (R293, spec/21 R364, R365). -/
def TakesCause (i : Instr) (s : State) (h : Head) (code : BitVec 8) (n : Word) : Prop :=
  Yields i s fun t => t = (s.clock h).modC (fun c => c.trapEntry (causeAt code n) false false) ∧
    bits t.core.sys.cause 7 0 = code.toNat ∧ t.core.sys.cause.getLsbD 8 = false ∧ t.core.sys.epc = s.core.pc.zeroExtend 64 ∧
    t.core.sys.eva = n ∧ t.core.sys.erepst = s.core.sys.repst ∧ t.core.handler = true ∧ t.core.pc = s.core.sys.tvec.truncate 14

/-- A cause of class "—" whose EVA is kept, raised in a free phase by a live core in user mode, is so taken. -/
theorem takesCause_of_exec {i : Instr} {s : State} {h : Head} {code : BitVec 8} {n : Word}
    (answer : exec i s = .next ((Res.trap (causeAt code n) (s.clock h)).settle s.core))
    (untimed : s.core.timed.active = false) (idle : s.core.wait = .none) (alive : s.core.run ≠ .killed)
    (user : s.core.handler = false) (unclassed : causeClass code = none) (kept : (causeAt code n).address = n) :
    TakesCause i s h code n := by
  rw [settle_trap_unclassed n untimed idle alive user unclassed] at answer
  refine ⟨_, answer, rfl, bits_causeWord_code .., getLsbD_causeWord_deferred .., ?_⟩
  rw [State.modC_core, State.clock_core_untimed h untimed]
  exact ⟨rfl, kept, rfl, Core.trapEntry_handler .., rfl⟩

/-- Settles O21: both causes have class "—", so that a user core takes them as they are. -/
theorem trapAndBkpt : Obligations.TrapAndBkpt := by
  intro s x idle alive n u takes
  refine ⟨fun issues => ⟨fun user => ?_, exec_trap_handler issues⟩,
    fun issues => ⟨fun user enabled => ?_, exec_bkpt_idle issues⟩⟩
  · exact takesCause_of_exec (exec_trap_user issues user) (State.issues_untimed issues rfl) idle alive user rfl rfl
  · exact takesCause_of_exec (exec_bkpt_enabled issues user enabled) (State.issues_untimed issues rfl) idle alive user rfl rfl

end Sys2Proof.Claims
end

section
/-!
SUPPORT. ISFENCE (R298).
-/

namespace Sys2Proof.Claims

open Sys2Proof.Machine

/-- ISFENCE waits while an INSTR store of the core is not performed. -/
theorem exec_isfence_waits {s : State} {x : Args} (issues : s.issues freeForm x = true)
    (pending : ∃ t ∈ s.core.stores, t.space = 5#3) :
    exec (.isfence x) s = .next ((s.clock x.head).modC fun c => { c with wait := .interlock }) := by
  have waits : (s.core.stores.all fun t => t.space != 5#3) = false := by simpa using pending
  refine (issue_untimed _ issues rfl).trans ?_
  simp only [State.clock_core_stores, waits]
  rfl

/-- With none left, it discards the fetched words. -/
theorem exec_isfence_discards {s : State} {x : Args} (issues : s.issues freeForm x = true)
    (performed : ∀ t ∈ s.core.stores, t.space ≠ 5#3) :
    exec (.isfence x) s = .next (s.completes x.head fun c => { c with fetched := [] }) := by
  have passes : (s.core.stores.all fun t => t.space != 5#3) = true := by simpa using performed
  refine (issue_untimed _ issues rfl).trans ?_
  simp only [State.clock_core_stores, passes]
  rfl

/-- Settles O25: the one check of ISFENCE fails or passes, and retirement fetches nothing. -/
theorem isfenceDiscardsFetchedWords : Obligations.IsfenceDiscardsFetchedWords := fun _ _ issues =>
  ⟨exec_isfence_waits issues, fun performed => ⟨exec_isfence_discards issues performed, State.retire_core_fetched _⟩⟩

end Sys2Proof.Claims
end
